-- ==== Sys2Proof/Word.lean ====
section
/-! DEFINITION. The machine words of the VF612: the quantities the spec treats as bits because they wrap or
are sent on a ring. Counts, angles and durations are plain numbers (`Nat`), exact differences are `Int`. -/

namespace Sys2Proof

/-- Station time: a 32-bit free-running count of ticks of 0.1 µs (R1). -/
abbrev StationTime := BitVec 32

/-- One byte of a telegram (R105). -/
abbrev Byte := BitVec 8

/-- A telegram sequence number (R94, R106). -/
abbrev Seq := BitVec 8

/-- A firing number, compared serially (R149). -/
abbrev FiringNumber := BitVec 16

/-- An order number (R110). -/
abbrev OrderNumber := BitVec 16

end Sys2Proof
end

