-- ==== Sys2Proof/Syntax.lean ====
section
/-! DEFINITION. The commands of the VF612: one constructor of `Instr` for each row of spec/opcode_table.json,
with the operands the row's rules read. The table gives the rows no bits, so a command is not encoded. -/

namespace Sys2Proof

/-- The two timing-ring ports (R83). -/
inductive Port where
  | a
  | b
deriving DecidableEq, Repr

/-- What the NOMF strap pins give: 50 Hz, 60 Hz or neither (R170). -/
inductive NominalFrequency where
  | hz50
  | hz60
  | neither
deriving DecidableEq, Repr

/-- The strap pins as they stand while reset is asserted (R169, R170). POS, NLEV and RED are unsigned
numbers; the spec gives the pins no width (notes/assumptions/17.md, DESIGN CHOICE). -/
structure Straps where
  pos  : Nat
  nlev : Nat
  red  : Nat
  nomf : NominalFrequency
deriving DecidableEq, Repr

/-- The fields of an ORDER that a firing station reads, with its origin (R110). -/
structure Order where
  origin    : Nat
  active    : Bool
  controlId : Nat
  number    : OrderNumber
  alpha     : Nat
deriving DecidableEq, Repr

/-- The fields of a FIRE with its origin and its instant in own station time, absent when untimed (R111). -/
structure Fire where
  origin  : Nat
  fn      : FiringNumber
  alphaF  : Nat
  start   : Bool
  instant : Option StationTime
deriving DecidableEq, Repr

/-- The fields of a BYPASS with its origin (R114). -/
structure BypassOrder where
  origin : Nat
  fn     : FiringNumber
  star   : Nat
  delta  : Nat
  cause  : Nat
deriving DecidableEq, Repr

/-- The raw fields of a SETTINGS (R115); `modes` is the two-byte field of the seven selectable modes. -/
structure RawSettings where
  gammaMin   : Nat
  gammaAlarm : Nat
  gain       : Nat
  modes      : BitVec 16
deriving DecidableEq, Repr

/-- The commands. The docstring of each names the rule its row of the table gives. -/
inductive Instr where
  /-- RESET, R170: the reset input is asserted and released with the strap pins at these levels. -/
  | reset (straps : Straps)
  /-- START_EXIT, R170. -/
  | startExit
  /-- INDICATION, R17: a falling edge on an indication input. -/
  | indication (channel : Fin 80)
  /-- CHANNEL_STUCK, R18. -/
  | channelStuck (channel : Fin 80)
  /-- STUCK_RECOVERY, R18. -/
  | stuckRecovery (channel : Fin 80)
  /-- QUALIFIED_CROSSING, R44. -/
  | qualifiedCrossing
  /-- MISS, R55. -/
  | miss
  /-- HOLDOVER_LIMIT, R56. -/
  | holdoverLimit
  /-- ACQUISITION_TIMEOUT, R50. -/
  | acquisitionTimeout
  /-- CYCLE_MARK_FALLBACK, R34. -/
  | cycleMarkFallback
  /-- FIRING_INSTANT, R78. -/
  | firingInstant
  /-- MAIN_PULSE_END, R6. -/
  | mainPulseEnd
  /-- CONDUCTION_LIMIT, R13. -/
  | conductionLimit
  /-- OVERDUE_DEADLINE, R160. -/
  | overdueDeadline
  /-- TELEGRAM_ARRIVAL, R85: the last byte of a run has arrived on a port. -/
  | telegramArrival (port : Port) (run : List Byte)
  /-- OWN_TELEGRAM_RETURN, R124: an own telegram handed to the round-trip processing (R87). -/
  | ownTelegramReturn (port : Port) (sequence : Seq) (age hops : Nat) (stamp : StationTime)
  /-- RETURN_TIMER_EXPIRY, R123. -/
  | returnTimerExpiry (port : Port)
  /-- DEPARTURE, R99. -/
  | departure (port : Port)
  /-- HOLD, R142: a delivered ORDER with command 0 or 5..255. -/
  | hold (order : Order)
  /-- DEBLOCK, R174: a delivered ORDER with command 1. -/
  | deblock (order : Order)
  /-- BLOCK, R175: a delivered ORDER with command 2. -/
  | block (order : Order)
  /-- BYPASS_BLOCK, R176: a delivered ORDER with command 3. -/
  | bypassBlock (order : Order)
  /-- CLEAR, R189: a delivered ORDER with command 4. -/
  | clear (order : Order)
  /-- FIRE, R145: a delivered FIRE. -/
  | fire (fire : Fire)
  /-- HEALTH, R139: a delivered HEALTH, with its translated XT instant if it has one. -/
  | health (origin : Nat) (instant : Option StationTime)
  /-- MARGIN, R165: a delivered MARGIN carrying γ. -/
  | margin (origin gamma : Nat)
  /-- CFAIL, R165: a delivered CFAIL with its cause and history count. -/
  | cfail (origin cause count : Nat)
  /-- BYPASS, R177: a delivered BYPASS. -/
  | bypass (bypass : BypassOrder)
  /-- SETTINGS, R194: a delivered SETTINGS. -/
  | settings (origin : Nat) (raw : RawSettings)
  /-- QUERY, R192: a delivered QUERY. -/
  | query (origin target page : Nat)
  /-- REPORT, R137: a delivered REPORT. -/
  | report (origin : Nat)
  /-- PEER_LOST, R136. -/
  | peerLost (position : Nat)
  /-- SETTLE_DEADLINE, R179. -/
  | settleDeadline
  /-- ESCALATION_ENTRY_EXPIRY, R188. -/
  | escalationEntryExpiry
  /-- ISOLATION_HOLD_END, R182. -/
  | isolationHoldEnd
  /-- INDICATION_RISING_EDGE, R16. -/
  | indicationRisingEdge (channel : Fin 80)
  /-- QUALIFICATION_START, R44: a rising edge on the synchronising input. -/
  | qualificationStart
  /-- QUALIFICATION_FAILURE, R44: the synchronising input is sampled low. -/
  | qualificationFailure
deriving DecidableEq, Repr

end Sys2Proof
end

