-- ==== Sys2Proof/Config.lean ====
section
/-! DEFINITION. What the spec leaves free. The spec fixes no order among the blocks that take one event at
one tick ("in any order among themselves", R58, R79, R191). Each such order is drawn from `Config.freeOrder`,
a constant with no body: nothing can be proved of its values, so a claim holds for every order
(notes/assumptions/4.md, DESIGN CHOICE). -/

namespace Sys2Proof.Config

/-- The seed of the n-th free order a run draws. Opaque: the spec gives no order. -/
opaque freeOrder : Nat → Nat

end Sys2Proof.Config
end

