-- ==== Sys2Proof/Machine/State.lean ====
section
/-! DEFINITION. The state of one VF612: every piece of state the spec gives the seven blocks, as plain data,
with the queue of waiting commands, and the state after reset. Each field's docstring names the rule that
gives it. A field that exists only at times is an `Option`, as the rules say "absent". -/

namespace Sys2Proof.Machine

/-! ### Level Channel Array (chapter 1) -/

/-- The state of the pulse train while a train is active; IDLE is the absence of a train (R5). -/
inductive TrainPhase where
  | main
  | refresh
  | continuous
deriving DecidableEq, Repr

/-- The member field of a train with the two fields that only a normal train has (R5). -/
inductive TrainKind where
  /-- member no: a normal train with its conduction limit L and extinction reference X0 -/
  | normal (limit xref : StationTime)
  /-- member yes: a bypass train, for which L and X0 are absent -/
  | bypass
deriving DecidableEq, Repr

/-- The train record of the one pulse-train generator while a train is active (R5). -/
structure Train where
  phase  : TrainPhase
  /-- S, the start of the current main pulse -/
  start  : StationTime
  /-- m, the phase origin -/
  origin : StationTime
  kind   : TrainKind
deriving DecidableEq, Repr

/-- The four states of an indication classifier (R16). -/
inductive Classifier where
  | idle
  /-- a pulse is being measured; its leading-edge stamp is held -/
  | measuring (stamp : StationTime)
  | stuck
  /-- low after a stuck condition, since the falling edge at this station time (R18) -/
  | recovering (since : StationTime)
deriving DecidableEq, Repr

/-- One level channel: the level of its indication input pin and its classifier (R16). Its live or dark
condition is a function of the station state and NLEV (R3), its firing output of the train (R4). -/
structure Channel where
  input      : Bool
  classifier : Classifier
deriving DecidableEq, Repr

/-- The state of the LCA. -/
structure Lca where
  /-- the train record, `none` while the generator is IDLE (R5) -/
  train    : Option Train
  channels : Vector Channel 80
deriving DecidableEq, Repr

/-! ### Level Monitor (chapter 2) -/

/-- The class of an indication handed to the Level Monitor (R19). -/
inductive IndicationClass where
  | fv
  | rv
  | pf
  | malformed
deriving DecidableEq, Repr

/-- The state of a level record (R21). -/
inductive LevelState where
  | unknown
  | healthy
  | suspect
  | failed
deriving DecidableEq, Repr

/-- The last anomaly of a level record (R41). -/
inductive Anomaly where
  | none
  | miss
  | malformed
  | alternation
  | pf
deriving DecidableEq, Repr

/-- The last indication of a level record (R24). -/
inductive LastIndication where
  | none
  | fv
  | rv
deriving DecidableEq, Repr

/-- One level record (R20). -/
structure Level where
  state          : LevelState
  score          : Nat
  streak         : Nat
  fvSeen         : Bool
  rvSeen         : Bool
  pfSeen         : Bool
  malformed      : Nat
  alternation    : Nat
  pfCount        : Nat
  lastAnomaly    : Anomaly
  lastIndication : LastIndication
deriving DecidableEq, Repr

/-- A level in a tally, with the stamp of the indication that entered it (R26, R37). -/
structure TallyMember where
  level : Fin 80
  stamp : StationTime
deriving DecidableEq, Repr

/-- One tally (R25). Members stand in the order in which they entered. -/
structure Tally where
  armed   : Bool
  armedAt : StationTime
  members : List TallyMember
deriving DecidableEq, Repr

/-- The valve voltage phase (R28). -/
inductive ValvePhase where
  | forward
  | conducting
  | recovery
  | reverse
deriving DecidableEq, Repr

/-- The redundancy state (R43). -/
inductive Redundancy where
  | normal
  | last
  | exhausted
deriving DecidableEq, Repr

/-- The state of the LMON. -/
structure Lmon where
  /-- the level table (R20) -/
  levels     : Vector Level 80
  rv         : Tally
  fv         : Tally
  pf         : Tally
  phase      : ValvePhase
  /-- NF, the failed count (R21) -/
  failed     : Nat
  suspects   : Nat
  unknowns   : Nat
  /-- Nc, the live records not FAILED (R21); the quorums are functions of it (R27) -/
  counted    : Nat
  redundancy : Redundancy
  markTaken  : Bool
  quorumXt   : Bool
  quorumFv   : Bool
  cfCycle    : Bool
  /-- M, the cycle-mark fallback instant of the open reference cycle (R34) -/
  fallback   : Option StationTime
deriving DecidableEq, Repr

/-! ### Angle Reference Unit (chapter 3) -/

/-- The lock state (R47). -/
inductive LockState where
  | free
  | acquiring
  | locked
  | holdover
deriving DecidableEq, Repr

/-- The acceptance window [W0, W1] (R52). -/
structure Window where
  opens  : StationTime
  closes : StationTime
deriving DecidableEq, Repr

/-- The state of the ARU (R46). -/
structure Aru where
  /-- the level of the synchronising input pin (R44) -/
  input     : Bool
  lock      : LockState
  /-- T_est in ticks -/
  period    : Nat
  zRef      : StationTime
  zPred     : StationTime
  missCount : Nat
  goodCount : Nat
  previous  : Option StationTime
  window    : Option Window
  /-- the edge time of the qualification under way (R44) -/
  qualifier : Option StationTime
  /-- the end instant of the blanking interval (R45) -/
  blanking  : Option StationTime
  strays    : Nat
deriving DecidableEq, Repr

/-! ### Firing Computation Unit (chapter 4) -/

/-- The schedule record (R62). -/
structure Schedule where
  /-- F -/
  firing      : StationTime
  /-- F0, the unguarded instant of stage 4 -/
  unguarded   : StationTime
  /-- s, ticks(2000) of the reference event -/
  step        : Nat
  /-- c, ticks(1500) of the reference event -/
  cap         : Nat
  provisional : Bool
deriving DecidableEq, Repr

/-- The state of the FCU (R62). -/
structure Fcu where
  /-- α_req -/
  alphaReq  : Nat
  schedule  : Option Schedule
  /-- F_prev -/
  previous  : Option StationTime
  /-- last α_f -/
  lastAlpha : Option Nat
deriving DecidableEq, Repr

/-! ### Ring Interface (chapters 5 to 7) -/

/-- The telegram kinds a VF612 originates, of the nine kinds of R105. -/
inductive OwnKind where
  | fire
  | health
  | margin
  | cfail
  | bypass
  | report
deriving DecidableEq, Repr

/-- A telegram as its header and payload read (R105), without the RING flag, the spare flags, the payload
length and the check code, which are written afresh at every departure (R102). -/
structure Telegram where
  kind     : Nat
  origin   : Nat
  sequence : Seq
  timed    : Bool
  hops     : Nat
  age      : Nat
  payload  : List Byte
deriving DecidableEq, Repr

/-- An entry of the forwarding buffer: the copy and its arrival stamp (R89). -/
structure ForwardEntry where
  telegram : Telegram
  stamp    : StationTime
deriving DecidableEq, Repr

/-- An entry of a transmit queue; `event` is the event instant of a timed telegram (R94). -/
structure QueueEntry where
  kind     : OwnKind
  sequence : Seq
  payload  : List Byte
  event    : Option StationTime
deriving DecidableEq, Repr

/-- An entry of the outstanding list (R121). -/
structure Outstanding where
  sequence   : Seq
  departure  : StationTime
  initialAge : Nat
  expiry     : StationTime
deriving DecidableEq, Repr

/-- The health of a ring (R128). -/
inductive RingHealth where
  | down
  | up
deriving DecidableEq, Repr

/-- The seven counts of a port (R103). -/
structure PortCounts where
  crc           : Nat
  malformed     : Nat
  orphan        : Nat
  overflow      : Nat
  stale         : Nat
  undeliverable : Nat
  txqDrop       : Nat
deriving DecidableEq, Repr

/-- One ring port. -/
structure RingPort where
  /-- the forwarding buffer, the earliest arrival first (R89) -/
  forwarding  : List ForwardEntry
  /-- the transmit queue in the order of R95 -/
  queue       : List QueueEntry
  /-- the bytes last put on the transmit fibre (R102); none before the first departure -/
  sent        : List Byte
  /-- the station time from which the link is free, absent once it has been reached (R84) -/
  busyUntil   : Option StationTime
  counts      : PortCounts
  /-- the outstanding list, the earliest departure first (R121) -/
  outstanding : List Outstanding
  /-- d_est (R127) -/
  hopDelay    : Nat
  health      : RingHealth
  returnRun   : Nat
  missRun     : Nat
deriving DecidableEq, Repr

/-- The state of the RIF. The duplicate windows stand in the peer table (R90). -/
structure Rif where
  portA       : RingPort
  portB       : RingPort
  ownSequence : Seq
deriving DecidableEq, Repr

/-! ### Coordination Unit (chapters 8 and 9) -/

/-- The presence of a peer (R134). -/
inductive Presence where
  | silent
  | present
  | lost
deriving DecidableEq, Repr

/-- A duplicate window that is not empty: H and the seen set, H among it (R90). -/
structure SeenWindow where
  highest : Seq
  seen    : List Seq
deriving DecidableEq, Repr

/-- One record of the peer table (R134). -/
structure Peer where
  presence : Presence
  deadline : Option StationTime
  window   : Option SeenWindow
  /-- the FN of the fire record, absent while not valid -/
  fire     : Option FiringNumber
  /-- the XT instant of the health summary, absent while untimed -/
  xt       : Option StationTime
deriving DecidableEq, Repr

/-- The predecessor record while it holds a FIRE (R144). -/
structure Predecessor where
  fn       : FiringNumber
  instant  : Option StationTime
  replaced : Bool
deriving DecidableEq, Repr

/-- The overdue watch: its deadline and the own firing instant that set it (R159). -/
structure OverdueWatch where
  deadline : StationTime
  firing   : StationTime
deriving DecidableEq, Repr

/-- The kind of an advance entry (R164). -/
inductive AdvanceKind where
  | margin
  | cfail
deriving DecidableEq, Repr

/-- One entry of the advance list (R164). -/
structure Advance where
  source    : Nat
  kind      : AdvanceKind
  magnitude : Nat
  hold      : Nat
deriving DecidableEq, Repr

/-- The key of an executed command: source and order number (R142). -/
structure OrderKey where
  source : Nat
  number : OrderNumber
deriving DecidableEq, Repr

/-- The state of the CRU. -/
structure Cru where
  /-- the peer table; position q stands at index q - 1 (R134) -/
  peers          : Vector Peer 14
  foreignOrders  : Nat
  lateFires      : Nat
  badPages       : Nat
  activeSource   : Option Nat
  lastExecuted   : Option OrderKey
  staleness      : Nat
  stale          : Bool
  lostSignalled  : Bool
  predecessor    : Option Predecessor
  missCount      : Nat
  inversionMark  : Bool
  /-- own last FN (R149) -/
  ownFn          : FiringNumber
  ownFnValid     : Bool
  firedSince     : Bool
  bridgeHeard    : Bool
  gammaStart     : Option StationTime
  gammaLast      : Nat
  muLast         : Nat
  watch          : Option OverdueWatch
  /-- the CF history, the oldest first (R154) -/
  cfHistory      : List FiringNumber
  advances       : List Advance
deriving DecidableEq, Repr

/-! ### Station Controller (chapters 10 and 11) -/

/-- The station state (R169). -/
inductive Station where
  | start
  | inert
  | survey
  | blocked
  | firing
  | bypass
  | tripped
deriving DecidableEq, Repr

/-- The block record while it holds an adopted bypass (R178). -/
structure BlockRecord where
  star     : Nat
  delta    : Nat
  fn       : FiringNumber
  origin   : Nat
  adopted  : StationTime
  deadline : StationTime
  settled  : Bool
deriving DecidableEq, Repr

/-- The response mode of a fault (R186). -/
inductive FaultMode where
  | trip
  | block
  | report
  | ignore
deriving DecidableEq, Repr

/-- The twelve faults in the order of their codes (R105, R185). -/
inductive FaultCode where
  | redundancyLow
  | redundancyExhausted
  | referenceLost
  | commutationFailureRepeated
  | ringDegraded
  | ringLost
  | orderLost
  | sequenceInversion
  | sequenceSlip
  | peerSilent
  | bypassConflict
  | settingsRejected
deriving DecidableEq, Repr

/-- One record of the fault table (R185). -/
structure FaultRecord where
  active : Bool
  count  : Nat
  mode   : FaultMode
deriving DecidableEq, Repr

/-- An entry of the escalation list: the reference stamp and the station time of its removal (R188). -/
structure EscalationEntry where
  stamp  : StationTime
  expiry : StationTime
deriving DecidableEq, Repr

/-- The state of the STC. -/
structure Stc where
  station    : Station
  tripLine   : Bool
  readyLine  : Bool
  record     : Option BlockRecord
  /-- whether the isolation hold is running, and its count of reference events (R182) -/
  holdRunning : Bool
  holdCount  : Nat
  gammaMin   : Nat
  gammaAlarm : Nat
  gain       : Nat
  frozen     : Bool
  fired      : Bool
  /-- the fault table, fault code c at index c (R185) -/
  faults     : Vector FaultRecord 12
  /-- the escalation list, the oldest first (R188) -/
  escalation : List EscalationEntry
  /-- the station time of the last reference event taken, 0 if none since reset (R188) -/
  lastReference : StationTime
deriving DecidableEq, Repr

/-! ### The machine -/

/-- The whole state of one station. -/
structure State where
  /-- station time (R1) -/
  now       : StationTime
  /-- the latched straps (R169) -/
  straps    : Straps
  lca       : Lca
  lmon      : Lmon
  aru       : Aru
  fcu       : Fcu
  rif       : Rif
  cru       : Cru
  stc       : Stc
  /-- MODEL: the commands waiting, first in first out -/
  pending   : List Instr
  /-- MODEL: what the RIF has handed on and no command has taken yet (notes/assumptions/6.md) -/
  handed    : List Instr
  /-- MODEL: how many free orders have been drawn (notes/assumptions/4.md) -/
  freeCount : Nat
deriving DecidableEq, Repr

/-- Why a step stops with a fault. -/
inductive Fault where
  /-- Raised by a delivery or a PEER_LOST whose operand names a position outside 1..14. The group has no such
  position (R2) and the format step lets no such origin through (R86), so the hardware never presents it. SAFE:
  nothing is claimed of what would follow (notes/assumptions/20.md). -/
  | noSuchPosition
deriving DecidableEq, Repr

/-- Why a command has no meaning. -/
inductive Refusal where
  /-- Raised by the dispatch for a command that has no meaning yet. SAFE: no next state is claimed. -/
  | notModelled (mnemonic : String)
deriving DecidableEq, Repr

/-! ### Reset values -/

/-- A level record after reset (R20). -/
def Level.reset : Level :=
  { state := .unknown, score := 0, streak := 0, fvSeen := false, rvSeen := false, pfSeen := false
    malformed := 0, alternation := 0, pfCount := 0, lastAnomaly := .none, lastIndication := .none }

/-- A tally after reset (R25). -/
def Tally.reset : Tally := { armed := false, armedAt := 0, members := [] }

/-- The LCA after reset with these levels on its indication inputs (R3, R5, R16). -/
def Lca.resetWith (inputs : Vector Bool 80) : Lca :=
  { train := none, channels := inputs.map fun b => { input := b, classifier := .idle } }

/-- The LMON after reset (R20, R21, R25, R28, R34, R43). -/
def Lmon.reset : Lmon :=
  { levels := Vector.replicate 80 Level.reset
    rv := Tally.reset, fv := Tally.reset, pf := Tally.reset
    phase := .forward, failed := 0, suspects := 0, unknowns := 0, counted := 0
    redundancy := .normal, markTaken := true, quorumXt := false, quorumFv := false
    cfCycle := false, fallback := none }

/-- The nominal period of the NOMF strap (R46). -/
def nominalPeriod : NominalFrequency → Nat
  | .hz50 => 200000
  | .hz60 => 166667
  | .neither => 200000

/-- The ARU after reset with this level on the synchronising input (R46). -/
def Aru.resetWith (nomf : NominalFrequency) (input : Bool) : Aru :=
  { input := input, lock := .free, period := nominalPeriod nomf, zRef := 0, zPred := 0, missCount := 0
    goodCount := 0, previous := none, window := none, qualifier := none, blanking := none, strays := 0 }

/-- The FCU after reset (R62). -/
def Fcu.reset : Fcu := { alphaReq := 9000, schedule := none, previous := none, lastAlpha := none }

/-- A ring port after reset: empty buffers, the link free from station time 8, d_est 50, health DOWN
(R84, R103, R104, R121, R127, R128). -/
def RingPort.reset : RingPort :=
  { forwarding := [], queue := [], sent := [], busyUntil := some 8
    counts := { crc := 0, malformed := 0, orphan := 0, overflow := 0, stale := 0, undeliverable := 0, txqDrop := 0 }
    outstanding := [], hopDelay := 50, health := .down, returnRun := 0, missRun := 0 }

/-- The RIF after reset (R104). -/
def Rif.reset : Rif := { portA := RingPort.reset, portB := RingPort.reset, ownSequence := 0 }

/-- A peer record after reset (R134). -/
def Peer.reset : Peer := { presence := .silent, deadline := none, window := none, fire := none, xt := none }

/-- The CRU after reset (R134, R137, R140, R144, R145, R149, R150, R154, R164, R192). -/
def Cru.reset : Cru :=
  { peers := Vector.replicate 14 Peer.reset
    foreignOrders := 0, lateFires := 0, badPages := 0
    activeSource := none, lastExecuted := none, staleness := 0, stale := false, lostSignalled := false
    predecessor := none, missCount := 0, inversionMark := false
    ownFn := 0, ownFnValid := false, firedSince := false, bridgeHeard := false
    gammaStart := none, gammaLast := 0, muLast := 2000, watch := none, cfHistory := [], advances := [] }

/-- The default mode of each fault (R185). -/
def FaultCode.defaultMode : FaultCode → FaultMode
  | .redundancyLow => .report
  | .redundancyExhausted => .trip
  | .referenceLost => .block
  | .commutationFailureRepeated => .trip
  | .ringDegraded => .report
  | .ringLost => .trip
  | .orderLost => .report
  | .sequenceInversion => .report
  | .sequenceSlip => .report
  | .peerSilent => .report
  | .bypassConflict => .report
  | .settingsRejected => .report

/-- The faults in the order of their codes (R105). -/
def FaultCode.all : Vector FaultCode 12 :=
  #v[.redundancyLow, .redundancyExhausted, .referenceLost, .commutationFailureRepeated, .ringDegraded,
    .ringLost, .orderLost, .sequenceInversion, .sequenceSlip, .peerSilent, .bypassConflict, .settingsRejected]

/-- The STC after reset (R169, R178, R185, R188, R193). -/
def Stc.reset : Stc :=
  { station := .start, tripLine := false, readyLine := false, record := none
    holdRunning := false, holdCount := 0
    gammaMin := 1700, gammaAlarm := 2200, gain := 2, frozen := false, fired := false
    faults := FaultCode.all.map fun c => { active := false, count := 0, mode := c.defaultMode }
    escalation := [], lastReference := 0 }

/-- The strap pins of `State.reset`. DESIGN CHOICE: the spec leaves the pins to the group's wiring
(notes/assumptions/7.md, unsafe). -/
def initialStraps : Straps := { pos := 1, nlev := 80, red := 8, nomf := .hz50 }

/-- The machine right after reset: every field at the value its rule states. The indication inputs and the
synchronising input are low, DESIGN CHOICE (notes/assumptions/8.md, unsafe). -/
def State.reset : State :=
  { now := 0
    straps := initialStraps
    lca := Lca.resetWith (Vector.replicate 80 false)
    lmon := Lmon.reset
    aru := Aru.resetWith .hz50 false
    fcu := Fcu.reset
    rif := Rif.reset
    cru := Cru.reset
    stc := Stc.reset
    pending := []
    handed := []
    freeCount := 0 }

end Sys2Proof.Machine
end

