-- ==== Sys2Proof/Machine/Operands.lean ====
section
/-! DEFINITION. The forms in which operands are read: station-time differences (R1), the angle and time
conversions (R59, R60), positions and legs (R2), serial comparison (R149), the clamps and saturating counts
of the conventions of chapter 0, and the class of a pulse width (R17). -/

namespace Sys2Proof.Machine

/-! ### Station time (R1) -/

/-- The difference `t - u` of two station times, modulo 2^32 and read as signed (R1). -/
def sdiff (t u : StationTime) : Int := (t - u).toInt

/-- The station time `n` ticks after `t`. -/
def after (t : StationTime) (n : Nat) : StationTime := t + BitVec.ofNat 32 n

/-- The station time `n` ticks before `t`. -/
def before (t : StationTime) (n : Nat) : StationTime := t - BitVec.ofNat 32 n

/-- The station time `d` ticks from `t`, for a signed `d`. -/
def shifted (t : StationTime) (d : Int) : StationTime := t + BitVec.ofInt 32 d

/-- Whether `t` is at or after `u`: the signed difference is 0 or more (R1, R26). -/
def atOrAfter (t u : StationTime) : Bool := 0 ≤ sdiff t u

/-- Whether `now` has reached the instant `d` (R13, R50, R78, R123, R136, R160, R179, R188). DEDUCED: reached
is at or after (notes/assumptions/3.md). -/
def reached (now d : StationTime) : Bool := atOrAfter now d

/-- The later of two station times (R68). -/
def later (t u : StationTime) : StationTime := if atOrAfter t u then t else u

/-- The earlier of two station times (R68). -/
def earlier (t u : StationTime) : StationTime := if atOrAfter t u then u else t

/-! ### Clamps and saturating counts (conventions of chapter 0) -/

/-- Replace a value below `lo` by `lo` and one above `hi` by `hi`. -/
def clamp (lo hi n : Nat) : Nat := max lo (min hi n)

/-- The clamp of an exact result into `[lo, hi]`. -/
def clampInt (lo hi : Nat) (n : Int) : Nat := (max (lo : Int) (min (hi : Int) n)).toNat

/-- A count that saturates at `bound`, raised by 1. -/
def satSucc (bound n : Nat) : Nat := min bound (n + 1)

/-! ### Angle and time (R57, R59, R60) -/

/-- T_MIN (R57). -/
def periodMin : Nat := 153800

/-- T_MAX (R57). -/
def periodMax : Nat := 222300

/-- ticks(x) at the period estimate `period` (R59). -/
def ticks (period x : Nat) : Nat := x * period / 36000

/-- angle(t) at the period estimate `period` (R60). -/
def angle (period t : Nat) : Nat := t * 36000 / period

/-! ### Positions and legs (R2) -/

/-- The position `k` places before `p` in the firing order, within 1..12. -/
def positionBefore (p k : Nat) : Nat := (p + 11 - k) % 12 + 1

/-- The position `k` places after `p` in the firing order, within 1..12. -/
def positionAfter (p k : Nat) : Nat := (p + k - 1) % 12 + 1

/-- Whether `q` is a firing position. -/
def isFiringPosition (q : Nat) : Bool := 1 ≤ q && q ≤ 12

/-- Whether `q` is a control station. -/
def isControlPosition (q : Nat) : Bool := q = 13 || q = 14

/-- The leg index of a firing position (R2). -/
def legIndex (p : Nat) : Nat :=
  if p % 2 = 1 then ((p - 1) % 6) / 2 + 1 else ((p - 2) % 6) / 2 + 1

/-- Whether a bypass with these legs names the leg of position `p` in its own bridge (R177). -/
def namesLeg (p star delta : Nat) : Bool :=
  if p % 2 = 1 then star = legIndex p else delta = legIndex p

/-- Whether firing number `a` is serially later than `b` (R149). -/
def seriallyLater (a b : FiringNumber) : Bool := 1 ≤ (a - b).toNat && (a - b).toNat ≤ 32767

/-! ### Straps (R170) -/

/-- Whether the latched straps are valid (R170). -/
def validStraps (st : Straps) : Bool :=
  isFiringPosition st.pos && (8 ≤ st.nlev && st.nlev ≤ 80) && (st.red ≤ 8 && 4 * st.red < st.nlev) &&
    st.nomf ≠ .neither

/-! ### Indication pulses (R17) -/

/-- The class of a pulse of this width, or none for one that is not handed over (R17). A width of 0 was
sampled on no tick and one above 1000 belongs to a stuck condition (R18): DEDUCED, notes/assumptions/16.md. -/
def pulseClass (width : Nat) : Option IndicationClass :=
  if width < 3 then none
  else if width ≤ 5 then some .malformed
  else if width ≤ 14 then some .fv
  else if width ≤ 23 then some .malformed
  else if width ≤ 36 then some .rv
  else if width ≤ 49 then some .malformed
  else if width ≤ 70 then some .pf
  else if width ≤ 1000 then some .malformed
  else none

/-! ### Quorums (R27) -/

/-- Q, the quorum of the RV and FV tallies (R27). -/
def quorum (counted : Nat) : Nat := counted / 2 + 1

/-- The quorum of the PF tally (R27). -/
def pfQuorum (counted : Nat) : Nat := counted / 4 + 1

/-! ### Bytes (R105) -/

/-- A two-byte field, most significant byte first (R105). -/
def twoBytes (n : Nat) : List Byte := [BitVec.ofNat 8 (n / 256), BitVec.ofNat 8 n]

/-- The number two bytes hold, the most significant first (R105). -/
def fromTwo (hi lo : Byte) : Nat := hi.toNat * 256 + lo.toNat

/-- A flag as a bit of weight `w`. -/
def bit (w : Nat) (b : Bool) : Nat := if b then w else 0

/-! ### Codes (R105) -/

/-- The station state code (R105). -/
def Station.code : Station → Nat
  | .start => 0
  | .inert => 1
  | .survey => 2
  | .blocked => 3
  | .firing => 4
  | .bypass => 5
  | .tripped => 6

/-- The valve voltage phase code (R105). -/
def ValvePhase.code : ValvePhase → Nat
  | .forward => 0
  | .conducting => 1
  | .recovery => 2
  | .reverse => 3

/-- The lock state code (R105). -/
def LockState.code : LockState → Nat
  | .free => 0
  | .acquiring => 1
  | .locked => 2
  | .holdover => 3

/-- The redundancy state code (R105). -/
def Redundancy.code : Redundancy → Nat
  | .normal => 0
  | .last => 1
  | .exhausted => 2

/-- The level state code (R105). -/
def LevelState.code : LevelState → Nat
  | .unknown => 0
  | .healthy => 1
  | .suspect => 2
  | .failed => 3

/-- The last anomaly code (R105). -/
def Anomaly.code : Anomaly → Nat
  | .none => 0
  | .miss => 1
  | .malformed => 2
  | .alternation => 3
  | .pf => 4

/-- The fault mode code (R105). -/
def FaultMode.code : FaultMode → Nat
  | .trip => 0
  | .block => 1
  | .report => 2
  | .ignore => 3

/-- The fault code: the place of a fault in the table and in the bitmap (R105). -/
def FaultCode.code : FaultCode → Fin 12
  | .redundancyLow => 0
  | .redundancyExhausted => 1
  | .referenceLost => 2
  | .commutationFailureRepeated => 3
  | .ringDegraded => 4
  | .ringLost => 5
  | .orderLost => 6
  | .sequenceInversion => 7
  | .sequenceSlip => 8
  | .peerSilent => 9
  | .bypassConflict => 10
  | .settingsRejected => 11

/-- The kind code of a telegram a VF612 originates (R105). -/
def OwnKind.code : OwnKind → Nat
  | .fire => 2
  | .health => 3
  | .margin => 4
  | .cfail => 5
  | .bypass => 6
  | .report => 9

/-- The transmit priority of a kind, 1 the highest (R95). -/
def OwnKind.priority : OwnKind → Nat
  | .bypass => 1
  | .cfail => 2
  | .fire => 3
  | .margin => 4
  | .health => 6
  | .report => 7

end Sys2Proof.Machine
end

