-- ==== Sys2Proof/Machine/Telegram.lean ====
section
/-! DEFINITION. Telegrams on the rings (chapter 6): the check code, the header as read and as written, the
payloads a VF612 originates, and the command that a delivered payload stands for. -/

namespace Sys2Proof.Machine

/-! ### Check code (R107) -/

/-- One bit through the check register (R107). -/
def crcBit (reg : BitVec 16) (bit : Bool) : BitVec 16 :=
  if bit != reg.msb then (reg <<< 1) ^^^ 0x8005#16 else reg <<< 1

/-- The bits of a byte, most significant first (R105). -/
def byteBits (b : Byte) : List Bool := [7, 6, 5, 4, 3, 2, 1, 0].map fun i => b.getLsbD i

/-- One byte through the check register, most significant bit first (R107). -/
def crcByte (reg : BitVec 16) (b : Byte) : BitVec 16 := (byteBits b).foldl crcBit reg

/-- The check code over these bytes (R107). -/
def checkCode (bytes : List Byte) : BitVec 16 := bytes.foldl crcByte 0xFFFF#16

/-- The check code as the last two bytes of a telegram (R107). -/
def checkBytes (bytes : List Byte) : List Byte := twoBytes (checkCode bytes).toNat

/-- Whether a run passes the check code step: 8 to 25 bytes, and the code over all but the last two equals
those two (R85). -/
def checkPasses (run : List Byte) : Bool :=
  8 ≤ run.length && run.length ≤ 25 &&
    checkBytes (run.take (run.length - 2)) = run.drop (run.length - 2)

/-! ### Header (R105, R106) -/

/-- A run that has passed the check code step, as its header fields and payload read (R105). -/
structure ReadRun where
  telegram : Telegram
  ring     : Bool
  length   : Nat
deriving DecidableEq, Repr

/-- Read the header and payload of a run (R105). The spare flags are not read (R106). A run too short for a
header is not read. -/
def readRun : List Byte → Option ReadRun
  | b0 :: b1 :: b2 :: b3 :: b4 :: b5 :: rest =>
    some
      { telegram :=
          { kind := b0.toNat / 16
            origin := b0.toNat % 16
            sequence := b1
            timed := b2.getLsbD 7
            hops := b2.toNat % 16
            age := fromTwo b3 b4
            payload := rest.take (rest.length - 2) }
        ring := b2.getLsbD 6
        length := b5.toNat }
  | _ => none

/-- The RING flag that names a port: clear on A, set on B (R86, R102). -/
def ringFlag : Port → Bool
  | .a => false
  | .b => true

/-- Whether a run of `n` bytes passes the format step on this port (R86). -/
def formatPasses (port : Port) (n : Nat) (r : ReadRun) : Bool :=
  r.telegram.origin ≠ 0 && r.telegram.origin ≠ 15 && r.length ≤ 17 && r.length + 8 = n &&
    r.ring = ringFlag port

/-- The header and payload bytes of a telegram as they leave on a port (R102, R105). -/
def headerAndPayload (port : Port) (t : Telegram) : List Byte :=
  [ BitVec.ofNat 8 (t.kind * 16 + t.origin), t.sequence,
    BitVec.ofNat 8 (bit 128 t.timed + bit 64 (ringFlag port) + t.hops % 16) ] ++
    twoBytes t.age ++ [BitVec.ofNat 8 t.payload.length] ++ t.payload

/-- The bytes of a telegram as they leave on a port, the check code computed afresh (R102, R107). -/
def encodeTelegram (port : Port) (t : Telegram) : List Byte :=
  headerAndPayload port t ++ checkBytes (headerAndPayload port t)

/-! ### Payloads originated (R105) -/

/-- The payload of a FIRE (R111). -/
def firePayload (fn : FiringNumber) (alphaF : Nat) (start : Bool) : List Byte :=
  twoBytes fn.toNat ++ twoBytes alphaF ++ [BitVec.ofNat 8 (bit 1 start)]

/-- The payload of a MARGIN (R113). -/
def marginPayload (gamma : Nat) : List Byte := twoBytes gamma

/-- The payload of a CFAIL (R113). -/
def cfailPayload (cause count : Nat) : List Byte := [BitVec.ofNat 8 cause, BitVec.ofNat 8 count]

/-- The payload of a BYPASS (R114). -/
def bypassPayload (fn : FiringNumber) (star delta cause : Nat) : List Byte :=
  twoBytes fn.toNat ++ [BitVec.ofNat 8 star, BitVec.ofNat 8 delta, BitVec.ofNat 8 cause]

/-! ### Payloads delivered (R92, R105) -/

/-- The command of an ORDER's command byte: 0..4 by the code table, 5..255 as HOLD (R110). -/
def orderCommand (command : Nat) (o : Order) : Instr :=
  if command = 1 then .deblock o
  else if command = 2 then .block o
  else if command = 3 then .bypassBlock o
  else if command = 4 then .clear o
  else .hold o

/-- The command that stands for a delivered telegram with its translated instant, or none when the kind is
unknown or the payload length is not that of the kind (R92, R105). -/
def deliveredCommand (t : Telegram) (instant : Option StationTime) : Option Instr :=
  match t.kind, t.payload with
  | 1, [b0, b1, b2, b3, b4, b5] =>
    some (orderCommand b1.toNat
      { origin := t.origin, active := b0.getLsbD 7, controlId := b0.toNat % 16
        number := BitVec.ofNat 16 (fromTwo b2 b3), alpha := fromTwo b4 b5 })
  | 2, [b0, b1, b2, b3, b4] =>
    some (.fire
      { origin := t.origin, fn := BitVec.ofNat 16 (fromTwo b0 b1), alphaF := fromTwo b2 b3
        start := b4.getLsbD 0, instant := instant })
  | 3, [_, _, _, _, _, _, _, _, _, _, _, _] => some (.health t.origin instant)
  | 4, [b0, b1] => some (.margin t.origin (fromTwo b0 b1))
  | 5, [b0, b1] => some (.cfail t.origin b0.toNat b1.toNat)
  | 6, [b0, b1, b2, b3, b4] =>
    some (.bypass
      { origin := t.origin, fn := BitVec.ofNat 16 (fromTwo b0 b1), star := b2.toNat, delta := b3.toNat
        cause := b4.toNat })
  | 7, [b0, b1, b2, b3, b4, b5, b6] =>
    some (.settings t.origin
      { gammaMin := fromTwo b0 b1, gammaAlarm := fromTwo b2 b3, gain := b4.toNat
        modes := BitVec.ofNat 16 (fromTwo b5 b6) })
  | 8, [b0, b1] => some (.query t.origin b0.toNat b1.toNat)
  | 9, [_, _, _, _, _, _, _, _, _, _, _, _, _, _, _, _, _] => some (.report t.origin)
  | _, _ => none

/-- The event instant of an accepted timed copy in own station time, or none when it is untimed or its age
is lost (R131, R132): arrival stamp - age - (hops + 1) × d_est. -/
def translatedInstant (t : Telegram) (stamp : StationTime) (hopDelay : Nat) : Option StationTime :=
  if t.timed && t.age ≠ 65535 then some (before (before stamp t.age) ((t.hops + 1) * hopDelay)) else none

end Sys2Proof.Machine
end

