-- ==== Sys2Proof/Machine/Ops.lean ====
section
/-! DEFINITION. The named operations over the state: a block's state changed by a function of that block, the
peer table, the ring ports, the conditions the blocks read of one another, free orders, and the entry into a
station state with its status lines. -/

namespace Sys2Proof.Machine

/-! ### A block changed, the rest of the machine unchanged -/

/-- Change the LCA. -/
def State.onLca (s : State) (f : Lca → Lca) : State := { s with lca := f s.lca }

/-- Change the LMON. -/
def State.onLmon (s : State) (f : Lmon → Lmon) : State := { s with lmon := f s.lmon }

/-- Change the ARU. -/
def State.onAru (s : State) (f : Aru → Aru) : State := { s with aru := f s.aru }

/-- Change the FCU. -/
def State.onFcu (s : State) (f : Fcu → Fcu) : State := { s with fcu := f s.fcu }

/-- Change the RIF. -/
def State.onRif (s : State) (f : Rif → Rif) : State := { s with rif := f s.rif }

/-- Change the CRU. -/
def State.onCru (s : State) (f : Cru → Cru) : State := { s with cru := f s.cru }

/-- Change the STC. -/
def State.onStc (s : State) (f : Stc → Stc) : State := { s with stc := f s.stc }

/-- A port of the RIF. -/
def Rif.port (r : Rif) : Port → RingPort
  | .a => r.portA
  | .b => r.portB

/-- Change one port of the RIF. -/
def Rif.onPort (r : Rif) (p : Port) (f : RingPort → RingPort) : Rif :=
  match p with
  | .a => { r with portA := f r.portA }
  | .b => { r with portB := f r.portB }

/-- The other port. -/
def otherPort : Port → Port
  | .a => .b
  | .b => .a

/-- A port of the machine. -/
def State.port (s : State) (p : Port) : RingPort := s.rif.port p

/-- Change one port of the machine. -/
def State.onPort (s : State) (p : Port) (f : RingPort → RingPort) : State :=
  s.onRif fun r => r.onPort p f

/-! ### Conditions the blocks read of one another -/

/-- Whether a channel is live: the station has left START for SURVEY and the channel is below NLEV (R3). -/
def State.live (s : State) (i : Nat) : Bool :=
  s.stc.station ≠ .start && s.stc.station ≠ .inert && i < s.straps.nlev

/-- Whether the ARU samples the synchronising input (R46). -/
def State.watching (s : State) : Bool := s.stc.station ≠ .start && s.stc.station ≠ .inert

/-- Whether a position is the station's own; with POS outside 1..12 none is (R83). -/
def State.isOwn (s : State) (q : Nat) : Bool := isFiringPosition s.straps.pos && q = s.straps.pos

/-- Whether the isolation hold gives firings: TRIPPED, running, and its count below 11 (R182). At count 11
the hold has ended, and ISOLATION_HOLD_END takes its effects (notes/assumptions/13.md). -/
def State.inHold (s : State) : Bool :=
  s.stc.station = .tripped && s.stc.holdRunning && s.stc.holdCount < 11

/-- Whether the station is FIRING, or TRIPPED with the isolation hold running (R63, R144, R155, R157, R158). -/
def State.firingOrHold (s : State) : Bool := s.stc.station = .firing || s.inHold

/-- Whether the station is a member of the adopted bypass (R177). -/
def State.isMember (s : State) : Bool :=
  match s.stc.record with
  | some r => namesLeg s.straps.pos r.star r.delta
  | none => false

/-- A(applied advance): the largest magnitude in the advance list, 0 when it is empty (R164). -/
def appliedAdvance (l : List Advance) : Nat := l.foldl (fun m e => max m e.magnitude) 0

/-- The light the generator's pattern calls for at station time `now` (R6, R7). The offset from m is the
signed difference of R1: DEDUCED, notes/assumptions/15.md. -/
def trainLit (train : Option Train) (now : StationTime) : Bool :=
  match train with
  | none => false
  | some t =>
    match t.phase with
    | .main => true
    | .refresh => (sdiff now t.origin) % 500 < 20
    | .continuous => (sdiff now t.origin) % 500 < 20

/-- The firing output of a channel: the generator's pattern on a live channel, dark otherwise (R3, R4). -/
def State.firingOutput (s : State) (i : Nat) : Bool := s.live i && trainLit s.lca.train s.now

/-! ### The peer table (R134) -/

/-- The index of a position in the peer table. -/
def peerIndex (q : Nat) : Fin 14 := Fin.ofNat 14 (q - 1)

/-- The peer record of position `q`, for `q` in 1..14. -/
def Cru.peer (c : Cru) (q : Nat) : Peer := c.peers.get (peerIndex q)

/-- Change the peer record of position `q`, for `q` in 1..14. -/
def Cru.onPeer (c : Cru) (q : Nat) (f : Peer → Peer) : Cru :=
  { c with peers := c.peers.set (peerIndex q).val (f (c.peer q)) (peerIndex q).isLt }

/-- The FN that stands for a firing position where the fire records are read: the own last FN for the own
position, the fire record for any other, absent while not valid (R149, R176). -/
def State.fireRecord (s : State) (q : Nat) : Option FiringNumber :=
  if s.isOwn q then (if s.cru.ownFnValid then some s.cru.ownFn else none) else (s.cru.peer q).fire

/-! ### Free orders (notes/assumptions/4.md) -/

/-- A list in the order a seed chooses. Every order of the list is some seed's. -/
def shuffle {α : Type} : Nat → List α → List α
  | _, [] => []
  | _, [x] => [x]
  | seed, x :: y :: l =>
    (shuffle (seed / (l.length + 2)) (y :: l)).insertIdx (seed % (l.length + 2)) x

/-- Two lists merged, each keeping its own order, as a seed chooses. Every such merge is some seed's. -/
def interleave {α : Type} : Nat → List α → List α → List α
  | _, xs, [] => xs
  | _, [], ys => ys
  | seed, x :: xs, y :: ys =>
    let k := seed % (xs.length + 2)
    (x :: xs).take k ++ y :: interleave (seed / (xs.length + 2)) ((x :: xs).drop k) ys

/-- Apply changes one after the other. -/
def inTurn (fs : List (State → State)) (s : State) : State := fs.foldl (fun t f => f t) s

/-- Count one free order drawn. -/
def State.drawn (s : State) : State := { s with freeCount := s.freeCount + 1 }

/-- Apply the changes that several blocks make at one tick in an order the spec leaves free. -/
def inAnyOrder (fs : List (State → State)) (s : State) : State :=
  inTurn (shuffle (Config.freeOrder s.freeCount) fs) s.drawn

/-- Apply two streams of changes, each in its own order, merged as the spec leaves free. -/
def inTwoStreams (fs gs : List (State → State)) (s : State) : State :=
  inTurn (interleave (Config.freeOrder s.freeCount) fs gs) s.drawn

/-! ### The station state and the status lines (R169, R183) -/

/-- Whether the TRIP line is high in a station state (R183). -/
def tripHigh (st : Station) : Bool := st = .tripped

/-- Whether the READY line is high in a station state (R183). -/
def readyHigh (st : Station) : Bool := st = .blocked || st = .firing || st = .bypass

/-- The station state changed, and the status lines with it (R183). -/
def Stc.enter (c : Stc) (st : Station) : Stc :=
  { c with station := st, tripLine := tripHigh st, readyLine := readyHigh st }

/-- Enter a station state. -/
def State.enter (s : State) (st : Station) : State := s.onStc fun c => c.enter st

/-! ### Lists -/

/-- A list without its first element that satisfies `p`. -/
def removeFirst {α : Type} (p : α → Bool) : List α → List α
  | [] => []
  | x :: l => if p x then l else x :: removeFirst p l

/-! ### Outcomes -/

/-- A meaning that runs on a position of the group and faults on any other number
(notes/assumptions/20.md). -/
def onPosition (q : Nat) (t : State) : Host.Outcome State Fault Refusal :=
  if 1 ≤ q ∧ q ≤ 14 then .next t else .fault .noSuchPosition

/-- The command leaves the hand-over list, if it stands there (notes/assumptions/6.md). -/
def State.taken (s : State) (c : Instr) : State := { s with handed := s.handed.erase c }

end Sys2Proof.Machine
end

