-- ==== Sys2Proof/Machine/Pulses.lean ====
section
/-! DEFINITION. The pulse-train generator and the classifiers of the LCA (chapter 1): the five requests
(R8 to R11, R14, R15), the ends of a train (R12, R13), the end of a main pulse (R6), and the edges of an
indication input (R16, R18). `t` is the station time at which a request is taken and `period` the T_est in
force. -/

namespace Sys2Proof.Machine

/-- The conduction limit of a normal train set at `t` (R8, R9, R14). -/
def conductionEnd (period : Nat) (t : StationTime) : StationTime := after t (ticks period 15000)

/-- The kind of a normal train set at `t` (R8, R9, R14). -/
def normalFrom (period : Nat) (t : StationTime) : TrainKind := .normal (conductionEnd period t) t

/-- A train in MAIN from `t` (R6, R8, R9). -/
def mainFrom (t : StationTime) (k : TrainKind) : Train :=
  { phase := .main, start := t, origin := after t 100, kind := k }

/-- The kind of a train restarted at `t`: re-based if normal, kept if bypass (R9). -/
def rebased (period : Nat) (t : StationTime) : TrainKind → TrainKind
  | .normal _ _ => normalFrom period t
  | .bypass => .bypass

/-- A scheduled firing taken at `t` (R8, R9). -/
def trainFiring (period : Nat) (t : StationTime) : Option Train → Option Train
  | none => some (mainFrom t (normalFrom period t))
  | some r => some (mainFrom t (rebased period t r.kind))

/-- A start companion taken at `t` (R8, R11). -/
def trainCompanion (period : Nat) (t : StationTime) : Option Train → Option Train
  | none => some (mainFrom t (normalFrom period t))
  | some r => some r

/-- The phase of a train that becomes a bypass train (R10). -/
def phaseAdopted : TrainPhase → TrainPhase
  | .main => .main
  | .refresh => .continuous
  | .continuous => .continuous

/-- A bypass adoption taken at `t` (R8, R10). -/
def trainAdoption (t : StationTime) : Option Train → Option Train
  | none => some (mainFrom t .bypass)
  | some r => some { r with phase := phaseAdopted r.phase, kind := .bypass }

/-- The phase of a bypass train that becomes a normal train (R14). -/
def phaseCeased : TrainPhase → TrainPhase
  | .main => .main
  | .refresh => .refresh
  | .continuous => .refresh

/-- Ceasing membership taken at `t` (R14). -/
def trainCeasing (period : Nat) (t : StationTime) : Option Train → Option Train
  | none => none
  | some r =>
    match r.kind with
    | .bypass => some { r with phase := phaseCeased r.phase, kind := normalFrom period t }
    | .normal _ _ => some r

/-- A bypass exit (R15). -/
def trainExit : Option Train → Option Train
  | none => none
  | some r =>
    match r.kind with
    | .bypass => none
    | .normal _ _ => some r

/-- An XT with this instant (R12). -/
def trainXt (instant : StationTime) : Option Train → Option Train
  | none => none
  | some r =>
    match r.kind with
    | .normal _ xref => if atOrAfter instant xref then none else some r
    | .bypass => some r

/-- The conduction limit of a normal train, if station time has reached it (R13). -/
def trainLimit (now : StationTime) : Option Train → Option Train
  | none => none
  | some r =>
    match r.kind with
    | .normal limit _ => if reached now limit then none else some r
    | .bypass => some r

/-- Whether a conduction limit is reached (R13). -/
def limitDue (now : StationTime) : Option Train → Bool
  | none => false
  | some r =>
    match r.kind with
    | .normal limit _ => reached now limit
    | .bypass => false

/-- Whether a main pulse has come to its end m (R6). -/
def mainEndDue (now : StationTime) : Option Train → Bool
  | none => false
  | some r => r.phase = .main && reached now r.origin

/-- The phase after a main pulse: REFRESH, or CONTINUOUS for a bypass train (R6). -/
def phaseAfterMain : TrainKind → TrainPhase
  | .normal _ _ => .refresh
  | .bypass => .continuous

/-- The end of a main pulse at m, the phase origin kept (R6). -/
def trainMainEnd (now : StationTime) (train : Option Train) : Option Train :=
  if mainEndDue now train then train.map fun r => { r with phase := phaseAfterMain r.kind } else train

/-- Change the train. -/
def Lca.onTrain (l : Lca) (f : Option Train → Option Train) : Lca := { l with train := f l.train }

/-- A request or event taken by the generator. -/
def State.onTrain (s : State) (f : Option Train → Option Train) : State := s.onLca fun l => l.onTrain f

/-- A scheduled firing taken now (R8, R9). -/
def lcaFiring (s : State) : State := s.onTrain (trainFiring s.aru.period s.now)

/-- A start companion taken now (R8, R11). -/
def lcaCompanion (s : State) : State := s.onTrain (trainCompanion s.aru.period s.now)

/-- A bypass adoption taken now (R8, R10). -/
def lcaAdoption (s : State) : State := s.onTrain (trainAdoption s.now)

/-- Ceasing membership taken now (R14). -/
def lcaCeasing (s : State) : State := s.onTrain (trainCeasing s.aru.period s.now)

/-- A bypass exit taken now (R15). -/
def lcaExit (s : State) : State := s.onTrain trainExit

/-- An XT taken now (R12). -/
def lcaXt (instant : StationTime) (s : State) : State := s.onTrain (trainXt instant)

/-! ### Classifiers (R16, R18) -/

/-- The channel after a rising edge at `now`; a dark channel's input is not sampled (R3, R16, R18). -/
def Channel.rising (c : Channel) (live : Bool) (now : StationTime) : Channel :=
  if !live || c.input then { c with input := true }
  else
    match c.classifier with
    | .idle => { input := true, classifier := .measuring now }
    | .measuring r => { input := true, classifier := .measuring r }
    | .stuck => { input := true, classifier := .stuck }
    | .recovering f =>
      if reached now (after f 20) then { input := true, classifier := .measuring now }
      else { input := true, classifier := .stuck }

/-- The channel after a falling edge at `now` (R16, R18). -/
def Channel.falling (c : Channel) (live : Bool) (now : StationTime) : Channel :=
  if !live || !c.input then { c with input := false }
  else
    match c.classifier with
    | .idle => { input := false, classifier := .idle }
    | .measuring _ => { input := false, classifier := .idle }
    | .stuck => { input := false, classifier := .recovering now }
    | .recovering f => { input := false, classifier := .recovering f }

/-- The class and stamp handed over at a falling edge at `now`, if any (R16, R17). -/
def Channel.handedAtFall (c : Channel) (live : Bool) (now : StationTime) :
    Option (IndicationClass × StationTime) :=
  if !live || !c.input then none
  else
    match c.classifier with
    | .measuring r => (pulseClass (now - r).toNat).map fun k => (k, r)
    | .idle => none
    | .stuck => none
    | .recovering _ => none

/-- The stamp of a pulse whose light still stands 1000 ticks after it (R18). -/
def Channel.stuckStamp (c : Channel) (live : Bool) (now : StationTime) : Option StationTime :=
  if !live || !c.input then none
  else
    match c.classifier with
    | .measuring r => if reached now (after r 1000) then some r else none
    | .idle => none
    | .stuck => none
    | .recovering _ => none

/-- Whether a recovering classifier's input has been low for 20 ticks (R18). -/
def Channel.recoveryDue (c : Channel) (live : Bool) (now : StationTime) : Bool :=
  if !live || c.input then false
  else
    match c.classifier with
    | .recovering f => reached now (after f 20)
    | .idle => false
    | .measuring _ => false
    | .stuck => false

/-- Change one channel. -/
def State.onChannel (s : State) (i : Fin 80) (f : Channel → Channel) : State :=
  s.onLca fun l => { l with channels := l.channels.set i.val (f (l.channels.get i)) i.isLt }

/-- One channel. -/
def State.channel (s : State) (i : Fin 80) : Channel := s.lca.channels.get i

end Sys2Proof.Machine
end

