-- ==== Sys2Proof/Machine/Flags.lean ====
section
/-! DEFINITION. Flags and what is computed from them: the record update of one indication (R23, R24), the
scoring and judgement of a level at a cycle mark (R39 to R42), the redundancy state (R43), and the active
flags, counts and modes of the fault table (R185 to R187, R189). -/

namespace Sys2Proof.Machine

/-! ### One indication in a level record (R23, R24) -/

/-- Whether an FV or RV counts an alternation error against the record and the phase (R24). DESIGN CHOICE: an FV
taken in CONDUCTING counts an error even when the last indication is none (notes/assumptions/28.md). -/
def alternationError (l : Level) (c : IndicationClass) (phase : ValvePhase) : Bool :=
  match c with
  | .fv => l.lastIndication = .fv || phase = .conducting
  | .rv => l.lastIndication = .rv
  | .pf => false
  | .malformed => false

/-- The record of a level not in FAILED after one indication (R23, R24). -/
def Level.indicated (l : Level) (c : IndicationClass) (phase : ValvePhase) : Level :=
  let errors := if alternationError l c phase then satSucc 2 l.alternation else l.alternation
  match c with
  | .fv => { l with fvSeen := true, alternation := errors, lastIndication := .fv }
  | .rv => { l with rvSeen := true, alternation := errors, lastIndication := .rv }
  | .pf => { l with pfSeen := true }
  | .malformed => { l with malformed := satSucc 2 l.malformed }

/-! ### The judgement of a level at a cycle mark (R39 to R42) -/

/-- What the cycle record shows at a mark (R34). -/
structure CycleFlags where
  quorumXt : Bool
  quorumFv : Bool
  cf       : Bool
deriving DecidableEq, Repr

/-- The penalties a level is given, in points (R39). -/
structure Penalties where
  pf          : Nat
  miss        : Nat
  malformed   : Nat
  alternation : Nat
deriving DecidableEq, Repr

/-- The penalties of a level in a cycle that is not quiet (R39). -/
def Level.penalties (l : Level) (c : CycleFlags) : Penalties :=
  { pf := if l.pfSeen && !c.cf then 6 else 0
    miss := if (c.quorumFv && !l.fvSeen) || (c.quorumXt && !l.rvSeen) then 4 else 0
    malformed := 2 * l.malformed
    alternation := 2 * l.alternation }

/-- The points of all penalties together (R39). -/
def Penalties.total (p : Penalties) : Nat := p.pf + p.miss + p.malformed + p.alternation

/-- The kind of the largest penalty, a tie going to the earlier of PF, miss, malformed, alternation (R41).
DEDUCED: notes/assumptions/14.md. -/
def Penalties.largest (p : Penalties) : Anomaly :=
  if p.miss ≤ p.pf ∧ p.malformed ≤ p.pf ∧ p.alternation ≤ p.pf then .pf
  else if p.malformed ≤ p.miss ∧ p.alternation ≤ p.miss then .miss
  else if p.alternation ≤ p.malformed then .malformed
  else .alternation

/-- Score, clean streak, PF count and last anomaly of a level after scoring (R39, R40, R41). -/
def Level.scored (l : Level) (c : CycleFlags) : Level :=
  let p := l.penalties c
  if 0 < p.total then
    { l with
      score := min 31 (l.score + p.total)
      streak := 0
      pfCount := if 0 < p.pf then satSucc 15 l.pfCount else l.pfCount
      lastAnomaly := p.largest }
  else if l.fvSeen && l.rvSeen then { l with score := l.score - 1, streak := satSucc 3 l.streak }
  else l

/-- The state a record takes after scoring (R42). -/
def Level.nextState (l : Level) : LevelState :=
  if 16 ≤ l.score then .failed
  else if 4 ≤ l.score then .suspect
  else if l.state = .suspect ∧ l.score = 0 then .healthy
  else if l.state = .unknown ∧ l.streak = 3 then .healthy
  else l.state

/-- A live record after the judgement of a cycle that is not quiet; FAILED is latched (R21, R36, R42). -/
def Level.judged (l : Level) (c : CycleFlags) : Level :=
  if l.state = .failed then l else { l.scored c with state := (l.scored c).nextState }

/-- A record with its cycle flags cleared (R36). -/
def Level.cleared (l : Level) : Level :=
  { l with fvSeen := false, rvSeen := false, pfSeen := false, malformed := 0, alternation := 0 }

/-! ### Redundancy (R43) -/

/-- The redundancy state of NF and RED (R43). -/
def redundancyOf (failed red : Nat) : Redundancy :=
  if red < failed then .exhausted else if failed = red ∧ 0 < red then .last else .normal

/-- The fault raised on entering a redundancy state (R43). -/
def redundancyFault : Redundancy → Option FaultCode
  | .normal => none
  | .last => some .redundancyLow
  | .exhausted => some .redundancyExhausted

/-! ### The fault table (R185) -/

/-- The record of a fault. -/
def Stc.fault (c : Stc) (f : FaultCode) : FaultRecord := c.faults.get f.code

/-- Change the record of a fault. -/
def Stc.onFault (c : Stc) (f : FaultCode) (g : FaultRecord → FaultRecord) : Stc :=
  { c with faults := c.faults.set f.code.val (g (c.fault f)) f.code.isLt }

/-- A fault's record at an occurrence: the count rises, and in every mode but IGNORE the active flag is set
(R186). -/
def FaultRecord.occurred (r : FaultRecord) : FaultRecord :=
  { r with count := satSucc 127 r.count, active := r.active || r.mode ≠ .ignore }

/-- Enter an occurrence in the fault table, with no further action (R186). -/
def State.recordFault (s : State) (f : FaultCode) : State :=
  s.onStc fun c => c.onFault f FaultRecord.occurred

/-- A clearing signal: the active flag is lowered and nothing else changes (R187). -/
def State.clearFault (s : State) (f : FaultCode) : State :=
  s.onStc fun c => c.onFault f fun r => { r with active := false }

/-- The fault table after a CLEAR: the flags of the faults in mode REPORT are lowered (R189). -/
def clearedFaults (t : Vector FaultRecord 12) : Vector FaultRecord 12 :=
  t.map fun r => if r.mode = .report then { r with active := false } else r

/-- The fault bitmap: bit i is fault code i (R105, R112). -/
def faultBitmap (t : Vector FaultRecord 12) : Nat :=
  t.toList.foldr (fun r n => bit 1 r.active + 2 * n) 0

end Sys2Proof.Machine
end

