-- ==== Sys2Proof/Machine/Queues.lean ====
section
/-! DEFINITION. Origination, the transmit queues (section 5.4) and the duplicate windows (section 5.3). -/

namespace Sys2Proof.Machine

/-- Replace the undeparted HEALTH of a queue in place, if there is one (R96). -/
def replaceHealth (e : QueueEntry) : List QueueEntry → Option (List QueueEntry)
  | [] => none
  | x :: l => if x.kind = .health then some (e :: l) else (replaceHealth e l).map (x :: ·)

/-- Enter an entry in its place: after every entry of the same or a higher priority (R95). -/
def insertByPriority (e : QueueEntry) : List QueueEntry → List QueueEntry
  | [] => [e]
  | x :: l => if e.kind.priority < x.kind.priority then e :: x :: l else x :: insertByPriority e l

/-- Count a TXQ drop (R97, R103). -/
def RingPort.dropped (p : RingPort) : RingPort :=
  { p with counts := { p.counts with txqDrop := satSucc 255 p.counts.txqDrop } }

/-- Enter an entry that replaces no HEALTH: in its place while there is room, otherwise decided against the
youngest entry of the lowest priority present, which is the last (R95, R97). -/
def RingPort.place (p : RingPort) (e : QueueEntry) : RingPort :=
  if p.queue.length < 8 then { p with queue := insertByPriority e p.queue }
  else
    match p.queue.getLast? with
    | none => p
    | some y =>
      if e.kind.priority < y.kind.priority then
        { p with queue := insertByPriority e p.queue.dropLast }.dropped
      else p.dropped

/-- Enter an own telegram in one transmit queue (R95, R96, R97). -/
def RingPort.enqueue (p : RingPort) (e : QueueEntry) : RingPort :=
  if e.kind = .health then
    match replaceHealth e p.queue with
    | some q => { p with queue := q }
    | none => p.place e
  else p.place e

/-- The RIF after an origination: numbered, and entered in both transmit queues (R94). -/
def Rif.originated (r : Rif) (kind : OwnKind) (payload : List Byte) (event : Option StationTime) : Rif :=
  let e : QueueEntry := { kind := kind, sequence := r.ownSequence, payload := payload, event := event }
  { portA := r.portA.enqueue e, portB := r.portB.enqueue e, ownSequence := r.ownSequence + 1 }

/-- Originate a telegram. A station in START or INERT originates nothing (R94). -/
def originate (kind : OwnKind) (payload : List Byte) (event : Option StationTime) (s : State) : State :=
  if s.stc.station = .start ∨ s.stc.station = .inert then s
  else s.onRif fun r => r.originated kind payload event

/-! ### The duplicate window (R90, R91) -/

/-- The outcome of the sixth step of an arrival (R91). -/
inductive WindowOutcome where
  | duplicate
  | stale
  | accepted (window : SeenWindow)
deriving DecidableEq, Repr

/-- An arriving sequence judged against the window of its origin (R91). -/
def judgeSequence (w : Option SeenWindow) (q : Seq) : WindowOutcome :=
  match w with
  | none => .accepted { highest := q, seen := [q] }
  | some w =>
    let diff := (q - w.highest).toNat
    if diff = 0 then .duplicate
    else if diff ≤ 127 then
      .accepted { highest := q, seen := q :: w.seen.filter fun x => (q - x).toNat ≤ 15 }
    else if diff ≤ 240 then .stale
    else if w.seen.contains q then .duplicate
    else .accepted { highest := w.highest, seen := q :: w.seen }

end Sys2Proof.Machine
end

