-- ==== Sys2Proof/Machine/Report.lean ====
section
/-! DEFINITION. The contents of HEALTH (R112, R190, R191) and of the REPORT pages (R116 to R120), read from
the owning blocks' state at the tick of origination. -/

namespace Sys2Proof.Machine

/-- The payload of a HEALTH originated now (R105, R112, R191). -/
def healthPayload (s : State) : List Byte :=
  [ BitVec.ofNat 8 (s.lmon.redundancy.code * 64 + bit 32 s.cru.stale + s.lmon.phase.code * 8 + s.stc.station.code),
    BitVec.ofNat 8
      (bit 8 (s.rif.portB.health = .up) + bit 4 (s.rif.portA.health = .up) + s.aru.lock.code),
    BitVec.ofNat 8 s.lmon.failed,
    BitVec.ofNat 8 s.lmon.suspects ] ++
    twoBytes s.cru.gammaLast ++ twoBytes s.cru.muLast ++ twoBytes (appliedAdvance s.cru.advances) ++
    twoBytes (faultBitmap s.stc.faults)

/-- Originate a HEALTH, timed at an instant or untimed (R190). -/
def originateHealth (event : Option StationTime) (s : State) : State :=
  originate .health (healthPayload s) event s

/-- The two bytes of a level entry; a dark level's are 0 (R117). -/
def levelEntry (s : State) (i : Fin 80) : List Byte :=
  if i.val < s.straps.nlev then
    let l := s.lmon.levels.get i
    [ BitVec.ofNat 8 (l.state.code * 64 + 32 + l.score), BitVec.ofNat 8 (l.pfCount * 16 + l.lastAnomaly.code) ]
  else [0, 0]

/-- Content of page k of the level pages: levels 8k to 8k + 7 (R117). -/
def levelPage (s : State) (k : Nat) : List Byte :=
  [0, 1, 2, 3, 4, 5, 6, 7].flatMap fun j => levelEntry s (Fin.ofNat 80 (8 * k + j))

/-- The modes of four faults in a byte, the first in bits 7..6 (R118). -/
def modeByte (s : State) (a b c d : FaultCode) : Byte :=
  BitVec.ofNat 8 ((s.stc.fault a).mode.code * 64 + (s.stc.fault b).mode.code * 16 +
    (s.stc.fault c).mode.code * 4 + (s.stc.fault d).mode.code)

/-- Content of page 10: the fault table (R118). -/
def faultPage (s : State) : List Byte :=
  (s.stc.faults.toList.map fun r => BitVec.ofNat 8 (bit 128 r.active + r.count)) ++
    [ modeByte s .redundancyLow .redundancyExhausted .referenceLost .commutationFailureRepeated,
      modeByte s .ringDegraded .ringLost .orderLost .sequenceInversion,
      modeByte s .sequenceSlip .peerSilent .bypassConflict .settingsRejected,
      BitVec.ofNat 8 s.stc.escalation.length ]

/-- The seven counts of a port in the order of R119. -/
def countBytes (c : PortCounts) : List Byte :=
  [c.crc, c.malformed, c.orphan, c.overflow, c.stale, c.undeliverable, c.txqDrop].map (BitVec.ofNat 8)

/-- Content of page 11: the ring counters and the counts of the synchronising input (R119). -/
def counterPage (s : State) : List Byte :=
  countBytes s.rif.portA.counts ++ countBytes s.rif.portB.counts ++
    [BitVec.ofNat 8 s.aru.missCount, BitVec.ofNat 8 s.aru.strays]

/-- Content of page 12: the counts of ignored and late telegrams (R120). -/
def ignoredPage (s : State) : List Byte :=
  [BitVec.ofNat 8 s.cru.foreignOrders, BitVec.ofNat 8 s.cru.lateFires, BitVec.ofNat 8 s.cru.badPages] ++
    List.replicate 13 0

/-- The sixteen content bytes of a page 0..12 (R116 to R120). -/
def pageContent (s : State) (page : Nat) : List Byte :=
  if page ≤ 9 then levelPage s page
  else if page = 10 then faultPage s
  else if page = 11 then counterPage s
  else ignoredPage s

/-- Originate the REPORT of a page, untimed (R116, R192). -/
def originateReport (page : Nat) (s : State) : State :=
  originate .report (BitVec.ofNat 8 page :: pageContent s page) none s

end Sys2Proof.Machine
end

