-- ==== Sys2Proof/Machine/Bypass.lean ====
section
/-! DEFINITION. The Station Controller's decisions: originating and adopting a BYPASS (R176 to R180), the
trip (R181, R182), the response to a fault by its mode (R186, R188), the BLOCK and DEBLOCK transitions (R174,
R175) and the SURVEY test (R172). Cancelling a schedule may take a cycle mark (R34), and a cycle mark may raise
a fault, so what cancels the schedule is a parameter `cancel` here; Machine/Schedule.lean supplies it. -/

namespace Sys2Proof.Machine

/-! ### Originating a BYPASS (R176) -/

/-- The scan of R176: the candidate among `positions` whose FN no later one in the scan follows serially. -/
def latestFiring (s : State) (positions : List Nat) : Option (Nat × FiringNumber) :=
  positions.foldl
    (fun best q =>
      match s.fireRecord q, best with
      | none, _ => best
      | some f, none => some (q, f)
      | some f, some (r, g) => if seriallyLater f g then some (q, f) else some (r, g))
    none

/-- The leg the scan of one bridge names, or 1 when no FN is valid (R176). -/
def chosenLeg (s : State) (positions : List Nat) : Nat :=
  match latestFiring s positions with
  | some (q, _) => legIndex q
  | none => 1

/-- The reference FN, or 0 when no FN is valid (R176). -/
def referenceFn (s : State) : FiringNumber :=
  match latestFiring s [1, 2, 3, 4, 5, 6, 7, 8, 9, 10, 11, 12] with
  | some (_, f) => f
  | none => 0

/-- The BYPASS a station originates now with this cause (R176). -/
def ownBypass (s : State) (cause : Nat) : BypassOrder :=
  { origin := s.straps.pos
    fn := referenceFn s
    star := chosenLeg s [1, 3, 5, 7, 9, 11]
    delta := chosenLeg s [2, 4, 6, 8, 10, 12]
    cause := cause }

/-- Give a BYPASS to the Ring Interface, untimed (R108, R176). -/
def originateBypass (b : BypassOrder) (s : State) : State :=
  originate .bypass (bypassPayload b.fn b.star b.delta b.cause) none s

/-! ### Judging a BYPASS against the block record (R177 to R179) -/

/-- Whether both legs lie in 1..3 (R114). -/
def legsValid (b : BypassOrder) : Bool :=
  (1 ≤ b.star && b.star ≤ 3) && (1 ≤ b.delta && b.delta ≤ 3)

/-- Whether a BYPASS's key is later than the record's (R178). -/
def keyLater (b : BypassOrder) (r : BlockRecord) : Bool :=
  seriallyLater b.fn r.fn || (b.fn = r.fn && b.origin < r.origin)

/-- The outcome of a BYPASS taken in a state that adopts. -/
inductive BypassJudgement where
  | adopted
  | conflict
  | unchanged
deriving DecidableEq, Repr

/-- The judgement of a BYPASS against the block record (R178, R179). -/
def judgeBypass (record : Option BlockRecord) (b : BypassOrder) : BypassJudgement :=
  match record with
  | none => .adopted
  | some r =>
    if r.settled then (if b.star = r.star ∧ b.delta = r.delta then .unchanged else .conflict)
    else if keyLater b r then .adopted
    else .unchanged

/-- The block record after an adoption: a first adoption sets the times, a replacement keeps them (R178). -/
def recordAdopted (record : Option BlockRecord) (b : BypassOrder) (now : StationTime) (period : Nat) :
    BlockRecord :=
  match record with
  | none =>
    { star := b.star, delta := b.delta, fn := b.fn, origin := b.origin
      adopted := now, deadline := after now period, settled := false }
  | some r => { r with star := b.star, delta := b.delta, fn := b.fn, origin := b.origin }

/-- The block record changed by an adoption taken now. -/
def State.adoptRecord (s : State) (b : BypassOrder) : State :=
  s.onStc fun c => { c with record := some (recordAdopted c.record b s.now s.aru.period) }

/-- The overdue watch discarded (R159). -/
def discardWatch (s : State) : State := s.onCru fun c => { c with watch := none }

/-- What an adoption hands to the LCA and the CRU, by the membership before and after it (R180). -/
def membershipActs (was is : Bool) : List (State → State) :=
  match was, is with
  | false, true => [lcaAdoption, discardWatch]
  | true, true => [lcaAdoption]
  | true, false => [lcaCeasing]
  | false, false => []

/-- The station state after an adoption in BLOCKED, FIRING, BYPASS or TRIPPED (R177). -/
def stationAdopted : Station → Station
  | .blocked => .bypass
  | .firing => .bypass
  | .start => .start
  | .inert => .inert
  | .survey => .survey
  | .bypass => .bypass
  | .tripped => .tripped

/-- Adopt a BYPASS: the record, the station state, and what is handed on, in an order the spec leaves free
(R177, R178, R180). The schedule is cancelled when the adoption takes FIRING to BYPASS. -/
def adoptBypass (cancel : State → State) (b : BypassOrder) (s : State) : State :=
  let t := (s.adoptRecord b).enter (stationAdopted s.stc.station)
  inAnyOrder
    (membershipActs s.isMember t.isMember ++ if s.stc.station = .firing then [cancel] else []) t

/-- Take a BYPASS in the station state in which it comes (R114, R177 to R179). -/
def takeBypass (cancel : State → State) (b : BypassOrder) (s : State) : State :=
  if !legsValid b then s
  else if s.stc.station = .start ∨ s.stc.station = .inert ∨ s.stc.station = .survey then s
  else
    match judgeBypass s.stc.record b with
    | .adopted => adoptBypass cancel b s
    | .conflict => s.recordFault .bypassConflict
    | .unchanged => s

/-! ### Trip (R181, R182) -/

/-- The own BYPASS of a trip adopted at its origination: record and membership, with no change of station
state and no cancellation, which the trip makes itself (R181). -/
def adoptAtTrip (b : BypassOrder) (s : State) : State :=
  match judgeBypass s.stc.record b with
  | .adopted => inTurn (membershipActs s.isMember (s.adoptRecord b).isMember) (s.adoptRecord b)
  | .conflict => s.recordFault .bypassConflict
  | .unchanged => s

/-- The isolation hold set running with count 0 (R182). -/
def startHold (s : State) : State := s.onStc fun c => { c with holdRunning := true, holdCount := 0 }

/-- The trip from FIRING (R181): originate and adopt a BYPASS, enter TRIPPED, then the isolation hold for
RING_LOST or the cancellation for any other fault. -/
def tripFromFiring (cancel : State → State) (f : FaultCode) (s : State) : State :=
  let b := ownBypass s (f.code.val + 1)
  let t := (adoptAtTrip b (originateBypass b s)).enter .tripped
  if f = .ringLost then startHold t else cancel t

/-- Trip the station by a fault (R181). -/
def trip (cancel : State → State) (f : FaultCode) (s : State) : State :=
  match s.stc.station with
  | .firing => tripFromFiring cancel f s
  | .survey => s.enter .tripped
  | .blocked => s.enter .tripped
  | .bypass => s.enter .tripped
  | .tripped => s
  | .start => s
  | .inert => s

/-! ### Block, deblock (R174, R175) -/

/-- FIRING to BLOCKED, the schedule cancelled (R175). -/
def blockFromFiring (cancel : State → State) (s : State) : State := cancel (s.enter .blocked)

/-- Entry to FIRING (R77, R144, R150, R174, R193). -/
def enterFiring (s : State) : State :=
  (((s.enter .firing).onStc fun c => { c with fired := true }).onFcu fun f => { f with previous := none }).onCru
    fun c =>
      { c with
        predecessor := none, missCount := 0, inversionMark := false, firedSince := false, bridgeHeard := false }

/-! ### Faults (R186, R188) -/

/-- The escalation list after an occurrence of a BLOCK-mode fault in FIRING: the oldest of three leaves, the
last reference stamp enters (R188). -/
def escalated (list : List EscalationEntry) (stamp : StationTime) (period : Nat) : List EscalationEntry :=
  (if list.length < 3 then list else list.drop 1) ++
    [{ stamp := stamp, expiry := after stamp (1000 * period) }]

/-- Whether the list turns the occurrence into a trip: three entries, the newest at most 1000 periods after
the oldest (R188). -/
def escalates (list : List EscalationEntry) (period : Nat) : Bool :=
  match list with
  | [x, _, z] => 0 ≤ sdiff z.stamp x.stamp && sdiff z.stamp x.stamp ≤ (1000 * period : Nat)
  | _ => false

/-- The escalation entry of an occurrence taken now. -/
def State.escalate (s : State) : State :=
  s.onStc fun c => { c with escalation := escalated c.escalation c.lastReference s.aru.period }

/-- A BLOCK-mode occurrence taken in FIRING (R186, R188). -/
def blockByFault (cancel : State → State) (f : FaultCode) (s : State) : State :=
  let t := s.escalate
  if escalates t.stc.escalation s.aru.period then trip cancel f t else blockFromFiring cancel t

/-- Take an occurrence of a fault (R186). -/
def takeFaultWith (cancel : State → State) (f : FaultCode) (s : State) : State :=
  let t := s.recordFault f
  match (s.stc.fault f).mode with
  | .trip => trip cancel f t
  | .block => if t.stc.station = .firing then blockByFault cancel f t else t
  | .report => t
  | .ignore => t

/-! ### The SURVEY test (R172) -/

/-- Whether at least one ring is UP (R172). -/
def State.aRingUp (s : State) : Bool := s.rif.portA.health = .up || s.rif.portB.health = .up

/-- The test whether the station may leave SURVEY (R172). -/
def surveyTest (s : State) : State :=
  if s.stc.station = .survey then
    if s.lmon.redundancy = .exhausted then s.enter .tripped
    else if s.lmon.unknowns = 0 ∧ s.aru.lock = .locked ∧ s.aRingUp then s.enter .blocked
    else s
  else s

end Sys2Proof.Machine
end

