-- ==== Sys2Proof/Machine/Margin.lean ====
section
/-! DEFINITION. The commutation margin (chapter 9): the advance list (R164 to R167), the measurement of γ and
μ (R155 to R158), the overdue watch (R159) and the detection of commutation failures (R160 to R163). `raise`
is how a fault reaches the Station Controller. -/

namespace Sys2Proof.Machine

/-! ### The advance list (R164 to R167) -/

/-- Whether entry `x` leaves a full list before `y`: smaller magnitude, then smaller hold, then MARGIN before
CFAIL, then the lower source (R166). -/
def displacedBefore (x y : Advance) : Bool :=
  if x.magnitude ≠ y.magnitude then x.magnitude < y.magnitude
  else if x.hold ≠ y.hold then x.hold < y.hold
  else if x.kind ≠ y.kind then x.kind = .margin
  else x.source < y.source

/-- The entry of a list that a displacing request would remove (R166). -/
def smallestAdvance : List Advance → Option Advance
  | [] => none
  | x :: l =>
    match smallestAdvance l with
    | none => some x
    | some y => if displacedBefore x y then some x else some y

/-- An entry renewed by a request of its own source (R166). -/
def Advance.renewed (x : Advance) (r : Advance) : Advance :=
  { source := x.source, kind := r.kind, magnitude := max x.magnitude r.magnitude, hold := r.hold }

/-- Enter a request in the advance list (R166). -/
def enterRequest (l : List Advance) (r : Advance) : List Advance :=
  if l.any fun x => x.source = r.source then
    l.map fun x => if x.source = r.source then x.renewed r else x
  else if l.length < 4 then l ++ [r]
  else
    match smallestAdvance l with
    | none => l
    | some y => if y.magnitude < r.magnitude then l.erase y ++ [r] else l

/-- One entry at a reference event: its hold lowered, or its magnitude by 150 (R167). -/
def Advance.decayed (x : Advance) : Advance :=
  if 0 < x.hold then { x with hold := x.hold - 1 } else { x with magnitude := x.magnitude - 150 }

/-- The advance list after a reference event (R167). -/
def decayAdvances (l : List Advance) : List Advance :=
  (l.map Advance.decayed).filter fun x => 0 < x.magnitude

/-- The magnitude a margin γ asks for by the settings in force, 0 or less giving none (R165). -/
def marginMagnitude (c : Stc) (gamma : Nat) : Nat := min 3000 (c.gain * (c.gammaAlarm - gamma))

/-- Enter a request. -/
def State.request (s : State) (r : Advance) : State :=
  s.onCru fun c => { c with advances := enterRequest c.advances r }

/-- The request of a MARGIN from a source; one of magnitude 0 is not formed (R165). -/
def requestMargin (source gamma : Nat) (s : State) : State :=
  if 0 < marginMagnitude s.stc gamma then
    s.request { source := source, kind := .margin, magnitude := marginMagnitude s.stc gamma, hold := 8 }
  else s

/-- The request of a CFAIL from a source (R165). -/
def requestCfail (source : Nat) (s : State) : State :=
  s.request { source := source, kind := .cfail, magnitude := 3000, hold := 20 }

/-! ### XT and FV at the Coordination Unit (R155 to R157, R159, R190) -/

/-- Whether an XT in RECOVERY begins a γ measurement: FIRING or in the isolation hold, and not before F_prev
(R155). -/
def beginsGamma (s : State) (instant : StationTime) : Bool :=
  s.firingOrHold &&
    match s.fcu.previous with
    | some f => atOrAfter instant f
    | none => true

/-- The overdue watch after an XT in RECOVERY with this instant (R159). -/
def watchAfterXt (w : Option OverdueWatch) (instant : StationTime) : Option OverdueWatch :=
  match w with
  | some x => if atOrAfter instant x.firing then none else some x
  | none => none

/-- An XT taken by the CRU with the phase just entered (R155, R159, R190). -/
def cruXt (instant : StationTime) (phase : ValvePhase) (s : State) : State :=
  if phase = .recovery then
    let t := s.onCru fun c =>
      { c with
        gammaStart := if beginsGamma s instant then some instant else c.gammaStart
        watch := watchAfterXt c.watch instant }
    if s.stc.station = .firing then originateHealth (some instant) t else t
  else s

/-- The γ of a measurement from `start` to `instant`, none for a negative difference (R156). -/
def measuredGamma (period : Nat) (start instant : StationTime) : Option Nat :=
  if 0 ≤ sdiff instant start then some (min 36000 (angle period (sdiff instant start).toNat)) else none

/-- The alarm of a measured γ: below γ_alarm while FIRING or in the isolation hold, a MARGIN timed at the FV
instant and an own request (R157, R165). -/
def marginAlarm (gamma : Nat) (instant : StationTime) (s : State) : State :=
  if gamma < s.stc.gammaAlarm ∧ s.firingOrHold then
    requestMargin s.straps.pos gamma (originate .margin (marginPayload gamma) (some instant) s)
  else s

/-- An FV event taken by the CRU with the phase it was raised in (R156, R157). -/
def cruFv (instant : StationTime) (phase : ValvePhase) (s : State) : State :=
  match s.cru.gammaStart with
  | none => s
  | some g =>
    if phase = .recovery then
      match measuredGamma s.aru.period g instant with
      | none => s.onCru fun c => { c with gammaStart := none }
      | some γ => marginAlarm γ instant (s.onCru fun c => { c with gammaStart := none, gammaLast := γ })
    else s

/-! ### Commutation failures (R160 to R163) -/

/-- The CF history after a detection: the own last FN at its end, the oldest of four leaving, nothing for an
FN already held (R162). -/
def historyEntered (h : List FiringNumber) (fn : FiringNumber) : List FiringNumber :=
  if h.contains fn then h else (if h.length < 4 then h else h.drop 1) ++ [fn]

/-- Whether a history that has just taken a new FN shows repetition: four entries, the newest at most 600
after the oldest (R163). -/
def repeated (h : List FiringNumber) : Bool :=
  match h with
  | [x, _, _, z] => (z - x).toNat ≤ 600
  | _ => false

/-- The repetition test of a detection that entered a new FN (R163). -/
def repetitionTest (raise : FaultCode → State → State) (s : State) : State :=
  if repeated s.cru.cfHistory then
    (raise .commutationFailureRepeated s).onCru fun c => { c with cfHistory := [] }
  else s

/-- The CF history entered and the CFAIL originated (R162, steps 1 and 2). -/
def enterAndTell (cause : Nat) (instant : StationTime) (s : State) : State :=
  let t := s.onCru fun c => { c with cfHistory := historyEntered c.cfHistory c.ownFn }
  originate .cfail (cfailPayload cause t.cru.cfHistory.length) (some instant) t

/-- A detected commutation failure of this cause (R162). -/
def detectFailure (raise : FaultCode → State → State) (cause : Nat) (instant : StationTime) (s : State) :
    State :=
  let t := requestCfail s.straps.pos (enterAndTell cause instant s)
  if s.cru.cfHistory.contains s.cru.ownFn then t else repetitionTest raise t

/-- Whether a failure detected now raises COMMUTATION_FAILURE_REPEATED: its FN is new and the history shows repetition
with it (R162, R163). -/
def State.failureRepeats (s : State) : Bool :=
  !s.cru.cfHistory.contains s.cru.ownFn && repeated (historyEntered s.cru.cfHistory s.cru.ownFn)

/-- A PFQ taken by the CRU: the γ start is discarded and a failure of cause 2 detected (R155, R161). -/
def cruPfq (raise : FaultCode → State → State) (instant : StationTime) (s : State) : State :=
  detectFailure raise 2 instant (s.onCru fun c => { c with gammaStart := none })

/-! ### Overlap (R158) -/

/-- The μ of a translated XT instant of the outgoing valve, none when the conditions of R158 fail. -/
def measuredMu (period : Nat) (previous instant : Option StationTime) : Option Nat :=
  match instant, previous with
  | some x, some f =>
    if 0 < sdiff x f ∧ angle period (sdiff x f).toNat ≤ 6000 then some (angle period (sdiff x f).toNat) else none
  | none, _ => none
  | some _, none => none

/-- μ_last after a HEALTH of the outgoing valve (R158). -/
def measureMu (instant : Option StationTime) (s : State) : State :=
  if s.firingOrHold then
    match measuredMu s.aru.period s.fcu.previous instant with
    | some μ => s.onCru fun c => { c with muLast := μ }
    | none => s
  else s

end Sys2Proof.Machine
end

