-- ==== Sys2Proof/Machine/Valve.lean ====
section
/-! DEFINITION. The Level Monitor (chapter 2): tallies and quorums (R25 to R27), the valve events (R30 to
R32), taking an indication (R23, R26), the cycle mark (R36, R37), the own firing instant (R29) and the
reference event (R34). What the LMON does to its own state is a function of that state; the hand-overs to the
other blocks are made after it. -/

namespace Sys2Proof.Machine

/-! ### Tallies (R25, R26) -/

/-- Clear and arm a tally with this arming instant (R25). -/
def Tally.armAt (_ : Tally) (t : StationTime) : Tally := { armed := true, armedAt := t, members := [] }

/-- Disarm a tally, its members kept (R25). -/
def Tally.disarm (y : Tally) : Tally := { y with armed := false }

/-- Clear and disarm a tally (R29, R32). -/
def Tally.clearDisarm (y : Tally) : Tally := { y with armed := false, members := [] }

/-- Whether an indication of a level may enter a tally (R26). -/
def Tally.admits (y : Tally) (i : Fin 80) (stamp : StationTime) : Bool :=
  y.armed && atOrAfter stamp y.armedAt && !y.members.any fun m => m.level = i

/-- A tally with one more member. -/
def Tally.add (y : Tally) (i : Fin 80) (stamp : StationTime) : Tally :=
  { y with members := y.members ++ [{ level := i, stamp := stamp }] }

/-- The latest stamp among the members of a tally (R37). -/
def latestStamp : List TallyMember → StationTime
  | [] => 0
  | [m] => m.stamp
  | m :: l => later m.stamp (latestStamp l)

/-! ### Valve events (R30 to R32) -/

/-- A valve event as the LMON hands it on: XT with the phase just entered, FV with the phase it was raised
in, PFQ (R30, R31, R32). -/
inductive ValveEvent where
  | xt (instant : StationTime) (phase : ValvePhase)
  | fv (instant : StationTime) (phase : ValvePhase)
  | pfq (instant : StationTime)
deriving DecidableEq, Repr

/-- The phase an XT enters (R28, R30). -/
def phaseAfterXt : ValvePhase → ValvePhase
  | .conducting => .recovery
  | .forward => .reverse
  | .recovery => .recovery
  | .reverse => .reverse

/-- The LMON at an XT, steps 1 to 5 of R30. -/
def Lmon.atXt (m : Lmon) (t : StationTime) : Lmon :=
  { m with
    rv := m.rv.disarm, fv := m.fv.armAt t, pf := m.pf.armAt t
    phase := phaseAfterXt m.phase, quorumXt := true }

/-- The LMON at an FV event, steps 1 to 4 of R31. -/
def Lmon.atFv (m : Lmon) (t : StationTime) : Lmon :=
  { m with
    fv := m.fv.disarm
    rv := if m.phase = .reverse then m.rv.armAt t else m.rv
    phase := .forward, quorumFv := true }

/-- A live record not in FAILED after a PFQ (R32, step 5). -/
def Level.restarted (l : Level) : Level := if l.state = .failed then l else { l with lastIndication := .none }

/-- The LMON at a PFQ, steps 1 to 6 of R32. -/
def Lmon.atPfq (m : Lmon) (nlev : Nat) (t : StationTime) : Lmon :=
  { m with
    pf := m.pf.disarm, fv := m.fv.clearDisarm, rv := m.rv.armAt t
    phase := .conducting
    levels := m.levels.mapFinIdx fun i l _ => if i < nlev then l.restarted else l
    cfCycle := true }

/-! ### Taking an indication (R23, R26) -/

/-- An indication entered in the matching tally, with the valve event a completed quorum raises (R26). -/
def Lmon.tallied (m : Lmon) (nlev : Nat) (i : Fin 80) (c : IndicationClass) (stamp : StationTime) :
    Lmon × Option ValveEvent :=
  match c with
  | .rv =>
    if m.rv.admits i stamp then
      let n : Lmon := { m with rv := m.rv.add i stamp }
      if n.rv.members.length = quorum m.counted then (n.atXt stamp, some (.xt stamp (phaseAfterXt m.phase)))
      else (n, none)
    else (m, none)
  | .fv =>
    if m.fv.admits i stamp then
      let n : Lmon := { m with fv := m.fv.add i stamp }
      if n.fv.members.length = quorum m.counted then (n.atFv stamp, some (.fv stamp m.phase)) else (n, none)
    else (m, none)
  | .pf =>
    if m.pf.admits i stamp then
      let n : Lmon := { m with pf := m.pf.add i stamp }
      if n.pf.members.length = pfQuorum m.counted ∧ m.phase = .recovery then
        (n.atPfq nlev stamp, some (.pfq stamp))
      else (n, none)
    else (m, none)
  | .malformed => (m, none)

/-- An indication taken: discarded from a FAILED level, otherwise the record updated and the tally entered
(R23). -/
def Lmon.indicated (m : Lmon) (nlev : Nat) (i : Fin 80) (c : IndicationClass) (stamp : StationTime) :
    Lmon × Option ValveEvent :=
  if (m.levels.get i).state = .failed then (m, none)
  else
    ({ m with
        levels := m.levels.set i.val ((m.levels.get i).indicated c m.phase) i.isLt } : Lmon).tallied nlev i c stamp

/-- A valve event taken by its receivers: XT by the LCA and the CRU, FV and PFQ by the CRU (R30, R31, R32).
The two receivers of an XT hold separate state, so their order makes no difference. -/
def handEvent (raise : FaultCode → State → State) (e : ValveEvent) (s : State) : State :=
  match e with
  | .xt t phase => cruXt t phase (lcaXt t s)
  | .fv t phase => cruFv t phase s
  | .pfq t => cruPfq raise t s

/-- An indication handed to the LMON now, with what it leads to (R19, R23). -/
def takeIndication (raise : FaultCode → State → State) (i : Fin 80) (c : IndicationClass)
    (stamp : StationTime) (s : State) : State :=
  let r := s.lmon.indicated s.straps.nlev i c stamp
  let t := s.onLmon fun _ => r.1
  match r.2 with
  | some e => handEvent raise e t
  | none => t

/-! ### The cycle mark (R36 to R43) -/

/-- Whether the cycle is quiet (R38). -/
def Lmon.quiet (m : Lmon) : Bool := !m.quorumXt && !m.quorumFv

/-- The cycle flags the scoring reads (R39). -/
def Lmon.cycleFlags (m : Lmon) : CycleFlags := { quorumXt := m.quorumXt, quorumFv := m.quorumFv, cf := m.cfCycle }

/-- The level table judged at the mark, steps 1 and 2 of R36. -/
def Lmon.judgedLevels (m : Lmon) (nlev : Nat) : Vector Level 80 :=
  if m.quiet then m.levels
  else m.levels.mapFinIdx fun i l _ => if i < nlev then l.judged m.cycleFlags else l

/-- How many live records are in a state (R21). -/
def countIn (levels : Vector Level 80) (nlev : Nat) (st : LevelState) : Nat :=
  (List.finRange 80).countP fun i => i.val < nlev && (levels.get i).state = st

/-- The LMON judged: levels, counts, Nc, redundancy, flags cleared and the mark taken, steps 1 to 5 of R36. -/
def Lmon.judged (m : Lmon) (straps : Straps) : Lmon :=
  let levels := m.judgedLevels straps.nlev
  let failed := countIn levels straps.nlev .failed
  { m with
    levels := levels.mapFinIdx fun i l _ => if i < straps.nlev then l.cleared else l
    failed := failed
    suspects := countIn levels straps.nlev .suspect
    unknowns := countIn levels straps.nlev .unknown
    counted := straps.nlev - failed
    redundancy := redundancyOf failed straps.red
    markTaken := true, quorumXt := false, quorumFv := false, cfCycle := false }

/-- The fault raised when a mark enters a redundancy state (R43). -/
def enteredFault (was is : Redundancy) : Option FaultCode := if was = is then none else redundancyFault is

/-- A tally at a mark: armed, it loses the levels that have failed (R37). -/
def Tally.atMark (y : Tally) (levels : Vector Level 80) : Tally :=
  if y.armed then { y with members := y.members.filter fun m => (levels.get m.level).state ≠ .failed } else y

/-- The tallies without the failed levels (R37). -/
def Lmon.adjusted (m : Lmon) : Lmon :=
  { m with rv := m.rv.atMark m.levels, fv := m.fv.atMark m.levels, pf := m.pf.atMark m.levels }

/-- An RV tally at the new quorum raises XT at the mark (R37). -/
def Lmon.markRv (m : Lmon) : Lmon × List ValveEvent :=
  if m.rv.armed ∧ quorum m.counted ≤ m.rv.members.length then
    (m.atXt (latestStamp m.rv.members), [.xt (latestStamp m.rv.members) (phaseAfterXt m.phase)])
  else (m, [])

/-- An FV tally at the new quorum raises FV at the mark (R37). -/
def Lmon.markFv (m : Lmon) : Lmon × List ValveEvent :=
  if m.fv.armed ∧ quorum m.counted ≤ m.fv.members.length then
    (m.atFv (latestStamp m.fv.members), [.fv (latestStamp m.fv.members) m.phase])
  else (m, [])

/-- A PF tally at the new quorum in RECOVERY raises PFQ at the mark (R37). -/
def Lmon.markPf (m : Lmon) (nlev : Nat) : Lmon × List ValveEvent :=
  if m.pf.armed ∧ pfQuorum m.counted ≤ m.pf.members.length ∧ m.phase = .recovery then
    (m.atPfq nlev (latestStamp m.pf.members), [.pfq (latestStamp m.pf.members)])
  else (m, [])

/-- The tallies taken in the order RV, FV, PF at a mark, step 6 of R36 (R37). -/
def Lmon.markTallies (m : Lmon) (nlev : Nat) : Lmon × List ValveEvent :=
  let a := m.adjusted.markRv
  let b := a.1.markFv
  let c := b.1.markPf nlev
  (c.1, a.2 ++ b.2 ++ c.2)

/-- The blocking cycle resumed at a mark that is not a firing, step 7 of R36. -/
def Lmon.resumed (m : Lmon) (own : Bool) (now : StationTime) : Lmon :=
  if !own ∧ m.phase = .forward ∧ !m.rv.armed then { m with rv := m.rv.armAt now } else m

/-- The LMON's own part of a cycle mark, steps 1 to 7 of R36, with the valve events it raises. -/
def Lmon.marked (m : Lmon) (straps : Straps) (own : Bool) (now : StationTime) : Lmon × List ValveEvent :=
  let r := (m.judged straps).markTallies straps.nlev
  (r.1.resumed own now, r.2)

/-- The untimed HEALTH at a cycle mark of a station that is not firing (R190). -/
def cruMark (s : State) : State :=
  match s.stc.station with
  | .survey => originateHealth none s
  | .blocked => originateHealth none s
  | .bypass => originateHealth none s
  | .tripped => originateHealth none s
  | .firing => s
  | .start => s
  | .inert => s

/-- The schedule discarded with no cycle mark, as at a cancellation that finds the mark taken (R75, R34). -/
def discardSchedule (s : State) : State := s.onFcu fun f => { f with schedule := none }

/-- An occurrence of a fault raised within a cycle mark. The mark is taken, so a cancellation it leads to
takes no further mark (R34). -/
def takeFaultInMark (f : FaultCode) (s : State) : State := takeFaultWith discardSchedule f s

/-- Whether a valve event is a commutation failure (R161). -/
def ValveEvent.isFailure : ValveEvent → Bool
  | .xt _ _ => false
  | .fv _ _ => false
  | .pfq _ => true

/-- The fault that the Coordination Unit raises at the events of a mark: a repeated failure (R163). No other event of
the mark changes the history it is judged by. -/
def failureFault (events : List ValveEvent) (s : State) : List FaultCode :=
  if events.any ValveEvent.isFailure && s.failureRepeats then [.commutationFailureRepeated] else []

/-- A fault on its way to the Station Controller, which takes it later in the mark. -/
def onItsWay (_ : FaultCode) (s : State) : State := s

/-- A cycle mark (R36). The Coordination Unit takes the events and then the mark. The Station Controller takes a
repeated failure after the event that raised it, before or after the mark's HEALTH, and the fault of the redundancy
state and the SURVEY test relative to all of these as the spec leaves free (R191). -/
def cycleMark (own : Bool) (s : State) : State :=
  let r := s.lmon.marked s.straps own s.now
  inTwoStreams
    (r.2.map (handEvent onItsWay) ++
      shuffle (Config.freeOrder s.freeCount) (cruMark :: (failureFault r.2 s).map takeFaultInMark))
    ((enteredFault s.lmon.redundancy (s.lmon.judged s.straps).redundancy).toList.map takeFaultInMark ++ [surveyTest])
    (s.onLmon fun _ => r.1).drawn

/-! ### Own firing instant and reference event (R29, R34) -/

/-- The LMON re-armed at an own firing instant, steps 2 to 5 of R29. -/
def Lmon.fired (m : Lmon) (t : StationTime) : Lmon :=
  { m with rv := m.rv.armAt t, fv := m.fv.clearDisarm, pf := m.pf.disarm, phase := .conducting }

/-- An own firing instant taken by the LMON (R29). -/
def lmonFiring (t : StationTime) (s : State) : State :=
  (if s.lmon.markTaken then s else cycleMark true s).onLmon fun m => m.fired t

/-- A reference event taken by the LMON: a pending mark taken, a new reference cycle opened (R34). -/
def lmonReference (zRef : StationTime) (s : State) : State :=
  (if s.lmon.markTaken then s else cycleMark false s).onLmon fun m =>
    { m with markTaken := false, fallback := some (after zRef (ticks s.aru.period 9000)) }

/-- Whether station time has reached the fallback instant of a cycle whose mark is not taken (R34). -/
def State.pastFallback (s : State) : Bool :=
  !s.lmon.markTaken &&
    match s.lmon.fallback with
    | some m => reached s.now m
    | none => false

/-- The LMON when NLEV is taken (R22). -/
def Lmon.begun (m : Lmon) (straps : Straps) (now : StationTime) : Lmon :=
  { m with
    counted := straps.nlev, unknowns := straps.nlev
    rv := m.rv.armAt now
    redundancy := redundancyOf 0 straps.red }

end Sys2Proof.Machine
end

