-- ==== Sys2Proof/Machine/Schedule.lean ====
section
/-! DEFINITION. The Firing Computation Unit (chapter 4): the six stages (R63 to R70), the recomputation of a
provisional instant (R72, R73) and the cancellation (R75), with the response to a fault that uses it. -/

namespace Sys2Proof.Machine

/-- What a reference event carries (R58). -/
structure ReferenceEvent where
  accepted  : Bool
  zRef      : StationTime
  period    : Nat
  missCount : Nat
deriving DecidableEq, Repr

/-- The ordered angle as it is held (R64). -/
def heldAngle (alpha : Nat) : Nat := clamp 500 16500 alpha

/-- Stage 2: the advance applied, never below 500 (R65). -/
def advancedAngle (alphaReq advance : Nat) : Nat := max 500 (alphaReq - advance)

/-- Stage 3: the recovery-time limit (R66). -/
def appliedAngle (alphaA mu gammaMin : Nat) : Nat := clamp 500 16500 (min alphaA (18000 - mu - gammaMin))

/-- The spacing guard for a predecessor instant P (R68). -/
def guarded (unguarded p : StationTime) (step cap : Nat) : StationTime :=
  earlier (later unguarded (after p step)) (after unguarded cap)

/-- The instant of a current timed predecessor FIRE (R68, R69). -/
def predecessorInstant (s : State) : Option StationTime := s.cru.predecessor.bind fun r => r.instant

/-- The α_f of a computation made now (R64 to R66). -/
def computedAngle (s : State) : Nat :=
  appliedAngle (advancedAngle s.fcu.alphaReq (appliedAdvance s.cru.advances)) s.cru.muLast s.stc.gammaMin

/-- The schedule of a computation made now (R67 to R70). DESIGN CHOICE: in the isolation hold too, a timed FIRE that
the predecessor record still holds guards the schedule, which is then not provisional
(notes/assumptions/29.md). -/
def computedSchedule (e : ReferenceEvent) (s : State) : Schedule :=
  let f0 := after e.zRef (ticks e.period (computedAngle s))
  let step := ticks e.period 2000
  let cap := ticks e.period 1500
  match predecessorInstant s with
  | some p => { firing := guarded f0 p step cap, unguarded := f0, step := step, cap := cap, provisional := false }
  | none => { firing := f0, unguarded := f0, step := step, cap := cap, provisional := true }

/-- A reference event taken by the FCU: in FIRING or the isolation hold, the six stages (R63). -/
def fcuReference (e : ReferenceEvent) (s : State) : State :=
  if s.firingOrHold then
    s.onFcu fun f => { f with schedule := some (computedSchedule e s), lastAlpha := some (computedAngle s) }
  else s

/-- A provisional schedule recomputed with a predecessor instant (R72). -/
def Schedule.recomputed (c : Schedule) (p : StationTime) : Schedule :=
  { c with firing := guarded c.unguarded p c.step c.cap, provisional := false }

/-- A current predecessor FIRE handed to the FCU, with its instant or untimed (R72, R73). -/
def fcuPredecessor (instant : Option StationTime) (s : State) : State :=
  match instant, s.fcu.schedule with
  | some p, some c =>
    if c.provisional then s.onFcu fun f => { f with schedule := some (c.recomputed p) } else s
  | none, _ => s
  | some _, none => s

/-- The Station Controller cancels the schedule: it is discarded, and a cancellation at or after M takes the
cycle mark (R34, R75). One that finds no schedule has no effect. -/
def cancelSchedule (s : State) : State :=
  match s.fcu.schedule with
  | none => s
  | some _ => if s.pastFallback then cycleMark false (discardSchedule s) else discardSchedule s

/-- Take an occurrence of a fault (R186). -/
def takeFault (f : FaultCode) (s : State) : State := takeFaultWith cancelSchedule f s

end Sys2Proof.Machine
end

