-- ==== Sys2Proof/Machine/Sequence.lean ====
section
/-! DEFINITION. Peers, orders and the firing sequence (chapter 8): presence (R135), the ORDER state (R140 to
R143), the predecessor record (R144 to R148), the firing number (R149), START (R150, R151) and the own FIRE
(R152), with the order commands at the Station Controller (R173 to R176, R189). -/

namespace Sys2Proof.Machine

/-! ### Presence (R135) -/

/-- Whether the RIF delivers a copy from this origin to the blocks: not in INERT, and never an own telegram
(R83, R87, R135). -/
def State.delivers (s : State) (q : Nat) : Bool := s.stc.station ≠ .inert && !s.isOwn q

/-- A delivery heard from its origin (R135). -/
def heard (q : Nat) (s : State) : State :=
  s.onCru fun c => c.onPeer q fun p =>
    { p with presence := .present, deadline := some (after s.now (3 * s.aru.period)) }

/-- A delivered copy from position `q`: the hand-over taken, the origin heard, then the act of the block
concerned. A copy that is not delivered changes nothing else. -/
def delivered (c : Instr) (q : Nat) (act : State → State) (s : State) : State :=
  let t := s.taken c
  if t.delivers q then act (heard q t) else t

/-! ### Orders (R137, R141, R142) -/

/-- The commands the CRU hands to the Station Controller (R142, R173). -/
inductive Command where
  | hold
  | deblock
  | block
  | bypassBlock
  | clear
deriving DecidableEq, Repr

/-- Whether a DEBLOCK is accepted: BLOCKED, LOCKED, not EXHAUSTED (R174). -/
def acceptsDeblock (s : State) : Bool :=
  s.stc.station = .blocked && s.aru.lock = .locked && s.lmon.redundancy ≠ .exhausted

/-- A DEBLOCK taken by the Station Controller (R173, R174). -/
def stcDeblock (s : State) : State := if acceptsDeblock s then enterFiring s else s

/-- The block record emptied. -/
def emptyRecord (s : State) : State := s.onStc fun c => { c with record := none }

/-- The isolation hold made not running (R182). -/
def stopHold (s : State) : State := s.onStc fun c => { c with holdRunning := false }

/-- A BLOCK taken by the Station Controller (R173, R175). -/
def stcBlock (s : State) : State :=
  match s.stc.station with
  | .firing => blockFromFiring cancelSchedule s
  | .bypass => (emptyRecord (lcaExit s)).enter .blocked
  | .tripped =>
    let t := emptyRecord (lcaExit s)
    if s.stc.holdRunning then cancelSchedule (stopHold t) else t
  | .start => s
  | .inert => s
  | .survey => s
  | .blocked => s

/-- A BYPASS_BLOCK taken by the Station Controller (R173, R176). -/
def stcBypassBlock (s : State) : State :=
  if s.stc.station = .firing then takeBypass cancelSchedule (ownBypass s 0) (originateBypass (ownBypass s 0) s)
  else s

/-- A CLEAR taken by the Station Controller (R173, R189). -/
def stcClear (s : State) : State :=
  if s.stc.station = .blocked then
    s.onStc fun c => { c with faults := clearedFaults c.faults, escalation := [] }
  else s

/-- A command executed at the Station Controller (R173). -/
def stcCommand (k : Command) (s : State) : State :=
  match k with
  | .hold => s
  | .deblock => stcDeblock s
  | .block => stcBlock s
  | .bypassBlock => stcBypassBlock s
  | .clear => stcClear s

/-- Whether an ORDER is taken: from 13 or 14, under its own control id (R137, R141). -/
def fromControl (o : Order) : Bool := isControlPosition o.origin && o.controlId = o.origin

/-- The FCU is handed an ordered angle (R64). -/
def handAngle (alpha : Nat) (s : State) : State := s.onFcu fun f => { f with alphaReq := heldAngle alpha }

/-- ORDER_LOST signalled cleared if it was signalled, and staleness reset (R141). -/
def resetStaleness (s : State) : State :=
  (if s.cru.lostSignalled then s.clearFault .orderLost else s).onCru fun c =>
    { c with staleness := 0, stale := false, lostSignalled := false }

/-- The key of an ORDER (R142). -/
def orderKey (o : Order) : OrderKey := { source := o.origin, number := o.number }

/-- The command of an ORDER of the active source, executed unless its key repeats the last executed pair
(R142). -/
def decideCommand (k : Command) (o : Order) (s : State) : State :=
  if s.cru.lastExecuted = some (orderKey o) then s
  else stcCommand k (s.onCru fun c => { c with lastExecuted := some (orderKey o) })

/-- An ORDER taken by the CRU (R137, R141, R142). -/
def cruOrder (k : Command) (o : Order) (s : State) : State :=
  if !fromControl o then s.onCru fun c => { c with foreignOrders := satSucc 255 c.foreignOrders }
  else if !o.active then s
  else
    decideCommand k o
      (resetStaleness (handAngle o.alpha (s.onCru fun c => { c with activeSource := some o.origin })))

/-! ### Staleness (R143) -/

/-- Whether the staleness just raised makes ORDER_LOST (R143). -/
def ordersLost (s : State) : Bool :=
  50 ≤ s.cru.staleness && (s.stc.station = .firing || s.stc.station = .bypass) &&
    s.cru.activeSource.isSome && !s.cru.lostSignalled

/-- Staleness raised at a reference event (R143). -/
def Cru.staler (c : Cru) : Cru :=
  { c with staleness := satSucc 255 c.staleness, stale := c.stale || 5 ≤ satSucc 255 c.staleness }

/-- A reference event taken by the CRU: the advance list decays and staleness is counted (R143, R167). -/
def cruReference (s : State) : State :=
  let t := s.onCru fun c => { c.staler with advances := decayAdvances c.advances }
  if ordersLost t then takeFault .orderLost (t.onCru fun c => { c with lostSignalled := true }) else t

/-! ### The predecessor (R144 to R146) -/

/-- The classification of a FIRE from p - 1 (R145). -/
inductive FireClass where
  | current
  | inverted
  | late
deriving DecidableEq, Repr

/-- A FIRE from p - 1 judged against F_prev (R145). -/
def classifyFire (period : Nat) (previous instant : Option StationTime) : FireClass :=
  match previous, instant with
  | some f, some p =>
    if ((period / 2 : Nat) : Int) ≤ sdiff p f then .current else if 0 < sdiff p f then .inverted else .late
  | none, _ => .current
  | some _, none => .current

/-- The predecessor record written with a current FIRE (R146). -/
def writePredecessor (f : Fire) (s : State) : State :=
  s.onCru fun c =>
    { c with predecessor := some { fn := f.fn, instant := f.instant, replaced := c.predecessor.isSome } }

/-- A current FIRE enters the record, a replacement after F_prev raises SEQUENCE_SLIP, and the FIRE is handed
to the FCU (R146). -/
def currentFire (f : Fire) (s : State) : State :=
  let t := writePredecessor f s
  fcuPredecessor f.instant
    (if s.cru.predecessor.isSome ∧ s.fcu.previous.isSome then takeFault .sequenceSlip t else t)

/-- A FIRE from p - 1 classified (R144, R145). -/
def predecessorFire (f : Fire) (s : State) : State :=
  match classifyFire s.aru.period s.fcu.previous f.instant with
  | .current => currentFire f s
  | .inverted => takeFault .sequenceInversion (s.onCru fun c => { c with inversionMark := true })
  | .late => s.onCru fun c => { c with lateFires := satSucc 255 c.lateFires }

/-- A FIRE from p - 2 while FIRING (R150). -/
def bridgePredecessorFire (s : State) : State :=
  if s.stc.station = .firing then s.onCru fun c => { c with bridgeHeard := true } else s

/-- A start request from p + 2 (R151). -/
def startRequest (s : State) : State :=
  if s.stc.station = .firing ∧ s.cru.firedSince = false ∧ s.lca.train = none then lcaCompanion s else s

/-- A FIRE delivered from a firing position (R138, R144, R150, R151). -/
def cruFire (f : Fire) (s : State) : State :=
  if isFiringPosition f.origin then
    let t := s.onCru fun c => c.onPeer f.origin fun p => { p with fire := some f.fn }
    if f.origin = positionBefore s.straps.pos 1 then (if s.firingOrHold then predecessorFire f t else t)
    else if f.origin = positionBefore s.straps.pos 2 then bridgePredecessorFire t
    else if f.origin = positionAfter s.straps.pos 2 ∧ f.start then startRequest t
    else t
  else s

/-- A HEALTH delivered from a firing position (R139, R158). -/
def cruHealth (q : Nat) (instant : Option StationTime) (s : State) : State :=
  if isFiringPosition q then
    let t := s.onCru fun c => c.onPeer q fun p => { p with xt := instant }
    if q = positionBefore s.straps.pos 4 then measureMu instant t else t
  else s

/-! ### The own FIRE (R147 to R152, R155, R159) -/

/-- The FN of an own firing by the record it consumes (R149). -/
def nextFn (c : Cru) : FiringNumber :=
  match c.predecessor with
  | some r => r.fn + 1
  | none => c.ownFn + 12

/-- Whether an own firing is clean (R148). -/
def cleanFiring (c : Cru) : Bool :=
  match c.predecessor with
  | some r => !r.replaced && !c.inversionMark
  | none => false

/-- Whether an own firing raises the miss count to 3 (R147). -/
def raisesSilent (c : Cru) : Bool := c.predecessor.isNone && c.missCount = 2

/-- Whether an own firing's FIRE carries START (R150). -/
def carriesStart (c : Cru) : Bool := !c.firedSince && !c.bridgeHeard

/-- The miss count after an own firing (R147). -/
def missesAfter (c : Cru) : Nat := if c.predecessor.isSome then 0 else satSucc 3 c.missCount

/-- The record consumed and a miss counted, step 1 of R152 (R147). -/
def Cru.consumed (c : Cru) : Cru := { c with predecessor := none, missCount := missesAfter c }

/-- The firing number assigned and fired since entry set, steps 2 and 3 of R152 (R149, R150). -/
def assignFn (fn : FiringNumber) (s : State) : State :=
  s.onCru fun c => { c with ownFn := fn, ownFnValid := true, firedSince := true }

/-- The clearing signals of a clean firing (R148). -/
def clearSequence (s : State) : State :=
  ((s.clearFault .sequenceInversion).clearFault .sequenceSlip).clearFault .peerSilent

/-- The firing judged, step 4 of R152: a clean one signals the clearing, and the inversion mark becomes no (R148). -/
def judgeFiring (clean : Bool) (s : State) : State :=
  (if clean then clearSequence s else s).onCru fun c => { c with inversionMark := false }

/-- The γ start discarded and the overdue watch set at an own firing, no watch for a bypass member (R155,
R159). -/
def watchFiring (f : StationTime) (s : State) : State :=
  s.onCru fun c =>
    { c with
      gammaStart := none
      watch :=
        if s.isMember then c.watch
        else some { deadline := after f (ticks s.aru.period 18000), firing := f } }

/-- The FIRE originated at the own firing instant `f` (R108, R152). The α_f is last α_f; a schedule is only
made together with it (R66), and 0 stands where there is none (notes/assumptions/21.md). -/
def originateFire (f : StationTime) (c : Cru) (s : State) : State :=
  originate .fire (firePayload (nextFn c) (s.fcu.lastAlpha.getD 0) (carriesStart c)) (some f) s

/-- An own firing instant taken by the CRU, in the order of R152: the record of the firing, as it stood, gives the
number, the flags and the judgement. PEER_SILENT, raised in step 1, is taken by the Station Controller somewhere among
the steps that follow: the spec leaves that order free. -/
def cruFiring (f : StationTime) (s : State) : State :=
  let c := s.cru
  let rest := [assignFn (nextFn c), judgeFiring (cleanFiring c), originateFire f c]
  let t := (watchFiring f s).onCru Cru.consumed
  if raisesSilent c then inTwoStreams rest [takeFault .peerSilent] t else inTurn rest t

end Sys2Proof.Machine
end

