-- ==== Sys2Proof/Machine/Ring.lean ====
section
/-! DEFINITION. The Ring Interface (chapters 5 and 7): arrivals (R85 to R92), returns and ring health (R123 to
R129), departures (R99 to R102, R122) and the loss of a peer (R136). -/

namespace Sys2Proof.Machine

/-! ### Counts (R103) -/

/-- Change the counts of a port. -/
def RingPort.onCounts (p : RingPort) (f : PortCounts → PortCounts) : RingPort := { p with counts := f p.counts }

/-- Change the counts of a port of the machine. -/
def State.count (s : State) (p : Port) (f : PortCounts → PortCounts) : State :=
  s.onPort p fun r => r.onCounts f

/-- One CRC error more (R85). -/
def PortCounts.addCrc (c : PortCounts) : PortCounts := { c with crc := satSucc 255 c.crc }

/-- One malformed telegram more (R86). -/
def PortCounts.addMalformed (c : PortCounts) : PortCounts := { c with malformed := satSucc 255 c.malformed }

/-- One orphan more (R88). -/
def PortCounts.addOrphan (c : PortCounts) : PortCounts := { c with orphan := satSucc 255 c.orphan }

/-- One forwarding overflow more (R89). -/
def PortCounts.addOverflow (c : PortCounts) : PortCounts := { c with overflow := satSucc 255 c.overflow }

/-- One stale copy more (R91). -/
def PortCounts.addStale (c : PortCounts) : PortCounts := { c with stale := satSucc 255 c.stale }

/-- One undeliverable copy more (R92). -/
def PortCounts.addUndeliverable (c : PortCounts) : PortCounts :=
  { c with undeliverable := satSucc 255 c.undeliverable }

/-! ### Arrival (R85 to R92) -/

/-- A command handed on, to be taken at this tick (R87, R92; notes/assumptions/6.md). -/
def State.handOn (s : State) (c : Instr) : State := { s with handed := s.handed ++ [c] }

/-- The copy forwarded: entered in the buffer with its hops raised, or dropped at a full one (R89). -/
def RingPort.forward (p : RingPort) (t : Telegram) (stamp : StationTime) : RingPort :=
  if p.forwarding.length < 4 then
    { p with forwarding := p.forwarding ++ [{ telegram := { t with hops := t.hops + 1 }, stamp := stamp }] }
  else p.onCounts PortCounts.addOverflow

/-- An accepted copy: delivered with its instant when its kind and length are known, its origin heard;
counted otherwise (R92, R131, R132, R135). -/
def deliverCopy (p : Port) (t : Telegram) (stamp : StationTime) (s : State) : State :=
  match deliveredCommand t (translatedInstant t stamp (s.port p).hopDelay) with
  | some c => (heard t.origin s).handOn c
  | none => s.count p PortCounts.addUndeliverable

/-- The sixth step: the copy judged against the window of its origin (R90, R91, R92). -/
def windowStep (p : Port) (t : Telegram) (stamp : StationTime) (s : State) : State :=
  match judgeSequence (s.cru.peer t.origin).window t.sequence with
  | .duplicate => s
  | .stale => s.count p PortCounts.addStale
  | .accepted w => deliverCopy p t stamp (s.onCru fun c => c.onPeer t.origin fun r => { r with window := some w })

/-- The steps after the format step: own telegrams, orphans, forwarding, and delivery unless INERT (R83, R87,
R88, R89). -/
def routeCopy (p : Port) (t : Telegram) (stamp : StationTime) (s : State) : State :=
  if s.stc.station ≠ .inert ∧ s.isOwn t.origin then
    s.handOn (.ownTelegramReturn p t.sequence t.age t.hops stamp)
  else if 14 ≤ t.hops then s.count p PortCounts.addOrphan
  else
    let u := s.onPort p fun r => r.forward t stamp
    if s.stc.station = .inert then u else windowStep p t stamp u

/-- The arrival stamp of a run whose last byte has just ended (R84). -/
def arrivalStamp (now : StationTime) (run : List Byte) : StationTime := before now (2 * run.length)

/-- The arrival of a run (R84 to R92). -/
def arrive (p : Port) (run : List Byte) (s : State) : State :=
  if checkPasses run then
    match readRun run with
    | some r =>
      if formatPasses p run.length r then routeCopy p r.telegram (arrivalStamp s.now run) s
      else s.count p PortCounts.addMalformed
    | none => s.count p PortCounts.addCrc
  else s.count p PortCounts.addCrc

/-! ### Ring health (R128, R129) -/

/-- The runs and the health of a ring after a matched return (R128). -/
def RingPort.matched (p : RingPort) : RingPort :=
  { p with
    returnRun := satSucc 3 p.returnRun, missRun := 0
    health := if satSucc 3 p.returnRun = 3 then .up else p.health }

/-- The runs and the health of a ring after a missing return (R128). -/
def RingPort.missing (p : RingPort) : RingPort :=
  { p with
    missRun := satSucc 3 p.missRun, returnRun := 0
    health := if satSucc 3 p.missRun = 3 then .down else p.health }

/-- The fault a change of one ring's health concerns, by the health of the other ring (R129). -/
def ringFault (other : RingHealth) : FaultCode :=
  match other with
  | .up => .ringDegraded
  | .down => .ringLost

/-- What the change of a ring's health from `was` signals to the Station Controller (R129, R172). -/
def healthChanged (p : Port) (was : RingHealth) (s : State) : State :=
  match was, (s.port p).health with
  | .up, .down => surveyTest (takeFault (ringFault (s.port (otherPort p)).health) s)
  | .down, .up => surveyTest (s.clearFault (ringFault (s.port (otherPort p)).health))
  | .up, .up => s
  | .down, .down => s

/-- A matched return of a ring (R128, R129). -/
def matchedReturn (p : Port) (s : State) : State :=
  healthChanged p (s.port p).health (s.onPort p RingPort.matched)

/-- A missing return of a ring (R128, R129). -/
def missingReturn (p : Port) (s : State) : State :=
  healthChanged p (s.port p).health (s.onPort p RingPort.missing)

/-! ### Returns (R124, R126, R127) -/

/-- The measured hop delay: floor((RTT - residence) / links) (R126). -/
def measuredDelay (e : Outstanding) (age hops : Nat) (stamp : StationTime) : Int :=
  (sdiff stamp e.departure - ((age : Int) - (e.initialAge : Int))) / ((hops + 1 : Nat) : Int)

/-- The estimate after a measurement, truncated toward zero and clamped (R127). -/
def hopDelayAfter (estimate : Nat) (measured : Int) : Nat :=
  clampInt 0 2000 ((estimate : Int) + (measured - (estimate : Int)).tdiv 4)

/-- The port after a matched return: the entry removed, and the hop delay measured unless the age is lost
(R124, R126, R127). DESIGN CHOICE: it is measured whatever the health of the ring, DOWN too
(notes/assumptions/30.md). -/
def RingPort.returned (p : RingPort) (e : Outstanding) (age hops : Nat) (stamp : StationTime) : RingPort :=
  { p with
    outstanding := removeFirst (fun x => x.sequence = e.sequence) p.outstanding
    hopDelay := if age = 65535 then p.hopDelay else hopDelayAfter p.hopDelay (measuredDelay e age hops stamp) }

/-- A returning own telegram matched against the outstanding list of its ring (R124). -/
def ownReturn (p : Port) (q : Seq) (age hops : Nat) (stamp : StationTime) (s : State) : State :=
  match (s.port p).outstanding.find? fun x => x.sequence = q with
  | some e => matchedReturn p (s.onPort p fun r => r.returned e age hops stamp)
  | none => s

/-- Whether the earliest outstanding entry of a port has expired (R123). -/
def returnExpired (p : Port) (s : State) : Bool :=
  match (s.port p).outstanding with
  | e :: _ => reached s.now e.expiry
  | [] => false

/-- The port without its earliest outstanding entry. -/
def RingPort.dropEarliest (p : RingPort) : RingPort := { p with outstanding := p.outstanding.drop 1 }

/-! ### Departure (R99 to R102, R122) -/

/-- Whether a port's link is free (R84). -/
def RingPort.linkFree (p : RingPort) (now : StationTime) : Bool :=
  match p.busyUntil with
  | none => true
  | some t => reached now t

/-- Whether the arbiter of a port has something to send on a free link (R99). -/
def departureDue (p : Port) (s : State) : Bool :=
  (s.port p).linkFree s.now && (!(s.port p).forwarding.isEmpty || !(s.port p).queue.isEmpty)

/-- The link taken by a run of bytes from `now` (R84). -/
def RingPort.send (r : RingPort) (now : StationTime) (bytes : List Byte) : RingPort :=
  { r with sent := bytes, busyUntil := some (after now (2 * bytes.length + 8)) }

/-- The age of a forwarded telegram at its departure (R100). -/
def forwardedAge (e : ForwardEntry) (now : StationTime) : Nat :=
  min 65535 (e.telegram.age + (now - e.stamp).toNat)

/-- A forwarded telegram as it departs (R100, R102). -/
def forwardedTelegram (e : ForwardEntry) (now : StationTime) : Telegram :=
  { e.telegram with age := forwardedAge e now }

/-- The first age of an own telegram (R101). -/
def firstAge (e : QueueEntry) (now : StationTime) : Nat :=
  match e.event with
  | some t => min 65535 (now - t).toNat
  | none => 0

/-- An own telegram as it departs (R101, R102). -/
def ownTelegram (pos : Nat) (e : QueueEntry) (now : StationTime) : Telegram :=
  { kind := e.kind.code, origin := pos, sequence := e.sequence, timed := e.event.isSome, hops := 0
    age := firstAge e now, payload := e.payload }

/-- The outstanding entry of a departing own telegram (R121, R122). -/
def outstandingOf (e : QueueEntry) (now : StationTime) : Outstanding :=
  { sequence := e.sequence, departure := now, initialAge := firstAge e now, expiry := after now 20000 }

/-- The outstanding list with a new entry, its earliest displaced when it is full (R122). -/
def enterOutstanding (l : List Outstanding) (e : Outstanding) : List Outstanding :=
  (if l.length < 8 then l else l.drop 1) ++ [e]

/-- A forwarded telegram departs (R99, R100, R102). -/
def departForwarded (p : Port) (e : ForwardEntry) (rest : List ForwardEntry) (s : State) : State :=
  s.onPort p fun r =>
    ({ r with forwarding := rest } : RingPort).send s.now (encodeTelegram p (forwardedTelegram e s.now))

/-- An own telegram departs and enters the outstanding list; an entry displaced from a full list is a missing
return (R99, R101, R102, R122). -/
def departOwn (p : Port) (e : QueueEntry) (rest : List QueueEntry) (s : State) : State :=
  let t := s.onPort p fun r =>
    ({ r with queue := rest, outstanding := enterOutstanding r.outstanding (outstandingOf e s.now) } : RingPort).send
      s.now (encodeTelegram p (ownTelegram s.straps.pos e s.now))
  if (s.port p).outstanding.length < 8 then t else missingReturn p t

/-- The arbiter's decision: the earliest forwarded telegram, or else the head of the queue (R99). -/
def depart (p : Port) (s : State) : State :=
  match (s.port p).forwarding, (s.port p).queue with
  | e :: rest, _ => departForwarded p e rest s
  | [], e :: rest => departOwn p e rest s
  | [], [] => s

/-! ### Loss of a peer (R136) -/

/-- Whether a PRESENT peer has reached its absence deadline (R136). -/
def Peer.absent (p : Peer) (now : StationTime) : Bool :=
  p.presence = .present &&
    match p.deadline with
    | some d => reached now d
    | none => false

/-- Whether the peer at a position is to be lost now; in INERT none is (R135, R136, R171). -/
def peerAbsent (q : Nat) (s : State) : Bool := s.stc.station ≠ .inert && (s.cru.peer q).absent s.now

/-- A peer LOST: its window emptied and its deadline absent (R136). -/
def Peer.gone (p : Peer) : Peer := { p with presence := .lost, deadline := none, window := none }

end Sys2Proof.Machine
end

