-- ==== Sys2Proof/Machine/Reference.lean ====
section
/-! DEFINITION. The Angle Reference Unit (chapter 3): taking a qualified crossing in each lock state (R48 to
R54), the miss and the holdover limit (R55, R56), and the hand-over of a reference event to the four blocks
that take it (R58). -/

namespace Sys2Proof.Machine

/-- The acceptance window set from Z_pred with the T_est in force (R52). -/
def windowAt (zPred : StationTime) (period : Nat) : Window :=
  { opens := before zPred (ticks period 1000), closes := after zPred (ticks period 300) }

/-- The end of the blanking interval of a crossing at `t` (R45). -/
def blankingEnd (t : StationTime) (period : Nat) : StationTime := after t (ticks period 9000)

/-- Whether an instant lies in a window, both ends included (R52, R53). -/
def Window.holds (w : Window) (t : StationTime) : Bool := atOrAfter t w.opens && atOrAfter w.closes t

/-- The entry to FREE (R48). -/
def Aru.toFree (a : Aru) : Aru :=
  { a with lock := .free, previous := none, goodCount := 0, missCount := 0, window := none }

/-- The first crossing of an acquisition (R48). -/
def Aru.firstCrossing (a : Aru) (t : StationTime) : Aru :=
  { a with lock := .acquiring, previous := some t, goodCount := 0, blanking := some (blankingEnd t a.period) }

/-- Whether a measured period lies in the bounds (R49). -/
def goodPeriod (d : Int) : Bool := (periodMin : Int) ≤ d && d ≤ (periodMax : Int)

/-- The period estimate filtered by an eighth of the error (R49, R53). -/
def filteredPeriod (period : Nat) (measured : Int) : Int :=
  (period : Int) + (measured - (period : Int)).tdiv 8

/-- The estimate after a good measurement in ACQUIRING (R49). -/
def acquiredPeriod (goodCount period : Nat) (measured : Int) : Nat :=
  if goodCount = 0 then measured.toNat else (filteredPeriod period measured).toNat

/-- The entry to LOCKED at a crossing `t` (R51). -/
def Aru.toLocked (a : Aru) (t : StationTime) : Aru :=
  { a with
    lock := .locked, zRef := t, zPred := after t a.period, missCount := 0
    window := some (windowAt (after t a.period) a.period) }

/-- A crossing in ACQUIRING with this measured period (R49, R51). -/
def Aru.acquire (a : Aru) (t : StationTime) (measured : Int) : Aru :=
  if goodPeriod measured then
    let p := acquiredPeriod a.goodCount a.period measured
    let b : Aru :=
      { a with
        period := p, goodCount := a.goodCount + 1, previous := some t, blanking := some (blankingEnd t p) }
    if b.goodCount = 3 then b.toLocked t else b
  else { a with goodCount := 0, previous := some t, blanking := some (blankingEnd t a.period) }

/-- A crossing in ACQUIRING (R49). With no previous crossing, which R48 excludes, it starts the acquisition
afresh. -/
def Aru.acquiringCrossing (a : Aru) (t : StationTime) : Aru :=
  match a.previous with
  | some p => a.acquire t (sdiff t p)
  | none => a.firstCrossing t

/-- The T_est of an accepted crossing (R53, steps 1 and 2; R57). -/
def Aru.acceptedPeriod (a : Aru) (t : StationTime) : Nat :=
  clampInt periodMin periodMax (filteredPeriod a.period (sdiff t a.zRef))

/-- The Z_ref of an accepted crossing (R53, steps 3 and 4). -/
def Aru.acceptedZero (a : Aru) (t : StationTime) : StationTime :=
  shifted a.zPred ((sdiff t a.zPred).tdiv 4)

/-- An accepted crossing, steps 1 to 7 of R53. -/
def Aru.accept (a : Aru) (t : StationTime) : Aru :=
  let p := a.acceptedPeriod t
  let z := a.acceptedZero t
  { a with
    period := p, zRef := z, zPred := after z p, missCount := 0, lock := .locked
    window := some (windowAt (after z p) p), blanking := some (blankingEnd t p) }

/-- A stray crossing (R54). -/
def Aru.stray (a : Aru) : Aru := { a with strays := satSucc 255 a.strays }

/-- A miss, steps 1 to 5 of R55. -/
def Aru.missed (a : Aru) : Aru :=
  { a with
    zRef := a.zPred, missCount := a.missCount + 1, zPred := after a.zPred a.period, lock := .holdover
    window := some (windowAt (after a.zPred a.period) a.period) }

/-- Whether a qualification is under way for an edge in a window (R55). -/
def Aru.qualifyingIn (a : Aru) (w : Window) : Bool :=
  match a.qualifier with
  | some t => w.holds t
  | none => false

/-- Whether a miss is to be declared: the window has closed and no qualification for it is under way (R55). -/
def Aru.missDue (a : Aru) (now : StationTime) : Bool :=
  (a.lock = .locked || a.lock = .holdover) &&
    match a.window with
    | some w => reached now w.closes && !a.qualifyingIn w
    | none => false

/-- Whether the qualification under way has stood 50 ticks (R44). -/
def Aru.qualifies (a : Aru) (now : StationTime) : Option StationTime :=
  match a.qualifier with
  | some t => if reached now (after t 49) then some t else none
  | none => none

/-- Whether an acquisition has timed out (R50). -/
def Aru.acquisitionOver (a : Aru) (now : StationTime) : Bool :=
  a.lock = .acquiring &&
    match a.previous with
    | some p => reached now (after p (2 * periodMax))
    | none => false

/-- Whether a crossing's edge time lies in the acceptance window (R53). -/
def Aru.accepts (a : Aru) (t : StationTime) : Bool :=
  match a.window with
  | some w => w.holds t
  | none => false

/-- Whether a rising edge at `now` is suppressed by the blanking interval (R45). -/
def Aru.blanked (a : Aru) (now : StationTime) : Bool :=
  match a.blanking with
  | some e => !atOrAfter now e
  | none => false

/-! ### The reference event (R58) -/

/-- The reference event the ARU has just produced. -/
def referenceOf (accepted : Bool) (a : Aru) : ReferenceEvent :=
  { accepted := accepted, zRef := a.zRef, period := a.period, missCount := a.missCount }

/-- A reference event taken by the Station Controller: its station time stamps the escalation list, and the
isolation hold counts it (R182, R188). -/
def stcReference (s : State) : State :=
  s.onStc fun c =>
    { c with
      lastReference := s.now
      holdCount := if s.inHold then c.holdCount + 1 else c.holdCount }

/-- The four receivers of a reference event (R58). -/
def referenceReceivers (e : ReferenceEvent) : List (State → State) :=
  [fcuReference e, lmonReference e.zRef, cruReference, stcReference]

/-- The Station Controller's SURVEY test at a change of the lock state (R172). -/
def lockTest (was : LockState) (s : State) : List (State → State) := if was = s.aru.lock then [] else [surveyTest]

/-- An accepted crossing with its reference event; the receivers take it in any order (R53, R58). -/
def acceptCrossing (t : StationTime) (s : State) : State :=
  let u := s.onAru fun a => a.accept t
  inAnyOrder (referenceReceivers (referenceOf true u.aru) ++ lockTest s.aru.lock u) u

/-- The ARU's entry to FREE with the SURVEY test of the changed lock state (R48, R172). -/
def enterFree (s : State) : State := surveyTest (s.onAru Aru.toFree)

/-- What the twelfth miss adds: the entry to FREE and REFERENCE_LOST (R56). -/
def lossActs (missCount : Nat) : List (State → State) :=
  if missCount = 12 then [enterFree, takeFault .referenceLost] else []

/-- A miss declared now, with its reference event, and at the twelfth the holdover limit. The blocks take them
in any order (R55, R56, R58). -/
def declareMiss (s : State) : State :=
  let u := s.onAru Aru.missed
  inAnyOrder
    (referenceReceivers (referenceOf false u.aru) ++ lockTest s.aru.lock u ++ lossActs u.aru.missCount) u

/-- A qualified crossing with edge time `t` taken by the lock state (R48 to R54). -/
def takeCrossing (t : StationTime) (s : State) : State :=
  match s.aru.lock with
  | .free => inTurn (lockTest .free (s.onAru fun a => a.firstCrossing t)) (s.onAru fun a => a.firstCrossing t)
  | .acquiring =>
    let u := s.onAru fun a => a.acquiringCrossing t
    inTurn (lockTest .acquiring u) u
  | .locked => if s.aru.accepts t then acceptCrossing t s else s.onAru Aru.stray
  | .holdover => if s.aru.accepts t then acceptCrossing t s else s.onAru Aru.stray

end Sys2Proof.Machine
end

