-- ==== Sys2Proof/Machine/Settings.lean ====
section
/-! DEFINITION. The start-time settings (R115, R193 to R195): a SETTINGS taken into range, compared with the
settings in force, and accepted or rejected. -/

namespace Sys2Proof.Machine

/-- The mode a code names (R105). -/
def modeOfCode (n : Nat) : FaultMode :=
  if n = 0 then .trip else if n = 1 then .block else if n = 2 then .report else .ignore

/-- The allowed modes of a fault (R185). -/
def FaultCode.allows (f : FaultCode) (m : FaultMode) : Bool :=
  match f with
  | .redundancyLow => m = .report
  | .redundancyExhausted => m = .trip
  | .referenceLost => m = .trip || m = .block
  | .commutationFailureRepeated => m = .trip || m = .report
  | .ringDegraded => m = .report || m = .ignore
  | .ringLost => m = .trip
  | .orderLost => m = .block || m = .report
  | .sequenceInversion => m = .report || m = .block
  | .sequenceSlip => m = .report || m = .ignore
  | .peerSilent => m = .report || m = .block
  | .bypassConflict => m = .report
  | .settingsRejected => m = .report

/-- The lowest bit of a fault's field in the two mode bytes, for the seven selectable faults (R115). -/
def FaultCode.modeBit : FaultCode → Option Nat
  | .referenceLost => some 14
  | .commutationFailureRepeated => some 12
  | .ringDegraded => some 10
  | .orderLost => some 8
  | .sequenceInversion => some 6
  | .sequenceSlip => some 4
  | .peerSilent => some 2
  | .redundancyLow => none
  | .redundancyExhausted => none
  | .ringLost => none
  | .bypassConflict => none
  | .settingsRejected => none

/-- A mode code taken for a fault: its default when the code is outside its allowed set (R115). -/
def FaultCode.takenMode (f : FaultCode) (m : FaultMode) : FaultMode := if f.allows m then m else f.defaultMode

/-- The mode a SETTINGS gives a fault; a fault with no field keeps its one mode (R115). -/
def settingMode (modes : BitVec 16) (f : FaultCode) : FaultMode :=
  match f.modeBit with
  | some b => f.takenMode (modeOfCode ((modes.toNat / 2 ^ b) % 4))
  | none => f.defaultMode

/-- The content of a SETTINGS: every field in range (R115, R194). -/
structure SettingsContent where
  gammaMin   : Nat
  gammaAlarm : Nat
  gain       : Nat
  modes      : Vector FaultMode 12
deriving DecidableEq, Repr

/-- A SETTINGS taken into range (R115). -/
def settingsContent (r : RawSettings) : SettingsContent :=
  let low := clamp 1000 3000 r.gammaMin
  { gammaMin := low
    gammaAlarm := clamp (low + 200) 4000 r.gammaAlarm
    gain := clamp 1 4 r.gain
    modes := FaultCode.all.map (settingMode r.modes) }

/-- The settings in force (R193). -/
def Stc.settingsInForce (c : Stc) : SettingsContent :=
  { gammaMin := c.gammaMin, gammaAlarm := c.gammaAlarm, gain := c.gain, modes := c.faults.map fun r => r.mode }

/-- Whether a SETTINGS is accepted as the settings in force (R194). -/
def Stc.acceptsSettings (c : Stc) : Bool :=
  (c.station = .start || c.station = .survey || c.station = .blocked) && !c.fired && !c.frozen

/-- The settings in force replaced; flags and counts of the fault table stay (R193, R195). -/
def Stc.settle (c : Stc) (n : SettingsContent) : Stc :=
  { c with
    gammaMin := n.gammaMin, gammaAlarm := n.gammaAlarm, gain := n.gain, frozen := true
    faults := c.faults.mapFinIdx fun i r h => { r with mode := n.modes[i] } }

/-- A SETTINGS judged by the Station Controller (R194). -/
def stcSettings (origin : Nat) (r : RawSettings) (s : State) : State :=
  if !isControlPosition origin then s
  else if s.stc.acceptsSettings then s.onStc fun c => c.settle (settingsContent r)
  else if settingsContent r = s.stc.settingsInForce then s
  else takeFault .settingsRejected s

end Sys2Proof.Machine
end

