-- ==== Sys2Proof/Machine/Deliveries.lean ====
section
/-! DEFINITION. The meanings of the other deliveries: FIRE, HEALTH, MARGIN, CFAIL, BYPASS, SETTINGS, QUERY and
REPORT (R137 to R139, R145, R165, R177, R192, R194). -/

namespace Sys2Proof.Machine

/-- FIRE (R145). -/
def execFire (f : Fire) (s : State) : Host.Outcome State Fault Refusal :=
  onPosition f.origin (delivered (.fire f) f.origin (cruFire f) s)

/-- HEALTH (R139, R158). -/
def execHealth (q : Nat) (instant : Option StationTime) (s : State) : Host.Outcome State Fault Refusal :=
  onPosition q (delivered (.health q instant) q (cruHealth q instant) s)

/-- A MARGIN from a firing position; a γ above 36000 is taken as 36000 (R113, R137, R165). -/
def cruMargin (q gamma : Nat) (s : State) : State :=
  if isFiringPosition q then requestMargin q (min 36000 gamma) s else s

/-- MARGIN (R165). -/
def execMargin (q gamma : Nat) (s : State) : Host.Outcome State Fault Refusal :=
  onPosition q (delivered (.margin q gamma) q (cruMargin q gamma) s)

/-- A CFAIL from a firing position, whatever its cause and count (R113, R137, R165). -/
def cruCfail (q : Nat) (s : State) : State := if isFiringPosition q then requestCfail q s else s

/-- CFAIL (R165). -/
def execCfail (q cause count : Nat) (s : State) : Host.Outcome State Fault Refusal :=
  onPosition q (delivered (.cfail q cause count) q (cruCfail q) s)

/-- BYPASS (R177). -/
def execBypass (b : BypassOrder) (s : State) : Host.Outcome State Fault Refusal :=
  onPosition b.origin (delivered (.bypass b) b.origin (takeBypass cancelSchedule b) s)

/-- SETTINGS (R194). -/
def execSettings (q : Nat) (r : RawSettings) (s : State) : Host.Outcome State Fault Refusal :=
  onPosition q (delivered (.settings q r) q (stcSettings q r) s)

/-- A QUERY: from a control station, targeted here, and not in START, a REPORT of a page 0..12 or a bad page
counted (R116, R137, R192). -/
def cruQuery (q target page : Nat) (s : State) : State :=
  if !isControlPosition q || target ≠ s.straps.pos || s.stc.station = .start then s
  else if page ≤ 12 then originateReport page s
  else s.onCru fun c => { c with badPages := satSucc 255 c.badPages }

/-- QUERY (R192). -/
def execQuery (q target page : Nat) (s : State) : Host.Outcome State Fault Refusal :=
  onPosition q (delivered (.query q target page) q (cruQuery q target page) s)

/-- REPORT (R137): only its origin is marked present. -/
def execReport (q : Nat) (s : State) : Host.Outcome State Fault Refusal :=
  onPosition q (delivered (.report q) q (fun t => t) s)

end Sys2Proof.Machine
end

