-- ==== Sys2Proof/Machine/Controller.lean ====
section
/-! DEFINITION. The meanings of the Station Controller's own commands: RESET, START_EXIT, SETTLE_DEADLINE,
ESCALATION_ENTRY_EXPIRY and ISOLATION_HOLD_END (chapters 10 and 11). An event whose condition does not hold
has not occurred, and its command changes nothing (notes/assumptions/2.md). -/

namespace Sys2Proof.Machine

/-- Every block at its reset values with these straps; the levels of the input pins stay, since they are
driven from outside, and so do the queue and the count of free orders (R170; notes/assumptions/8.md and 10.md). -/
def resetTo (straps : Straps) (s : State) : State :=
  { State.reset with
    straps := straps
    lca := Lca.resetWith (s.lca.channels.map fun c => c.input)
    aru := Aru.resetWith straps.nomf s.aru.input
    pending := s.pending
    freeCount := s.freeCount }

/-- RESET (R170): the reset input asserted and released with the strap pins at these levels. -/
def execReset (straps : Straps) (s : State) : Host.Outcome State Fault Refusal := .next (resetTo straps s)

/-- Whether START has come to its end (R170). -/
def startOver (s : State) : Bool := s.stc.station = .start && reached s.now 1000

/-- The exit from START: SURVEY with NLEV taken, or INERT with the Coordination Unit in its reset state (R3, R22, R46,
R170, R171). DEDUCED: what START's deliveries wrote in the CRU goes (notes/assumptions/31.md). -/
def leaveStart (s : State) : State :=
  if validStraps s.straps then (s.enter .survey).onLmon fun m => m.begun s.straps s.now
  else (s.enter .inert).onCru fun _ => Cru.reset

/-- START_EXIT (R170). -/
def execStartExit (s : State) : Host.Outcome State Fault Refusal :=
  .next (if startOver s then leaveStart s else s)

/-- Whether the block record has reached its settle deadline (R179). -/
def settleDue (s : State) : Bool :=
  match s.stc.record with
  | some r => !r.settled && reached s.now r.deadline
  | none => false

/-- The block record settled (R179). -/
def settleRecord (s : State) : State :=
  s.onStc fun c => { c with record := c.record.map fun r => { r with settled := true } }

/-- SETTLE_DEADLINE (R179). -/
def execSettleDeadline (s : State) : Host.Outcome State Fault Refusal :=
  .next (if settleDue s then settleRecord s else s)

/-- Whether an escalation entry has reached its removal; in TRIPPED none is removed (R188). -/
def escalationDue (s : State) : Bool :=
  s.stc.station ≠ .tripped && s.stc.escalation.any fun e => reached s.now e.expiry

/-- The first escalation entry that has reached its removal, removed (R188). -/
def expireEscalation (s : State) : State :=
  s.onStc fun c => { c with escalation := removeFirst (fun e => reached s.now e.expiry) c.escalation }

/-- ESCALATION_ENTRY_EXPIRY (R188). -/
def execEscalationEntryExpiry (s : State) : Host.Outcome State Fault Refusal :=
  .next (if escalationDue s then expireEscalation s else s)

/-- Whether the isolation hold has counted its eleven reference events (R182). -/
def holdOver (s : State) : Bool := s.stc.holdRunning && 11 ≤ s.stc.holdCount

/-- ISOLATION_HOLD_END (R182): the hold made not running, any standing schedule cancelled. -/
def execIsolationHoldEnd (s : State) : Host.Outcome State Fault Refusal :=
  .next (if holdOver s then cancelSchedule (stopHold s) else s)

end Sys2Proof.Machine
end

