-- ==== Sys2Proof/Machine/Firing.lean ====
section
/-! DEFINITION. The meanings of the firing commands: FIRING_INSTANT (R78, R79), MAIN_PULSE_END (R6),
CONDUCTION_LIMIT (R13) and OVERDUE_DEADLINE (R160). -/

namespace Sys2Proof.Machine

/-- The schedule whose firing instant station time has reached (R78). -/
def reachedSchedule (s : State) : Option Schedule :=
  match s.fcu.schedule with
  | some c => if reached s.now c.firing then some c else none
  | none => none

/-- The firing instant F reached: F_prev set, the schedule discarded, the firing handed to the LCA, the LMON
and the CRU in any order (R78, R79). -/
def fireAt (f : StationTime) (s : State) : State :=
  inAnyOrder [lcaFiring, lmonFiring f, cruFiring f]
    (s.onFcu fun u => { u with previous := some f, schedule := none })

/-- FIRING_INSTANT (R78, R79). -/
def execFiringInstant (s : State) : Host.Outcome State Fault Refusal :=
  .next (match reachedSchedule s with | some c => fireAt c.firing s | none => s)

/-- MAIN_PULSE_END (R6). -/
def execMainPulseEnd (s : State) : Host.Outcome State Fault Refusal := .next (s.onTrain (trainMainEnd s.now))

/-- CONDUCTION_LIMIT (R13). -/
def execConductionLimit (s : State) : Host.Outcome State Fault Refusal := .next (s.onTrain (trainLimit s.now))

/-- The deadline of a running overdue watch that station time has reached (R160). -/
def overdueAt (s : State) : Option StationTime :=
  match s.cru.watch with
  | some w => if reached s.now w.deadline then some w.deadline else none
  | none => none

/-- OVERDUE_DEADLINE (R160): the watch ends and a failure of cause 1 is detected at the deadline. -/
def execOverdueDeadline (s : State) : Host.Outcome State Fault Refusal :=
  .next (match overdueAt s with | some d => detectFailure takeFault 1 d (discardWatch s) | none => s)

end Sys2Proof.Machine
end

