-- ==== Sys2Proof/Machine/Levels.lean ====
section
/-! DEFINITION. The meanings of the level-channel commands: INDICATION_RISING_EDGE, INDICATION, CHANNEL_STUCK,
STUCK_RECOVERY (R16 to R19) and CYCLE_MARK_FALLBACK (R34). -/

namespace Sys2Proof.Machine

/-- INDICATION_RISING_EDGE (R16, R18). -/
def execIndicationRisingEdge (i : Fin 80) (s : State) : Host.Outcome State Fault Refusal :=
  .next (s.onChannel i fun c => c.rising (s.live i.val) s.now)

/-- A falling edge on an indication input, with what is handed over at it (R16 to R19). -/
def fallingEdge (i : Fin 80) (s : State) : State :=
  let t := s.onChannel i fun c => c.falling (s.live i.val) s.now
  match (s.channel i).handedAtFall (s.live i.val) s.now with
  | some (k, stamp) => takeIndication takeFault i k stamp t
  | none => t

/-- INDICATION (R17): a falling edge on an indication input. -/
def execIndication (i : Fin 80) (s : State) : Host.Outcome State Fault Refusal := .next (fallingEdge i s)

/-- A channel found stuck, reported once (R18). -/
def channelStuck (i : Fin 80) (s : State) : State :=
  match (s.channel i).stuckStamp (s.live i.val) s.now with
  | some stamp =>
    takeIndication takeFault i .malformed stamp (s.onChannel i fun c => { c with classifier := .stuck })
  | none => s

/-- CHANNEL_STUCK (R18). -/
def execChannelStuck (i : Fin 80) (s : State) : Host.Outcome State Fault Refusal := .next (channelStuck i s)

/-- STUCK_RECOVERY (R18). -/
def execStuckRecovery (i : Fin 80) (s : State) : Host.Outcome State Fault Refusal :=
  .next
    (if (s.channel i).recoveryDue (s.live i.val) s.now then
      s.onChannel i fun c => { c with classifier := .idle }
    else s)

/-- Whether the fallback instant makes the cycle mark: reached, the mark not taken, nothing scheduled (R34). -/
def fallbackDue (s : State) : Bool := s.pastFallback && s.fcu.schedule.isNone

/-- CYCLE_MARK_FALLBACK (R34). -/
def execCycleMarkFallback (s : State) : Host.Outcome State Fault Refusal :=
  .next (if fallbackDue s then cycleMark false s else s)

end Sys2Proof.Machine
end

