-- ==== Sys2Proof/Machine/RingCommands.lean ====
section
/-! DEFINITION. The meanings of the ring commands: TELEGRAM_ARRIVAL (R84 to R93), OWN_TELEGRAM_RETURN (R124),
RETURN_TIMER_EXPIRY (R123), DEPARTURE (R99) and PEER_LOST (R136). -/

namespace Sys2Proof.Machine

/-- TELEGRAM_ARRIVAL (R85). -/
def execTelegramArrival (p : Port) (run : List Byte) (s : State) : Host.Outcome State Fault Refusal :=
  .next (arrive p run s)

/-- OWN_TELEGRAM_RETURN (R124). -/
def execOwnTelegramReturn (p : Port) (q : Seq) (age hops : Nat) (stamp : StationTime) (s : State) :
    Host.Outcome State Fault Refusal :=
  .next (ownReturn p q age hops stamp (s.taken (.ownTelegramReturn p q age hops stamp)))

/-- RETURN_TIMER_EXPIRY (R123): the earliest entry removed and counted as a missing return. -/
def execReturnTimerExpiry (p : Port) (s : State) : Host.Outcome State Fault Refusal :=
  .next (if returnExpired p s then missingReturn p (s.onPort p RingPort.dropEarliest) else s)

/-- DEPARTURE (R99). -/
def execDeparture (p : Port) (s : State) : Host.Outcome State Fault Refusal :=
  .next (if departureDue p s then depart p s else s)

/-- PEER_LOST (R136). -/
def execPeerLost (q : Nat) (s : State) : Host.Outcome State Fault Refusal :=
  onPosition q (if peerAbsent q s then s.onCru fun c => c.onPeer q Peer.gone else s)

end Sys2Proof.Machine
end

