-- ==== Sys2Proof/Machine/Synchronising.lean ====
section
/-! DEFINITION. The meanings of the Angle Reference Unit's commands: QUALIFICATION_START,
QUALIFICATION_FAILURE, QUALIFIED_CROSSING (R44, R45), MISS (R55), HOLDOVER_LIMIT (R56) and
ACQUISITION_TIMEOUT (R50). -/

namespace Sys2Proof.Machine

/-- A high sample of the synchronising input. It is a rising edge when the input was low, and a rising edge starts a
qualification unless the input is not watched or the blanking interval suppresses it (R44, R45, R46). -/
def syncRising (s : State) : State :=
  s.onAru fun a =>
    { a with
      input := true
      qualifier := if s.watching && !a.input && !a.blanked s.now then some s.now else a.qualifier }

/-- QUALIFICATION_START (R44). -/
def execQualificationStart (s : State) : Host.Outcome State Fault Refusal := .next (syncRising s)

/-- QUALIFICATION_FAILURE (R44): the input sampled low; a qualification under way is forgotten. -/
def execQualificationFailure (s : State) : Host.Outcome State Fault Refusal :=
  .next (s.onAru fun a => { a with input := false, qualifier := none })

/-- An edge that has stood 50 ticks, taken by the ARU (R44). -/
def qualifiedCrossing (s : State) : State :=
  match s.aru.qualifies s.now with
  | some t => takeCrossing t (s.onAru fun a => { a with qualifier := none })
  | none => s

/-- QUALIFIED_CROSSING (R44, R48 to R54). -/
def execQualifiedCrossing (s : State) : Host.Outcome State Fault Refusal := .next (qualifiedCrossing s)

/-- MISS (R55). The miss that reaches 12 brings the holdover limit with it (R55, step 7). -/
def execMiss (s : State) : Host.Outcome State Fault Refusal :=
  .next (if s.aru.missDue s.now then declareMiss s else s)

/-- The holdover limit: the twelfth miss where it is due, or the entry to FREE and REFERENCE_LOST of an ARU in
HOLDOVER whose miss count stands at 12 (R56; notes/assumptions/12.md). -/
def holdoverLimit (s : State) : State :=
  if s.aru.lock = .holdover ∧ 12 ≤ s.aru.missCount then inAnyOrder [enterFree, takeFault .referenceLost] s
  else if s.aru.missDue s.now ∧ s.aru.missCount = 11 then declareMiss s
  else s

/-- HOLDOVER_LIMIT (R56). -/
def execHoldoverLimit (s : State) : Host.Outcome State Fault Refusal := .next (holdoverLimit s)

/-- ACQUISITION_TIMEOUT (R50). -/
def execAcquisitionTimeout (s : State) : Host.Outcome State Fault Refusal :=
  .next (if s.aru.acquisitionOver s.now then enterFree s else s)

end Sys2Proof.Machine
end

