-- ==== Sys2Proof/Machine/Due.lean ====
section
/-! DEFINITION. What the part does of itself: the commands whose instant or condition station time has brought
about, and the tick (notes/assumptions/1.md and 2.md). Each condition is the one its meaning tests. -/

namespace Sys2Proof.Machine

/-- A command when its condition holds. -/
def dueIf (b : Bool) (c : Instr) : List Instr := if b then [c] else []

/-- The stuck and recovery events of the channels (R18). -/
def dueChannels (s : State) : List Instr :=
  (List.finRange 80).flatMap fun i =>
    dueIf ((s.channel i).stuckStamp (s.live i.val) s.now).isSome (.channelStuck i) ++
      dueIf ((s.channel i).recoveryDue (s.live i.val) s.now) (.stuckRecovery i)

/-- The ARU's events (R44, R50, R55, R56). The twelfth miss is posted as the holdover limit. -/
def dueReference (s : State) : List Instr :=
  dueIf (s.aru.qualifies s.now).isSome .qualifiedCrossing ++
    dueIf (s.aru.missDue s.now && s.aru.missCount ≠ 11) .miss ++
    dueIf
      ((s.aru.missDue s.now && s.aru.missCount = 11) || (s.aru.lock = .holdover && 12 ≤ s.aru.missCount))
      .holdoverLimit ++
    dueIf (s.aru.acquisitionOver s.now) .acquisitionTimeout

/-- The firing events (R6, R13, R34, R78, R160). -/
def dueFiring (s : State) : List Instr :=
  dueIf (fallbackDue s) .cycleMarkFallback ++
    dueIf (reachedSchedule s).isSome .firingInstant ++
    dueIf (mainEndDue s.now s.lca.train) .mainPulseEnd ++
    dueIf (limitDue s.now s.lca.train) .conductionLimit ++
    dueIf (overdueAt s).isSome .overdueDeadline

/-- The ring events (R99, R123, R136). -/
def dueRings (s : State) : List Instr :=
  dueIf (returnExpired .a s) (.returnTimerExpiry .a) ++ dueIf (returnExpired .b s) (.returnTimerExpiry .b) ++
    dueIf (departureDue .a s) (.departure .a) ++ dueIf (departureDue .b s) (.departure .b) ++
    [1, 2, 3, 4, 5, 6, 7, 8, 9, 10, 11, 12, 13, 14].flatMap fun q =>
      dueIf (peerAbsent q s) (.peerLost q)

/-- The Station Controller's events (R170, R179, R182, R188). -/
def dueController (s : State) : List Instr :=
  dueIf (startOver s) .startExit ++ dueIf (settleDue s) .settleDeadline ++
    dueIf (escalationDue s) .escalationEntryExpiry ++ dueIf (holdOver s) .isolationHoldEnd

/-- Every command that is due at this tick: what has been handed on, and the events station time has brought. -/
def dueCommands (s : State) : List Instr :=
  s.handed ++ dueController s ++ dueReference s ++ dueFiring s ++ dueRings s ++ dueChannels s

/-- An instant that station time has reached is held no longer (notes/assumptions/11.md). -/
def expired (now : StationTime) (d : Option StationTime) : Option StationTime :=
  match d with
  | some t => if reached now t then none else some t
  | none => none

/-- One tick of station time (R1): the count advances, and a blanking interval or a busy link that ends at the
new tick is over (R45, R84). -/
def tick (s : State) : State :=
  let now := s.now + 1
  let link : RingPort → RingPort := fun p => { p with busyUntil := expired now p.busyUntil }
  { s with
    now := now
    aru := { s.aru with blanking := expired now s.aru.blanking }
    rif := { s.rif with portA := link s.rif.portA, portB := link s.rif.portB } }

/-- The commands due at this tick put into the queue, in an order the spec leaves free. -/
def post (l : List Instr) (s : State) : State :=
  { s.drawn with pending := shuffle (Config.freeOrder s.freeCount) l }

/-- A step with no command waiting: what is due is posted, and when nothing is due the tick passes. -/
def idle (s : State) : State := if dueCommands s = [] then tick s else post (dueCommands s) s

end Sys2Proof.Machine
end

