-- ==== Sys2Proof/Machine/Orders.lean ====
section
/-! DEFINITION. The meanings of the five delivered ORDERs: HOLD, DEBLOCK, BLOCK, BYPASS_BLOCK and CLEAR (R141,
R142, R173 to R176, R189). -/

namespace Sys2Proof.Machine

/-- HOLD (R142). -/
def execHold (o : Order) (s : State) : Host.Outcome State Fault Refusal :=
  onPosition o.origin (delivered (.hold o) o.origin (cruOrder .hold o) s)

/-- DEBLOCK (R174). -/
def execDeblock (o : Order) (s : State) : Host.Outcome State Fault Refusal :=
  onPosition o.origin (delivered (.deblock o) o.origin (cruOrder .deblock o) s)

/-- BLOCK (R175). -/
def execBlock (o : Order) (s : State) : Host.Outcome State Fault Refusal :=
  onPosition o.origin (delivered (.block o) o.origin (cruOrder .block o) s)

/-- BYPASS_BLOCK (R176). -/
def execBypassBlock (o : Order) (s : State) : Host.Outcome State Fault Refusal :=
  onPosition o.origin (delivered (.bypassBlock o) o.origin (cruOrder .bypassBlock o) s)

/-- CLEAR (R189). -/
def execClear (o : Order) (s : State) : Host.Outcome State Fault Refusal :=
  onPosition o.origin (delivered (.clear o) o.origin (cruOrder .clear o) s)

end Sys2Proof.Machine
end

