-- ==== Sys2Proof/Machine/Dispatch.lean ====
section
/-! DEFINITION. The dispatch: one arm for each command, each a direct call of its meaning. -/

namespace Sys2Proof.Machine

def exec (i : Instr) (s : State) : Host.Outcome State Fault Refusal :=
  match i with
  | .reset straps => Sys2Proof.Machine.execReset straps s
  | .startExit => Sys2Proof.Machine.execStartExit s
  | .indication channel => Sys2Proof.Machine.execIndication channel s
  | .channelStuck channel => Sys2Proof.Machine.execChannelStuck channel s
  | .stuckRecovery channel => Sys2Proof.Machine.execStuckRecovery channel s
  | .qualifiedCrossing => Sys2Proof.Machine.execQualifiedCrossing s
  | .miss => Sys2Proof.Machine.execMiss s
  | .holdoverLimit => Sys2Proof.Machine.execHoldoverLimit s
  | .acquisitionTimeout => Sys2Proof.Machine.execAcquisitionTimeout s
  | .cycleMarkFallback => Sys2Proof.Machine.execCycleMarkFallback s
  | .firingInstant => Sys2Proof.Machine.execFiringInstant s
  | .mainPulseEnd => Sys2Proof.Machine.execMainPulseEnd s
  | .conductionLimit => Sys2Proof.Machine.execConductionLimit s
  | .overdueDeadline => Sys2Proof.Machine.execOverdueDeadline s
  | .telegramArrival port r => Sys2Proof.Machine.execTelegramArrival port r s
  | .ownTelegramReturn port sequence age hops stamp => Sys2Proof.Machine.execOwnTelegramReturn port sequence age hops stamp s
  | .returnTimerExpiry port => Sys2Proof.Machine.execReturnTimerExpiry port s
  | .departure port => Sys2Proof.Machine.execDeparture port s
  | .hold order => Sys2Proof.Machine.execHold order s
  | .deblock order => Sys2Proof.Machine.execDeblock order s
  | .block order => Sys2Proof.Machine.execBlock order s
  | .bypassBlock order => Sys2Proof.Machine.execBypassBlock order s
  | .clear order => Sys2Proof.Machine.execClear order s
  | .fire fire => Sys2Proof.Machine.execFire fire s
  | .health origin instant => Sys2Proof.Machine.execHealth origin instant s
  | .margin origin gamma => Sys2Proof.Machine.execMargin origin gamma s
  | .cfail origin cause count => Sys2Proof.Machine.execCfail origin cause count s
  | .bypass bypass => Sys2Proof.Machine.execBypass bypass s
  | .settings origin raw => Sys2Proof.Machine.execSettings origin raw s
  | .query origin target page => Sys2Proof.Machine.execQuery origin target page s
  | .report origin => Sys2Proof.Machine.execReport origin s
  | .peerLost position => Sys2Proof.Machine.execPeerLost position s
  | .settleDeadline => Sys2Proof.Machine.execSettleDeadline s
  | .escalationEntryExpiry => Sys2Proof.Machine.execEscalationEntryExpiry s
  | .isolationHoldEnd => Sys2Proof.Machine.execIsolationHoldEnd s
  | .indicationRisingEdge channel => Sys2Proof.Machine.execIndicationRisingEdge channel s
  | .qualificationStart => Sys2Proof.Machine.execQualificationStart s
  | .qualificationFailure => Sys2Proof.Machine.execQualificationFailure s

end Sys2Proof.Machine
end

