-- ==== Sys2Proof/Safety.lean ====
section
/-! DEFINITION. What counts as a sound state of the station, in the terms the statements use: the standing
promises the rules make of every moment. Each is kept by every step from a state that has it, and has its own
name so that a statement can ask for exactly what it needs. -/

namespace Sys2Proof.Machine

/-! ### Station Controller -/

/-- The status lines show the station state: TRIP high exactly in TRIPPED, READY high exactly in BLOCKED, FIRING
and BYPASS (R183). -/
def StatusLinesFollow (s : State) : Prop :=
  (s.stc.tripLine = true ↔ s.stc.station = .tripped) ∧
    (s.stc.readyLine = true ↔
      s.stc.station = .blocked ∨ s.stc.station = .firing ∨ s.stc.station = .bypass)

/-- The settings in force lie in their ranges (R193). -/
def SettingsInRange (c : Stc) : Prop :=
  1000 ≤ c.gammaMin ∧ c.gammaMin ≤ 3000 ∧ c.gammaMin + 200 ≤ c.gammaAlarm ∧ c.gammaAlarm ≤ 4000 ∧
    1 ≤ c.gain ∧ c.gain ≤ 4

/-- Every fault is in a mode it allows, and its count has not passed 127 (R185). -/
def FaultTableInRange (c : Stc) : Prop :=
  ∀ f : FaultCode, f.allows (c.fault f).mode = true ∧ (c.fault f).count ≤ 127

/-- What the station state admits: a schedule only in FIRING or within the isolation hold (R63, R75), the hold
only in TRIPPED (R182), an adopted bypass only in BYPASS or TRIPPED (R177, R181), a station that fires or has
left FIRING by a bypass counted as fired (R193). -/
structure ModeConsistent (s : State) : Prop where
  schedule : s.fcu.schedule.isSome = true →
    s.stc.station = .firing ∨ (s.stc.station = .tripped ∧ s.stc.holdRunning = true)
  hold : s.stc.holdRunning = true → s.stc.station = .tripped
  record : s.stc.record.isSome = true → s.stc.station = .bypass ∨ s.stc.station = .tripped
  fired : s.stc.station = .firing → s.stc.fired = true

/-- The train is a bypass train exactly while the adopted bypass names the station's own leg (R5, R177, R180). -/
def LitForTheBypass (s : State) : Prop :=
  (∃ r, s.lca.train = some r ∧ r.kind = .bypass) ↔ s.isMember = true

/-- The station states that one command other than RESET can leave a station in (R169 to R177, R181): the start ends
in SURVEY or INERT, INERT and TRIPPED are not left, SURVEY ends in BLOCKED or TRIPPED, FIRING is entered from BLOCKED
alone, and a bypass ends in BLOCKED or TRIPPED. -/
def canFollow : Station → Station → Bool
  | .start, t => t = .start || t = .survey || t = .inert
  | .inert, t => t = .inert
  | .survey, t => t = .survey || t = .blocked || t = .tripped
  | .blocked, t => t = .blocked || t = .firing || t = .bypass || t = .tripped
  | .firing, t => t = .firing || t = .blocked || t = .bypass || t = .tripped
  | .bypass, t => t = .bypass || t = .blocked || t = .tripped
  | .tripped, t => t = .tripped

/-! ### Angle Reference Unit -/

/-- T_est lies in its bounds (R57). -/
def PeriodInBounds (s : State) : Prop := 153800 ≤ s.aru.period ∧ s.aru.period ≤ 222300

/-! ### Firing Computation Unit -/

/-- The ordered angle is held between 5° and 165° (R64). -/
def AngleInRange (s : State) : Prop := 500 ≤ s.fcu.alphaReq ∧ s.fcu.alphaReq ≤ 16500

/-! ### Level Monitor -/

/-- How many of the records 0..NLEV - 1 stand in a state. -/
def recordsIn (s : State) (st : LevelState) : Nat :=
  ((List.finRange 80).filter fun i => i.val < s.straps.nlev && (s.lmon.levels.get i).state = st).length

/-- The failed count is the number of FAILED records (R21). -/
def FailedCountRight (s : State) : Prop := s.lmon.failed = recordsIn s .failed

/-- A tally holds no level twice (R25). -/
def TallyDistinct (y : Tally) : Prop := (y.members.map fun m => m.level).Nodup

/-- No tally holds a level twice; the RV tally is armed in FORWARD and CONDUCTING only (R30), the FV tally in
RECOVERY and REVERSE only (R31). -/
structure TalliesFollowPhase (m : Lmon) : Prop where
  rv : m.rv.armed = true → m.phase = .forward ∨ m.phase = .conducting
  fv : m.fv.armed = true → m.phase = .recovery ∨ m.phase = .reverse
  rvDistinct : TallyDistinct m.rv
  fvDistinct : TallyDistinct m.fv
  pfDistinct : TallyDistinct m.pf

/-! ### Ring Interface -/

/-- The bounds of one ring port (R89, R95, R103, R121, R127, R128). -/
structure PortInRange (p : RingPort) : Prop where
  forwarding : p.forwarding.length ≤ 4
  queue : p.queue.length ≤ 8
  outstanding : p.outstanding.length ≤ 8
  hopDelay : p.hopDelay ≤ 2000
  returnRun : p.returnRun ≤ 3
  missRun : p.missRun ≤ 3

/-- A transmit queue stands in the order of priority and holds at most one HEALTH (R95, R96). -/
structure QueueOrdered (q : List QueueEntry) : Prop where
  priority : q.Pairwise fun x y => x.kind.priority ≤ y.kind.priority
  health : (q.filter fun x => x.kind = .health).length ≤ 1

/-- Both ports are in range and in order. -/
def RingsInOrder (s : State) : Prop := ∀ p : Port, PortInRange (s.port p) ∧ QueueOrdered (s.port p).queue

/-! ### Coordination Unit -/

/-- The advance list: at most four entries, no two of a source, each magnitude in 1..3000 and each hold at most
20 (R164). -/
structure AdvancesInRange (l : List Advance) : Prop where
  length : l.length ≤ 4
  sources : (l.map fun x => x.source).Nodup
  magnitude : ∀ x ∈ l, 1 ≤ x.magnitude ∧ x.magnitude ≤ 3000
  hold : ∀ x ∈ l, x.hold ≤ 20

/-- The overlap last measured is at most 60° (R158). -/
def OverlapInRange (c : Cru) : Prop := c.muLast ≤ 6000

/-- The CF history: at most four firing numbers, none twice (R154). -/
def HistoryInRange (l : List FiringNumber) : Prop := l.length ≤ 4 ∧ l.Nodup

/-! ### The start -/

/-- A station in START or INERT has its Level Monitor as reset leaves it, its reference FREE with nothing under
way, no train and no schedule, and nothing of its own on the rings (R22, R46, R94, R171). -/
def UnstartedIsQuiet (s : State) : Prop :=
  s.stc.station = .start ∨ s.stc.station = .inert →
    s.lmon = Lmon.reset ∧ s.aru.lock = .free ∧ s.aru.qualifier = none ∧ s.lca.train = none ∧
      s.fcu.schedule = none ∧ s.rif.ownSequence = 0 ∧ s.rif.portA.queue = [] ∧ s.rif.portB.queue = [] ∧
      s.rif.portA.outstanding = [] ∧ s.rif.portB.outstanding = []

/-- In INERT the Coordination Unit is as reset leaves it (R135, R171). -/
def InertIsMute (s : State) : Prop := s.stc.station = .inert → s.cru = Cru.reset

/-! ### Terms of the statements -/

/-- The record of a level. -/
def State.level (s : State) (i : Fin 80) : Level := s.lmon.levels.get i

/-- A pulse whose leading edge was sampled at `r` stands on a live channel now (R16). -/
def Measuring (s : State) (i : Fin 80) (r : StationTime) : Prop :=
  s.live i.val = true ∧ (s.channel i).input = true ∧ (s.channel i).classifier = .measuring r

/-- Only channel `i` of the channels has changed, to this input level and classifier, and no train. -/
def ChannelBecomes (s t : State) (i : Fin 80) (input : Bool) (k : Classifier) : Prop :=
  t.channel i = { input := input, classifier := k } ∧ (∀ j, j ≠ i → t.channel j = s.channel j) ∧
    t.lca.train = s.lca.train

/-- A qualification begun at `t` has stood for 50 ticks now (R44). -/
def Qualifies (s : State) (t : StationTime) : Prop := s.aru.qualifier = some t ∧ s.now = t + 49

/-- An ORDER of a control station under its own control id, with its active flag set (R141). -/
def ActiveOrder (o : Order) : Prop := (o.origin = 13 ∨ o.origin = 14) ∧ o.controlId = o.origin ∧ o.active = true

/-- The state in which a block acts on a delivery from position `q`: the command has left the hand-over list
(notes/assumptions/6.md) and its origin has been heard, PRESENT for three more periods (R135). -/
def State.hearing (s : State) (q : Nat) (c : Instr) : State :=
  { s with
    handed := s.handed.erase c
    cru := s.cru.onPeer q fun p =>
      { p with presence := .present, deadline := some (s.now + BitVec.ofNat 32 (3 * s.aru.period)) } }

/-- The state in which the command of an ORDER taken from the active source is decided (R141, R142): its angle is
held, staleness is reset, ORDER_LOST is cleared if it was signalled, and its key is the last executed pair. -/
def State.orderTaken (s : State) (o : Order) (c : Instr) : State :=
  let u := s.hearing o.origin c
  { u with
    fcu := { u.fcu with alphaReq := max 500 (min 16500 o.alpha) }
    cru := { u.cru with
      activeSource := some o.origin, lastExecuted := some { source := o.origin, number := o.number }
      staleness := 0, stale := false, lostSignalled := false }
    stc := if s.cru.lostSignalled = true then u.stc.onFault .orderLost fun f => { f with active := false } else u.stc }

/-- Nothing scheduled, or the cycle mark taken, or station time before the fallback instant M: a cancellation then
takes no mark (R34, R75). -/
def CancelsWithoutMark (s : State) : Prop :=
  s.fcu.schedule = none ∨ s.lmon.markTaken = true ∨ ∀ M, s.lmon.fallback = some M → (s.now - M).toInt < 0

/-- A schedule standing at or after M in a cycle whose mark is not taken: its cancellation takes the mark (R34,
R75). -/
def CancelTakesMark (s : State) : Prop :=
  s.fcu.schedule.isSome = true ∧ s.lmon.markTaken = false ∧
    ∃ M, s.lmon.fallback = some M ∧ 0 ≤ (s.now - M).toInt

/-! ### What station time brings about -/

/-- Station time has reached an instant: the signed difference is 0 or more (R1). -/
def Reached (s : State) (d : StationTime) : Prop := 0 ≤ (s.now - d).toInt

/-- An instant that is held until station time `now` reaches it (R45, R84). -/
def heldUntil (now : StationTime) (d : Option StationTime) : Option StationTime :=
  d.filter fun e => (now - e).toInt < 0

/-- The acceptance window has closed with no crossing accepted and no qualification for it under way (R55). -/
def MissDue (s : State) : Prop :=
  (s.aru.lock = .locked ∨ s.aru.lock = .holdover) ∧
    ∃ w, s.aru.window = some w ∧ Reached s w.closes ∧
      ∀ t, s.aru.qualifier = some t → ¬(0 ≤ (t - w.opens).toInt ∧ 0 ≤ (w.closes - t).toInt)

/-- The commands that station time or a condition of the part makes due now, each by its own rule: R170, R18, R44,
R55, R56, R50, R34, R78, R6, R13, R160, R123, R99, R136, R179, R188 and R182. The twelfth miss is due as the
holdover limit (notes/assumptions/12.md); the edges of the pins, RESET and what the rings bring are never due. -/
def DueNow (s : State) : Instr → Prop
  | .startExit => s.stc.station = .start ∧ Reached s 1000
  | .channelStuck i => ∃ r, Measuring s i r ∧ Reached s (r + 1000)
  | .stuckRecovery i =>
    ∃ f, s.live i.val = true ∧ s.channel i = { input := false, classifier := .recovering f } ∧ Reached s (f + 20)
  | .qualifiedCrossing => ∃ t, s.aru.qualifier = some t ∧ Reached s (t + 49)
  | .miss => MissDue s ∧ s.aru.missCount ≠ 11
  | .holdoverLimit => (MissDue s ∧ s.aru.missCount = 11) ∨ (s.aru.lock = .holdover ∧ 12 ≤ s.aru.missCount)
  | .acquisitionTimeout => s.aru.lock = .acquiring ∧ ∃ p, s.aru.previous = some p ∧ Reached s (p + 444600)
  | .cycleMarkFallback =>
    s.lmon.markTaken = false ∧ s.fcu.schedule = none ∧ ∃ M, s.lmon.fallback = some M ∧ Reached s M
  | .firingInstant => ∃ c, s.fcu.schedule = some c ∧ Reached s c.firing
  | .mainPulseEnd => ∃ r, s.lca.train = some r ∧ r.phase = .main ∧ Reached s r.origin
  | .conductionLimit => ∃ r limit xref, s.lca.train = some r ∧ r.kind = .normal limit xref ∧ Reached s limit
  | .overdueDeadline => ∃ w, s.cru.watch = some w ∧ Reached s w.deadline
  | .returnTimerExpiry p => ∃ e rest, (s.port p).outstanding = e :: rest ∧ Reached s e.expiry
  | .departure p =>
    (∀ b, (s.port p).busyUntil = some b → Reached s b) ∧ ((s.port p).forwarding ≠ [] ∨ (s.port p).queue ≠ [])
  | .peerLost q =>
    1 ≤ q ∧ q ≤ 14 ∧ s.stc.station ≠ .inert ∧ (s.cru.peer q).presence = .present ∧
      ∃ d, (s.cru.peer q).deadline = some d ∧ Reached s d
  | .settleDeadline => ∃ r, s.stc.record = some r ∧ r.settled = false ∧ Reached s r.deadline
  | .escalationEntryExpiry => s.stc.station ≠ .tripped ∧ ∃ e ∈ s.stc.escalation, Reached s e.expiry
  | .isolationHoldEnd => s.stc.holdRunning = true ∧ 11 ≤ s.stc.holdCount
  | .reset _ | .indication _ | .telegramArrival _ _ | .ownTelegramReturn _ _ _ _ _ | .hold _ | .deblock _
  | .block _ | .bypassBlock _ | .clear _ | .fire _ | .health _ _ | .margin _ _ | .cfail _ _ _ | .bypass _
  | .settings _ _ | .query _ _ _ | .report _ | .indicationRisingEdge _ | .qualificationStart
  | .qualificationFailure => False

/-! ### The train, XT and the telegrams in the statements -/

/-- The train of a station that is a member from `now` on: a running train keeps S and m, MAIN goes on and any other
phase is CONTINUOUS; with none a main pulse begins now (R8, R10). -/
def memberTrain (now : StationTime) (train : Option Train) : Train :=
  match train with
  | some r => { r with phase := if r.phase = .main then .main else .continuous, kind := .bypass }
  | none => { phase := .main, start := now, origin := now + 100, kind := .bypass }

/-- The train after an XT with instant `r`: a normal train whose extinction reference is not later ends (R12). -/
def trainAfterXt (r : StationTime) (train : Option Train) : Option Train :=
  match train with
  | none => none
  | some x =>
    match x.kind with
    | .normal _ xref => if 0 ≤ (r - xref).toInt then none else some x
    | .bypass => some x

/-- The Coordination Unit after an XT with instant `r` into RECOVERY: in FIRING or the isolation hold a γ measurement
begins unless `r` precedes F_prev, and an overdue watch whose firing is not later ends (R155, R159). -/
def State.cruAfterXt (s : State) (r : StationTime) : Cru :=
  { s.cru with
    gammaStart :=
      if s.stc.station = .firing ∨ s.inHold = true then
        match s.fcu.previous with
        | none => some r
        | some f => if 0 ≤ (r - f).toInt then some r else s.cru.gammaStart
      else s.cru.gammaStart
    watch :=
      match s.cru.watch with
      | none => none
      | some w => if 0 ≤ (r - w.firing).toInt then none else some w }

/-- A two-byte field, the most significant byte first (R105). -/
def wordBytes (n : Nat) : List Byte := [BitVec.ofNat 8 (n / 256), BitVec.ofNat 8 n]

/-- The twelve bytes of a HEALTH by the tables of R105 and R112. -/
def healthBytes (s : State) : List Byte :=
  let redundancy := match s.lmon.redundancy with | .normal => 0 | .last => 1 | .exhausted => 2
  let phase := match s.lmon.phase with | .forward => 0 | .conducting => 1 | .recovery => 2 | .reverse => 3
  let station :=
    match s.stc.station with
    | .start => 0 | .inert => 1 | .survey => 2 | .blocked => 3 | .firing => 4 | .bypass => 5 | .tripped => 6
  let lock := match s.aru.lock with | .free => 0 | .acquiring => 1 | .locked => 2 | .holdover => 3
  let flag := fun b : Bool => if b = true then 1 else 0
  let active := fun f : FaultCode => flag (s.stc.fault f).active
  [BitVec.ofNat 8 (64 * redundancy + 32 * flag s.cru.stale + 8 * phase + station),
    BitVec.ofNat 8 (8 * flag (s.rif.portB.health = .up) + 4 * flag (s.rif.portA.health = .up) + lock),
    BitVec.ofNat 8 s.lmon.failed, BitVec.ofNat 8 s.lmon.suspects] ++
    wordBytes s.cru.gammaLast ++ wordBytes s.cru.muLast ++ wordBytes (appliedAdvance s.cru.advances) ++
    [BitVec.ofNat 8
        (8 * active .settingsRejected + 4 * active .bypassConflict + 2 * active .peerSilent + active .sequenceSlip),
      BitVec.ofNat 8
        (128 * active .sequenceInversion + 64 * active .orderLost + 32 * active .ringLost +
          16 * active .ringDegraded + 8 * active .commutationFailureRepeated + 4 * active .referenceLost +
          2 * active .redundancyExhausted + active .redundancyLow)]

/-- The two bytes of a live level on a level page (R117). -/
def levelBytes (l : Level) : List Byte :=
  let state := match l.state with | .unknown => 0 | .healthy => 1 | .suspect => 2 | .failed => 3
  let anomaly := match l.lastAnomaly with | .none => 0 | .miss => 1 | .malformed => 2 | .alternation => 3 | .pf => 4
  [BitVec.ofNat 8 (64 * state + 32 + l.score), BitVec.ofNat 8 (16 * l.pfCount + anomaly)]

/-- The sixteen bytes of a level page `page`: levels 8 × page to 8 × page + 7, a dark level's bytes 0 (R117). -/
def levelPageBytes (s : State) (page : Nat) : List Byte :=
  (List.finRange 8).flatMap fun j =>
    if 8 * page + j.val < s.straps.nlev then levelBytes (s.level (Fin.ofNat 80 (8 * page + j.val))) else [0, 0]

/-- The sixteen bytes of page 10: flags and counts, then the modes four to a byte, then the escalation list's length
(R118). -/
def faultPageBytes (s : State) : List Byte :=
  let mode := fun f : FaultCode =>
    match (s.stc.fault f).mode with | .trip => 0 | .block => 1 | .report => 2 | .ignore => 3
  let four := fun a b c d : FaultCode => BitVec.ofNat 8 (64 * mode a + 16 * mode b + 4 * mode c + mode d)
  ([.redundancyLow, .redundancyExhausted, .referenceLost, .commutationFailureRepeated, .ringDegraded, .ringLost,
      .orderLost, .sequenceInversion, .sequenceSlip, .peerSilent, .bypassConflict, .settingsRejected].map
    fun f : FaultCode =>
      BitVec.ofNat 8 ((if (s.stc.fault f).active = true then 128 else 0) + (s.stc.fault f).count)) ++
    [four .redundancyLow .redundancyExhausted .referenceLost .commutationFailureRepeated,
      four .ringDegraded .ringLost .orderLost .sequenceInversion,
      four .sequenceSlip .peerSilent .bypassConflict .settingsRejected, BitVec.ofNat 8 s.stc.escalation.length]

/-- The sixteen bytes of page 11: the seven counts of each port, then the miss and the stray count (R119). -/
def counterPageBytes (s : State) : List Byte :=
  let port := fun c : PortCounts =>
    [c.crc, c.malformed, c.orphan, c.overflow, c.stale, c.undeliverable, c.txqDrop]
  (port s.rif.portA.counts ++ port s.rif.portB.counts ++ [s.aru.missCount, s.aru.strays]).map (BitVec.ofNat 8)

/-- The sixteen bytes of a REPORT page 0..12 (R117 to R120). -/
def pageBytes (s : State) (page : Nat) : List Byte :=
  if page ≤ 9 then levelPageBytes s page
  else if page = 10 then faultPageBytes s
  else if page = 11 then counterPageBytes s
  else
    [BitVec.ofNat 8 s.cru.foreignOrders, BitVec.ofNat 8 s.cru.lateFires, BitVec.ofNat 8 s.cru.badPages] ++
      List.replicate 13 0

/-- The command that stands for a delivered telegram, by the tables of kinds, payloads and codes (R105) and the handling
on receipt (R110 to R116): the fields are read from their payload bytes, an ORDER's command 0 or above 4 is HOLD, and a
telegram of another kind code or payload length stands for none (R92). -/
def telegramCommand (x : Telegram) (instant : Option StationTime) : Option Instr :=
  let byte := fun n : Nat => (x.payload.getD n 0).toNat
  let word := fun n : Nat => 256 * byte n + byte (n + 1)
  let is := fun kind length : Nat => x.kind = kind ∧ x.payload.length = length
  let order : Order :=
    { origin := x.origin, active := decide (128 ≤ byte 0), controlId := byte 0 % 16
      number := BitVec.ofNat 16 (word 2), alpha := word 4 }
  if is 1 6 then
    some (match byte 1 with
      | 1 => .deblock order
      | 2 => .block order
      | 3 => .bypassBlock order
      | 4 => .clear order
      | _ => .hold order)
  else if is 2 5 then
    some (.fire
      { origin := x.origin, fn := BitVec.ofNat 16 (word 0), alphaF := word 2, start := decide (byte 4 % 2 = 1)
        instant := instant })
  else if is 3 12 then some (.health x.origin instant)
  else if is 4 2 then some (.margin x.origin (word 0))
  else if is 5 2 then some (.cfail x.origin (byte 0) (byte 1))
  else if is 6 5 then
    some (.bypass
      { origin := x.origin, fn := BitVec.ofNat 16 (word 0), star := byte 2, delta := byte 3, cause := byte 4 })
  else if is 7 7 then
    some (.settings x.origin
      { gammaMin := word 0, gammaAlarm := word 2, gain := byte 4, modes := BitVec.ofNat 16 (word 5) })
  else if is 8 2 then some (.query x.origin (byte 0) (byte 1))
  else if is 9 17 then some (.report x.origin)
  else none

/-! ### The loss of a ring in the statements -/

/-- The loss of a ring, with the other at port `q`, is none of the last ring of a station in FIRING, and the fault it
raises stands in a mode that R185 allows it. -/
def State.RingDownIsPlain (s : State) (q : Port) : Prop :=
  match (s.port q).health with
  | .up => (s.stc.fault .ringDegraded).mode = .report ∨ (s.stc.fault .ringDegraded).mode = .ignore
  | .down => s.stc.station ≠ .firing ∧ (s.stc.fault .ringLost).mode = .trip

/-- The Station Controller after a ring has gone DOWN outside the isolation hold, by the health of the other ring: with
it UP, RING_DEGRADED and the SURVEY test, which finds a ring UP; with it DOWN, RING_LOST and the trip (R129, R172, R181,
R186). -/
def State.stcAfterRingDown (s : State) (other : RingHealth) : Stc :=
  let raised := fun f : FaultCode => s.stc.onFault f fun r =>
    { r with active := r.active || decide (r.mode ≠ .ignore), count := min 127 (r.count + 1) }
  let tripped := fun c : Stc => { c with station := .tripped, tripLine := true, readyLine := false }
  match other with
  | .up =>
    let c := raised .ringDegraded
    if s.stc.station = .survey ∧ s.lmon.redundancy = .exhausted then tripped c
    else if s.stc.station = .survey ∧ s.lmon.unknowns = 0 ∧ s.aru.lock = .locked then
      { c with station := .blocked, tripLine := false, readyLine := true }
    else c
  | .down =>
    let c := raised .ringLost
    if s.stc.station = .survey ∨ s.stc.station = .blocked ∨ s.stc.station = .bypass then tripped c else c

/-! ### The cycle mark and the reference event in the statements -/

/-- The Level Monitor with the mark of its cycle taken: as it stands, or as a mark taken now leaves it (R34, R36). -/
def State.lmonMarked (s : State) (own : Bool) : Lmon :=
  if s.lmon.markTaken = true then s.lmon else (cycleMark own s).lmon

/-- A mark taken now raises no valve event: no armed tally is at the new quorum without the levels that are failed after
the mark, the PF tally counting in RECOVERY only (R37). -/
def State.MarkRaisesNoEvent (s : State) (own : Bool) : Prop :=
  let m := (cycleMark own s).lmon
  let left := fun y : Tally => (y.members.filter fun x => (m.levels.get x.level).state ≠ .failed).length
  (s.lmon.rv.armed = true → left s.lmon.rv < m.counted / 2 + 1) ∧
    (s.lmon.fv.armed = true → left s.lmon.fv < m.counted / 2 + 1) ∧
    (s.lmon.pf.armed = true → s.lmon.phase = .recovery → left s.lmon.pf < m.counted / 4 + 1)

/-- The state in which the reference has become `a` and the SURVEY test has been made (R172). -/
def State.surveyed (s : State) (a : Aru) : State :=
  let u := { s with aru := a }
  if s.stc.station ≠ .survey then u
  else if s.lmon.redundancy = .exhausted then
    { u with stc := { u.stc with station := .tripped, tripLine := true, readyLine := false } }
  else if s.lmon.unknowns = 0 ∧ a.lock = .locked ∧ (s.rif.portA.health = .up ∨ s.rif.portB.health = .up) then
    { u with stc := { u.stc with station := .blocked, tripLine := false, readyLine := true } }
  else u

/-- Whether the next reference event loses the orders (R143). -/
def State.losesOrders (s : State) : Bool :=
  decide (49 ≤ s.cru.staleness) && decide (s.stc.station = .firing ∨ s.stc.station = .bypass) &&
    s.cru.activeSource.isSome && !s.cru.lostSignalled

/-- ORDER_LOST, where the next reference event raises it, stops no firing: it stands in REPORT, or in BLOCK at a station
that is not FIRING (R143, R186). -/
def State.OrdersOrReport (s : State) : Prop :=
  s.losesOrders = true →
    (s.stc.fault .orderLost).mode = .report ∨ ((s.stc.fault .orderLost).mode = .block ∧ s.stc.station = .bypass)

/-- `u` is `s` after the four blocks have taken the reference event `e` (R58), which `changed` the lock state or not.
Staleness rises and the event's time becomes the reference stamp. The pending mark of the old cycle is taken first, and
a new cycle opened (R34). Where that mark raises no valve event and keeps the redundancy state:
* orders that are lost raise ORDER_LOST once; in BLOCK mode in FIRING, outside the hold, that ends the firing (R143);
* otherwise the advance list decays (R167), the stale flag is set from 5, and the firing of a station that is FIRING, or
  in the hold before its last count, is the one the FCU makes of the event, with the advance list as it stood or as it
  has decayed; at the last count of the hold it may also be none (R63, R79, R182);
* the pending mark of a station in SURVEY, BLOCKED, BYPASS or TRIPPED originates one untimed HEALTH, with the Coordination
  Unit and the Station Controller as before or after the event (R190, R191);
* a station in SURVEY makes its test at that mark and at a change of the lock state (R172). -/
def ReferenceEventTaken (e : ReferenceEvent) (changed : Prop) (s u : State) : Prop :=
  let m := s.lmonMarked false
  let plain :=
    s.lmon.markTaken = true ∨ (s.MarkRaisesNoEvent false ∧ m.redundancy = s.lmon.redundancy)
  let lost := s.losesOrders
  let mode := (s.stc.fault .orderLost).mode
  let made := fun l => (fcuReference e { s with cru := { s.cru with advances := l } }).fcu
  u.cru.staleness = min 255 (s.cru.staleness + 1) ∧ u.stc.lastReference = s.now ∧
    u.now = s.now ∧ u.straps = s.straps ∧ u.lca.channels = s.lca.channels ∧ u.pending = s.pending ∧
    u.handed = s.handed ∧
    (s.OrdersOrReport →
      u.lmon = { m with
        markTaken := false, fallback := some (e.zRef + BitVec.ofNat 32 (9000 * e.period / 36000)) }) ∧
    (plain → lost = true →
      u.cru.lostSignalled = true ∧
        u.stc.fault .orderLost =
          { s.stc.fault .orderLost with
            active := (s.stc.fault .orderLost).active || decide (mode ≠ .ignore)
            count := min 127 ((s.stc.fault .orderLost).count + 1) } ∧
        (mode = .block → s.stc.station = .firing → s.stc.holdRunning = false →
          (u.stc.station = .blocked ∨ u.stc.station = .tripped) ∧ u.fcu.schedule = none)) ∧
    (plain → s.OrdersOrReport →
      u = { s with
        aru := u.aru, lmon := u.lmon, rif := u.rif, stc := u.stc, freeCount := u.freeCount
        cru := { s.cru with
          staleness := min 255 (s.cru.staleness + 1), stale := s.cru.stale || decide (5 ≤ s.cru.staleness + 1)
          lostSignalled := s.cru.lostSignalled || lost
          advances :=
            (s.cru.advances.map fun x =>
              if 0 < x.hold then { x with hold := x.hold - 1 }
              else { x with magnitude := x.magnitude - 150 }).filter fun x => 0 < x.magnitude }
        fcu := { s.fcu with schedule := u.fcu.schedule, lastAlpha := u.fcu.lastAlpha } } ∧
      (s.stc.station = .firing ∨ (s.inHold = true ∧ s.stc.holdCount < 10) →
        u.fcu.schedule.isSome = true ∧ (u.fcu = made s.cru.advances ∨ u.fcu = made u.cru.advances)) ∧
      (s.inHold = true → s.stc.holdCount = 10 →
        u.fcu = s.fcu ∨ u.fcu = made s.cru.advances ∨ u.fcu = made u.cru.advances) ∧
      (s.lmon.markTaken = true ∨ s.stc.station = .firing ∨ s.stc.station = .start ∨ s.stc.station = .inert →
        u.rif = s.rif) ∧
      (s.lmon.markTaken = false →
        s.stc.station = .survey ∨ s.stc.station = .blocked ∨ s.stc.station = .bypass ∨ s.stc.station = .tripped →
        ∃ c k, (c = s.cru ∨ c = u.cru) ∧ (k = s.stc ∨ k = u.stc) ∧
          u.rif = s.rif.originated .health (healthBytes { u with rif := s.rif, cru := c, stc := k }) none) ∧
      (s.stc.station ≠ .survey →
        u.stc = {
          (if lost = true then
            s.stc.onFault .orderLost fun f => { f with active := true, count := min 127 (f.count + 1) }
          else s.stc) with
          lastReference := s.now, holdCount := s.stc.holdCount + if s.inHold = true then 1 else 0 } ∧
        (s.stc.station ≠ .firing → s.inHold = false → u.fcu = s.fcu)) ∧
      (s.stc.station = .survey → s.stc.holdRunning = false →
        s.lmon.markTaken = true ∨ ¬changed ∨ m.unknowns = s.lmon.unknowns →
        u.fcu = s.fcu ∧
          (s.lmon.markTaken = false ∨ changed →
            u.stc = { ({ s with lmon := m }.surveyed u.aru).stc with lastReference := s.now }) ∧
          (s.lmon.markTaken = true → ¬changed → u.stc = { s.stc with lastReference := s.now })))

/-! ### The bypass in the statements -/

/-- The candidate that a scan of R176 ends with, from a candidate on: a position without a valid FN is passed over, and
one whose FN is serially later takes the candidate's place. -/
def State.scan (s : State) : Option (Nat × FiringNumber) → List Nat → Option (Nat × FiringNumber)
  | best, [] => best
  | none, q :: rest => s.scan ((s.fireRecord q).map fun f => (q, f)) rest
  | some (r, g), q :: rest =>
    match s.fireRecord q with
    | none => s.scan (some (r, g)) rest
    | some f => s.scan (if 1 ≤ (f - g).toNat ∧ (f - g).toNat ≤ 32767 then some (q, f) else some (r, g)) rest

/-- `t` is `u` after RING_LOST has occurred in FIRING, with no bypass adopted before: the fault counted and active, the
BYPASS of cause 6 originated and adopted, the station TRIPPED, the isolation hold begun and no schedule cancelled; a
member's train is a bypass train from now on, and its overdue watch ends (R129, R176, R180, R181, R182). -/
def LastRingLostInFiring (u t : State) : Prop :=
  let b := ownBypass u 6
  t = { u with lca := t.lca, rif := t.rif, cru := t.cru, stc := t.stc } ∧
    t.stc = { u.stc with
      station := .tripped, tripLine := true, readyLine := false, holdRunning := true, holdCount := 0
      faults := t.stc.faults
      record := some
        { star := b.star, delta := b.delta, fn := b.fn, origin := u.straps.pos, adopted := u.now
          deadline := u.now + BitVec.ofNat 32 u.aru.period, settled := false } } ∧
    (∀ f : FaultCode, t.stc.fault f =
      if f = .ringLost then { u.stc.fault f with active := true, count := min 127 ((u.stc.fault f).count + 1) }
      else u.stc.fault f) ∧
    t.rif = u.rif.originated .bypass (wordBytes b.fn.toNat ++ [BitVec.ofNat 8 b.star, BitVec.ofNat 8 b.delta, 6]) none ∧
    if t.isMember = true then
      t.cru = { u.cru with watch := none } ∧ t.lca = { u.lca with train := some (memberTrain u.now u.lca.train) }
    else t.cru = u.cru ∧ t.lca = u.lca

/-- A train after a bypass exit: a bypass train ends at once, any other stays (R15). -/
def afterExit (train : Option Train) : Option Train := train.filter fun r => r.kind ≠ .bypass

/-- The position a command names, for the commands that name one. -/
def positionNamed : Instr → Option Nat
  | .hold o => some o.origin
  | .deblock o => some o.origin
  | .block o => some o.origin
  | .bypassBlock o => some o.origin
  | .clear o => some o.origin
  | .fire f => some f.origin
  | .health q _ => some q
  | .margin q _ => some q
  | .cfail q _ _ => some q
  | .bypass b => some b.origin
  | .settings q _ => some q
  | .query q _ _ => some q
  | .report q => some q
  | .peerLost q => some q
  | .reset _ => none
  | .startExit => none
  | .indication _ => none
  | .channelStuck _ => none
  | .stuckRecovery _ => none
  | .qualifiedCrossing => none
  | .miss => none
  | .holdoverLimit => none
  | .acquisitionTimeout => none
  | .cycleMarkFallback => none
  | .firingInstant => none
  | .mainPulseEnd => none
  | .conductionLimit => none
  | .overdueDeadline => none
  | .telegramArrival _ _ => none
  | .ownTelegramReturn _ _ _ _ _ => none
  | .returnTimerExpiry _ => none
  | .departure _ => none
  | .settleDeadline => none
  | .escalationEntryExpiry => none
  | .isolationHoldEnd => none
  | .indicationRisingEdge _ => none
  | .qualificationStart => none
  | .qualificationFailure => none

/-! ### All together -/

/-- A sound state: all the standing promises together. -/
structure Sound (s : State) : Prop where
  lines : StatusLinesFollow s
  settings : SettingsInRange s.stc
  faults : FaultTableInRange s.stc
  modes : ModeConsistent s
  period : PeriodInBounds s
  failed : FailedCountRight s
  tallies : TalliesFollowPhase s.lmon
  rings : RingsInOrder s
  advances : AdvancesInRange s.cru.advances
  history : HistoryInRange s.cru.cfHistory
  angle : AngleInRange s
  overlap : OverlapInRange s.cru
  inert : InertIsMute s
  quiet : UnstartedIsQuiet s

end Sys2Proof.Machine
end

