-- ==== Sys2Proof/WellFormed.lean ====
section
/-! DEFINITION. When a command is well formed: a position it names is one of the fourteen (R2, R106), a run
holds at least one byte (R84), and a field carried on a ring lies in the range its bytes give it (R109). -/

namespace Sys2Proof

/-- A position of the group: 1..12 a firing station, 13 and 14 the control stations (R2). -/
def validPosition (q : Nat) : Bool := 1 ≤ q && q ≤ 14

/-- A value of a one-byte field. -/
def inByte (n : Nat) : Bool := n < 256

/-- A value of a two-byte field. -/
def inTwoBytes (n : Nat) : Bool := n < 65536

/-- An ORDER's fields: origin a position, control id in 0..15, α in two bytes (R110). -/
def Order.wellFormed (o : Order) : Bool :=
  validPosition o.origin && o.controlId < 16 && inTwoBytes o.alpha

/-- A FIRE's fields: origin a position, α_f in two bytes (R111). -/
def Fire.wellFormed (f : Fire) : Bool := validPosition f.origin && inTwoBytes f.alphaF

/-- A BYPASS's fields: origin a position, legs and cause in one byte each (R114). -/
def BypassOrder.wellFormed (b : BypassOrder) : Bool :=
  validPosition b.origin && inByte b.star && inByte b.delta && inByte b.cause

/-- A SETTINGS's fields: two bytes for the angles and one for the gain (R115). -/
def RawSettings.wellFormed (r : RawSettings) : Bool :=
  inTwoBytes r.gammaMin && inTwoBytes r.gammaAlarm && inByte r.gain

/-- Whether a command's operands are values the hardware can present. -/
def Instr.wellFormed : Instr → Bool
  | .reset _ => true
  | .startExit => true
  | .indication _ => true
  | .channelStuck _ => true
  | .stuckRecovery _ => true
  | .qualifiedCrossing => true
  | .miss => true
  | .holdoverLimit => true
  | .acquisitionTimeout => true
  | .cycleMarkFallback => true
  | .firingInstant => true
  | .mainPulseEnd => true
  | .conductionLimit => true
  | .overdueDeadline => true
  | .telegramArrival _ run => !run.isEmpty
  | .ownTelegramReturn _ _ age hops _ => inTwoBytes age && hops < 16
  | .returnTimerExpiry _ => true
  | .departure _ => true
  | .hold o => o.wellFormed
  | .deblock o => o.wellFormed
  | .block o => o.wellFormed
  | .bypassBlock o => o.wellFormed
  | .clear o => o.wellFormed
  | .fire f => f.wellFormed
  | .health q _ => validPosition q
  | .margin q γ => validPosition q && inTwoBytes γ
  | .cfail q cause count => validPosition q && inByte cause && inByte count
  | .bypass b => b.wellFormed
  | .settings q r => validPosition q && r.wellFormed
  | .query q target page => validPosition q && inByte target && inByte page
  | .report q => validPosition q
  | .peerLost q => validPosition q
  | .settleDeadline => true
  | .escalationEntryExpiry => true
  | .isolationHoldEnd => true
  | .indicationRisingEdge _ => true
  | .qualificationStart => true
  | .qualificationFailure => true

end Sys2Proof
end

