-- ==== Sys2Proof/Certificates/Slice0/Obligations.lean ====
section
/-! DEFINITION. The statements for the provers, one `def Obligations.<Name> : Prop` each. A statement of one
command says what the command leaves in every block it changes; `t = { s with … }` in it is the frame: every
block and field not named there is as it was. Station time "reaching" an instant is written with the signed
difference of R1. -/

open Sys2Proof Sys2Proof.Machine

/-! ### The queue of commands, the tick and the reset -/

/-- A step takes the command at the front of the queue and runs it on the queue's rest. -/
def Obligations.StepTakesTheFrontCommand : Prop :=
  ∀ (c : Instr) (rest : List Instr) (s : State),
    s.pending = c :: rest → step s = exec c { s with pending := rest }

/-- With an empty queue, the commands that are due are posted, each as often as it is due, in some order: what waits
in the hand-over list, and once each command whose own condition station time or the part has brought about. When none
is due, station time advances by one tick, and a blanking interval or a busy link that the new tick reaches is over;
one that it does not reach stands. That the part does this on an empty queue is the model's choice
(notes/assumptions/1.md, 2.md, 4.md). -/
def Obligations.EmptyQueuePostsWhatIsDueOrTicks : Prop :=
  ∀ s : State, s.pending = [] →
    (∃ due : List Instr, dueCommands s = s.handed ++ due ∧ due.Nodup ∧ ∀ c, c ∈ due ↔ DueNow s c) ∧
    ∃ t, step s = .next t ∧
      if dueCommands s = [] then
        t = { s with
          now := s.now + 1
          aru := { s.aru with blanking := heldUntil (s.now + 1) s.aru.blanking }
          rif := { s.rif with
            portA := { s.rif.portA with busyUntil := heldUntil (s.now + 1) s.rif.portA.busyUntil }
            portB := { s.rif.portB with busyUntil := heldUntil (s.now + 1) s.rif.portB.busyUntil } } }
      else t.pending.Perm (dueCommands s) ∧ t = { s with pending := t.pending, freeCount := s.freeCount + 1 }

/-- RESET gives every block the value its rule states: station time 0 and START with both lines low, an empty
block record, the default settings and modes with nothing frozen or fired; no train, every classifier IDLE;
every level UNKNOWN with a clean record, no tally armed, FORWARD, all counts 0; the reference FREE at the nominal
period of the strap; α_req 9000 and no schedule; empty buffers, both rings DOWN with d_est 50, the links free from
8; every peer SILENT, no orders, no firing number, μ_last 2000, empty lists. That the levels of the input pins,
the queue and the count of free orders pass through a RESET is the model's choice (notes/assumptions/8.md,
10.md). -/
def Obligations.ResetRestoresEveryBlock : Prop :=
  ∀ (straps : Straps) (s : State),
    ∃ t, exec (.reset straps) s = .next t ∧
      t.now = 0 ∧ t.straps = straps ∧ t.pending = s.pending ∧ t.handed = [] ∧ t.freeCount = s.freeCount ∧
      (t.stc.station = .start ∧ t.stc.tripLine = false ∧ t.stc.readyLine = false ∧ t.stc.record = none ∧
        t.stc.holdRunning = false ∧ t.stc.holdCount = 0 ∧ t.stc.gammaMin = 1700 ∧ t.stc.gammaAlarm = 2200 ∧
        t.stc.gain = 2 ∧ t.stc.frozen = false ∧ t.stc.fired = false ∧ t.stc.escalation = [] ∧
        t.stc.lastReference = 0 ∧
        ∀ f : FaultCode, t.stc.fault f =
          { active := false, count := 0
            mode :=
              match f with
              | .redundancyLow => .report
              | .redundancyExhausted => .trip
              | .referenceLost => .block
              | .commutationFailureRepeated => .trip
              | .ringDegraded => .report
              | .ringLost => .trip
              | .orderLost => .report
              | .sequenceInversion => .report
              | .sequenceSlip => .report
              | .peerSilent => .report
              | .bypassConflict => .report
              | .settingsRejected => .report }) ∧
      (t.lca.train = none ∧
        ∀ i, t.channel i = { input := (s.channel i).input, classifier := .idle }) ∧
      ((∀ i, t.level i =
          { state := .unknown, score := 0, streak := 0, fvSeen := false, rvSeen := false, pfSeen := false,
            malformed := 0, alternation := 0, pfCount := 0, lastAnomaly := .none, lastIndication := .none }) ∧
        t.lmon.rv = { armed := false, armedAt := 0, members := [] } ∧
        t.lmon.fv = { armed := false, armedAt := 0, members := [] } ∧
        t.lmon.pf = { armed := false, armedAt := 0, members := [] } ∧ t.lmon.phase = .forward ∧
        t.lmon.failed = 0 ∧ t.lmon.suspects = 0 ∧ t.lmon.unknowns = 0 ∧ t.lmon.counted = 0 ∧
        t.lmon.redundancy = .normal ∧ t.lmon.markTaken = true ∧ t.lmon.quorumXt = false ∧
        t.lmon.quorumFv = false ∧ t.lmon.cfCycle = false) ∧
      (t.aru =
        { input := s.aru.input, lock := .free
          period := match straps.nomf with | .hz50 => 200000 | .hz60 => 166667 | .neither => 200000
          zRef := 0, zPred := 0, missCount := 0, goodCount := 0, previous := none, window := none
          qualifier := none, blanking := none, strays := 0 }) ∧
      t.fcu = { alphaReq := 9000, schedule := none, previous := none, lastAlpha := none } ∧
      (t.rif.ownSequence = 0 ∧
        ∀ p, (t.port p).forwarding = [] ∧ (t.port p).queue = [] ∧ (t.port p).outstanding = [] ∧
          (t.port p).busyUntil = some 8 ∧ (t.port p).hopDelay = 50 ∧ (t.port p).health = .down ∧
          (t.port p).returnRun = 0 ∧ (t.port p).missRun = 0 ∧
          (t.port p).counts =
            { crc := 0, malformed := 0, orphan := 0, overflow := 0, stale := 0, undeliverable := 0, txqDrop := 0 }) ∧
      ((∀ q, t.cru.peer q =
          { presence := .silent, deadline := none, window := none, fire := none, xt := none }) ∧
        t.cru.foreignOrders = 0 ∧ t.cru.lateFires = 0 ∧ t.cru.badPages = 0 ∧ t.cru.activeSource = none ∧
        t.cru.lastExecuted = none ∧ t.cru.staleness = 0 ∧ t.cru.stale = false ∧ t.cru.lostSignalled = false ∧
        t.cru.predecessor = none ∧ t.cru.missCount = 0 ∧ t.cru.inversionMark = false ∧ t.cru.ownFn = 0 ∧
        t.cru.ownFnValid = false ∧ t.cru.firedSince = false ∧ t.cru.bridgeHeard = false ∧
        t.cru.gammaStart = none ∧ t.cru.gammaLast = 0 ∧ t.cru.muLast = 2000 ∧ t.cru.watch = none ∧
        t.cru.cfHistory = [] ∧ t.cru.advances = [])

/-- START_EXIT, with station time at 1000 in START: valid straps take the station to SURVEY, where channels below
NLEV are live, Nc and the unknown count are NLEV and the RV tally is armed from now; any others take it to INERT,
with every channel dark, the Level Monitor as it was and the Coordination Unit as reset leaves it (that what START's
deliveries wrote there goes is the model's reading of R135 and R171, notes/assumptions/31.md). Both lines are low. -/
def Obligations.StartEndsAtTick1000 : Prop :=
  ∀ s : State, s.stc.station = .start → s.now = 1000 →
    ∃ t, exec .startExit s = .next t ∧
      t = { s with
        stc := { s.stc with station := t.stc.station, tripLine := false, readyLine := false }
        lmon := t.lmon, cru := t.cru } ∧
      if (1 ≤ s.straps.pos ∧ s.straps.pos ≤ 12) ∧ (8 ≤ s.straps.nlev ∧ s.straps.nlev ≤ 80) ∧
          (s.straps.red ≤ 8 ∧ 4 * s.straps.red < s.straps.nlev) ∧ s.straps.nomf ≠ .neither then
        t.stc.station = .survey ∧ (∀ i : Nat, t.live i = true ↔ i < s.straps.nlev) ∧ t.cru = s.cru ∧
          t.lmon = { s.lmon with
            counted := s.straps.nlev, unknowns := s.straps.nlev, redundancy := .normal
            rv := { armed := true, armedAt := s.now, members := [] } }
      else t.stc.station = .inert ∧ (∀ i : Nat, t.live i = false) ∧ t.lmon = s.lmon ∧ t.cru = Cru.reset

/-! ### Level channels and valve events (chapters 1 and 2) -/

/-- INDICATION_RISING_EDGE: a rising edge on a live channel starts a measurement with its station time as the
stamp, from IDLE or once a recovery has lasted 20 ticks; in STUCK, or earlier in a recovery, it leaves the
channel STUCK; a measurement under way keeps its stamp. On a dark channel it moves the pin alone. -/
def Obligations.RisingEdgeStartsAMeasurement : Prop :=
  ∀ (i : Fin 80) (s : State), (s.channel i).input = false →
    ∃ t, exec (.indicationRisingEdge i) s = .next t ∧
      t = { s with lca := { s.lca with channels := t.lca.channels } } ∧
      ChannelBecomes s t i true
        (if s.live i.val = true then
          match (s.channel i).classifier with
          | .idle => .measuring s.now
          | .measuring r => .measuring r
          | .stuck => .stuck
          | .recovering f => if 0 ≤ (s.now - (f + 20)).toInt then .measuring s.now else .stuck
        else (s.channel i).classifier)

/-- INDICATION with a width that is neither FV, RV nor PF: 1 or 2 ticks are a glitch, forgotten as though it had
not occurred; 3..5, 15..23, 37..49 and 71..1000 count one malformed pulse, saturating at 2, against a level that
is not FAILED, and nothing else. -/
def Obligations.BadPulseCountsAgainstItsLevelAlone : Prop :=
  ∀ (i : Fin 80) (s : State) (r : StationTime) (w : Nat), Measuring s i r → (s.now - r).toNat = w →
    (1 ≤ w ∧ w ≤ 5) ∨ (15 ≤ w ∧ w ≤ 23) ∨ (37 ≤ w ∧ w ≤ 49) ∨ (71 ≤ w ∧ w ≤ 1000) →
    ∃ t, exec (.indication i) s = .next t ∧ ChannelBecomes s t i false .idle ∧
      t = { s with
        lca := { s.lca with channels := t.lca.channels }
        lmon := { s.lmon with levels := t.lmon.levels } } ∧
      (∀ j, j ≠ i → t.level j = s.level j) ∧
      t.level i =
        if w ≤ 2 ∨ (s.level i).state = .failed then s.level i
        else { s.level i with malformed := min 2 ((s.level i).malformed + 1) }

/-- CHANNEL_STUCK, INDICATION and STUCK_RECOVERY: light that still stands 1000 ticks after its leading edge makes the
channel STUCK and counts one malformed pulse against a level that is not FAILED; the falling edge that ends a stuck
condition begins a recovery at its station time and hands nothing on; an input that has been low for 20 ticks after it
returns the classifier to IDLE. None of them changes anything else. On a dark channel, or one whose input is low
already, INDICATION moves the pin alone. -/
def Obligations.StuckChannelReportsOnceAndRecovers : Prop :=
  ∀ (i : Fin 80) (s : State) (r : StationTime),
    (Measuring s i r → s.now = r + 1000 →
      ∃ t, exec (.channelStuck i) s = .next t ∧ ChannelBecomes s t i true .stuck ∧
        t = { s with
          lca := { s.lca with channels := t.lca.channels }
          lmon := { s.lmon with levels := t.lmon.levels } } ∧
        (∀ j, j ≠ i → t.level j = s.level j) ∧
        t.level i =
          if (s.level i).state = .failed then s.level i
          else { s.level i with malformed := min 2 ((s.level i).malformed + 1) }) ∧
    (s.live i.val = true → s.channel i = { input := true, classifier := .stuck } →
      ∃ t, exec (.indication i) s = .next t ∧ ChannelBecomes s t i false (.recovering s.now) ∧
        t = { s with lca := { s.lca with channels := t.lca.channels } }) ∧
    (s.live i.val = false ∨ (s.channel i).input = false →
      ∃ t, exec (.indication i) s = .next t ∧ ChannelBecomes s t i false (s.channel i).classifier ∧
        t = { s with lca := { s.lca with channels := t.lca.channels } }) ∧
    (s.live i.val = true → s.channel i = { input := false, classifier := .recovering r } → s.now = r + 20 →
      ∃ t, exec (.stuckRecovery i) s = .next t ∧ ChannelBecomes s t i false .idle ∧
        t = { s with lca := { s.lca with channels := t.lca.channels } })

/-- INDICATION of an FV, RV or PF that completes no quorum. The seen flag of its class is set on its level, the last
indication becomes FV or RV, and an FV or RV counts an alternation error, saturating at 2, when it repeats the last
indication; an FV counts it in CONDUCTING too (with the last indication none as well: the model's choice,
notes/assumptions/28.md). A tally of the class that is armed, from no later than the stamp, and does not hold the
level takes it with its stamp as a new member; any other tally stays. Nothing else changes, but for the channel. A
PF at the quorum outside RECOVERY raises nothing either. Any pulse of a FAILED level is discarded: the channel alone
changes. -/
def Obligations.ForwardVoltageIsNotedOnItsLevel : Prop :=
  ∀ (i : Fin 80) (s : State) (r : StationTime) (w : Nat), Measuring s i r → (s.now - r).toNat = w →
    let l := s.level i
    let admits := fun y : Tally => y.armed = true ∧ 0 ≤ (r - y.armedAt).toInt ∧ ∀ m ∈ y.members, m.level ≠ i
    let entered := fun y : Tally => { y with members := y.members ++ [{ level := i, stamp := r }] }
    let half := s.lmon.counted / 2 + 1
    let quarter := s.lmon.counted / 4 + 1
    ∃ t, exec (.indication i) s = .next t ∧
      (1 ≤ w → w ≤ 1000 → l.state = .failed →
        ChannelBecomes s t i false .idle ∧ t = { s with lca := { s.lca with channels := t.lca.channels } }) ∧
      (6 ≤ w → w ≤ 14 → l.state ≠ .failed → ¬(admits s.lmon.fv ∧ s.lmon.fv.members.length + 1 = half) →
        ChannelBecomes s t i false .idle ∧
        t = { s with
          lca := { s.lca with channels := t.lca.channels }
          lmon := { s.lmon with levels := t.lmon.levels, fv := t.lmon.fv } } ∧
        (admits s.lmon.fv → t.lmon.fv = entered s.lmon.fv) ∧ (¬admits s.lmon.fv → t.lmon.fv = s.lmon.fv) ∧
        (∀ j, j ≠ i → t.level j = s.level j) ∧
        t.level i =
          { l with
            fvSeen := true, lastIndication := .fv
            alternation :=
              if l.lastIndication = .fv ∨ s.lmon.phase = .conducting then min 2 (l.alternation + 1)
              else l.alternation }) ∧
      (24 ≤ w → w ≤ 36 → l.state ≠ .failed → ¬(admits s.lmon.rv ∧ s.lmon.rv.members.length + 1 = half) →
        ChannelBecomes s t i false .idle ∧
        t = { s with
          lca := { s.lca with channels := t.lca.channels }
          lmon := { s.lmon with levels := t.lmon.levels, rv := t.lmon.rv } } ∧
        (admits s.lmon.rv → t.lmon.rv = entered s.lmon.rv) ∧ (¬admits s.lmon.rv → t.lmon.rv = s.lmon.rv) ∧
        (∀ j, j ≠ i → t.level j = s.level j) ∧
        t.level i =
          { l with
            rvSeen := true, lastIndication := .rv
            alternation := if l.lastIndication = .rv then min 2 (l.alternation + 1) else l.alternation }) ∧
      (50 ≤ w → w ≤ 70 → l.state ≠ .failed →
        ¬(admits s.lmon.pf ∧ s.lmon.pf.members.length + 1 = quarter ∧ s.lmon.phase = .recovery) →
        ChannelBecomes s t i false .idle ∧
        t = { s with
          lca := { s.lca with channels := t.lca.channels }
          lmon := { s.lmon with levels := t.lmon.levels, pf := t.lmon.pf } } ∧
        (admits s.lmon.pf → t.lmon.pf = entered s.lmon.pf) ∧ (¬admits s.lmon.pf → t.lmon.pf = s.lmon.pf) ∧
        (∀ j, j ≠ i → t.level j = s.level j) ∧ t.level i = { l with pfSeen := true })

/-- INDICATION of the RV that completes the quorum in CONDUCTING or FORWARD, in every station state: XT is raised
with its stamp. The phase becomes RECOVERY from CONDUCTING and REVERSE from FORWARD, the RV tally is disarmed with
its new member, the FV and PF tallies are armed from the stamp, and RV seen, the last indication and the alternation
of the one level are noted; a normal train whose extinction reference is not later ends. From CONDUCTING a γ
measurement begins, in FIRING or the isolation hold and unless the stamp precedes F_prev; an overdue watch whose
firing is not later ends; and in FIRING, not elsewhere, a HEALTH timed at the stamp is originated with its twelve
bytes by their tables. From FORWARD, in a blocking cycle, the Coordination Unit takes no notice and nothing is
originated. -/
def Obligations.ReverseVoltageQuorumIsAnExtinction : Prop :=
  ∀ (i : Fin 80) (s : State) (r : StationTime), Measuring s i r →
    24 ≤ (s.now - r).toNat → (s.now - r).toNat ≤ 36 → (s.level i).state ≠ .failed →
    s.lmon.phase = .conducting ∨ s.lmon.phase = .forward → s.lmon.rv.armed = true →
    0 ≤ (r - s.lmon.rv.armedAt).toInt → (∀ m ∈ s.lmon.rv.members, m.level ≠ i) →
    s.lmon.rv.members.length + 1 = s.lmon.counted / 2 + 1 →
    ∃ t, exec (.indication i) s = .next t ∧
      t = { s with lca := t.lca, lmon := t.lmon, cru := t.cru, rif := t.rif } ∧
      t.channel i = { input := false, classifier := .idle } ∧ (∀ j, j ≠ i → t.channel j = s.channel j) ∧
      (t.lmon = { s.lmon with
          levels := t.lmon.levels, phase := if s.lmon.phase = .conducting then .recovery else .reverse
          quorumXt := true
          rv := { s.lmon.rv with armed := false, members := s.lmon.rv.members ++ [{ level := i, stamp := r }] }
          fv := { armed := true, armedAt := r, members := [] }
          pf := { armed := true, armedAt := r, members := [] } } ∧
        (∀ j, j ≠ i → t.level j = s.level j) ∧
        t.level i =
          { s.level i with
            rvSeen := true, lastIndication := .rv
            alternation :=
              if (s.level i).lastIndication = .rv then min 2 ((s.level i).alternation + 1)
              else (s.level i).alternation }) ∧
      t.lca.train = trainAfterXt r s.lca.train ∧
      (s.lmon.phase = .conducting →
        t.cru = s.cruAfterXt r ∧
          t.rif = if s.stc.station = .firing then s.rif.originated .health (healthBytes t) (some r) else s.rif) ∧
      (s.lmon.phase = .forward → t.cru = s.cru ∧ t.rif = s.rif)

/-- INDICATION of the FV that completes the quorum in RECOVERY or REVERSE, in every station state: the phase becomes
FORWARD, the FV tally is disarmed with its new member, the one level's record is noted, and from REVERSE the RV
tally is armed from the stamp. In RECOVERY a γ measurement that runs ends: γ is the angle from the γ start to the
stamp, at most 36000, and none is made when the stamp precedes the start. In FIRING or the isolation hold a γ below
γ_alarm originates a MARGIN timed at the stamp and asks for min(3000, K × (γ_alarm − γ)) with a hold of 8 in the own
name; one at or above it, or in another state, does neither. In REVERSE, or with no measurement running, the
Coordination Unit takes no notice. -/
def Obligations.ForwardVoltageQuorumMeasuresTheMargin : Prop :=
  ∀ (i : Fin 80) (s : State) (r : StationTime), Measuring s i r →
    6 ≤ (s.now - r).toNat → (s.now - r).toNat ≤ 14 → (s.level i).state ≠ .failed →
    s.lmon.phase = .recovery ∨ s.lmon.phase = .reverse → s.lmon.fv.armed = true →
    0 ≤ (r - s.lmon.fv.armedAt).toInt → (∀ m ∈ s.lmon.fv.members, m.level ≠ i) →
    s.lmon.fv.members.length + 1 = s.lmon.counted / 2 + 1 → 1 ≤ s.stc.gain →
    ∃ t, exec (.indication i) s = .next t ∧
      t = { s with lca := t.lca, lmon := t.lmon, cru := t.cru, rif := t.rif } ∧ ChannelBecomes s t i false .idle ∧
      t.lmon = { s.lmon with
        levels := t.lmon.levels, phase := .forward, quorumFv := true
        fv := { s.lmon.fv with armed := false, members := s.lmon.fv.members ++ [{ level := i, stamp := r }] }
        rv := if s.lmon.phase = .reverse then { armed := true, armedAt := r, members := [] } else s.lmon.rv } ∧
      (∀ j, j ≠ i → t.level j = s.level j) ∧
      t.level i =
        { s.level i with
          fvSeen := true, lastIndication := .fv
          alternation :=
            if (s.level i).lastIndication = .fv then min 2 ((s.level i).alternation + 1)
            else (s.level i).alternation } ∧
      (∀ g, s.lmon.phase = .recovery → s.cru.gammaStart = some g → 0 ≤ (r - g).toInt →
        let γ := min 36000 ((r - g).toInt.toNat * 36000 / s.aru.period)
        t.cru = { s.cru with gammaStart := none, gammaLast := γ, advances := t.cru.advances } ∧
          if γ < s.stc.gammaAlarm ∧ (s.stc.station = .firing ∨ s.inHold = true) then
            t.rif = s.rif.originated .margin (wordBytes γ) (some r) ∧
              t.cru.advances =
                enterRequest s.cru.advances
                  { source := s.straps.pos, kind := .margin
                    magnitude := min 3000 (s.stc.gain * (s.stc.gammaAlarm - γ)), hold := 8 }
          else t.rif = s.rif ∧ t.cru.advances = s.cru.advances) ∧
      (∀ g, s.lmon.phase = .recovery → s.cru.gammaStart = some g → (r - g).toInt < 0 →
        t.cru = { s.cru with gammaStart := none } ∧ t.rif = s.rif) ∧
      (s.lmon.phase = .reverse ∨ s.cru.gammaStart = none → t.cru = s.cru ∧ t.rif = s.rif)

/-- INDICATION of the PF that completes the smaller quorum in RECOVERY, where it makes no repeated failure: the
valve conducts again, and a commutation failure of cause 2 is detected. The RV tally is armed from the stamp, the FV
tally cleared and disarmed and the PF tally disarmed with its new member, PF seen is noted on the one level, every
live level not FAILED starts its alternation afresh, and the γ measurement is dropped. The own firing number enters
the history unless the history holds it already, the oldest of four leaving for it; a CFAIL timed at the stamp with
the history's count is originated; and 3000 is asked for with a hold of 20 in the own name. -/
def Obligations.ProtectiveQuorumIsACommutationFailure : Prop :=
  ∀ (i : Fin 80) (s : State) (r : StationTime), Measuring s i r →
    50 ≤ (s.now - r).toNat → (s.now - r).toNat ≤ 70 → (s.level i).state ≠ .failed →
    s.lmon.phase = .recovery → s.lmon.pf.armed = true → 0 ≤ (r - s.lmon.pf.armedAt).toInt →
    (∀ m ∈ s.lmon.pf.members, m.level ≠ i) → s.lmon.pf.members.length + 1 = s.lmon.counted / 4 + 1 →
    s.cru.cfHistory.length ≤ 4 →
    let held := s.cru.ownFn ∈ s.cru.cfHistory
    let history :=
      if held then s.cru.cfHistory else s.cru.cfHistory.drop (s.cru.cfHistory.length - 3) ++ [s.cru.ownFn]
    (held ∨ ∀ a b c d, history = [a, b, c, d] → 600 < (d - a).toNat) →
    ∃ t, exec (.indication i) s = .next t ∧
      t = { s with lca := t.lca, lmon := t.lmon, cru := t.cru, rif := t.rif } ∧ ChannelBecomes s t i false .idle ∧
      t.lmon = { s.lmon with
        levels := t.lmon.levels, phase := .conducting, cfCycle := true
        pf := { s.lmon.pf with armed := false, members := s.lmon.pf.members ++ [{ level := i, stamp := r }] }
        fv := { s.lmon.fv with armed := false, members := [] }
        rv := { armed := true, armedAt := r, members := [] } } ∧
      (∀ j : Fin 80,
        let l : Level := if j = i then { s.level j with pfSeen := true } else s.level j
        t.level j =
          if j.val < s.straps.nlev ∧ (s.level j).state ≠ .failed then { l with lastIndication := .none } else l) ∧
      t.cru =
        { s.cru with
          gammaStart := none, cfHistory := history
          advances :=
            enterRequest s.cru.advances { source := s.straps.pos, kind := .cfail, magnitude := 3000, hold := 20 } } ∧
      t.rif = s.rif.originated .cfail [2, BitVec.ofNat 8 history.length] (some r)

/-- CYCLE_MARK_FALLBACK, with station time at M, the mark not taken and nothing scheduled: the mark is taken. The
cycle flags of the live records are cleared, NF, the suspect and the unknown count are the numbers of records in
those states, Nc is NLEV − NF, and the redundancy state follows NF and RED; entering LAST counts
LEVEL_REDUNDANCY_LOW once, entering EXHAUSTED LEVEL_REDUNDANCY_EXHAUSTED alone, which trips. In SURVEY, unless the
mark raises a protective firing (a PF tally at the new quorum in RECOVERY), the station goes to TRIPPED when
EXHAUSTED, to BLOCKED with no level unknown, the reference LOCKED and a ring UP, and stays otherwise. Failed levels leave the armed tallies. A tally then at the new quorum raises its event with its latest
stamp: RV before FV before PF, PF in RECOVERY only. With none, the phase stays and the tallies keep the rest, an RV
tally not armed in FORWARD being armed from now; and with the redundancy state unchanged a station in SURVEY,
BLOCKED, BYPASS or TRIPPED originates one untimed HEALTH (in SURVEY before or after the test), a FIRING one none.
Station time, the straps, the reference, the channels and the waiting commands are left alone, and nothing is
scheduled. -/
def Obligations.FallbackInstantTakesTheCycleMark : Prop :=
  ∀ s : State, s.lmon.markTaken = false → s.lmon.fallback = some s.now → s.fcu.schedule = none →
    ∃ t, exec .cycleMarkFallback s = .next t ∧ t.lmon.markTaken = true ∧ t.fcu.schedule = none ∧
      (∀ i : Fin 80, i.val < s.straps.nlev →
        (t.level i).fvSeen = false ∧ (t.level i).rvSeen = false ∧ (t.level i).pfSeen = false ∧
          (t.level i).malformed = 0 ∧ (t.level i).alternation = 0) ∧
      t.lmon.failed = recordsIn t .failed ∧ t.lmon.suspects = recordsIn t .suspect ∧
      t.lmon.unknowns = recordsIn t .unknown ∧ t.lmon.counted = s.straps.nlev - t.lmon.failed ∧
      t.lmon.redundancy =
        (if s.straps.red < t.lmon.failed then .exhausted
        else if t.lmon.failed = s.straps.red ∧ 0 < s.straps.red then .last
        else .normal) ∧
      t.now = s.now ∧ t.straps = s.straps ∧ t.aru = s.aru ∧ t.lca.channels = s.lca.channels ∧
      t.pending = s.pending ∧ t.handed = s.handed ∧
      let left := fun y : Tally =>
        if y.armed = true then { y with members := y.members.filter fun m => (t.level m.level).state ≠ .failed }
        else y
      let full := fun (y : Tally) (q : Nat) => y.armed = true ∧ q ≤ (left y).members.length
      let half := t.lmon.counted / 2 + 1
      let quarter := t.lmon.counted / 4 + 1
      (let entered := fun x : Redundancy => s.lmon.redundancy ≠ x ∧ t.lmon.redundancy = x
      let counted := fun r : FaultRecord => { r with active := true, count := min 127 (r.count + 1) }
      let low := s.stc.fault .redundancyLow
      let exhausted := s.stc.fault .redundancyExhausted
      low.mode = .report → exhausted.mode = .trip →
        t.stc.fault .redundancyLow = (if entered .last then counted low else low) ∧
        t.stc.fault .redundancyExhausted = (if entered .exhausted then counted exhausted else exhausted) ∧
        (entered .exhausted → s.stc.station ≠ .start → s.stc.station ≠ .inert →
          t.stc.station = .tripped ∧
            (s.stc.station ≠ .tripped → t.stc.tripLine = true ∧ t.stc.readyLine = false)) ∧
        (s.stc.station = .survey → s.lmon.phase ≠ .recovery ∨ ¬full s.lmon.pf quarter →
          let next :=
            if t.lmon.redundancy = .exhausted then Station.tripped
            else if t.lmon.unknowns = 0 ∧ s.aru.lock = .locked ∧
                (s.rif.portA.health = .up ∨ s.rif.portB.health = .up) then .blocked
            else .survey
          t.stc.station = next ∧ (next ≠ .survey →
            t.stc.tripLine = decide (next = .tripped) ∧ t.stc.readyLine = decide (next = .blocked)))) ∧
      let latest := fun (y : Tally) (L : StationTime) =>
        (∃ m ∈ (left y).members, m.stamp = L) ∧ ∀ m ∈ (left y).members, 0 ≤ (L - m.stamp).toInt
      let from_ := fun L : StationTime => ({ armed := true, armedAt := L, members := [] } : Tally)
      let off := fun y : Tally => { left y with armed := false }
      let judged : Lmon := { s.lmon with
        levels := t.lmon.levels, failed := t.lmon.failed, suspects := t.lmon.suspects, unknowns := t.lmon.unknowns
        counted := t.lmon.counted, redundancy := t.lmon.redundancy, markTaken := true, quorumXt := false
        quorumFv := false, cfCycle := false }
      let same := t.lmon.redundancy = s.lmon.redundancy
      (∀ L, full s.lmon.rv half → latest s.lmon.rv L → s.lmon.phase = .conducting ∨ s.lmon.phase = .forward →
        t.lmon = { judged with
          phase := if s.lmon.phase = .conducting then .recovery else .reverse, quorumXt := true
          rv := off s.lmon.rv, fv := from_ L, pf := from_ L } ∧
        (same → t.lca.train = trainAfterXt L s.lca.train ∧
          (s.stc.holdRunning = false ∨ s.stc.station = .tripped →
            t.cru = if s.lmon.phase = .conducting then s.cruAfterXt L else s.cru) ∧
          (s.stc.station = .firing → t.rif =
            if s.lmon.phase = .conducting then s.rif.originated .health (healthBytes t) (some L) else s.rif))) ∧
      (∀ L, full s.lmon.fv half → latest s.lmon.fv L → s.lmon.rv.armed = false →
        s.lmon.phase = .recovery ∨ s.lmon.phase = .reverse →
        t.lmon = { judged with
          phase := .forward, quorumFv := true, fv := off s.lmon.fv, pf := left s.lmon.pf
          rv := if s.lmon.phase = .reverse then from_ L else from_ s.now } ∧
        (same → ∀ g, s.lmon.phase = .recovery → s.cru.gammaStart = some g → 0 ≤ (L - g).toInt →
          t.cru.gammaStart = none ∧
            t.cru.gammaLast = min 36000 ((L - g).toInt.toNat * 36000 / s.aru.period))) ∧
      (∀ L, full s.lmon.pf quarter → latest s.lmon.pf L → s.lmon.rv.armed = false → ¬full s.lmon.fv half →
        s.lmon.phase = .recovery →
        t.lmon = { judged with
          phase := .conducting, cfCycle := true, pf := off s.lmon.pf, rv := from_ L
          fv := { s.lmon.fv with armed := false, members := [] } } ∧
        (∀ i : Fin 80, i.val < s.straps.nlev → (t.level i).state ≠ .failed → (t.level i).lastIndication = .none) ∧
        t.cru.gammaStart = none ∧ (s.cru.ownFn ∈ t.cru.cfHistory ∨ t.cru.cfHistory = [])) ∧
      (¬full s.lmon.rv half → ¬full s.lmon.fv half → ¬full s.lmon.pf quarter ∨ s.lmon.phase ≠ .recovery →
        t.lmon = { judged with
          rv := if s.lmon.phase = .forward ∧ s.lmon.rv.armed = false then from_ s.now else left s.lmon.rv
          fv := left s.lmon.fv, pf := left s.lmon.pf } ∧
        (same →
          t = { s with lmon := t.lmon, rif := t.rif, stc := t.stc, freeCount := s.freeCount + 2 } ∧
          (s.stc.station ≠ .survey →
            t.stc = s.stc ∧
              t.rif =
                if s.stc.station = .blocked ∨ s.stc.station = .bypass ∨ s.stc.station = .tripped then
                  s.rif.originated .health (healthBytes t) none
                else s.rif) ∧
          (s.stc.station = .survey →
            t.rif = s.rif.originated .health (healthBytes t) none ∨
              t.rif = s.rif.originated .health (healthBytes { t with stc := s.stc }) none)))

/-- The judgement of a cycle that is not quiet, whatever takes the mark: penalties of 6 for a protective firing
outside a CF cycle, 4 for a miss, 2 for each malformed pulse and each alternation error are added to the score of
a live record not FAILED, saturating at 31; an anomalous record loses its streak, a clean one falls by 1 and gains
one in its streak up to 3; and the record takes the first state of the table that it meets. The last anomaly of an
anomalous record is the kind of its largest penalty, of equal ones the earlier of PF, miss, malformed and alternation,
and stays otherwise: that the most points decide, and the order only a tie, is the model's reading
(notes/assumptions/14.md). A FAILED record keeps its score, streak, counts, anomaly and state. CYCLE_MARK_FALLBACK at M,
with the mark not taken and nothing scheduled, takes this mark. -/
def Obligations.CycleMarkScoresAndJudgesEachLevel : Prop :=
  (∀ s : State, s.lmon.markTaken = false → s.lmon.fallback = some s.now → s.fcu.schedule = none →
    exec .cycleMarkFallback s = .next (cycleMark false s)) ∧
  ∀ (own : Bool) (s : State) (i : Fin 80),
    i.val < s.straps.nlev → s.lmon.quorumXt = true ∨ s.lmon.quorumFv = true →
    let l := s.level i
    let u := (cycleMark own s).level i
    let pf := if l.pfSeen = true ∧ s.lmon.cfCycle = false then 6 else 0
    let miss :=
      if (s.lmon.quorumFv = true ∧ l.fvSeen = false) ∨ (s.lmon.quorumXt = true ∧ l.rvSeen = false) then 4 else 0
    let points := pf + miss + 2 * l.malformed + 2 * l.alternation
    let clean := l.fvSeen = true ∧ l.rvSeen = true
    if l.state = .failed then
      u.state = .failed ∧ u.score = l.score ∧ u.streak = l.streak ∧ u.pfCount = l.pfCount ∧
        u.lastAnomaly = l.lastAnomaly
    else
      u.score = (if 0 < points then min 31 (l.score + points) else if clean then l.score - 1 else l.score) ∧
        u.streak = (if 0 < points then 0 else if clean then min 3 (l.streak + 1) else l.streak) ∧
        u.pfCount = (if 0 < pf then min 15 (l.pfCount + 1) else l.pfCount) ∧
        u.lastAnomaly =
          (if points = 0 then l.lastAnomaly
          else if miss ≤ pf ∧ 2 * l.malformed ≤ pf ∧ 2 * l.alternation ≤ pf then .pf
          else if 2 * l.malformed ≤ miss ∧ 2 * l.alternation ≤ miss then .miss
          else if l.alternation ≤ l.malformed then .malformed
          else .alternation) ∧
        u.state =
          (if 16 ≤ u.score then .failed
          else if 4 ≤ u.score then .suspect
          else if l.state = .suspect ∧ u.score = 0 then .healthy
          else if l.state = .unknown ∧ u.streak = 3 then .healthy
          else l.state)

/-- A cycle is quiet when its record shows neither a quorum XT nor a quorum FV: its mark changes no score, clean
streak, PF count, last anomaly or state of any record, and still clears the cycle flags of the live ones. -/
def Obligations.QuietCycleJudgesNoLevel : Prop :=
  ∀ (own : Bool) (s : State) (i : Fin 80), s.lmon.quorumXt = false → s.lmon.quorumFv = false →
    let l := s.level i
    let u := (cycleMark own s).level i
    u.score = l.score ∧ u.streak = l.streak ∧ u.pfCount = l.pfCount ∧ u.lastAnomaly = l.lastAnomaly ∧
      u.state = l.state ∧
      (i.val < s.straps.nlev →
        u.fvSeen = false ∧ u.rvSeen = false ∧ u.pfSeen = false ∧ u.malformed = 0 ∧ u.alternation = 0)

/-! ### The commutation voltage reference (chapter 3) -/

/-- QUALIFICATION_START and QUALIFICATION_FAILURE: a rising edge, the input high after having been low, starts a
qualification with its station time when the station has left START for SURVEY and no blanking interval stands;
otherwise it moves the pin alone. A high sample of an input that is high already is no edge and changes nothing. A low
sample forgets the qualification under way, and has no other effect on the reference. That QUALIFICATION_START carries
a high sample, and QUALIFICATION_FAILURE a low sample whether or not a qualification is under way, is the model's
choice (notes/assumptions/9.md). -/
def Obligations.SyncEdgesStartAndForgetAQualification : Prop :=
  ∀ s : State,
    (s.aru.input = false → ∃ t, exec .qualificationStart s = .next t ∧
      t = { s with
        aru := { s.aru with
          input := true
          qualifier :=
            if s.stc.station ≠ .start ∧ s.stc.station ≠ .inert ∧
                (∀ e, s.aru.blanking = some e → 0 ≤ (s.now - e).toInt) then some s.now
            else s.aru.qualifier } }) ∧
    (s.aru.input = true → exec .qualificationStart s = .next s) ∧
    (∃ t, exec .qualificationFailure s = .next t ∧
      t = { s with aru := { s.aru with input := false, qualifier := none } })

/-- QUALIFIED_CROSSING in FREE and ACQUISITION_TIMEOUT. The first crossing begins the acquisition: it becomes the
previous crossing, the good count is 0, T_est stays, and the blanking interval ends a quarter period after it. With
station time at 444,600 ticks after the previous crossing in ACQUIRING, the reference is FREE again, with no previous
crossing, the counts 0 and no window; T_est, Z_ref and Z_pred are kept. At either a station in SURVEY makes its
test, and nothing but the reference and the outcome of the test changes. -/
def Obligations.AcquisitionBeginsAndTimesOut : Prop :=
  ∀ (s : State) (t : StationTime),
    (s.aru.lock = .free → Qualifies s t →
      ∃ u, exec .qualifiedCrossing s = .next u ∧
        u.aru = { s.aru with
          lock := .acquiring, previous := some t, goodCount := 0, qualifier := none
          blanking := some (t + BitVec.ofNat 32 (9000 * s.aru.period / 36000)) } ∧
        u = s.surveyed u.aru) ∧
    (s.aru.lock = .acquiring → s.aru.previous = some t → s.now = t + 444600 →
      ∃ u, exec .acquisitionTimeout s = .next u ∧
        u.aru = { s.aru with lock := .free, previous := none, goodCount := 0, missCount := 0, window := none } ∧
        u = s.surveyed u.aru)

/-- QUALIFIED_CROSSING in ACQUIRING: a measured period in [153,800, 222,300] is taken whole as T_est at a good
count of 0 and filtered by an eighth of its error after that, and raises the good count; the third locks the
reference at the crossing, with Z_pred one T_est ahead and its window set. Any other period sets the good count
to 0 and leaves T_est. Either way the crossing is the previous one from now on, and a blanking interval begins. A
station in SURVEY makes its test where the reference locks, and nothing else changes. -/
def Obligations.AcquisitionMeasuresThePeriod : Prop :=
  ∀ (s : State) (t p : StationTime) (d : Int), s.aru.lock = .acquiring → Qualifies s t →
    s.aru.previous = some p → (t - p).toInt = d → s.aru.goodCount ≤ 2 → PeriodInBounds s →
    ∃ u, exec .qualifiedCrossing s = .next u ∧ u.aru.previous = some t ∧ u.aru.qualifier = none ∧
      u.aru.blanking = some (t + BitVec.ofNat 32 (9000 * u.aru.period / 36000)) ∧
      u.aru.strays = s.aru.strays ∧ u.aru.input = s.aru.input ∧
      u = (if u.aru.lock = .locked then s.surveyed u.aru else { s with aru := u.aru }) ∧
      if 153800 ≤ d ∧ d ≤ 222300 then
        u.aru.goodCount = s.aru.goodCount + 1 ∧
          (u.aru.period : Int) =
            (if s.aru.goodCount = 0 then d else (s.aru.period : Int) + (d - (s.aru.period : Int)).tdiv 8) ∧
          if s.aru.goodCount = 2 then
            u.aru.lock = .locked ∧ u.aru.zRef = t ∧ u.aru.zPred = t + BitVec.ofNat 32 u.aru.period ∧
              u.aru.missCount = 0 ∧
              u.aru.window = some
                { opens := u.aru.zPred - BitVec.ofNat 32 (1000 * u.aru.period / 36000)
                  closes := u.aru.zPred + BitVec.ofNat 32 (300 * u.aru.period / 36000) }
          else u.aru.lock = .acquiring ∧ u.aru.zRef = s.aru.zRef ∧ u.aru.zPred = s.aru.zPred ∧
            u.aru.window = s.aru.window ∧ u.aru.missCount = s.aru.missCount
      else
        u.aru.goodCount = 0 ∧ u.aru.period = s.aru.period ∧ u.aru.lock = .acquiring ∧
          u.aru.zRef = s.aru.zRef ∧ u.aru.zPred = s.aru.zPred ∧ u.aru.window = s.aru.window ∧
          u.aru.missCount = s.aru.missCount

/-- QUALIFIED_CROSSING in LOCKED or HOLDOVER with its edge outside the window: a stray. It raises the stray count,
saturating at 255, and changes nothing else. -/
def Obligations.StrayCrossingIsOnlyCounted : Prop :=
  ∀ (s : State) (t : StationTime) (w : Window), s.aru.lock = .locked ∨ s.aru.lock = .holdover → Qualifies s t →
    s.aru.window = some w → ¬(0 ≤ (t - w.opens).toInt ∧ 0 ≤ (w.closes - t).toInt) →
    exec .qualifiedCrossing s =
      .next { s with aru := { s.aru with qualifier := none, strays := min 255 (s.aru.strays + 1) } }

/-- QUALIFIED_CROSSING in LOCKED or HOLDOVER with its edge in the window: accepted. T_est moves by an eighth of the
period error and is clamped into its bounds, Z_ref is Z_pred moved by a quarter of the phase error, Z_pred is one
T_est later, the miss count is 0, the reference is LOCKED, the next window and the blanking interval are set. The other
blocks take the reference event, in an order the spec leaves free: staleness rises by 1 and the event's time becomes the
reference stamp; a cycle mark that is pending is taken first; a new reference cycle is opened, with its fallback instant
a quarter period after Z_ref. Where that mark raises no valve event and keeps the redundancy state: orders lost for 50
events in FIRING or BYPASS raise ORDER_LOST once, which in mode BLOCK ends the firing; otherwise every advance entry
loses one hold or else 150, the stale flag is set from 5, a running isolation hold counts, and a station that is FIRING,
or in the hold before its last count, has the firing scheduled that the Firing Computation Unit makes of the event, with
the advance list as it stood or as it has decayed; at the last count of the hold it may also be scheduled no more. The
pending mark of a station that does not fire originates an untimed HEALTH, and a station in SURVEY makes its test at
that mark and at HOLDOVER becoming LOCKED. -/
def Obligations.AcceptedCrossingFollowsTheVoltage : Prop :=
  ∀ (s : State) (t : StationTime) (w : Window), s.aru.lock = .locked ∨ s.aru.lock = .holdover → Qualifies s t →
    s.aru.window = some w → 0 ≤ (t - w.opens).toInt → 0 ≤ (w.closes - t).toInt →
    let period : Int := (s.aru.period : Int) + ((t - s.aru.zRef).toInt - (s.aru.period : Int)).tdiv 8
    let zero : StationTime := s.aru.zPred + BitVec.ofInt 32 ((t - s.aru.zPred).toInt.tdiv 4)
    ∃ u, exec .qualifiedCrossing s = .next u ∧
      (u.aru.period : Int) = max 153800 (min 222300 period) ∧
      u.aru = { s.aru with
        period := u.aru.period, zRef := zero, zPred := zero + BitVec.ofNat 32 u.aru.period, missCount := 0
        lock := .locked, qualifier := none
        blanking := some (t + BitVec.ofNat 32 (9000 * u.aru.period / 36000))
        window := some
          { opens := u.aru.zPred - BitVec.ofNat 32 (1000 * u.aru.period / 36000)
            closes := u.aru.zPred + BitVec.ofNat 32 (300 * u.aru.period / 36000) } } ∧
      ReferenceEventTaken { accepted := true, zRef := zero, period := u.aru.period, missCount := 0 }
        (s.aru.lock = .holdover) s u

/-- MISS, with station time at the window's end, or up to 49 ticks later where a qualification that was under way then
has failed, no qualification under way for the window and fewer than eleven misses before: the zero is projected.
Z_ref becomes Z_pred and Z_pred one T_est later, T_est stays, the miss count rises, the reference is in HOLDOVER with
the next window set and no blanking interval begun. The other blocks take the reference event as after an accepted
crossing, with a pending cycle mark first and with ORDER_LOST where the orders are lost; a station in SURVEY makes its
test at that mark and at LOCKED becoming HOLDOVER. -/
def Obligations.MissProjectsTheZero : Prop :=
  ∀ (s : State) (w : Window), s.aru.lock = .locked ∨ s.aru.lock = .holdover → s.aru.window = some w →
    (s.now - w.closes).toNat ≤ 49 →
    (∀ t, s.aru.qualifier = some t → ¬(0 ≤ (t - w.opens).toInt ∧ 0 ≤ (w.closes - t).toInt)) →
    s.aru.missCount < 11 →
    ∃ u, exec .miss s = .next u ∧
      u.aru = { s.aru with
        zRef := s.aru.zPred, missCount := s.aru.missCount + 1
        zPred := s.aru.zPred + BitVec.ofNat 32 s.aru.period, lock := .holdover
        window := some
          { opens := s.aru.zPred + BitVec.ofNat 32 s.aru.period - BitVec.ofNat 32 (1000 * s.aru.period / 36000)
            closes := s.aru.zPred + BitVec.ofNat 32 s.aru.period + BitVec.ofNat 32 (300 * s.aru.period / 36000) } } ∧
      ReferenceEventTaken
        { accepted := false, zRef := s.aru.zPred, period := s.aru.period, missCount := s.aru.missCount + 1 }
        (s.aru.lock = .locked) s u

/-- HOLDOVER_LIMIT, with the twelfth miss due: at the window's end, or up to 49 ticks later where a qualification that was
under way then has failed, with none under way for the window. The reference is lost: it is FREE with the miss count back
at 0 and no window, T_est kept, and REFERENCE_LOST has occurred once more and is active. The miss is a reference event
like those before: staleness rises, the stale flag is set from 5 and the event's time becomes the reference stamp. Before
the new fallback instant, as it is at every miss, a new cycle is open, a pending mark taken first, and unless that mark
raised a valve event the advance list has decayed. Outside the isolation hold, whatever order the blocks take the event
and the fault in, nothing is scheduled and the station is not FIRING: in mode TRIP it is TRIPPED, in mode BLOCK BLOCKED
or TRIPPED from FIRING. A running hold goes on: it counts, and before its last count the firing of the event is
scheduled. A station that the fault moves nowhere keeps everything else, and with no mark pending its rings too. That the
command carries the twelfth miss itself is the model's choice (notes/assumptions/12.md). -/
def Obligations.TwelfthMissLosesTheReference : Prop :=
  ∀ (s : State) (w : Window), s.aru.lock = .holdover → s.aru.window = some w → (s.now - w.closes).toNat ≤ 49 →
    (∀ t, s.aru.qualifier = some t → ¬(0 ≤ (t - w.opens).toInt ∧ 0 ≤ (w.closes - t).toInt)) →
    s.aru.missCount = 11 → ModeConsistent s →
    (s.stc.fault .referenceLost).mode = .block ∨ (s.stc.fault .referenceLost).mode = .trip →
    let mode := (s.stc.fault .referenceLost).mode
    let M := s.aru.zPred + BitVec.ofNat 32 (9000 * s.aru.period / 36000)
    let m := s.lmonMarked false
    let event : ReferenceEvent := { accepted := false, zRef := s.aru.zPred, period := s.aru.period, missCount := 12 }
    let made := fun l => (fcuReference event { s with cru := { s.cru with advances := l } }).fcu
    let decayed :=
      (s.cru.advances.map fun x =>
        if 0 < x.hold then { x with hold := x.hold - 1 }
        else { x with magnitude := x.magnitude - 150 }).filter fun x => 0 < x.magnitude
    let counted := fun (f : FaultCode) (c : Stc) =>
      c.onFault f fun r => { r with active := true, count := min 127 (r.count + 1) }
    let eventless := s.lmon.markTaken = true ∨ s.MarkRaisesNoEvent false
    ∃ u, exec .holdoverLimit s = .next u ∧
      u.aru = { s.aru with
        lock := .free, previous := none, goodCount := 0, missCount := 0, window := none
        zRef := s.aru.zPred, zPred := s.aru.zPred + BitVec.ofNat 32 s.aru.period } ∧
      (u.stc.fault .referenceLost).active = true ∧
      (u.stc.fault .referenceLost).count = min 127 ((s.stc.fault .referenceLost).count + 1) ∧
      u.now = s.now ∧ u.straps = s.straps ∧ u.lca.channels = s.lca.channels ∧ u.pending = s.pending ∧
      u.handed = s.handed ∧
      u.cru.staleness = min 255 (s.cru.staleness + 1) ∧
      u.cru.stale = (s.cru.stale || decide (5 ≤ s.cru.staleness + 1)) ∧ u.stc.lastReference = s.now ∧
      ((s.now - M).toInt < 0 →
        u.lmon = { m with markTaken := false, fallback := some M } ∧ (eventless → u.cru.advances = decayed)) ∧
      (s.stc.holdRunning = false → u.fcu.schedule = none ∧ u.stc.station ≠ .firing) ∧
      (mode = .trip → s.stc.station ≠ .start → s.stc.station ≠ .inert → u.stc.station = .tripped) ∧
      (s.stc.station = .firing → u.stc.station = .blocked ∨ u.stc.station = .tripped) ∧
      (s.inHold = true →
        u.stc.station = .tripped ∧ u.stc.holdRunning = true ∧ u.stc.holdCount = s.stc.holdCount + 1 ∧
          (eventless → s.stc.holdCount < 10 →
            u.fcu.schedule.isSome = true ∧ (u.fcu = made s.cru.advances ∨ u.fcu = made decayed))) ∧
      ((s.stc.station = .tripped ∧ s.stc.holdRunning = false) ∨ s.stc.station = .start ∨ s.stc.station = .inert ∨
          (mode = .block ∧ (s.stc.station = .blocked ∨ s.stc.station = .bypass)) →
        s.lmon.markTaken = true ∨ (s.MarkRaisesNoEvent false ∧ m.redundancy = s.lmon.redundancy) →
        s.OrdersOrReport →
        u = { s with
          aru := u.aru, lmon := { m with markTaken := false, fallback := some M }, rif := u.rif
          cru := { s.cru with
            staleness := u.cru.staleness, stale := u.cru.stale, advances := decayed
            lostSignalled := s.cru.lostSignalled || s.losesOrders }
          stc := {
            (if s.losesOrders = true then counted .orderLost (counted .referenceLost s.stc)
            else counted .referenceLost s.stc) with
            lastReference := s.now }
          freeCount := u.freeCount } ∧
        (s.lmon.markTaken = true → u.rif = s.rif))

/-- T_est always lies in [153,800, 222,300]: at reset, and after every step from a state where it does. -/
def Obligations.PeriodEstimateStaysInBounds : Prop :=
  PeriodInBounds State.reset ∧ ∀ s t : State, PeriodInBounds s → step s = .next t → PeriodInBounds t

/-- The conversions between angle and time: ticks(x) is floor(x × T_est / 36000) and angle(t) is
floor(t × 36000 / T_est); at every T_est in the bounds angle(ticks(x)) is x or x − 1, ticks(angle(t)) is at most t,
and the product of the largest tick difference stays below 2^47. -/
def Obligations.AngleAndTicksRoundDown : Prop :=
  ∀ period x t : Nat, 153800 ≤ period → period ≤ 222300 →
    ticks period x = x * period / 36000 ∧ angle period t = t * 36000 / period ∧
      (angle period (ticks period x) = x ∨ angle period (ticks period x) + 1 = x) ∧
      ticks period (angle period t) ≤ t ∧ (t ≤ 2 ^ 31 - 1 → t * 36000 < 2 ^ 47)

/-! ### The firing computation and the firing (chapters 1, 4, 8 and 9) -/

/-- Stages 2 to 6 with a current timed predecessor: the step ticks(2000) and the cap ticks(1500) of the reference event
stand in the schedule, F is min(max(F0, P + s), F0 + c) by signed differences, the schedule is not provisional,
and F lies in [F0, F0 + c]. A reference event in FIRING or in the isolation hold, with settings and angles in range,
stores that schedule with last α_f, where α_f is min(max(500, α_req − A), 18000 − μ_last − γ_min) and F0 is
Z_ref + ticks(α_f), and changes nothing else. That the guard acts in the isolation hold too, where R81 has every schedule
provisional, is the model's choice (notes/assumptions/29.md). -/
def Obligations.SpacingGuardHoldsTheFiringBehindItsPredecessor : Prop :=
  ∀ (e : ReferenceEvent) (s : State) (p : StationTime) (x : Predecessor),
    153800 ≤ e.period → e.period ≤ 222300 → s.cru.predecessor = some x → x.instant = some p →
    let c := computedSchedule e s
    let a := min (max 500 (s.fcu.alphaReq - appliedAdvance s.cru.advances)) (18000 - s.cru.muLast - s.stc.gammaMin)
    c.step = 2000 * e.period / 36000 ∧ c.cap = 1500 * e.period / 36000 ∧ c.provisional = false ∧
      0 ≤ (c.firing - c.unguarded).toInt ∧ (c.firing - c.unguarded).toInt ≤ c.cap ∧
      (let d := (p + BitVec.ofNat 32 c.step - c.unguarded).toInt
      (-(2 ^ 31) < d → d ≤ 0 → c.firing = c.unguarded) ∧
        (0 < d → d ≤ c.cap → c.firing = p + BitVec.ofNat 32 c.step) ∧
        (c.cap < d → c.firing = c.unguarded + BitVec.ofNat 32 c.cap)) ∧
      (s.stc.station = .firing ∨ s.inHold = true → SettingsInRange s.stc → 500 ≤ s.fcu.alphaReq →
        s.fcu.alphaReq ≤ 16500 → s.cru.muLast ≤ 6000 →
        c.unguarded = e.zRef + BitVec.ofNat 32 (a * e.period / 36000) ∧ 500 ≤ a ∧ a ≤ 16500 ∧
          fcuReference e s = { s with fcu := { s.fcu with lastAlpha := some a, schedule := some c } })

/-- A reference event in FIRING or in the isolation hold with a predecessor record that is empty or holds an untimed
FIRE, settings and angles in range: the schedule is provisional with F = F0 = Z_ref + ticks(α_f), α_f is
min(max(500, α_req − A), 18000 − μ_last − γ_min) and lies in 500..16500, and F lies at least 2,136 ticks and at most
half a period after Z_ref. -/
def Obligations.FiringIsScheduledFromTheReferenceZero : Prop :=
  ∀ (e : ReferenceEvent) (s : State), 153800 ≤ e.period → e.period ≤ 222300 → SettingsInRange s.stc →
    500 ≤ s.fcu.alphaReq → s.fcu.alphaReq ≤ 16500 → s.cru.muLast ≤ 6000 →
    s.stc.station = .firing ∨ s.inHold = true → (∀ x, s.cru.predecessor = some x → x.instant = none) →
    let a := min (max 500 (s.fcu.alphaReq - appliedAdvance s.cru.advances)) (18000 - s.cru.muLast - s.stc.gammaMin)
    let f := e.zRef + BitVec.ofNat 32 (a * e.period / 36000)
    fcuReference e s =
        { s with fcu :=
          { s.fcu with
            lastAlpha := some a
            schedule := some
              { firing := f, unguarded := f, step := 2000 * e.period / 36000, cap := 1500 * e.period / 36000
                provisional := true } } } ∧
      500 ≤ a ∧ a ≤ 16500 ∧ 2136 ≤ (f - e.zRef).toInt ∧ (f - e.zRef).toInt ≤ (e.period / 2 : Nat)

/-- FIRING_INSTANT, with station time at a scheduled F: whatever order the three blocks take it in, the schedule is
gone and F_prev is F with last α_f kept; the phase is CONDUCTING, the RV tally armed from F and empty, the FV and
PF tallies disarmed and the cycle mark taken; the predecessor record is consumed, the firing number is its FN + 1,
or the own last FN + 12 without one, and marked valid; the station has fired since its entry. The count of
predecessor misses is 0 after a record, or one more up to 3, and its rise to 3 counts PEER_SILENT once. -/
def Obligations.FiringInstantIsMade : Prop :=
  ∀ (s : State) (c : Schedule), s.fcu.schedule = some c → s.now = c.firing →
    ∃ t, exec .firingInstant s = .next t ∧
      t.fcu = { s.fcu with schedule := none, previous := some c.firing } ∧
      t.lmon.phase = .conducting ∧ t.lmon.rv = { armed := true, armedAt := c.firing, members := [] } ∧
      t.lmon.fv.armed = false ∧ t.lmon.pf.armed = false ∧ t.lmon.markTaken = true ∧
      t.cru.predecessor = none ∧ t.cru.inversionMark = false ∧ t.cru.firedSince = true ∧
      t.cru.ownFnValid = true ∧
      t.cru.ownFn = (match s.cru.predecessor with | some r => r.fn + 1 | none => s.cru.ownFn + 12) ∧
      t.cru.missCount = (if s.cru.predecessor.isSome = true then 0 else min 3 (s.cru.missCount + 1)) ∧
      (t.stc.fault .peerSilent).count =
        (if s.cru.predecessor = none ∧ s.cru.missCount = 2 then min 127 ((s.stc.fault .peerSilent).count + 1)
        else (s.stc.fault .peerSilent).count) ∧
      t.now = s.now ∧ t.straps = s.straps ∧ t.aru = s.aru ∧ t.lca.channels = s.lca.channels ∧
      t.pending = s.pending ∧ t.handed = s.handed

/-- FIRING_INSTANT in FIRING, with the cycle mark pending as at every firing that comes about, where the mark raises no
valve event and enters no EXHAUSTED. The mark is taken: mark taken yes, the cycle flags down, NF, the suspect and the
unknown count the numbers of such records, Nc and the redundancy state by NF, each level as a mark leaves it, and
entering LAST counts LEVEL_REDUNDANCY_LOW. Then the phase is CONDUCTING, the RV tally armed from F, the FV tally cleared
and disarmed, the PF tally disarmed without the failed levels. The train is in MAIN from now, a normal one with its limit
ticks(15000) ahead and its extinction reference now, a bypass train still a bypass train. The record is consumed; the
firing has the number FN + 1, or the own last FN + 12 without a record, which counts a miss, the third raising
PEER_SILENT; the γ start is discarded, and the overdue watch of a station that is no bypass member runs to
F + ticks(18000). A FIRE timed at F with the number, last α_f and START, when the entry to FIRING has brought neither a
firing nor a FIRE of the bridge predecessor, is originated; a clean firing lowers the three sequence flags; and nothing
else changes. The modes of the two faults that can be counted stand at REPORT here. -/
def Obligations.FiringLightsTheValveAndTellsTheGroup : Prop :=
  ∀ (s : State) (c : Schedule) (α : Nat), s.fcu.schedule = some c → s.now = c.firing →
    s.fcu.lastAlpha = some α → s.stc.station = .firing →
    let m := s.lmonMarked true
    s.lmon.markTaken = true ∨ (s.MarkRaisesNoEvent true ∧ m.redundancy ≠ .exhausted) →
    (s.stc.fault .redundancyLow).mode = .report → (s.stc.fault .peerSilent).mode = .report →
    let fn := match s.cru.predecessor with | some x => x.fn + 1 | none => s.cru.ownFn + 12
    let clean := s.cru.inversionMark = false ∧ s.cru.predecessor.any (fun x => !x.replaced) = true
    let silent := s.cru.predecessor = none ∧ s.cru.missCount = 2
    let low := s.lmon.redundancy ≠ .last ∧ m.redundancy = .last
    ∃ t, exec .firingInstant s = .next t ∧
      t = { s with
        lca := { s.lca with train := t.lca.train }, lmon := t.lmon
        fcu := { s.fcu with schedule := none, previous := some c.firing }
        cru := t.cru, rif := t.rif, stc := { s.stc with faults := t.stc.faults }, freeCount := t.freeCount } ∧
      t.lca.train = some
        { phase := .main, start := s.now, origin := s.now + 100
          kind :=
            if ∃ r, s.lca.train = some r ∧ r.kind = .bypass then .bypass
            else .normal (s.now + BitVec.ofNat 32 (15000 * s.aru.period / 36000)) s.now } ∧
      t.lmon = { m with
        phase := .conducting, rv := { armed := true, armedAt := c.firing, members := [] }
        fv := { s.lmon.fv with armed := false, members := [] }, pf := { m.pf with armed := false } } ∧
      (s.lmon.markTaken = false →
        m = { s.lmon with
          levels := m.levels, failed := recordsIn t .failed, suspects := recordsIn t .suspect
          unknowns := recordsIn t .unknown, counted := s.straps.nlev - recordsIn t .failed
          redundancy :=
            if s.straps.red < recordsIn t .failed then .exhausted
            else if recordsIn t .failed = s.straps.red ∧ 0 < s.straps.red then .last
            else .normal
          markTaken := true, quorumXt := false, quorumFv := false, cfCycle := false, rv := m.rv, fv := m.fv
          pf :=
            if s.lmon.pf.armed = true then
              { s.lmon.pf with members := s.lmon.pf.members.filter fun x => (t.level x.level).state ≠ .failed }
            else s.lmon.pf } ∧
        ∀ i, t.level i = (cycleMark true s).level i) ∧
      t.cru = { s.cru with
        predecessor := none, inversionMark := false, firedSince := true, ownFn := fn, ownFnValid := true
        gammaStart := none
        missCount := if s.cru.predecessor.isSome = true then 0 else min 3 (s.cru.missCount + 1)
        watch :=
          if s.isMember = true then s.cru.watch
          else some { deadline := c.firing + BitVec.ofNat 32 (18000 * s.aru.period / 36000), firing := c.firing } } ∧
      t.rif = s.rif.originated .fire
        (wordBytes fn.toNat ++ wordBytes α ++
          [if s.cru.firedSince = false ∧ s.cru.bridgeHeard = false then 1 else 0])
        (some c.firing) ∧
      ∀ f : FaultCode, t.stc.fault f =
        if clean ∧ (f = .sequenceInversion ∨ f = .sequenceSlip ∨ f = .peerSilent) then
          { s.stc.fault f with active := false }
        else if (low ∧ f = .redundancyLow) ∨ (silent ∧ f = .peerSilent) then
          { s.stc.fault f with active := true, count := min 127 ((s.stc.fault f).count + 1) }
        else s.stc.fault f

/-- MAIN_PULSE_END and CONDUCTION_LIMIT: at m a main pulse ends, a normal train going on in REFRESH and a bypass
train in CONTINUOUS with the phase origin kept; at its limit a normal train ends. Nothing but the train changes,
and the light goes with it: in MAIN every live channel is lit, after it a channel is lit in the first 20 ticks of
each 500 from m, and with no train none is. -/
def Obligations.TrainMovesOnAndEnds : Prop :=
  ∀ (s : State) (r : Train), s.lca.train = some r →
    (r.phase = .main → ∀ i : Nat, s.firingOutput i = s.live i) ∧
    (r.phase = .main → s.now = r.origin →
      ∃ t, exec .mainPulseEnd s = .next t ∧ t = { s with lca := { s.lca with train := t.lca.train } } ∧
        t.lca.train = some { r with phase := if r.kind = .bypass then .continuous else .refresh } ∧
        ∀ i : Nat, t.firingOutput i = s.live i) ∧
    (∀ xref, r.kind = .normal s.now xref →
      ∃ t, exec .conductionLimit s = .next t ∧ t = { s with lca := { s.lca with train := none } } ∧
        ∀ i : Nat, t.firingOutput i = false) ∧
    (r.phase ≠ .main → 0 ≤ (s.now - r.origin).toInt →
      ∀ i : Nat, s.firingOutput i = (s.live i && decide ((s.now - r.origin).toInt % 500 < 20)))

/-- OVERDUE_DEADLINE, with station time at the deadline of the overdue watch, where it makes no repeated failure: a
commutation failure of cause 1. The watch ends; the own firing number enters the history unless the history holds it
already, the oldest of four leaving for it; a CFAIL timed at the deadline with cause 1 and the history's count is
originated; 3000 is asked for with a hold of 20 in the own name; and nothing else changes. -/
def Obligations.OverdueExtinctionIsACommutationFailure : Prop :=
  ∀ (s : State) (w : OverdueWatch), s.cru.watch = some w → s.now = w.deadline →
    s.cru.cfHistory.length ≤ 4 → s.stc.station ≠ .start → s.stc.station ≠ .inert →
    let held := s.cru.ownFn ∈ s.cru.cfHistory
    let history :=
      if held then s.cru.cfHistory else s.cru.cfHistory.drop (s.cru.cfHistory.length - 3) ++ [s.cru.ownFn]
    (held ∨ ∀ a b c d, history = [a, b, c, d] → 600 < (d - a).toNat) →
    exec .overdueDeadline s =
      .next { s with
        cru := { s.cru with
          watch := none, cfHistory := history
          advances :=
            enterRequest s.cru.advances { source := s.straps.pos, kind := .cfail, magnitude := 3000, hold := 20 } }
        rif := s.rif.originated .cfail [1, BitVec.ofNat 8 history.length] (some w.deadline) }

/-- A detection whose new firing number makes the history one of four, of three before it or of four whose oldest leaves,
and lies no more than 600 after the oldest: a repeated failure. A CFAIL with a count of 4 is originated, 3000 asked for in
the own name, COMMUTATION_FAILURE_REPEATED occurs once more and the history is emptied. In mode REPORT nothing else
follows. In mode TRIP the station is TRIPPED with TRIP high, from FIRING with no schedule and a BYPASS of cause 4. Both
for OVERDUE_DEADLINE, where the watch ends, and for an INDICATION of the PF that completes the smaller quorum in RECOVERY,
where the Level Monitor is as after any PFQ unless the trip's cancellation takes a cycle mark, and the γ start goes.
Station time, the straps, the reference, the other channels and the waiting commands are left alone. -/
def Obligations.FourFailuresInFiftyCyclesTrip : Prop :=
  ∀ (s : State) (a b c : FiringNumber),
    s.cru.cfHistory = [a, b, c] ∨ (∃ z, s.cru.cfHistory = [z, a, b, c]) → s.cru.ownFn ∉ s.cru.cfHistory →
    (s.cru.ownFn - a).toNat ≤ 600 → s.stc.station ≠ .start → s.stc.station ≠ .inert →
    let mode := (s.stc.fault .commutationFailureRepeated).mode
    mode = .trip ∨ mode = .report →
    let counted := s.stc.onFault .commutationFailureRepeated fun f =>
      { f with active := true, count := min 127 (f.count + 1) }
    let asked := enterRequest s.cru.advances { source := s.straps.pos, kind := .cfail, magnitude := 3000, hold := 20 }
    let told := fun (cause : Byte) (d : StationTime) => s.rif.originated .cfail [cause, 4] (some d)
    let own := ownBypass s 4
    let repeats := fun (cause : Byte) (d : StationTime) (t : State) =>
      t.cru.cfHistory = [] ∧
      t.stc.fault .commutationFailureRepeated = counted.fault .commutationFailureRepeated ∧
      t.now = s.now ∧ t.straps = s.straps ∧ t.aru = s.aru ∧ t.pending = s.pending ∧ t.handed = s.handed ∧
      (mode = .report →
        t = { s with
          lca := t.lca, lmon := t.lmon, rif := told cause d, stc := counted
          cru := { s.cru with
            watch := t.cru.watch, gammaStart := t.cru.gammaStart, cfHistory := [], advances := asked } }) ∧
      (mode = .trip →
        t.stc.station = .tripped ∧
        (s.stc.station ≠ .tripped → t.stc.tripLine = true ∧ t.stc.readyLine = false) ∧
        (s.stc.station ≠ .firing → t.rif = told cause d ∧ t.fcu = s.fcu ∧ t.cru.advances = asked) ∧
        (s.stc.station = .firing → t.fcu.schedule = none) ∧
        (s.stc.station = .firing → s.stc.record = none → CancelsWithoutMark s →
          t.cru.advances = asked ∧
            t.rif = (told cause d).originated .bypass
              (wordBytes own.fn.toNat ++ [BitVec.ofNat 8 own.star, BitVec.ofNat 8 own.delta, 4]) none))
    let unmarked := mode = .report ∨ s.stc.station ≠ .firing ∨ CancelsWithoutMark s
    (∀ w, s.cru.watch = some w → s.now = w.deadline →
      ∃ t, exec .overdueDeadline s = .next t ∧ repeats 1 w.deadline t ∧ t.cru.watch = none ∧
        t.lca.channels = s.lca.channels ∧ (unmarked → t.lmon = s.lmon) ∧
        (mode = .report → t.lca = s.lca ∧ t.cru.gammaStart = s.cru.gammaStart)) ∧
    ∀ (i : Fin 80) (r : StationTime), Measuring s i r → 50 ≤ (s.now - r).toNat → (s.now - r).toNat ≤ 70 →
      (s.level i).state ≠ .failed → s.lmon.phase = .recovery → s.lmon.pf.armed = true →
      0 ≤ (r - s.lmon.pf.armedAt).toInt → (∀ y ∈ s.lmon.pf.members, y.level ≠ i) →
      s.lmon.pf.members.length + 1 = s.lmon.counted / 4 + 1 →
      ∃ t, exec (.indication i) s = .next t ∧ repeats 2 r t ∧
        t.channel i = { input := false, classifier := .idle } ∧ (∀ j, j ≠ i → t.channel j = s.channel j) ∧
        (mode = .report → t.lca.train = s.lca.train ∧ t.cru.watch = s.cru.watch) ∧
        (unmarked →
          t.cru.gammaStart = none ∧
          t.lmon = { s.lmon with
            levels := t.lmon.levels, phase := .conducting, cfCycle := true
            pf := { s.lmon.pf with armed := false, members := s.lmon.pf.members ++ [{ level := i, stamp := r }] }
            fv := { s.lmon.fv with armed := false, members := [] }
            rv := { armed := true, armedAt := r, members := [] } } ∧
          ∀ j : Fin 80,
            let l : Level := if j = i then { s.level j with pfSeen := true } else s.level j
            t.level j =
              if j.val < s.straps.nlev ∧ (s.level j).state ≠ .failed then { l with lastIndication := .none } else l)

/-- The advance list under a request. A request renews the entry of its own source in its place: the larger
magnitude, and the request's hold and kind. Without one it becomes a new entry while the list has room. In a full
list it takes the place of the smallest entry (by magnitude, then hold, MARGIN before CFAIL, then the lower source)
when its magnitude is strictly larger, and is dropped otherwise. The applied advance is the largest magnitude of the
list, 0 for an empty one. A list in range stays in range under every request of 1..3000 with a hold of at most 20,
the applied advance does not fall and is at least the request's magnitude, and a request of 3000 leaves it at 3000.
-/
def Obligations.RequestsNeverLowerTheAdvance : Prop :=
  ∀ (l : List Advance) (r : Advance), AdvancesInRange l → 1 ≤ r.magnitude → r.magnitude ≤ 3000 → r.hold ≤ 20 →
    let u := enterRequest l r
    let smaller := fun x y : Advance =>
      x.magnitude < y.magnitude ∨ (x.magnitude = y.magnitude ∧
        (x.hold < y.hold ∨ (x.hold = y.hold ∧
          ((x.kind = .margin ∧ y.kind = .cfail) ∨ (x.kind = y.kind ∧ x.source < y.source)))))
    AdvancesInRange u ∧ appliedAdvance l ≤ appliedAdvance u ∧ r.magnitude ≤ appliedAdvance u ∧
      (r.magnitude = 3000 → appliedAdvance u = 3000) ∧
      (∀ x ∈ l, x.magnitude ≤ appliedAdvance l) ∧ appliedAdvance l ≤ 3000 ∧
      (l = [] → appliedAdvance l = 0) ∧ (l ≠ [] → ∃ x ∈ l, x.magnitude = appliedAdvance l) ∧
      (∀ before x after, l = before ++ x :: after → x.source = r.source →
        u = before ++
          { source := r.source, kind := r.kind, magnitude := max x.magnitude r.magnitude, hold := r.hold } :: after) ∧
      ((∀ x ∈ l, x.source ≠ r.source) → l.length < 4 → u = l ++ [r]) ∧
      (∀ before x after, (∀ y ∈ l, y.source ≠ r.source) → l.length = 4 → l = before ++ x :: after →
        (∀ y ∈ before ++ after, smaller x y) →
        u = if x.magnitude < r.magnitude then before ++ after ++ [r] else l)

/-! ### The rings (chapters 5 to 7) -/

/-- TELEGRAM_ARRIVAL of a run that fails the check code step or the format step: it is discarded and the CRC error
count, or the malformed count, of its port rises by 1, saturating at 255. Nothing else changes: it is neither
delivered nor forwarded. -/
def Obligations.FailedChecksDiscardTheRun : Prop :=
  ∀ (p : Port) (run : List Byte) (s : State),
    (run.length < 8 ∨ 25 < run.length ∨ checkBytes (run.take (run.length - 2)) ≠ run.drop (run.length - 2) →
      exec (.telegramArrival p run) s =
        .next (s.onPort p fun r => { r with counts := { r.counts with crc := min 255 (r.counts.crc + 1) } })) ∧
    ∀ (b0 b1 b2 b3 b4 b5 : Byte) (rest : List Byte), run = b0 :: b1 :: b2 :: b3 :: b4 :: b5 :: rest →
      8 ≤ run.length → run.length ≤ 25 →
      checkBytes (run.take (run.length - 2)) = run.drop (run.length - 2) →
      b0.toNat % 16 = 0 ∨ b0.toNat % 16 = 15 ∨ 17 < b5.toNat ∨ b5.toNat + 8 ≠ run.length ∨
        b2.getLsbD 6 = decide (p = .a) →
      exec (.telegramArrival p run) s =
        .next (s.onPort p fun r =>
          { r with counts := { r.counts with malformed := min 255 (r.counts.malformed + 1) } })

/-- The check code is a 16-bit remainder: the register starts at all ones, each byte is taken from its most
significant bit on, a bit is combined with the register's top bit, the register is shifted left, and 8005
hexadecimal is combined into it where the combined bit was 1; the nine bytes 31 to 39 hexadecimal give AEE7, and it
is sent most significant byte first. A telegram within the field widths of R105 is read back whole by the station at
the other end of the link: the bytes sent on a port pass the check code step, their header and payload read as what
was sent, and they pass the format step on that port and fail it on the other. -/
def Obligations.DepartingTelegramIsReadBackWhole : Prop :=
  checkCode [] = 0xFFFF#16 ∧
  (∀ (bytes : List Byte) (b : Byte),
    checkCode (bytes ++ [b]) =
      [7, 6, 5, 4, 3, 2, 1, 0].foldl
        (fun (c : BitVec 16) (k : Nat) => if b.getLsbD k ≠ c.getLsbD 15 then (c <<< 1) ^^^ 0x8005#16 else c <<< 1)
        (checkCode bytes) ∧
      checkBytes bytes = [(checkCode bytes).extractLsb' 8 8, (checkCode bytes).extractLsb' 0 8]) ∧
  checkCode [0x31, 0x32, 0x33, 0x34, 0x35, 0x36, 0x37, 0x38, 0x39] = 0xAEE7#16 ∧
  ∀ (p : Port) (x : Telegram), x.kind < 16 → 1 ≤ x.origin → x.origin ≤ 14 → x.hops < 16 → x.age < 65536 →
    x.payload.length ≤ 17 →
    let run := encodeTelegram p x
    run.length = x.payload.length + 8 ∧ checkPasses run = true ∧
      readRun run = some { telegram := x, ring := decide (p = .b), length := x.payload.length } ∧
      ∀ r, readRun run = some r →
        formatPasses p run.length r = true ∧ formatPasses (otherPort p) run.length r = false

/-- TELEGRAM_ARRIVAL of a telegram that passes the first two steps and is not delivered by its routing. An own
telegram is removed and handed to the round-trip processing with its port, sequence, age, hops and arrival stamp,
the station time less two ticks a byte (that it waits in the hand-over list is the model's choice,
notes/assumptions/6.md). One with hops 14 or more is discarded and counted as an orphan. An INERT station forwards
every other one with its hops raised by 1 and does nothing else; at a full buffer it counts an overflow. -/
def Obligations.OwnTelegramsReturnOrphansEndInertForwards : Prop :=
  ∀ (p : Port) (x : Telegram) (s : State), x.kind < 16 → 1 ≤ x.origin → x.origin ≤ 14 → x.hops < 16 →
    x.age < 65536 → x.payload.length ≤ 17 →
    let run := encodeTelegram p x
    let stamp := s.now - BitVec.ofNat 32 (2 * run.length)
    let own := x.origin = s.straps.pos ∧ s.straps.pos ≤ 12
    (s.stc.station ≠ .inert → own →
      exec (.telegramArrival p run) s =
        .next { s with handed := s.handed ++ [.ownTelegramReturn p x.sequence x.age x.hops stamp] }) ∧
    (s.stc.station = .inert ∨ ¬own → 14 ≤ x.hops →
      exec (.telegramArrival p run) s =
        .next (s.onPort p fun r =>
          { r with counts := { r.counts with orphan := min 255 (r.counts.orphan + 1) } })) ∧
    (s.stc.station = .inert → x.hops ≤ 13 →
      exec (.telegramArrival p run) s =
        .next (s.onPort p fun r =>
          if r.forwarding.length < 4 then
            { r with forwarding := r.forwarding ++ [{ telegram := { x with hops := x.hops + 1 }, stamp := stamp }] }
          else { r with counts := { r.counts with overflow := min 255 (r.counts.overflow + 1) } }))

/-- TELEGRAM_ARRIVAL at a station that is not INERT, of another station's telegram with hops up to 13: it is forwarded
with its hops raised, or dropped at a full buffer and counted as an overflow, and goes on either way: its sequence is
judged against the window of its origin. A
copy whose number equals H, or lies in the seen set 1 to 15 below it, is a duplicate, one 16 to 128 below it is
stale and counted; neither is heard. Any other is accepted and enters the window, H moving up to a newer one and
numbers more than 15 below it leaving. An accepted copy of a known kind with the payload length of that kind is the
command that the tables of kinds, payloads and codes make of it, read from its payload bytes: it marks its origin PRESENT for three
periods and is handed on with the instant stamp − age − (hops + 1) × d_est, or with none when it is untimed or its
age is lost; any other accepted copy is counted as undeliverable. That the delivery waits in the hand-over list is
the model's choice (notes/assumptions/6.md). -/
def Obligations.WindowDecidesWhichCopyIsDelivered : Prop :=
  ∀ (p : Port) (x : Telegram) (s : State), x.kind < 16 → 1 ≤ x.origin → x.origin ≤ 14 → x.hops ≤ 13 →
    x.age < 65536 → x.payload.length ≤ 17 → s.stc.station ≠ .inert →
    x.origin ≠ s.straps.pos ∨ 12 < s.straps.pos →
    let run := encodeTelegram p x
    let stamp := s.now - BitVec.ofNat 32 (2 * run.length)
    let instant :=
      if x.timed = true ∧ x.age < 65535 then
        some (stamp - BitVec.ofNat 32 x.age - BitVec.ofNat 32 ((x.hops + 1) * (s.port p).hopDelay))
      else none
    let u := s.onPort p fun r =>
      if r.forwarding.length < 4 then
        { r with forwarding := r.forwarding ++ [{ telegram := { x with hops := x.hops + 1 }, stamp := stamp }] }
      else { r with counts := { r.counts with overflow := min 255 (r.counts.overflow + 1) } }
    ∃ t, exec (.telegramArrival p run) s = .next t ∧
      (∀ w, (s.cru.peer x.origin).window = some w → w.highest ∈ w.seen →
        let diff := (x.sequence - w.highest).toNat
        (diff = 0 ∨ 241 ≤ diff) ∧ x.sequence ∈ w.seen → t = u) ∧
      (∀ w, (s.cru.peer x.origin).window = some w →
        let diff := (x.sequence - w.highest).toNat
        128 ≤ diff ∧ diff ≤ 240 →
          t = u.onPort p fun r => { r with counts := { r.counts with stale := min 255 (r.counts.stale + 1) } }) ∧
      ((match (s.cru.peer x.origin).window with
        | none => True
        | some w =>
          let diff := (x.sequence - w.highest).toNat
          (1 ≤ diff ∧ diff ≤ 127) ∨ (241 ≤ diff ∧ x.sequence ∉ w.seen)) →
        (∃ v : SeenWindow, (t.cru.peer x.origin).window = some v ∧
          match (s.cru.peer x.origin).window with
          | none => v = { highest := x.sequence, seen := [x.sequence] }
          | some w =>
            (v.highest = if (x.sequence - w.highest).toNat ≤ 127 then x.sequence else w.highest) ∧
              ∀ q, q ∈ v.seen ↔
                q = x.sequence ∨
                  (q ∈ w.seen ∧ ((x.sequence - w.highest).toNat ≤ 127 → (x.sequence - q).toNat ≤ 15))) ∧
        (∀ q, 1 ≤ q → q ≤ 14 → q ≠ x.origin → t.cru.peer q = s.cru.peer q) ∧
        match telegramCommand x instant with
        | some c =>
          t = { u with cru := { s.cru with peers := t.cru.peers }, handed := s.handed ++ [c] } ∧
            t.cru.peer x.origin =
              { s.cru.peer x.origin with
                window := (t.cru.peer x.origin).window, presence := .present
                deadline := some (s.now + BitVec.ofNat 32 (3 * s.aru.period)) }
        | none =>
          t =
            { (u.onPort p fun r =>
                { r with counts := { r.counts with undeliverable := min 255 (r.counts.undeliverable + 1) } }) with
              cru := { s.cru with peers := t.cru.peers } } ∧
            t.cru.peer x.origin =
              { s.cru.peer x.origin with window := (t.cru.peer x.origin).window })

/-- OWN_TELEGRAM_RETURN. Matched against an entry of its ring's list: the earliest entry with its sequence leaves
the list; unless the age is lost, d_meas is floor((RTT − residence) / links) and d_est moves a quarter of the way to
it, truncated toward zero and clamped into [0, 2000], on a ring that is DOWN too (the model's choice,
notes/assumptions/30.md); the return run rises, the miss run is 0, and the third return in a row brings the ring UP.
A ring that comes UP clears RING_DEGRADED when the other ring is UP and RING_LOST when it is DOWN, and lets a
station in SURVEY go to TRIPPED when EXHAUSTED, else to BLOCKED with no level unknown and the reference LOCKED; any
other return leaves the Station Controller as it was. The other ring and the other blocks are left alone. Unmatched:
nothing changes. (The hand-over list loses the return: the model's choice, notes/assumptions/6.md.) -/
def Obligations.MatchedReturnMeasuresItsRing : Prop :=
  ∀ (p : Port) (q : Seq) (age hops : Nat) (stamp : StationTime) (s : State), age ≤ 65535 → hops ≤ 14 →
    (∀ (before after : List Outstanding) (e : Outstanding), (s.port p).outstanding = before ++ e :: after →
      e.sequence = q → (∀ x ∈ before, x.sequence ≠ q) →
      let rtt : Int := (stamp - e.departure).toInt
      let residence : Int := (age : Int) - (e.initialAge : Int)
      let measured : Int := Int.fdiv (rtt - residence) ((hops + 1 : Nat) : Int)
      let estimate : Int := ((s.port p).hopDelay : Int)
      ∃ t, exec (.ownTelegramReturn p q age hops stamp) s = .next t ∧
        t = { s with
          rif := t.rif, stc := t.stc, handed := s.handed.erase (.ownTelegramReturn p q age hops stamp) } ∧
        t.rif.ownSequence = s.rif.ownSequence ∧ t.port (otherPort p) = s.port (otherPort p) ∧
        t.port p =
          { s.port p with
            outstanding := before ++ after, hopDelay := (t.port p).hopDelay
            returnRun := min 3 ((s.port p).returnRun + 1), missRun := 0
            health := if 2 ≤ (s.port p).returnRun then .up else (s.port p).health } ∧
        ((s.port p).health = .up ∨ (s.port p).returnRun < 2 → t.stc = s.stc) ∧
        ((s.port p).health = .down → 2 ≤ (s.port p).returnRun →
          let cleared := s.stc.onFault
            (if (s.port (otherPort p)).health = .up then .ringDegraded else .ringLost) fun f =>
              { f with active := false }
          t.stc =
            if s.stc.station = .survey ∧ s.lmon.redundancy = .exhausted then
              { cleared with station := .tripped, tripLine := true, readyLine := false }
            else if s.stc.station = .survey ∧ s.lmon.unknowns = 0 ∧ s.aru.lock = .locked then
              { cleared with station := .blocked, tripLine := false, readyLine := true }
            else cleared) ∧
        ((t.port p).hopDelay : Int) =
          if age = 65535 then estimate else max 0 (min 2000 (estimate + (measured - estimate).tdiv 4))) ∧
    ((∀ x ∈ (s.port p).outstanding, x.sequence ≠ q) →
      exec (.ownTelegramReturn p q age hops stamp) s =
        .next { s with handed := s.handed.erase (.ownTelegramReturn p q age hops stamp) })

/-- RETURN_TIMER_EXPIRY, with station time at the expiry of the earliest entry: the entry is removed and counted as
a missing return. The miss run rises, the return run is 0; a ring that is DOWN, or UP with a miss run below 2,
keeps its health and nothing else changes. The third miss in a row takes an UP ring DOWN. With the other ring UP,
RING_DEGRADED is counted, and active but in mode IGNORE; with it DOWN, RING_LOST is, and trips SURVEY, BLOCKED and
BYPASS (FIRING has its own statement). A station still in SURVEY makes its test: TRIPPED when EXHAUSTED, BLOCKED with no
level unknown and the reference LOCKED. Nothing else changes. -/
def Obligations.ExpiryIsAMissingReturn : Prop :=
  ∀ (p : Port) (e : Outstanding) (rest : List Outstanding) (s : State),
    (s.port p).outstanding = e :: rest → s.now = e.expiry →
    ((s.port p).health = .down ∨ (s.port p).missRun < 2 →
      exec (.returnTimerExpiry p) s =
        .next (s.onPort p fun r =>
          { r with outstanding := rest, missRun := min 3 (r.missRun + 1), returnRun := 0 })) ∧
    ((s.port p).health = .up → 2 ≤ (s.port p).missRun → s.RingDownIsPlain (otherPort p) →
      exec (.returnTimerExpiry p) s =
        .next { (s.onPort p fun r => { r with outstanding := rest, missRun := 3, returnRun := 0, health := .down }) with
          stc := s.stcAfterRingDown (s.port (otherPort p)).health })

/-- The last ring lost in FIRING, by the third missing return in a row: RING_LOST occurs, and the station trips. It
originates the BYPASS with cause 6 that its fire records name and adopts it with the own key, it is TRIPPED with
TRIP high and READY low, and the isolation hold runs from count 0. No schedule is cancelled. A member's train
becomes a bypass train, with S and m kept and MAIN going on, or starts as one, and its overdue watch ends. -/
def Obligations.LastRingLostInFiringBeginsTheIsolationHold : Prop :=
  ∀ (p : Port) (e : Outstanding) (rest : List Outstanding) (s : State),
    (s.port p).outstanding = e :: rest → s.now = e.expiry → (s.port p).health = .up → 2 ≤ (s.port p).missRun →
    (s.port (otherPort p)).health = .down → s.stc.station = .firing → (s.stc.fault .ringLost).mode = .trip →
    s.stc.record = none →
    let b := ownBypass s 6
    ∃ t, exec (.returnTimerExpiry p) s = .next t ∧
      t = { s with lca := t.lca, rif := t.rif, cru := t.cru, stc := t.stc } ∧
      t.stc = { s.stc with
        station := .tripped, tripLine := true, readyLine := false, holdRunning := true, holdCount := 0
        faults := t.stc.faults
        record := some
          { star := b.star, delta := b.delta, fn := b.fn, origin := s.straps.pos, adopted := s.now
            deadline := s.now + BitVec.ofNat 32 s.aru.period, settled := false } } ∧
      (t.stc.fault .ringLost).active = true ∧
      (t.stc.fault .ringLost).count = min 127 ((s.stc.fault .ringLost).count + 1) ∧
      t.rif = (s.onPort p fun r =>
        { r with outstanding := rest, missRun := 3, returnRun := 0, health := .down }).rif.originated .bypass
          [BitVec.ofNat 8 (b.fn.toNat / 256), BitVec.ofNat 8 b.fn.toNat, BitVec.ofNat 8 b.star,
            BitVec.ofNat 8 b.delta, 6] none ∧
      (if t.isMember = true then
        t.cru = { s.cru with watch := none } ∧
          t.lca = { s.lca with train := some (memberTrain s.now s.lca.train) }
      else t.cru = s.cru ∧ t.lca = s.lca)

/-- DEPARTURE with the link free. A forwarded telegram goes first: the earliest leaves the buffer with its age
raised by its residence, saturating at 65535. Otherwise the head of the queue departs, with hops 0 and the age the
time since its event instant, saturating at 65535, or 0 untimed; it enters the end of the outstanding list, the
earliest entry of a full list leaving as a missing return, and taking an UP ring DOWN as the third in a row, with the
effect that any loss of a ring has; the last ring lost so in FIRING is RING_LOST: the station trips with a BYPASS of
cause 6, and the isolation hold begins. The bytes sent carry the port's RING flag and a fresh
check code, and the link is busy for two ticks a byte and eight more. -/
def Obligations.ForwardedBeforeOwnDeparture : Prop :=
  ∀ (p : Port) (s : State), (∀ b, (s.port p).busyUntil = some b → s.now = b) →
    let sentOn := fun (x : Telegram) (r : RingPort) =>
      { r with
        sent := encodeTelegram p x, busyUntil := some (s.now + BitVec.ofNat 32 (2 * (encodeTelegram p x).length + 8)) }
    (∀ (e : ForwardEntry) (rest : List ForwardEntry), (s.port p).forwarding = e :: rest →
      exec (.departure p) s =
        .next (s.onPort p fun r =>
          sentOn { e.telegram with age := min 65535 (e.telegram.age + (s.now - e.stamp).toNat) }
            { r with forwarding := rest })) ∧
    (∀ (e : QueueEntry) (rest : List QueueEntry), (s.port p).forwarding = [] → (s.port p).queue = e :: rest →
      let age := match e.event with | some t => min 65535 (s.now - t).toNat | none => 0
      let x : Telegram :=
        { kind := e.kind.code, origin := s.straps.pos, sequence := e.sequence, timed := e.event.isSome, hops := 0
          age := age, payload := e.payload }
      let entry : Outstanding :=
        { sequence := e.sequence, departure := s.now, initialAge := age, expiry := s.now + 20000 }
      ((s.port p).outstanding.length < 8 →
        exec (.departure p) s =
          .next (s.onPort p fun r => sentOn x { r with queue := rest, outstanding := r.outstanding ++ [entry] })) ∧
      (8 ≤ (s.port p).outstanding.length → (s.port p).health = .down ∨ (s.port p).missRun < 2 →
        exec (.departure p) s =
          .next (s.onPort p fun r =>
            sentOn x
              { r with
                queue := rest, outstanding := r.outstanding.drop 1 ++ [entry], missRun := min 3 (r.missRun + 1)
                returnRun := 0 })) ∧
      (8 ≤ (s.port p).outstanding.length → (s.port p).health = .up → 2 ≤ (s.port p).missRun →
        s.RingDownIsPlain (otherPort p) →
        exec (.departure p) s =
          .next { (s.onPort p fun r =>
            sentOn x
              { r with
                queue := rest, outstanding := r.outstanding.drop 1 ++ [entry], missRun := 3, returnRun := 0
                health := .down }) with
            stc := s.stcAfterRingDown (s.port (otherPort p)).health }) ∧
      (8 ≤ (s.port p).outstanding.length → (s.port p).health = .up → 2 ≤ (s.port p).missRun →
        (s.port (otherPort p)).health = .down → s.stc.station = .firing → (s.stc.fault .ringLost).mode = .trip →
        s.stc.record = none →
        ∃ t, exec (.departure p) s = .next t ∧
          LastRingLostInFiring
            (s.onPort p fun r =>
              sentOn x
                { r with
                  queue := rest, outstanding := r.outstanding.drop 1 ++ [entry], missRun := 3, returnRun := 0
                  health := .down })
            t))

/-- Origination: the telegram takes the sequence counter, which advances by 1 modulo 256, and enters both queues. A
queue in order stays in order with room or without: at most 8 entries, the highest priority first, never two
HEALTH. A HEALTH takes the place of the one that waits; with room every entry of the queue stays; at a full queue
the last entry leaves for a telegram that ranks higher and the telegram is dropped otherwise, the TXQ drop count
rising by 1. -/
def Obligations.QueuesKeepTheOrderOfPriority : Prop :=
  ∀ (r : Rif) (k : OwnKind) (payload : List Byte) (event : Option StationTime),
    let e : QueueEntry := { kind := k, sequence := r.ownSequence, payload := payload, event := event }
    let u := r.originated k payload event
    u.ownSequence = r.ownSequence + 1 ∧
    ∀ p : Port, QueueOrdered (r.port p).queue → (r.port p).queue.length ≤ 8 →
      QueueOrdered (u.port p).queue ∧ (u.port p).queue.length ≤ 8 ∧
      u.port p = { r.port p with queue := (u.port p).queue, counts := (u.port p).counts } ∧
      (∀ before after x, (r.port p).queue = before ++ x :: after → x.kind = .health → k = .health →
        (u.port p).queue = before ++ e :: after ∧ (u.port p).counts = (r.port p).counts) ∧
      ((k ≠ .health ∨ ∀ x ∈ (r.port p).queue, x.kind ≠ .health) → (r.port p).queue.length < 8 →
        (u.port p).queue =
          ((r.port p).queue.filter fun x => x.kind.priority ≤ k.priority) ++ e ::
            ((r.port p).queue.filter fun x => k.priority < x.kind.priority) ∧
        (u.port p).counts = (r.port p).counts) ∧
      (∀ before x, (r.port p).queue = before ++ [x] → before.length = 7 →
        (k ≠ .health ∨ ∀ y ∈ (r.port p).queue, y.kind ≠ .health) →
        (u.port p).counts =
          { (r.port p).counts with txqDrop := min 255 ((r.port p).counts.txqDrop + 1) } ∧
        (u.port p).queue =
          if k.priority < x.kind.priority then
            (before.filter fun y => y.kind.priority ≤ k.priority) ++ e ::
              (before.filter fun y => k.priority < y.kind.priority)
          else (r.port p).queue)

/-! ### Peers and orders (chapters 8 and 10) -/

/-- PEER_LOST, with station time at the absence deadline of a PRESENT peer, outside INERT: it is LOST, its duplicate
window is empty and its deadline absent; its fire record and health summary stay. A PEER_LOST whose condition does not
hold changes nothing (the model's choice, notes/assumptions/2.md): a peer that is SILENT or LOST already, or whose
deadline lies ahead, is left as it is, and so is every peer in INERT. -/
def Obligations.PeerIsLostAtItsDeadline : Prop :=
  ∀ (q : Nat) (s : State), 1 ≤ q → q ≤ 14 →
    ((s.cru.peer q).presence = .present → (s.cru.peer q).deadline = some s.now → s.stc.station ≠ .inert →
      exec (.peerLost q) s =
        .next { s with cru := s.cru.onPeer q fun p => { p with presence := .lost, deadline := none, window := none } }) ∧
    ((s.cru.peer q).presence ≠ .present ∨
        (∃ d, (s.cru.peer q).deadline = some d ∧ (s.now - d).toInt < 0) ∨ s.stc.station = .inert →
      exec (.peerLost q) s = .next s)

/-- The five ORDER commands, by their origin. One from a firing position, or under another control id, is foreign:
it is counted and its origin heard. One with its active flag clear marks its origin heard alone. One with the flag
set is taken from the active source; when its key is the last executed pair, or its command is HOLD, the angle is
held and staleness reset, and nothing else follows. -/
def Obligations.OrdersAreTakenOncePerKey : Prop :=
  ∀ (mk : Order → Instr) (o : Order) (s : State),
    mk ∈ [Instr.hold, Instr.deblock, Instr.block, Instr.bypassBlock, Instr.clear] → s.stc.station ≠ .inert →
    1 ≤ o.origin → o.origin ≤ 14 → o.origin ≠ s.straps.pos ∨ 12 < s.straps.pos →
    let u := s.hearing o.origin (mk o)
    (o.origin ≤ 12 ∨ o.controlId ≠ o.origin →
      exec (mk o) s = .next { u with cru := { u.cru with foreignOrders := min 255 (s.cru.foreignOrders + 1) } }) ∧
    (13 ≤ o.origin → o.controlId = o.origin → o.active = false → exec (mk o) s = .next u) ∧
    (ActiveOrder o →
      s.cru.lastExecuted = some { source := o.origin, number := o.number } ∨ mk o = .hold o →
      exec (mk o) s = .next (s.orderTaken o (mk o)))

/-- DEBLOCK under a new key. In BLOCKED, LOCKED and not EXHAUSTED, the station enters FIRING: F_prev is absent, the
predecessor record empty, its miss count 0 and the inversion mark no, fired since entry and bridge predecessor heard
no, READY stays high, the station counts as fired and nothing is scheduled. Otherwise it is refused, and only the
ORDER itself has been taken. -/
def Obligations.DeblockEntersFiringOrIsRefused : Prop :=
  ∀ (o : Order) (s : State), ActiveOrder o → s.stc.station ≠ .inert →
    s.cru.lastExecuted ≠ some { source := o.origin, number := o.number } →
    let u := s.orderTaken o (.deblock o)
    exec (.deblock o) s =
      if s.stc.station = .blocked ∧ s.aru.lock = .locked ∧ s.lmon.redundancy ≠ .exhausted then
        .next { u with
          stc := { u.stc with station := .firing, tripLine := false, readyLine := true, fired := true }
          fcu := { u.fcu with previous := none }
          cru := { u.cru with
            predecessor := none, missCount := 0, inversionMark := false, firedSince := false, bridgeHeard := false } }
      else .next u

/-- BLOCK under a new key, by the station state. FIRING goes to BLOCKED with its schedule cancelled, the train and
the overdue watch as they were; BYPASS goes to BLOCKED with the record empty, a bypass train ended; TRIPPED ends the
bypass likewise, and a running isolation hold with any schedule, and stays TRIPPED; elsewhere it has no effect. A
cancellation before the fallback instant M, or with the mark taken, only discards the schedule; one of a schedule that
stands at or after M, with the mark not taken, takes the cycle mark once the rest is done. That the mark comes last, so
that it finds the station BLOCKED and originates the untimed HEALTH of that state, is the model's reading of the rules
and not their word (notes/assumptions/26.md). -/
def Obligations.BlockStopsByTheStationState : Prop :=
  ∀ (o : Order) (s : State), ActiveOrder o → s.cru.lastExecuted ≠ some { source := o.origin, number := o.number } →
    let u := s.orderTaken o (.block o)
    let blocked := fun (c : Stc) => { c with station := .blocked, tripLine := false, readyLine := true }
    let stopped : State := { u with stc := blocked u.stc, fcu := { u.fcu with schedule := none } }
    let ended : State := { u with
      stc := { u.stc with record := none, holdRunning := false }
      lca := { u.lca with train := afterExit u.lca.train }
      fcu := if s.stc.holdRunning = true then { u.fcu with schedule := none } else u.fcu }
    (s.stc.station = .firing →
      (CancelsWithoutMark s → exec (.block o) s = .next stopped) ∧
      (CancelTakesMark s → exec (.block o) s = .next (cycleMark false stopped))) ∧
    (s.stc.station = .bypass →
      exec (.block o) s =
        .next { u with
          stc := blocked { u.stc with record := none }, lca := { u.lca with train := afterExit u.lca.train } }) ∧
    (s.stc.station = .tripped →
      (CancelsWithoutMark s ∨ s.stc.holdRunning = false → exec (.block o) s = .next ended) ∧
      (CancelTakesMark s → s.stc.holdRunning = true → exec (.block o) s = .next (cycleMark false ended))) ∧
    (s.stc.station = .start ∨ s.stc.station = .survey ∨ s.stc.station = .blocked → exec (.block o) s = .next u)

/-- BYPASS_BLOCK under a new key. In FIRING with an empty record the station originates the BYPASS with cause 0 that
its fire records name, adopts it with the own key, enters BYPASS with READY high and cancels its schedule; a member
starts a train as a bypass train or keeps its own as one, with S and m and a MAIN that goes on, and drops its
overdue watch, a non-member keeps both. A cancellation of a schedule that stands at or after M, with the mark not
taken, takes the cycle mark besides. In every other state nothing follows. The legs lie in 1..3, the leg of a bridge
is that of the position whose firing number is serially later than every other valid one there, and 1 when none is
valid; the reference FN is one that is serially later than every other valid one of the twelve positions or equal to it,
and 0 when none is valid. In every case legs and FN are those of the last candidate of their scan. -/
def Obligations.BypassBlockNamesTheLegsThatFiredLast : Prop :=
  ∀ (o : Order) (s : State), ActiveOrder o → s.stc.station ≠ .inert →
    s.cru.lastExecuted ≠ some { source := o.origin, number := o.number } →
    let u := s.orderTaken o (.bypassBlock o)
    let b := ownBypass s 0
    (s.stc.station = .firing → s.stc.record = none → CancelsWithoutMark s →
      ∃ t, exec (.bypassBlock o) s = .next t ∧
        t = { u with lca := t.lca, rif := t.rif, cru := t.cru, stc := t.stc, fcu := t.fcu, freeCount := t.freeCount } ∧
        t.fcu = { u.fcu with schedule := none } ∧
        t.rif = u.rif.originated .bypass
          [BitVec.ofNat 8 (b.fn.toNat / 256), BitVec.ofNat 8 b.fn.toNat, BitVec.ofNat 8 b.star,
            BitVec.ofNat 8 b.delta, 0] none ∧
        t.stc = { u.stc with
          station := .bypass, tripLine := false, readyLine := true
          record := some
            { star := b.star, delta := b.delta, fn := b.fn, origin := s.straps.pos, adopted := s.now
              deadline := s.now + BitVec.ofNat 32 s.aru.period, settled := false } } ∧
        if t.isMember = true then
          t.cru = { u.cru with watch := none } ∧
            t.lca = { u.lca with train := some (memberTrain s.now u.lca.train) }
        else t.cru = u.cru ∧ t.lca = u.lca) ∧
    (s.stc.station = .firing → s.stc.record = none → CancelTakesMark s →
      ∃ t, exec (.bypassBlock o) s = .next t ∧ t.fcu = { u.fcu with schedule := none } ∧
        t.lmon = (cycleMark false u).lmon ∧
        t.stc.record = some
          { star := b.star, delta := b.delta, fn := b.fn, origin := s.straps.pos, adopted := s.now
            deadline := s.now + BitVec.ofNat 32 s.aru.period, settled := false }) ∧
    (s.stc.station ≠ .firing → exec (.bypassBlock o) s = .next u) ∧
    (let all := [1, 2, 3, 4, 5, 6, 7, 8, 9, 10, 11, 12]
     b.fn = ((s.scan none all).map fun x => x.2).getD 0 ∧
      b.star = ((s.scan none [1, 3, 5, 7, 9, 11]).map fun x => legIndex x.1).getD 1 ∧
      b.delta = ((s.scan none [2, 4, 6, 8, 10, 12]).map fun x => legIndex x.1).getD 1 ∧
      ((∀ q ∈ all, s.fireRecord q = none) → b.fn = 0) ∧
      ∀ q ∈ all, ∀ f, s.fireRecord q = some f →
        (∀ r ∈ all, ∀ g, r ≠ q → s.fireRecord r = some g → f = g ∨ (1 ≤ (f - g).toNat ∧ (f - g).toNat ≤ 32767)) →
        b.fn = f) ∧
    ∀ parity : Nat, parity < 2 →
      let bridge := [1, 3, 5, 7, 9, 11].map fun q => q + parity
      let leg := if parity = 0 then b.star else b.delta
      (1 ≤ leg ∧ leg ≤ 3) ∧ ((∀ q ∈ bridge, s.fireRecord q = none) → leg = 1) ∧
        ∀ q ∈ bridge, ∀ f, s.fireRecord q = some f →
          (∀ r ∈ bridge, ∀ g, r ≠ q → s.fireRecord r = some g →
            1 ≤ (f - g).toNat ∧ (f - g).toNat ≤ 32767) → leg = legIndex q

/-- CLEAR under a new key. In BLOCKED the active flag of every fault whose mode in force is REPORT is lowered and
the escalation list is emptied; counts, modes and the flags of the other faults stay. In any other state it is
refused. -/
def Obligations.ClearLowersReportFlagsInBlocked : Prop :=
  ∀ (o : Order) (s : State), ActiveOrder o → s.stc.station ≠ .inert →
    s.cru.lastExecuted ≠ some { source := o.origin, number := o.number } →
    let u := s.orderTaken o (.clear o)
    (s.stc.station = .blocked →
      ∃ t, exec (.clear o) s = .next t ∧
        t = { u with stc := { u.stc with faults := t.stc.faults, escalation := [] } } ∧
        ∀ f : FaultCode, t.stc.fault f =
          if (u.stc.fault f).mode = .report then { u.stc.fault f with active := false } else u.stc.fault f) ∧
    (s.stc.station ≠ .blocked → exec (.clear o) s = .next u)

/-! ### Deliveries (chapters 8 to 11) -/

/-- FIRE from p − 1, in FIRING or the isolation hold: its FN becomes the fire record of its origin. With F_prev absent
or the FIRE untimed, or with D = P − F_prev at or above half a period, it is current: it enters the predecessor
record, a replacement with F_prev present raises SEQUENCE_SLIP, and a provisional schedule is recomputed with a timed
one. With D above 0 and below that it is inverted: the mark is set and SEQUENCE_INVERSION raised; with D at or below 0
it is late and counted; in both the record stays. The modes stand at REPORT here. -/
def Obligations.FireFromThePredecessorIsClassified : Prop :=
  ∀ (f : Fire) (s : State), 1 ≤ s.straps.pos → s.straps.pos ≤ 12 → f.origin = (s.straps.pos + 10) % 12 + 1 →
    s.stc.station = .firing ∨ s.inHold = true → (s.stc.fault .sequenceSlip).mode = .report →
    (s.stc.fault .sequenceInversion).mode = .report → PeriodInBounds s →
    let v := s.hearing f.origin (.fire f)
    let u : State := { v with cru := v.cru.onPeer f.origin fun p => { p with fire := some f.fn } }
    let raised := fun (c : Stc) (x : FaultCode) =>
      c.onFault x fun r => { r with active := true, count := min 127 (r.count + 1) }
    (s.fcu.previous = none ∨ f.instant = none ∨
        (∃ F P, s.fcu.previous = some F ∧ f.instant = some P ∧ (s.aru.period / 2 : Nat) ≤ (P - F).toInt) →
      exec (.fire f) s =
        .next { u with
          cru := { u.cru with
            predecessor := some { fn := f.fn, instant := f.instant, replaced := s.cru.predecessor.isSome } }
          stc :=
            if s.cru.predecessor.isSome = true ∧ s.fcu.previous.isSome = true then raised u.stc .sequenceSlip
            else u.stc
          fcu := { u.fcu with
            schedule :=
              match s.fcu.schedule, f.instant with
              | some c, some p =>
                some (if c.provisional = true then
                  { c with firing := guarded c.unguarded p c.step c.cap, provisional := false } else c)
              | some c, none => some c
              | none, _ => none } }) ∧
    (∀ F P, s.fcu.previous = some F → f.instant = some P → 0 < (P - F).toInt →
      (P - F).toInt < (s.aru.period / 2 : Nat) →
      exec (.fire f) s =
        .next { u with cru := { u.cru with inversionMark := true }, stc := raised u.stc .sequenceInversion }) ∧
    (∀ F P, s.fcu.previous = some F → f.instant = some P → (P - F).toInt ≤ 0 →
      exec (.fire f) s = .next { u with cru := { u.cru with lateFires := min 255 (s.cru.lateFires + 1) } })

/-- FIRE from any other position, or from p − 1 while the station neither fires nor holds. Its FN becomes the fire
record of a firing position; one from 13 or 14 is only heard. From p − 2 in FIRING it sets bridge predecessor heard.
From p + 2 with START, in FIRING with no own firing since the entry and no train, it lights a companion: a normal
train in MAIN from now with its conduction limit. -/
def Obligations.OtherFiresAreRecordedAndStartTheBridge : Prop :=
  ∀ (f : Fire) (s : State), 1 ≤ s.straps.pos → s.straps.pos ≤ 12 → s.stc.station ≠ .inert →
    1 ≤ f.origin → f.origin ≤ 14 → f.origin ≠ s.straps.pos →
    let v := s.hearing f.origin (.fire f)
    let u : State := { v with cru := v.cru.onPeer f.origin fun p => { p with fire := some f.fn } }
    (13 ≤ f.origin → exec (.fire f) s = .next v) ∧
    (f.origin ≤ 12 →
      (f.origin = (s.straps.pos + 10) % 12 + 1 → s.stc.station ≠ .firing → s.inHold = false →
        exec (.fire f) s = .next u) ∧
      (f.origin = (s.straps.pos + 9) % 12 + 1 →
        exec (.fire f) s =
          .next { u with cru := { u.cru with bridgeHeard := u.cru.bridgeHeard || s.stc.station = .firing } }) ∧
      (f.origin = (s.straps.pos + 1) % 12 + 1 →
        exec (.fire f) s =
          .next
            (if f.start = true ∧ s.stc.station = .firing ∧ s.cru.firedSince = false ∧ s.lca.train = none then
              { u with lca := { u.lca with
                train := some
                  { phase := .main, start := s.now, origin := s.now + 100
                    kind := .normal (s.now + BitVec.ofNat 32 (15000 * s.aru.period / 36000)) s.now } } }
            else u)) ∧
      (f.origin ≠ (s.straps.pos + 10) % 12 + 1 → f.origin ≠ (s.straps.pos + 9) % 12 + 1 →
        f.origin ≠ (s.straps.pos + 1) % 12 + 1 → exec (.fire f) s = .next u))

/-- HEALTH: the XT instant of a firing position's summary becomes the translated instant, or untimed. From p − 4, in
FIRING or the isolation hold, with F_prev present and D = X − F_prev above 0, an overlap angle(D) up to 6000 becomes
μ_last; in every other case μ_last stays. One from 13 or 14 is only heard. -/
def Obligations.HealthOfTheOutgoingValveMeasuresTheOverlap : Prop :=
  ∀ (q : Nat) (instant : Option StationTime) (s : State), 1 ≤ s.straps.pos → s.straps.pos ≤ 12 →
    s.stc.station ≠ .inert → 1 ≤ q → q ≤ 14 → q ≠ s.straps.pos →
    let v := s.hearing q (.health q instant)
    let u : State := { v with cru := v.cru.onPeer q fun p => { p with xt := instant } }
    (13 ≤ q → exec (.health q instant) s = .next v) ∧
    (∀ X F, q = (s.straps.pos + 7) % 12 + 1 → s.stc.station = .firing ∨ s.inHold = true → instant = some X →
      s.fcu.previous = some F → 0 < (X - F).toInt → (X - F).toInt.toNat * 36000 / s.aru.period ≤ 6000 →
      exec (.health q instant) s =
        .next { u with cru := { u.cru with muLast := (X - F).toInt.toNat * 36000 / s.aru.period } }) ∧
    (q ≤ 12 →
      q ≠ (s.straps.pos + 7) % 12 + 1 ∨ (s.stc.station ≠ .firing ∧ s.inHold = false) ∨ instant = none ∨
        s.fcu.previous = none ∨
        (∃ X F, instant = some X ∧ s.fcu.previous = some F ∧
          ((X - F).toInt ≤ 0 ∨ 6000 < (X - F).toInt.toNat * 36000 / s.aru.period)) →
      exec (.health q instant) s = .next u)

/-- MARGIN and CFAIL from a firing position enter a request in its name: a MARGIN with γ, at most 36000, below γ_alarm
asks for min(3000, K × (γ_alarm − γ)) with hold 8, one at or above it for nothing, and a CFAIL for 3000 with hold 20
whatever its cause and count. From 13 and 14 they are only heard. -/
def Obligations.WarningsOfThePeersRequestAnAdvance : Prop :=
  ∀ (q γ cause count : Nat) (s : State), s.stc.station ≠ .inert → 1 ≤ q → q ≤ 14 →
    q ≠ s.straps.pos ∨ 12 < s.straps.pos → 1 ≤ s.stc.gain →
    let u := s.hearing q (.margin q γ)
    let v := s.hearing q (.cfail q cause count)
    exec (.margin q γ) s =
        (if q ≤ 12 ∧ min 36000 γ < s.stc.gammaAlarm then
          .next { u with cru := { u.cru with
            advances := enterRequest s.cru.advances
              { source := q, kind := .margin, magnitude := min 3000 (s.stc.gain * (s.stc.gammaAlarm - min 36000 γ))
                hold := 8 } } }
        else .next u) ∧
      exec (.cfail q cause count) s =
        if q ≤ 12 then
          .next { v with cru := { v.cru with
            advances := enterRequest s.cru.advances { source := q, kind := .cfail, magnitude := 3000, hold := 20 } } }
        else .next v

/-- BYPASS delivered. In START and SURVEY, or with a leg outside 1..3, it is only heard. With an empty record it is
adopted: in BLOCKED and FIRING the station enters BYPASS, with any schedule cancelled from FIRING; an unsettled
record takes the legs and key of a later key and keeps its times, and a BYPASS whose key is not later changes
nothing; a settled record never changes, and other legs than its own raise BYPASS_CONFLICT. At an adoption a
member's train is a bypass train from now on (with S and m kept, MAIN going on and any other phase CONTINUOUS, or a
new one in MAIN), a station that becomes a member drops its overdue watch, one that ceases to be one gets back a
normal train with a fresh limit, and a non-member keeps its train. A cancellation of a schedule that stands at or
after M, with the mark not taken, takes the cycle mark besides. -/
def Obligations.BypassIsAdoptedByItsKeyUntilSettled : Prop :=
  ∀ (b : BypassOrder) (s : State), s.stc.station ≠ .inert → 1 ≤ b.origin → b.origin ≤ 14 →
    b.origin ≠ s.straps.pos ∨ 12 < s.straps.pos → ModeConsistent s →
    let u := s.hearing b.origin (.bypass b)
    let legs := 1 ≤ b.star ∧ b.star ≤ 3 ∧ 1 ≤ b.delta ∧ b.delta ≤ 3
    let later := fun (r : BlockRecord) =>
      (1 ≤ (b.fn - r.fn).toNat ∧ (b.fn - r.fn).toNat ≤ 32767) ∨ (b.fn = r.fn ∧ b.origin < r.origin)
    (¬legs ∨ s.stc.station = .start ∨ s.stc.station = .survey → exec (.bypass b) s = .next u) ∧
    (∀ r, legs → s.stc.station ≠ .start → s.stc.station ≠ .survey → s.stc.record = some r →
      (r.settled = false → ¬later r → exec (.bypass b) s = .next u) ∧
      (r.settled = true → b.star = r.star → b.delta = r.delta → exec (.bypass b) s = .next u) ∧
      (r.settled = true → b.star ≠ r.star ∨ b.delta ≠ r.delta → (s.stc.fault .bypassConflict).mode = .report →
        exec (.bypass b) s =
          .next { u with stc := u.stc.onFault .bypassConflict fun f =>
            { f with active := true, count := min 127 (f.count + 1) } })) ∧
    (legs → s.stc.station ≠ .start → s.stc.station ≠ .survey →
      (∀ r, s.stc.record = some r → r.settled = false ∧ later r) →
      (s.stc.station = .firing → CancelTakesMark s →
        ∃ t, exec (.bypass b) s = .next t ∧ t.fcu.schedule = none ∧ t.lmon = (cycleMark false s).lmon ∧
          t.stc.record = some
            { star := b.star, delta := b.delta, fn := b.fn, origin := b.origin, adopted := s.now
              deadline := s.now + BitVec.ofNat 32 s.aru.period, settled := false }) ∧
      (s.stc.station ≠ .firing ∨ CancelsWithoutMark s →
      ∃ t, exec (.bypass b) s = .next t ∧
        t = { u with lca := t.lca, cru := t.cru, stc := t.stc, fcu := t.fcu, freeCount := t.freeCount } ∧
        t.stc = { u.stc with
          station := if s.stc.station = .tripped then .tripped else .bypass
          tripLine := decide (s.stc.station = .tripped), readyLine := decide (s.stc.station ≠ .tripped)
          record :=
            match s.stc.record with
            | some r => some { r with star := b.star, delta := b.delta, fn := b.fn, origin := b.origin }
            | none => some
              { star := b.star, delta := b.delta, fn := b.fn, origin := b.origin, adopted := s.now
                deadline := s.now + BitVec.ofNat 32 s.aru.period, settled := false } } ∧
        t.fcu = (if s.stc.station = .tripped then u.fcu else { u.fcu with schedule := none }) ∧
        t.cru = (if t.isMember = true ∧ s.isMember = false then { u.cru with watch := none } else u.cru) ∧
        t.lca.channels = s.lca.channels ∧
        t.lca.train =
          if t.isMember = true then some (memberTrain s.now s.lca.train)
          else if s.isMember = true then
            s.lca.train.map fun r =>
              if r.kind = .bypass then
                { r with
                  phase := if r.phase = .main then .main else .refresh
                  kind := .normal (s.now + BitVec.ofNat 32 (15000 * s.aru.period / 36000)) s.now }
              else r
          else s.lca.train))

/-- SETTINGS from 13 or 14, each field taken into range: γ_min into [1000, 3000], γ_alarm into [γ_min + 200, 4000],
K into [1, 4], a mode code outside its fault's modes as the default, by the twelve rows of R185. In START, SURVEY or
BLOCKED, neither fired nor frozen, the content becomes the settings in force and freezes them, flags and counts
staying; otherwise the same content changes nothing and other content raises SETTINGS_REJECTED. From any other
origin it is only heard. -/
def Obligations.SettingsAreAcceptedOnceBeforeFiring : Prop :=
  ∀ (q : Nat) (r : RawSettings) (s : State), s.stc.station ≠ .inert → 1 ≤ q → q ≤ 14 →
    q ≠ s.straps.pos ∨ 12 < s.straps.pos → FaultTableInRange s.stc →
    let u := s.hearing q (.settings q r)
    let low := max 1000 (min 3000 r.gammaMin)
    let alarm := max (low + 200) (min 4000 r.gammaAlarm)
    let gain := max 1 (min 4 r.gain)
    let code := fun (f : FaultCode) =>
      match f with
      | .referenceLost => (r.modes.toNat / 2 ^ 14) % 4
      | .commutationFailureRepeated => (r.modes.toNat / 2 ^ 12) % 4
      | .ringDegraded => (r.modes.toNat / 2 ^ 10) % 4
      | .orderLost => (r.modes.toNat / 2 ^ 8) % 4
      | .sequenceInversion => (r.modes.toNat / 2 ^ 6) % 4
      | .sequenceSlip => (r.modes.toNat / 2 ^ 4) % 4
      | .peerSilent => (r.modes.toNat / 2 ^ 2) % 4
      | _ => 4
    let row : FaultCode → List FaultMode × FaultMode := fun f =>
      match f with
      | .redundancyLow => ([.report], .report)
      | .redundancyExhausted => ([.trip], .trip)
      | .referenceLost => ([.trip, .block], .block)
      | .commutationFailureRepeated => ([.trip, .report], .trip)
      | .ringDegraded => ([.report, .ignore], .report)
      | .ringLost => ([.trip], .trip)
      | .orderLost => ([.block, .report], .report)
      | .sequenceInversion => ([.report, .block], .report)
      | .sequenceSlip => ([.report, .ignore], .report)
      | .peerSilent => ([.report, .block], .report)
      | .bypassConflict => ([.report], .report)
      | .settingsRejected => ([.report], .report)
    let coded : Nat → Option FaultMode := fun n => [FaultMode.trip, .block, .report, .ignore][n]?
    let mode := fun (f : FaultCode) =>
      match coded (code f) with
      | some m => if m ∈ (row f).1 then m else (row f).2
      | none => (row f).2
    let taken :=
      (s.stc.station = .start ∨ s.stc.station = .survey ∨ s.stc.station = .blocked) ∧ s.stc.fired = false ∧
        s.stc.frozen = false
    let same :=
      s.stc.gammaMin = low ∧ s.stc.gammaAlarm = alarm ∧ s.stc.gain = gain ∧
        ∀ f : FaultCode, (s.stc.fault f).mode = mode f
    (∀ f m, (f.allows m = true ↔ m ∈ (row f).1) ∧ f.defaultMode = (row f).2) ∧
    (q ≤ 12 → exec (.settings q r) s = .next u) ∧
    (13 ≤ q → taken →
      ∃ t, exec (.settings q r) s = .next t ∧
        t = { u with stc := { u.stc with
          gammaMin := low, gammaAlarm := alarm, gain := gain, frozen := true, faults := t.stc.faults } } ∧
        ∀ f : FaultCode, t.stc.fault f = { s.stc.fault f with mode := mode f }) ∧
    (13 ≤ q → ¬taken → same → exec (.settings q r) s = .next u) ∧
    (13 ≤ q → ¬taken → ¬same →
      exec (.settings q r) s =
        .next { u with stc := u.stc.onFault .settingsRejected fun f =>
          { f with active := true, count := min 127 (f.count + 1) } })

/-- QUERY and REPORT. A QUERY from 13 or 14 for this station, in SURVEY or later, for a page 0..12 originates the
untimed REPORT of that page, its number and the sixteen bytes of content that the tables of R117 to R120 lay out:
level records on pages 0..9, the fault table, the port and input counts, and the counts of ignored telegrams. For a
page above 12 it counts a bad page. In START, for another target or from another origin it is only heard, as every
REPORT is. -/
def Obligations.QueriesAreAnsweredAndReportsHeard : Prop :=
  ∀ (q target page : Nat) (s : State), s.stc.station ≠ .inert → 1 ≤ q → q ≤ 14 →
    q ≠ s.straps.pos ∨ 12 < s.straps.pos →
    let u := s.hearing q (.query q target page)
    let acted := 13 ≤ q ∧ target = s.straps.pos ∧ s.stc.station ≠ .start
    exec (.report q) s = .next (s.hearing q (.report q)) ∧
    (acted → page ≤ 12 →
      (pageBytes s page).length = 16 ∧
        exec (.query q target page) s =
          .next { u with rif := s.rif.originated .report (BitVec.ofNat 8 page :: pageBytes s page) none }) ∧
    (acted → 12 < page →
      exec (.query q target page) s =
        .next { u with cru := { u.cru with badPages := min 255 (s.cru.badPages + 1) } }) ∧
    (¬acted → exec (.query q target page) s = .next u)

/-! ### The Station Controller (chapters 10 and 11) -/

/-- SETTLE_DEADLINE, ESCALATION_ENTRY_EXPIRY and ISOLATION_HOLD_END, with their instant or count reached: the record
is settled with its legs, key and times; the first escalation entry whose removal time has come leaves the list,
except in TRIPPED, where none does; the hold that has counted eleven reference events stops running and any schedule
is cancelled, which takes the cycle mark when the schedule stands at or after M with the mark not taken. Nothing
else changes. -/
def Obligations.RecordListAndHoldEndAtTheirInstants : Prop :=
  ∀ s : State,
    (∀ r, s.stc.record = some r → r.settled = false → s.now = r.deadline →
      exec .settleDeadline s = .next { s with stc := { s.stc with record := some { r with settled := true } } }) ∧
    (∀ before e after, s.stc.station ≠ .tripped → s.stc.escalation = before ++ e :: after → s.now = e.expiry →
      (∀ x ∈ before, (s.now - x.expiry).toInt < 0) →
      exec .escalationEntryExpiry s = .next { s with stc := { s.stc with escalation := before ++ after } }) ∧
    (s.stc.station = .tripped → exec .escalationEntryExpiry s = .next s) ∧
    (s.stc.holdRunning = true → s.stc.holdCount = 11 →
      let t : State := { s with stc := { s.stc with holdRunning := false }, fcu := { s.fcu with schedule := none } }
      (CancelsWithoutMark s → exec .isolationHoldEnd s = .next t) ∧
      (CancelTakesMark s → exec .isolationHoldEnd s = .next (cycleMark false t)))

/-- An occurrence of a fault: its count rises, saturating at 127, and its flag is set but in mode IGNORE. REPORT and
IGNORE do no more, nor does BLOCK outside FIRING. BLOCK in FIRING takes the station to BLOCKED, or to TRIPPED when
the escalation decides so, with no schedule. TRIP takes SURVEY, BLOCKED and BYPASS to TRIPPED directly, FIRING to
TRIPPED with a BYPASS of cause fault code + 1 originated first, and leaves TRIPPED, START and INERT. A cancellation
before the fallback instant M, or with the mark taken, only discards the schedule; one of a schedule that stands at
or after M, with the mark not taken, takes the cycle mark too. That this mark comes after the change of the station state,
so that a station just BLOCKED originates its untimed HEALTH at it, is the model's reading of the rules and not their
word (notes/assumptions/26.md). -/
def Obligations.FaultActsByItsModeInForce : Prop :=
  ∀ (f : FaultCode) (s : State), FaultTableInRange s.stc → s.stc.record = none ∨ s.stc.station ≠ .firing →
    let r := s.stc.fault f
    let u : State := { s with stc := s.stc.onFault f fun x =>
      { x with count := min 127 (x.count + 1), active := x.active || decide (x.mode ≠ .ignore) } }
    let t := takeFault f s
    let list := (if s.stc.escalation.length < 3 then s.stc.escalation else s.stc.escalation.drop 1) ++
      [{ stamp := s.stc.lastReference, expiry := s.stc.lastReference + BitVec.ofNat 32 (1000 * s.aru.period) }]
    let escalated := ∃ x y z, list = [x, y, z] ∧ 0 ≤ (z.stamp - x.stamp).toInt ∧
      (z.stamp - x.stamp).toInt ≤ ((1000 * s.aru.period : Nat) : Int)
    let stopped : State := { u with
      stc := { u.stc with station := .blocked, tripLine := false, readyLine := true, escalation := list }
      fcu := { u.fcu with schedule := none } }
    (CancelsWithoutMark s →
      t.stc.fault f = { r with count := min 127 (r.count + 1), active := r.active || decide (r.mode ≠ .ignore) }) ∧
    (r.mode = .report ∨ r.mode = .ignore ∨ (r.mode = .block ∧ s.stc.station ≠ .firing) ∨
        (r.mode = .trip ∧ (s.stc.station = .tripped ∨ s.stc.station = .start ∨ s.stc.station = .inert)) → t = u) ∧
    (r.mode = .block → s.stc.station = .firing →
      t.stc.escalation = list ∧ t.fcu.schedule = none ∧
        (escalated → t.stc.station = .tripped ∧ t.stc.record.isSome = true ∧
          (CancelTakesMark s → t.lmon = (cycleMark false s).lmon)) ∧
        (¬escalated → (CancelsWithoutMark s → t = stopped) ∧ (CancelTakesMark s → t = cycleMark false stopped))) ∧
    (r.mode = .trip → s.stc.station = .survey ∨ s.stc.station = .blocked ∨ s.stc.station = .bypass →
      t = { u with stc := { u.stc with station := .tripped, tripLine := true, readyLine := false } }) ∧
    (r.mode = .trip → s.stc.station = .firing →
      t.stc.station = .tripped ∧ t.stc.tripLine = true ∧ t.stc.readyLine = false ∧ t.stc.record.isSome = true ∧
        t.stc.holdRunning = (s.stc.holdRunning || decide (f = .ringLost)) ∧
        t.fcu.schedule = (if f = .ringLost then s.fcu.schedule else none) ∧
        (f = .ringLost ∨ CancelsWithoutMark s →
          t.lmon = s.lmon ∧ t.rif = s.rif.originated .bypass
            (bypassPayload (ownBypass s 0).fn (ownBypass s 0).star (ownBypass s 0).delta (f.code.val + 1)) none) ∧
        (f ≠ .ringLost → CancelTakesMark s → t.lmon = (cycleMark false s).lmon))

/-! ### The whole machine -/

/-- A command stops only when it names a position outside 1..14, and then by name (notes/assumptions/20.md); every
well-formed command runs. In INERT, and of the own position, a delivery changes nothing but the hand-over list. -/
def Obligations.CommandsStopOnlyForForeignPositions : Prop :=
  ∀ (c : Instr) (s : State),
    (∀ q, positionNamed c = some q → q < 1 ∨ 14 < q → exec c s = .fault .noSuchPosition) ∧
    ((∀ q, positionNamed c = some q → 1 ≤ q ∧ q ≤ 14) → ∃ t, exec c s = .next t) ∧
    (c.wellFormed = true → ∃ t, exec c s = .next t) ∧
    ∀ q, positionNamed c = some q → c ≠ .peerLost q → 1 ≤ q → q ≤ 14 →
      s.stc.station = .inert ∨ (q = s.straps.pos ∧ s.straps.pos ≤ 12) →
      exec c s = .next { s with handed := s.handed.erase c }

/-- What no command but RESET can undo: the station state moves only as chapter 10 lets it (START to SURVEY or INERT,
SURVEY to BLOCKED or TRIPPED, BLOCKED to FIRING, BYPASS or TRIPPED, FIRING to BLOCKED, BYPASS or TRIPPED, BYPASS to
BLOCKED or TRIPPED, INERT and TRIPPED nowhere); the straps stay; a FAILED level stays FAILED; once the station has
entered FIRING or a SETTINGS has been accepted, the settings in force and every fault's mode stay; and a settled
bypass record stays until a BLOCK. -/
def Obligations.OnlyResetUndoesWhatIsLatched : Prop :=
  ∀ (c : Instr) (s t : State), (∀ straps, c ≠ .reset straps) → exec c s = .next t →
    canFollow s.stc.station t.stc.station = true ∧ t.straps = s.straps ∧
    (∀ i, (s.level i).state = .failed → (t.level i).state = .failed) ∧
    (s.stc.fired = true → t.stc.fired = true) ∧ (s.stc.frozen = true → t.stc.frozen = true) ∧
    (s.stc.fired = true ∨ s.stc.frozen = true →
      t.stc.gammaMin = s.stc.gammaMin ∧ t.stc.gammaAlarm = s.stc.gammaAlarm ∧ t.stc.gain = s.stc.gain ∧
        ∀ f : FaultCode, (t.stc.fault f).mode = (s.stc.fault f).mode) ∧
    ((∀ o, c ≠ .block o) → ∀ r, s.stc.record = some r → r.settled = true → t.stc.record = some r)

/-- The state after reset is sound, and its train agrees with its bypass record. -/
def Obligations.ResetStateIsSound : Prop := Sound State.reset ∧ LitForTheBypass State.reset

/-- Every step keeps a sound state sound: the status lines follow the station state, settings and fault table stay in
range, a schedule stands only where firings are made, T_est stays in its bounds, the failed count is the number of
FAILED levels, the tallies follow the phase, buffers, queues and runs stay within their sizes and the queues in order,
the advance list and the history stay in range, α_req in 500..16500 and μ_last up to 6000, and a station in START or
INERT is quiet, with the Coordination Unit as reset leaves it in INERT. -/
def Obligations.EveryStepKeepsTheStateSound : Prop :=
  ∀ s t : State, Sound s → step s = .next t → Sound t

/-- Every step of a sound state keeps the train in agreement with the bypass: a bypass train is running exactly while
the adopted record names the station's own leg in its own bridge. -/
def Obligations.TrainIsABypassTrainExactlyForAMember : Prop :=
  ∀ s t : State, Sound s → LitForTheBypass s → step s = .next t → LitForTheBypass t
end

