-- ==== Sys2Proof/Laws/State.lean ====
section
/-! SUPPORT. One lemma per field per update: what each named change of the state leaves and what it sets. All
are true by unfolding, and tagged for simp, so that no later proof unfolds a record update. -/

namespace Sys2Proof.Machine

/-! ### Vectors -/

@[simp] theorem get_set_same {α : Type} {n : Nat} (v : Vector α n) (i : Fin n) (x : α) :
    (v.set i.val x i.isLt).get i = x := by
  show (v.set i.val x i.isLt)[i.val] = x
  simp

theorem get_set_other {α : Type} {n : Nat} (v : Vector α n) {i j : Fin n} (x : α) (h : i ≠ j) :
    (v.set i.val x i.isLt).get j = v.get j := by
  show (v.set i.val x i.isLt)[j.val] = v[j.val]
  exact Vector.getElem_set_ne i.isLt j.isLt fun e => h (Fin.ext e)

/-! ### A block changed -/

@[simp] theorem onLca_now (s : State) (f) : (s.onLca f).now = s.now := rfl
@[simp] theorem onLca_straps (s : State) (f) : (s.onLca f).straps = s.straps := rfl
@[simp] theorem onLca_lca (s : State) (f) : (s.onLca f).lca = f s.lca := rfl
@[simp] theorem onLca_lmon (s : State) (f) : (s.onLca f).lmon = s.lmon := rfl
@[simp] theorem onLca_aru (s : State) (f) : (s.onLca f).aru = s.aru := rfl
@[simp] theorem onLca_fcu (s : State) (f) : (s.onLca f).fcu = s.fcu := rfl
@[simp] theorem onLca_rif (s : State) (f) : (s.onLca f).rif = s.rif := rfl
@[simp] theorem onLca_cru (s : State) (f) : (s.onLca f).cru = s.cru := rfl
@[simp] theorem onLca_stc (s : State) (f) : (s.onLca f).stc = s.stc := rfl
@[simp] theorem onLca_pending (s : State) (f) : (s.onLca f).pending = s.pending := rfl
@[simp] theorem onLca_handed (s : State) (f) : (s.onLca f).handed = s.handed := rfl
@[simp] theorem onLca_freeCount (s : State) (f) : (s.onLca f).freeCount = s.freeCount := rfl

@[simp] theorem onLmon_now (s : State) (f) : (s.onLmon f).now = s.now := rfl
@[simp] theorem onLmon_straps (s : State) (f) : (s.onLmon f).straps = s.straps := rfl
@[simp] theorem onLmon_lca (s : State) (f) : (s.onLmon f).lca = s.lca := rfl
@[simp] theorem onLmon_lmon (s : State) (f) : (s.onLmon f).lmon = f s.lmon := rfl
@[simp] theorem onLmon_aru (s : State) (f) : (s.onLmon f).aru = s.aru := rfl
@[simp] theorem onLmon_fcu (s : State) (f) : (s.onLmon f).fcu = s.fcu := rfl
@[simp] theorem onLmon_rif (s : State) (f) : (s.onLmon f).rif = s.rif := rfl
@[simp] theorem onLmon_cru (s : State) (f) : (s.onLmon f).cru = s.cru := rfl
@[simp] theorem onLmon_stc (s : State) (f) : (s.onLmon f).stc = s.stc := rfl
@[simp] theorem onLmon_pending (s : State) (f) : (s.onLmon f).pending = s.pending := rfl
@[simp] theorem onLmon_handed (s : State) (f) : (s.onLmon f).handed = s.handed := rfl
@[simp] theorem onLmon_freeCount (s : State) (f) : (s.onLmon f).freeCount = s.freeCount := rfl

@[simp] theorem onAru_now (s : State) (f) : (s.onAru f).now = s.now := rfl
@[simp] theorem onAru_straps (s : State) (f) : (s.onAru f).straps = s.straps := rfl
@[simp] theorem onAru_lca (s : State) (f) : (s.onAru f).lca = s.lca := rfl
@[simp] theorem onAru_lmon (s : State) (f) : (s.onAru f).lmon = s.lmon := rfl
@[simp] theorem onAru_aru (s : State) (f) : (s.onAru f).aru = f s.aru := rfl
@[simp] theorem onAru_fcu (s : State) (f) : (s.onAru f).fcu = s.fcu := rfl
@[simp] theorem onAru_rif (s : State) (f) : (s.onAru f).rif = s.rif := rfl
@[simp] theorem onAru_cru (s : State) (f) : (s.onAru f).cru = s.cru := rfl
@[simp] theorem onAru_stc (s : State) (f) : (s.onAru f).stc = s.stc := rfl
@[simp] theorem onAru_pending (s : State) (f) : (s.onAru f).pending = s.pending := rfl
@[simp] theorem onAru_handed (s : State) (f) : (s.onAru f).handed = s.handed := rfl
@[simp] theorem onAru_freeCount (s : State) (f) : (s.onAru f).freeCount = s.freeCount := rfl

@[simp] theorem onFcu_now (s : State) (f) : (s.onFcu f).now = s.now := rfl
@[simp] theorem onFcu_straps (s : State) (f) : (s.onFcu f).straps = s.straps := rfl
@[simp] theorem onFcu_lca (s : State) (f) : (s.onFcu f).lca = s.lca := rfl
@[simp] theorem onFcu_lmon (s : State) (f) : (s.onFcu f).lmon = s.lmon := rfl
@[simp] theorem onFcu_aru (s : State) (f) : (s.onFcu f).aru = s.aru := rfl
@[simp] theorem onFcu_fcu (s : State) (f) : (s.onFcu f).fcu = f s.fcu := rfl
@[simp] theorem onFcu_rif (s : State) (f) : (s.onFcu f).rif = s.rif := rfl
@[simp] theorem onFcu_cru (s : State) (f) : (s.onFcu f).cru = s.cru := rfl
@[simp] theorem onFcu_stc (s : State) (f) : (s.onFcu f).stc = s.stc := rfl
@[simp] theorem onFcu_pending (s : State) (f) : (s.onFcu f).pending = s.pending := rfl
@[simp] theorem onFcu_handed (s : State) (f) : (s.onFcu f).handed = s.handed := rfl
@[simp] theorem onFcu_freeCount (s : State) (f) : (s.onFcu f).freeCount = s.freeCount := rfl

@[simp] theorem onRif_now (s : State) (f) : (s.onRif f).now = s.now := rfl
@[simp] theorem onRif_straps (s : State) (f) : (s.onRif f).straps = s.straps := rfl
@[simp] theorem onRif_lca (s : State) (f) : (s.onRif f).lca = s.lca := rfl
@[simp] theorem onRif_lmon (s : State) (f) : (s.onRif f).lmon = s.lmon := rfl
@[simp] theorem onRif_aru (s : State) (f) : (s.onRif f).aru = s.aru := rfl
@[simp] theorem onRif_fcu (s : State) (f) : (s.onRif f).fcu = s.fcu := rfl
@[simp] theorem onRif_rif (s : State) (f) : (s.onRif f).rif = f s.rif := rfl
@[simp] theorem onRif_cru (s : State) (f) : (s.onRif f).cru = s.cru := rfl
@[simp] theorem onRif_stc (s : State) (f) : (s.onRif f).stc = s.stc := rfl
@[simp] theorem onRif_pending (s : State) (f) : (s.onRif f).pending = s.pending := rfl
@[simp] theorem onRif_handed (s : State) (f) : (s.onRif f).handed = s.handed := rfl
@[simp] theorem onRif_freeCount (s : State) (f) : (s.onRif f).freeCount = s.freeCount := rfl

@[simp] theorem onCru_now (s : State) (f) : (s.onCru f).now = s.now := rfl
@[simp] theorem onCru_straps (s : State) (f) : (s.onCru f).straps = s.straps := rfl
@[simp] theorem onCru_lca (s : State) (f) : (s.onCru f).lca = s.lca := rfl
@[simp] theorem onCru_lmon (s : State) (f) : (s.onCru f).lmon = s.lmon := rfl
@[simp] theorem onCru_aru (s : State) (f) : (s.onCru f).aru = s.aru := rfl
@[simp] theorem onCru_fcu (s : State) (f) : (s.onCru f).fcu = s.fcu := rfl
@[simp] theorem onCru_rif (s : State) (f) : (s.onCru f).rif = s.rif := rfl
@[simp] theorem onCru_cru (s : State) (f) : (s.onCru f).cru = f s.cru := rfl
@[simp] theorem onCru_stc (s : State) (f) : (s.onCru f).stc = s.stc := rfl
@[simp] theorem onCru_pending (s : State) (f) : (s.onCru f).pending = s.pending := rfl
@[simp] theorem onCru_handed (s : State) (f) : (s.onCru f).handed = s.handed := rfl
@[simp] theorem onCru_freeCount (s : State) (f) : (s.onCru f).freeCount = s.freeCount := rfl

@[simp] theorem onStc_now (s : State) (f) : (s.onStc f).now = s.now := rfl
@[simp] theorem onStc_straps (s : State) (f) : (s.onStc f).straps = s.straps := rfl
@[simp] theorem onStc_lca (s : State) (f) : (s.onStc f).lca = s.lca := rfl
@[simp] theorem onStc_lmon (s : State) (f) : (s.onStc f).lmon = s.lmon := rfl
@[simp] theorem onStc_aru (s : State) (f) : (s.onStc f).aru = s.aru := rfl
@[simp] theorem onStc_fcu (s : State) (f) : (s.onStc f).fcu = s.fcu := rfl
@[simp] theorem onStc_rif (s : State) (f) : (s.onStc f).rif = s.rif := rfl
@[simp] theorem onStc_cru (s : State) (f) : (s.onStc f).cru = s.cru := rfl
@[simp] theorem onStc_stc (s : State) (f) : (s.onStc f).stc = f s.stc := rfl
@[simp] theorem onStc_pending (s : State) (f) : (s.onStc f).pending = s.pending := rfl
@[simp] theorem onStc_handed (s : State) (f) : (s.onStc f).handed = s.handed := rfl
@[simp] theorem onStc_freeCount (s : State) (f) : (s.onStc f).freeCount = s.freeCount := rfl

/-! ### A train, a channel, a port changed -/

@[simp] theorem onTrain_now (s : State) (f) : (s.onTrain f).now = s.now := rfl
@[simp] theorem onTrain_straps (s : State) (f) : (s.onTrain f).straps = s.straps := rfl
@[simp] theorem onTrain_lca (s : State) (f) : (s.onTrain f).lca = s.lca.onTrain f := rfl
@[simp] theorem onTrain_lmon (s : State) (f) : (s.onTrain f).lmon = s.lmon := rfl
@[simp] theorem onTrain_aru (s : State) (f) : (s.onTrain f).aru = s.aru := rfl
@[simp] theorem onTrain_fcu (s : State) (f) : (s.onTrain f).fcu = s.fcu := rfl
@[simp] theorem onTrain_rif (s : State) (f) : (s.onTrain f).rif = s.rif := rfl
@[simp] theorem onTrain_cru (s : State) (f) : (s.onTrain f).cru = s.cru := rfl
@[simp] theorem onTrain_stc (s : State) (f) : (s.onTrain f).stc = s.stc := rfl
@[simp] theorem onTrain_pending (s : State) (f) : (s.onTrain f).pending = s.pending := rfl
@[simp] theorem onTrain_handed (s : State) (f) : (s.onTrain f).handed = s.handed := rfl
@[simp] theorem onTrain_freeCount (s : State) (f) : (s.onTrain f).freeCount = s.freeCount := rfl

/-! ### A channel changed -/

@[simp] theorem onChannel_now (s : State) (i) (f) : (s.onChannel i f).now = s.now := rfl
@[simp] theorem onChannel_straps (s : State) (i) (f) : (s.onChannel i f).straps = s.straps := rfl
@[simp] theorem onChannel_lmon (s : State) (i) (f) : (s.onChannel i f).lmon = s.lmon := rfl
@[simp] theorem onChannel_aru (s : State) (i) (f) : (s.onChannel i f).aru = s.aru := rfl
@[simp] theorem onChannel_fcu (s : State) (i) (f) : (s.onChannel i f).fcu = s.fcu := rfl
@[simp] theorem onChannel_rif (s : State) (i) (f) : (s.onChannel i f).rif = s.rif := rfl
@[simp] theorem onChannel_cru (s : State) (i) (f) : (s.onChannel i f).cru = s.cru := rfl
@[simp] theorem onChannel_stc (s : State) (i) (f) : (s.onChannel i f).stc = s.stc := rfl
@[simp] theorem onChannel_pending (s : State) (i) (f) : (s.onChannel i f).pending = s.pending := rfl
@[simp] theorem onChannel_handed (s : State) (i) (f) : (s.onChannel i f).handed = s.handed := rfl
@[simp] theorem onChannel_freeCount (s : State) (i) (f) : (s.onChannel i f).freeCount = s.freeCount := rfl

/-! ### A port changed -/

@[simp] theorem onPort_now (s : State) (p) (f) : (s.onPort p f).now = s.now := rfl
@[simp] theorem onPort_straps (s : State) (p) (f) : (s.onPort p f).straps = s.straps := rfl
@[simp] theorem onPort_lca (s : State) (p) (f) : (s.onPort p f).lca = s.lca := rfl
@[simp] theorem onPort_lmon (s : State) (p) (f) : (s.onPort p f).lmon = s.lmon := rfl
@[simp] theorem onPort_aru (s : State) (p) (f) : (s.onPort p f).aru = s.aru := rfl
@[simp] theorem onPort_fcu (s : State) (p) (f) : (s.onPort p f).fcu = s.fcu := rfl
@[simp] theorem onPort_rif (s : State) (p) (f) : (s.onPort p f).rif = s.rif.onPort p f := rfl
@[simp] theorem onPort_cru (s : State) (p) (f) : (s.onPort p f).cru = s.cru := rfl
@[simp] theorem onPort_stc (s : State) (p) (f) : (s.onPort p f).stc = s.stc := rfl
@[simp] theorem onPort_pending (s : State) (p) (f) : (s.onPort p f).pending = s.pending := rfl
@[simp] theorem onPort_handed (s : State) (p) (f) : (s.onPort p f).handed = s.handed := rfl
@[simp] theorem onPort_freeCount (s : State) (p) (f) : (s.onPort p f).freeCount = s.freeCount := rfl

/-! ### A count of a port -/

@[simp] theorem count_now (s : State) (p) (f) : (s.count p f).now = s.now := rfl
@[simp] theorem count_straps (s : State) (p) (f) : (s.count p f).straps = s.straps := rfl
@[simp] theorem count_lca (s : State) (p) (f) : (s.count p f).lca = s.lca := rfl
@[simp] theorem count_lmon (s : State) (p) (f) : (s.count p f).lmon = s.lmon := rfl
@[simp] theorem count_aru (s : State) (p) (f) : (s.count p f).aru = s.aru := rfl
@[simp] theorem count_fcu (s : State) (p) (f) : (s.count p f).fcu = s.fcu := rfl
@[simp] theorem count_rif (s : State) (p) (f) : (s.count p f).rif = s.rif.onPort p fun r => r.onCounts f := rfl
@[simp] theorem count_cru (s : State) (p) (f) : (s.count p f).cru = s.cru := rfl
@[simp] theorem count_stc (s : State) (p) (f) : (s.count p f).stc = s.stc := rfl
@[simp] theorem count_pending (s : State) (p) (f) : (s.count p f).pending = s.pending := rfl
@[simp] theorem count_handed (s : State) (p) (f) : (s.count p f).handed = s.handed := rfl
@[simp] theorem count_freeCount (s : State) (p) (f) : (s.count p f).freeCount = s.freeCount := rfl

/-! ### A station state entered -/

@[simp] theorem enter_now (s : State) (x) : (s.enter x).now = s.now := rfl
@[simp] theorem enter_straps (s : State) (x) : (s.enter x).straps = s.straps := rfl
@[simp] theorem enter_lca (s : State) (x) : (s.enter x).lca = s.lca := rfl
@[simp] theorem enter_lmon (s : State) (x) : (s.enter x).lmon = s.lmon := rfl
@[simp] theorem enter_aru (s : State) (x) : (s.enter x).aru = s.aru := rfl
@[simp] theorem enter_fcu (s : State) (x) : (s.enter x).fcu = s.fcu := rfl
@[simp] theorem enter_rif (s : State) (x) : (s.enter x).rif = s.rif := rfl
@[simp] theorem enter_cru (s : State) (x) : (s.enter x).cru = s.cru := rfl
@[simp] theorem enter_stc (s : State) (x) : (s.enter x).stc = s.stc.enter x := rfl
@[simp] theorem enter_pending (s : State) (x) : (s.enter x).pending = s.pending := rfl
@[simp] theorem enter_handed (s : State) (x) : (s.enter x).handed = s.handed := rfl
@[simp] theorem enter_freeCount (s : State) (x) : (s.enter x).freeCount = s.freeCount := rfl

/-! ### The fault table -/

@[simp] theorem recordFault_now (s : State) (f) : (s.recordFault f).now = s.now := rfl
@[simp] theorem recordFault_straps (s : State) (f) : (s.recordFault f).straps = s.straps := rfl
@[simp] theorem recordFault_lca (s : State) (f) : (s.recordFault f).lca = s.lca := rfl
@[simp] theorem recordFault_lmon (s : State) (f) : (s.recordFault f).lmon = s.lmon := rfl
@[simp] theorem recordFault_aru (s : State) (f) : (s.recordFault f).aru = s.aru := rfl
@[simp] theorem recordFault_fcu (s : State) (f) : (s.recordFault f).fcu = s.fcu := rfl
@[simp] theorem recordFault_rif (s : State) (f) : (s.recordFault f).rif = s.rif := rfl
@[simp] theorem recordFault_cru (s : State) (f) : (s.recordFault f).cru = s.cru := rfl
@[simp] theorem recordFault_stc (s : State) (f) : (s.recordFault f).stc = s.stc.onFault f FaultRecord.occurred := rfl
@[simp] theorem recordFault_pending (s : State) (f) : (s.recordFault f).pending = s.pending := rfl
@[simp] theorem recordFault_handed (s : State) (f) : (s.recordFault f).handed = s.handed := rfl
@[simp] theorem recordFault_freeCount (s : State) (f) : (s.recordFault f).freeCount = s.freeCount := rfl

/-! ### A clearing signal -/

@[simp] theorem clearFault_now (s : State) (f) : (s.clearFault f).now = s.now := rfl
@[simp] theorem clearFault_straps (s : State) (f) : (s.clearFault f).straps = s.straps := rfl
@[simp] theorem clearFault_lca (s : State) (f) : (s.clearFault f).lca = s.lca := rfl
@[simp] theorem clearFault_lmon (s : State) (f) : (s.clearFault f).lmon = s.lmon := rfl
@[simp] theorem clearFault_aru (s : State) (f) : (s.clearFault f).aru = s.aru := rfl
@[simp] theorem clearFault_fcu (s : State) (f) : (s.clearFault f).fcu = s.fcu := rfl
@[simp] theorem clearFault_rif (s : State) (f) : (s.clearFault f).rif = s.rif := rfl
@[simp] theorem clearFault_cru (s : State) (f) : (s.clearFault f).cru = s.cru := rfl
@[simp] theorem clearFault_stc (s : State) (f) : (s.clearFault f).stc = s.stc.onFault f fun r => { r with active := false } := rfl
@[simp] theorem clearFault_pending (s : State) (f) : (s.clearFault f).pending = s.pending := rfl
@[simp] theorem clearFault_handed (s : State) (f) : (s.clearFault f).handed = s.handed := rfl
@[simp] theorem clearFault_freeCount (s : State) (f) : (s.clearFault f).freeCount = s.freeCount := rfl

/-! ### A free order drawn -/

@[simp] theorem drawn_now (s : State) : (s.drawn).now = s.now := rfl
@[simp] theorem drawn_straps (s : State) : (s.drawn).straps = s.straps := rfl
@[simp] theorem drawn_lca (s : State) : (s.drawn).lca = s.lca := rfl
@[simp] theorem drawn_lmon (s : State) : (s.drawn).lmon = s.lmon := rfl
@[simp] theorem drawn_aru (s : State) : (s.drawn).aru = s.aru := rfl
@[simp] theorem drawn_fcu (s : State) : (s.drawn).fcu = s.fcu := rfl
@[simp] theorem drawn_rif (s : State) : (s.drawn).rif = s.rif := rfl
@[simp] theorem drawn_cru (s : State) : (s.drawn).cru = s.cru := rfl
@[simp] theorem drawn_stc (s : State) : (s.drawn).stc = s.stc := rfl
@[simp] theorem drawn_pending (s : State) : (s.drawn).pending = s.pending := rfl
@[simp] theorem drawn_handed (s : State) : (s.drawn).handed = s.handed := rfl
@[simp] theorem drawn_freeCount (s : State) : (s.drawn).freeCount = s.freeCount + 1 := rfl

/-! ### A delivery taken -/

@[simp] theorem taken_now (s : State) (c) : (s.taken c).now = s.now := rfl
@[simp] theorem taken_straps (s : State) (c) : (s.taken c).straps = s.straps := rfl
@[simp] theorem taken_lca (s : State) (c) : (s.taken c).lca = s.lca := rfl
@[simp] theorem taken_lmon (s : State) (c) : (s.taken c).lmon = s.lmon := rfl
@[simp] theorem taken_aru (s : State) (c) : (s.taken c).aru = s.aru := rfl
@[simp] theorem taken_fcu (s : State) (c) : (s.taken c).fcu = s.fcu := rfl
@[simp] theorem taken_rif (s : State) (c) : (s.taken c).rif = s.rif := rfl
@[simp] theorem taken_cru (s : State) (c) : (s.taken c).cru = s.cru := rfl
@[simp] theorem taken_stc (s : State) (c) : (s.taken c).stc = s.stc := rfl
@[simp] theorem taken_pending (s : State) (c) : (s.taken c).pending = s.pending := rfl
@[simp] theorem taken_handed (s : State) (c) : (s.taken c).handed = s.handed.erase c := rfl
@[simp] theorem taken_freeCount (s : State) (c) : (s.taken c).freeCount = s.freeCount := rfl

/-! ### A delivery handed on -/

@[simp] theorem handOn_now (s : State) (c) : (s.handOn c).now = s.now := rfl
@[simp] theorem handOn_straps (s : State) (c) : (s.handOn c).straps = s.straps := rfl
@[simp] theorem handOn_lca (s : State) (c) : (s.handOn c).lca = s.lca := rfl
@[simp] theorem handOn_lmon (s : State) (c) : (s.handOn c).lmon = s.lmon := rfl
@[simp] theorem handOn_aru (s : State) (c) : (s.handOn c).aru = s.aru := rfl
@[simp] theorem handOn_fcu (s : State) (c) : (s.handOn c).fcu = s.fcu := rfl
@[simp] theorem handOn_rif (s : State) (c) : (s.handOn c).rif = s.rif := rfl
@[simp] theorem handOn_cru (s : State) (c) : (s.handOn c).cru = s.cru := rfl
@[simp] theorem handOn_stc (s : State) (c) : (s.handOn c).stc = s.stc := rfl
@[simp] theorem handOn_pending (s : State) (c) : (s.handOn c).pending = s.pending := rfl
@[simp] theorem handOn_handed (s : State) (c) : (s.handOn c).handed = s.handed ++ [c] := rfl
@[simp] theorem handOn_freeCount (s : State) (c) : (s.handOn c).freeCount = s.freeCount := rfl

/-! ### The schedule discarded -/

@[simp] theorem discardSchedule_now (s : State) : (discardSchedule s).now = s.now := rfl
@[simp] theorem discardSchedule_straps (s : State) : (discardSchedule s).straps = s.straps := rfl
@[simp] theorem discardSchedule_lca (s : State) : (discardSchedule s).lca = s.lca := rfl
@[simp] theorem discardSchedule_lmon (s : State) : (discardSchedule s).lmon = s.lmon := rfl
@[simp] theorem discardSchedule_aru (s : State) : (discardSchedule s).aru = s.aru := rfl
@[simp] theorem discardSchedule_fcu (s : State) : (discardSchedule s).fcu = { s.fcu with schedule := none } := rfl
@[simp] theorem discardSchedule_rif (s : State) : (discardSchedule s).rif = s.rif := rfl
@[simp] theorem discardSchedule_cru (s : State) : (discardSchedule s).cru = s.cru := rfl
@[simp] theorem discardSchedule_stc (s : State) : (discardSchedule s).stc = s.stc := rfl
@[simp] theorem discardSchedule_pending (s : State) : (discardSchedule s).pending = s.pending := rfl
@[simp] theorem discardSchedule_handed (s : State) : (discardSchedule s).handed = s.handed := rfl
@[simp] theorem discardSchedule_freeCount (s : State) : (discardSchedule s).freeCount = s.freeCount := rfl

/-! ### A request entered -/

@[simp] theorem request_now (s : State) (r) : (s.request r).now = s.now := rfl
@[simp] theorem request_straps (s : State) (r) : (s.request r).straps = s.straps := rfl
@[simp] theorem request_lca (s : State) (r) : (s.request r).lca = s.lca := rfl
@[simp] theorem request_lmon (s : State) (r) : (s.request r).lmon = s.lmon := rfl
@[simp] theorem request_aru (s : State) (r) : (s.request r).aru = s.aru := rfl
@[simp] theorem request_fcu (s : State) (r) : (s.request r).fcu = s.fcu := rfl
@[simp] theorem request_rif (s : State) (r) : (s.request r).rif = s.rif := rfl
@[simp] theorem request_cru (s : State) (r) : (s.request r).cru = { s.cru with advances := enterRequest s.cru.advances r } := rfl
@[simp] theorem request_stc (s : State) (r) : (s.request r).stc = s.stc := rfl
@[simp] theorem request_pending (s : State) (r) : (s.request r).pending = s.pending := rfl
@[simp] theorem request_handed (s : State) (r) : (s.request r).handed = s.handed := rfl
@[simp] theorem request_freeCount (s : State) (r) : (s.request r).freeCount = s.freeCount := rfl

/-! ### The hold stopped -/

@[simp] theorem stopHold_now (s : State) : (stopHold s).now = s.now := rfl
@[simp] theorem stopHold_straps (s : State) : (stopHold s).straps = s.straps := rfl
@[simp] theorem stopHold_lca (s : State) : (stopHold s).lca = s.lca := rfl
@[simp] theorem stopHold_lmon (s : State) : (stopHold s).lmon = s.lmon := rfl
@[simp] theorem stopHold_aru (s : State) : (stopHold s).aru = s.aru := rfl
@[simp] theorem stopHold_fcu (s : State) : (stopHold s).fcu = s.fcu := rfl
@[simp] theorem stopHold_rif (s : State) : (stopHold s).rif = s.rif := rfl
@[simp] theorem stopHold_cru (s : State) : (stopHold s).cru = s.cru := rfl
@[simp] theorem stopHold_stc (s : State) : (stopHold s).stc = { s.stc with holdRunning := false } := rfl
@[simp] theorem stopHold_pending (s : State) : (stopHold s).pending = s.pending := rfl
@[simp] theorem stopHold_handed (s : State) : (stopHold s).handed = s.handed := rfl
@[simp] theorem stopHold_freeCount (s : State) : (stopHold s).freeCount = s.freeCount := rfl

/-! ### The block record emptied -/

@[simp] theorem emptyRecord_now (s : State) : (emptyRecord s).now = s.now := rfl
@[simp] theorem emptyRecord_straps (s : State) : (emptyRecord s).straps = s.straps := rfl
@[simp] theorem emptyRecord_lca (s : State) : (emptyRecord s).lca = s.lca := rfl
@[simp] theorem emptyRecord_lmon (s : State) : (emptyRecord s).lmon = s.lmon := rfl
@[simp] theorem emptyRecord_aru (s : State) : (emptyRecord s).aru = s.aru := rfl
@[simp] theorem emptyRecord_fcu (s : State) : (emptyRecord s).fcu = s.fcu := rfl
@[simp] theorem emptyRecord_rif (s : State) : (emptyRecord s).rif = s.rif := rfl
@[simp] theorem emptyRecord_cru (s : State) : (emptyRecord s).cru = s.cru := rfl
@[simp] theorem emptyRecord_stc (s : State) : (emptyRecord s).stc = { s.stc with record := none } := rfl
@[simp] theorem emptyRecord_pending (s : State) : (emptyRecord s).pending = s.pending := rfl
@[simp] theorem emptyRecord_handed (s : State) : (emptyRecord s).handed = s.handed := rfl
@[simp] theorem emptyRecord_freeCount (s : State) : (emptyRecord s).freeCount = s.freeCount := rfl

/-! ### Inside a block -/

@[simp] theorem onTrain_train (l : Lca) (f) : (l.onTrain f).train = f l.train := rfl
@[simp] theorem onTrain_channels (l : Lca) (f) : (l.onTrain f).channels = l.channels := rfl

@[simp] theorem enter_station (c : Stc) (x) : (c.enter x).station = x := rfl
@[simp] theorem enter_record (c : Stc) (x) : (c.enter x).record = c.record := rfl
@[simp] theorem enter_holdRunning (c : Stc) (x) : (c.enter x).holdRunning = c.holdRunning := rfl
@[simp] theorem enter_holdCount (c : Stc) (x) : (c.enter x).holdCount = c.holdCount := rfl
@[simp] theorem enter_faults (c : Stc) (x) : (c.enter x).faults = c.faults := rfl
@[simp] theorem enter_fired (c : Stc) (x) : (c.enter x).fired = c.fired := rfl
@[simp] theorem enter_escalation (c : Stc) (x) : (c.enter x).escalation = c.escalation := rfl

@[simp] theorem onFault_station (c : Stc) (f g) : (c.onFault f g).station = c.station := rfl
@[simp] theorem onFault_tripLine (c : Stc) (f g) : (c.onFault f g).tripLine = c.tripLine := rfl
@[simp] theorem onFault_readyLine (c : Stc) (f g) : (c.onFault f g).readyLine = c.readyLine := rfl
@[simp] theorem onFault_record (c : Stc) (f g) : (c.onFault f g).record = c.record := rfl
@[simp] theorem onFault_holdRunning (c : Stc) (f g) : (c.onFault f g).holdRunning = c.holdRunning := rfl
@[simp] theorem onFault_holdCount (c : Stc) (f g) : (c.onFault f g).holdCount = c.holdCount := rfl
@[simp] theorem onFault_gammaMin (c : Stc) (f g) : (c.onFault f g).gammaMin = c.gammaMin := rfl
@[simp] theorem onFault_gammaAlarm (c : Stc) (f g) : (c.onFault f g).gammaAlarm = c.gammaAlarm := rfl
@[simp] theorem onFault_gain (c : Stc) (f g) : (c.onFault f g).gain = c.gain := rfl
@[simp] theorem onFault_frozen (c : Stc) (f g) : (c.onFault f g).frozen = c.frozen := rfl
@[simp] theorem onFault_fired (c : Stc) (f g) : (c.onFault f g).fired = c.fired := rfl
@[simp] theorem onFault_escalation (c : Stc) (f g) : (c.onFault f g).escalation = c.escalation := rfl
@[simp] theorem onFault_lastReference (c : Stc) (f g) : (c.onFault f g).lastReference = c.lastReference := rfl

/-- The fault whose record was changed. -/
theorem onFault_fault_same (c : Stc) (f : FaultCode) (g) : (c.onFault f g).fault f = g (c.fault f) :=
  get_set_same _ _ _

/-- Fault codes tell faults apart. -/
theorem faultCode_injective {f g : FaultCode} (h : f.code = g.code) : f = g := by
  cases f <;> cases g <;> first | rfl | (simp [FaultCode.code] at h)

/-- Any other fault keeps its record. -/
theorem onFault_fault_other (c : Stc) {f f' : FaultCode} (g) (h : f ≠ f') : (c.onFault f g).fault f' = c.fault f' :=
  get_set_other _ _ fun e => h (faultCode_injective e)

/-! ### Ports -/

@[simp] theorem onPort_port_same (r : Rif) (p : Port) (f) : (r.onPort p f).port p = f (r.port p) := by
  cases p <;> rfl

theorem onPort_port_other (r : Rif) {p q : Port} (f) (h : p ≠ q) : (r.onPort p f).port q = r.port q := by
  cases p <;> cases q <;> first | rfl | exact absurd rfl h

@[simp] theorem onPort_ownSequence (r : Rif) (p : Port) (f) : (r.onPort p f).ownSequence = r.ownSequence := by
  cases p <;> rfl

/-! ### The peer table -/

@[simp] theorem onPeer_peer_same (c : Cru) (q : Nat) (f) : (c.onPeer q f).peer q = f (c.peer q) :=
  get_set_same _ _ _

/-- Positions of the group have indices of their own. -/
theorem peerIndex_injective {p q : Nat} (hp : 1 ≤ p) (hp' : p ≤ 14) (hq : 1 ≤ q) (hq' : q ≤ 14)
    (h : peerIndex p = peerIndex q) : p = q := by
  have h' := congrArg Fin.val h
  simp only [peerIndex, Fin.ofNat] at h'
  omega

theorem onPeer_peer_other (c : Cru) {p q : Nat} (f) (hp : 1 ≤ p) (hp' : p ≤ 14) (hq : 1 ≤ q) (hq' : q ≤ 14)
    (h : p ≠ q) : (c.onPeer p f).peer q = c.peer q :=
  get_set_other _ _ fun e => h (peerIndex_injective hp hp' hq hq' e)

/-! ### Channels -/

@[simp] theorem onChannel_channel_same (s : State) (i : Fin 80) (f) : (s.onChannel i f).channel i = f (s.channel i) :=
  get_set_same _ _ _

theorem onChannel_channel_other (s : State) {i j : Fin 80} (f) (h : i ≠ j) :
    (s.onChannel i f).channel j = s.channel j :=
  get_set_other _ _ h

@[simp] theorem onChannel_train (s : State) (i : Fin 80) (f) : (s.onChannel i f).lca.train = s.lca.train := rfl

end Sys2Proof.Machine
end

