-- ==== Sys2Proof/Laws/Margin.lean ====
section
/-! SUPPORT. The advance list and the CF history: what one request, one decay and one detection can do, and that
each keeps the bounds of R154 and R164. -/

namespace Sys2Proof.Machine

/-- A request of a source that has an entry changes that entry alone; otherwise it is appended, or it takes the
place of one entry, or the list stays (R166). -/
theorem enterRequest_cases (l : List Advance) (r : Advance) :
    ((∃ x ∈ l, x.source = r.source) ∧
      enterRequest l r = l.map fun x => if x.source = r.source then x.renewed r else x) ∨
    ((∀ x ∈ l, x.source ≠ r.source) ∧
      ((l.length < 4 ∧ enterRequest l r = l ++ [r]) ∨
        (4 ≤ l.length ∧ ((∃ y ∈ l, enterRequest l r = l.erase y ++ [r]) ∨ enterRequest l r = l)))) := by
  unfold enterRequest
  by_cases h : l.any fun x => x.source = r.source
  · left
    simp only [h, if_true, and_true]
    simpa using h
  · right
    have h' : ∀ x ∈ l, x.source ≠ r.source := by simpa using h
    refine ⟨h', ?_⟩
    simp only [h]
    by_cases hl : l.length < 4
    · left; simp [hl]
    · right
      refine ⟨by omega, ?_⟩
      simp only [hl]
      cases hs : smallestAdvance l with
      | none => right; simp
      | some y =>
        by_cases hm : y.magnitude < r.magnitude
        · left
          refine ⟨y, ?_, by simp [hm]⟩
          clear h h' hl hm
          induction l generalizing y with
          | nil => simp [smallestAdvance] at hs
          | cons x l ih =>
            simp only [smallestAdvance] at hs
            cases hz : smallestAdvance l with
            | none => simp [hz] at hs; simp [hs]
            | some z =>
              simp only [hz] at hs
              split at hs
              · simp at hs; simp [hs]
              · simp at hs; subst hs; simp [ih z hz]
        · right; simp [hm]

/-- A request of 1..3000 with a hold of at most 20 keeps the list in range (R164, R166). -/
theorem enterRequest_inRange {l : List Advance} {r : Advance} (h : AdvancesInRange l) (h1 : 1 ≤ r.magnitude)
    (h2 : r.magnitude ≤ 3000) (h3 : r.hold ≤ 20) : AdvancesInRange (enterRequest l r) := by
  obtain ⟨hl, hs, hm, hh⟩ := h
  rcases enterRequest_cases l r with ⟨-, e⟩ | ⟨hn, ⟨hlt, e⟩ | ⟨hge, ⟨y, hy, e⟩ | e⟩⟩
  · rw [e]
    refine ⟨by simpa using hl, ?_, ?_, ?_⟩
    · rw [List.map_map]
      have : (l.map ((fun x => x.source) ∘ fun x => if x.source = r.source then x.renewed r else x)) =
          l.map fun x => x.source := by
        apply List.map_congr_left
        intro x _
        simp only [Function.comp]
        split <;> rfl
      rw [this]; exact hs
    · intro x hx
      obtain ⟨z, hz, rfl⟩ := List.mem_map.mp hx
      have := hm z hz
      split
      · simp only [Advance.renewed]; omega
      · exact this
    · intro x hx
      obtain ⟨z, hz, rfl⟩ := List.mem_map.mp hx
      split
      · exact h3
      · exact hh z hz
  · rw [e]
    refine ⟨by simp; omega, ?_, ?_, ?_⟩
    · rw [List.map_append, List.nodup_append]
      refine ⟨hs, by simp, ?_⟩
      intro a ha b hb
      obtain ⟨x, hx, rfl⟩ := List.mem_map.mp ha
      simp at hb; subst hb
      exact hn x hx
    · intro x hx; rcases List.mem_append.mp hx with hx | hx
      · exact hm x hx
      · simp at hx; subst hx; omega
    · intro x hx; rcases List.mem_append.mp hx with hx | hx
      · exact hh x hx
      · simp at hx; subst hx; omega
  · rw [e]
    have hsub : (l.erase y).Sublist l := List.erase_sublist
    have hpos : 0 < l.length := List.length_pos_of_mem hy
    refine ⟨by simp [List.length_erase_of_mem hy]; omega, ?_, ?_, ?_⟩
    · rw [List.map_append, List.nodup_append]
      refine ⟨(hsub.map _).nodup hs, by simp, ?_⟩
      intro a ha b hb
      obtain ⟨x, hx, rfl⟩ := List.mem_map.mp ha
      simp at hb; subst hb
      exact hn x (hsub.subset hx)
    · intro x hx; rcases List.mem_append.mp hx with hx | hx
      · exact hm x (hsub.subset hx)
      · simp at hx; subst hx; omega
    · intro x hx; rcases List.mem_append.mp hx with hx | hx
      · exact hh x (hsub.subset hx)
      · simp at hx; subst hx; omega
  · rw [e]; exact ⟨hl, hs, hm, hh⟩

/-- A decay keeps the list in range (R164, R167). -/
theorem decayAdvances_inRange {l : List Advance} (h : AdvancesInRange l) : AdvancesInRange (decayAdvances l) := by
  obtain ⟨hl, hs, hm, hh⟩ := h
  have hsrc : ∀ x : Advance, x.decayed.source = x.source := by
    intro x; unfold Advance.decayed; split <;> rfl
  refine ⟨?_, ?_, ?_, ?_⟩
  · exact le_trans (List.length_filter_le _ _) (by simpa using hl)
  · have h1 : ((l.map Advance.decayed).map fun x => x.source) = l.map fun x => x.source := by
      rw [List.map_map]; exact List.map_congr_left fun x _ => hsrc x
    exact (List.filter_sublist.map _).nodup (h1 ▸ hs)
  · intro x hx
    obtain ⟨hx, hp⟩ := List.mem_filter.mp hx
    obtain ⟨z, hz, rfl⟩ := List.mem_map.mp hx
    have := hm z hz
    have hle : z.decayed.magnitude ≤ z.magnitude := by unfold Advance.decayed; split <;> simp
    simp at hp; omega
  · intro x hx
    obtain ⟨hx, -⟩ := List.mem_filter.mp hx
    obtain ⟨z, hz, rfl⟩ := List.mem_map.mp hx
    have := hh z hz
    unfold Advance.decayed; split <;> simp <;> omega

/-- A margin asks for at most 3000 (R165). -/
theorem marginMagnitude_le (c : Stc) (γ : Nat) : marginMagnitude c γ ≤ 3000 := Nat.min_le_left _ _

/-- A detection keeps the history in range (R154, R162). -/
theorem historyEntered_inRange {l : List FiringNumber} (fn : FiringNumber) (h : HistoryInRange l) :
    HistoryInRange (historyEntered l fn) := by
  unfold historyEntered
  split
  · exact h
  · rename_i hc
    have hc : fn ∉ l := by simpa using hc
    by_cases hl : l.length < 4
    · simp only [hl, if_true]
      refine ⟨by simp; omega, ?_⟩
      rw [List.nodup_append]
      exact ⟨h.2, by simp, by intro a ha b hb; simp at hb; subst hb; exact fun e => hc (e ▸ ha)⟩
    · simp only [hl, if_false]
      have := h.1
      refine ⟨by simp; omega, ?_⟩
      rw [List.nodup_append]
      refine ⟨(List.drop_sublist _ _).nodup h.2, by simp, ?_⟩
      intro a ha b hb; simp at hb; subst hb
      exact fun e => hc (e ▸ List.mem_of_mem_drop ha)

end Sys2Proof.Machine
end

