-- ==== Sys2Proof/Laws/Orders.lean ====
section
/-! SUPPORT. The free orders: a shuffle is a permutation, a merge holds what both lists hold, and a property
that every change of a list keeps is kept by the list taken in any order. -/

namespace Sys2Proof.Machine

theorem shuffle_perm {α : Type} (seed : Nat) (l : List α) : (shuffle seed l).Perm l := by
  fun_induction shuffle seed l with
  | case1 => exact .nil
  | case2 => exact .refl _
  | case3 seed x y l ih =>
    have hl : seed % (l.length + 2) ≤ (shuffle (seed / (l.length + 2)) (y :: l)).length := by
      rw [ih.length_eq]
      have := Nat.mod_lt seed (show 0 < l.length + 2 by omega)
      simp only [List.length_cons]; omega
    exact (List.perm_insertIdx x _ hl).trans (ih.cons x)

theorem interleave_perm {α : Type} (seed : Nat) (xs ys : List α) : (interleave seed xs ys).Perm (xs ++ ys) := by
  fun_induction interleave seed xs ys with
  | case1 => simp
  | case2 => simp
  | case3 seed x xs y ys k ih =>
    refine (List.perm_middle.trans ?_).trans List.perm_middle.symm
    refine .cons y ?_
    refine ((List.Perm.append_left _ ih)).trans ?_
    rw [← List.append_assoc, List.take_append_drop]

/-- A property that every change keeps is kept by the changes in turn. -/
theorem inTurn_keeps {P : State → Prop} {fs : List (State → State)} {s : State} (h0 : P s)
    (h : ∀ f ∈ fs, ∀ t, P t → P (f t)) : P (inTurn fs s) := by
  induction fs generalizing s with
  | nil => exact h0
  | cons f fs ih =>
    exact ih (h f (by simp) s h0) fun g hg => h g (by simp [hg])

/-- A property that every change keeps is kept in whatever order they are taken. -/
theorem inAnyOrder_keeps {P : State → Prop} {fs : List (State → State)} {s : State} (h0 : P s.drawn)
    (h : ∀ f ∈ fs, ∀ t, P t → P (f t)) : P (inAnyOrder fs s) :=
  inTurn_keeps h0 fun f hf => h f ((shuffle_perm _ _).mem_iff.mp hf)

/-- A property that every change of two streams keeps is kept however the streams are merged. -/
theorem inTwoStreams_keeps {P : State → Prop} {fs gs : List (State → State)} {s : State} (h0 : P s.drawn)
    (h : ∀ f ∈ fs ++ gs, ∀ t, P t → P (f t)) : P (inTwoStreams fs gs s) :=
  inTurn_keeps h0 fun f hf => h f ((interleave_perm _ _ _).mem_iff.mp hf)

/-- What a cycle mark can do: whatever the order, its events, its HEALTH, its faults and the SURVEY test, on the Level
Monitor's own part of it (R36, R191). -/
theorem cycleMark_keeps {P : State → Prop} (own : Bool) (s : State)
    (h0 : P (s.onLmon fun _ => (s.lmon.marked s.straps own s.now).1).drawn.drawn)
    (event : ∀ e t, P t → P (handEvent onItsWay e t)) (mark : ∀ t, P t → P (cruMark t))
    (fault : ∀ f t, P t → P (takeFaultInMark f t)) (survey : ∀ t, P t → P (surveyTest t)) : P (cycleMark own s) := by
  refine inTwoStreams_keeps h0 fun f hf t ht => ?_
  simp only [List.mem_append, (shuffle_perm _ _).mem_iff, List.mem_cons, List.mem_map, List.not_mem_nil,
    or_false] at hf
  rcases hf with (⟨e, -, rfl⟩ | rfl | ⟨f, -, rfl⟩) | ⟨f, -, rfl⟩ | rfl
  · exact event e t ht
  · exact mark t ht
  · exact fault f t ht
  · exact fault f t ht
  · exact survey t ht

/-- What one change of a list brings about, and no change of the list undoes, holds after the list. `P` is what
all of them keep meanwhile. -/
theorem inTurn_reaches {P Q : State → Prop} {fs : List (State → State)} {s : State} {g : State → State}
    (hg : g ∈ fs) (h0 : P s) (keep : ∀ f ∈ fs, ∀ t, P t → P (f t)) (make : ∀ t, P t → Q (g t))
    (stay : ∀ f ∈ fs, ∀ t, P t → Q t → Q (f t)) : Q (inTurn fs s) := by
  obtain ⟨l, r, rfl⟩ := List.append_of_mem hg
  have h1 : P (inTurn l s) := inTurn_keeps h0 fun f hf => keep f (by simp [hf])
  have e : inTurn (l ++ g :: r) s = inTurn r (g (inTurn l s)) := by simp [inTurn, List.foldl_append]
  rw [e]
  refine (inTurn_keeps (P := fun t => P t ∧ Q t) ⟨keep g (by simp) _ h1, make _ h1⟩ ?_).2
  exact fun f hf t ht => ⟨keep f (by simp [hf]) t ht.1, stay f (by simp [hf]) t ht.1 ht.2⟩

/-- What one change brings about, and none undoes, holds whatever the order. -/
theorem inAnyOrder_reaches {P Q : State → Prop} {fs : List (State → State)} {s : State} {g : State → State}
    (hg : g ∈ fs) (h0 : P s.drawn) (keep : ∀ f ∈ fs, ∀ t, P t → P (f t)) (make : ∀ t, P t → Q (g t))
    (stay : ∀ f ∈ fs, ∀ t, P t → Q t → Q (f t)) : Q (inAnyOrder fs s) :=
  inTurn_reaches ((shuffle_perm _ _).mem_iff.mpr hg) h0
    (fun f hf => keep f ((shuffle_perm _ _).mem_iff.mp hf)) make
    (fun f hf => stay f ((shuffle_perm _ _).mem_iff.mp hf))

end Sys2Proof.Machine
end

