-- ==== Sys2Proof/Laws/Valve.lean ====
section
/-! SUPPORT. The Level Monitor: what each of its operations can do to the level table, the counts and the tallies.
`LmonKeeps` says it once: FAILED stays (R21), the failed count stays the number of FAILED records (R21), and the
tallies go on following the phase (R25, R30, R31). -/

namespace Sys2Proof.Machine

/-- The number of records of 0..NLEV - 1 in a state. -/
theorem recordsIn_eq (s : State) (st : LevelState) : recordsIn s st = countIn s.lmon.levels s.straps.nlev st := by
  simp [recordsIn, countIn, List.countP_eq_length_filter]

/-- What every operation of the Level Monitor keeps. -/
structure LmonKeeps (nlev : Nat) (m n : Lmon) : Prop where
  latched : ∀ i, (m.levels.get i).state = .failed → (n.levels.get i).state = .failed
  count : m.failed = countIn m.levels nlev .failed → n.failed = countIn n.levels nlev .failed
  tallies : TalliesFollowPhase m → TalliesFollowPhase n

theorem LmonKeeps.refl (nlev : Nat) (m : Lmon) : LmonKeeps nlev m m := ⟨fun _ h => h, id, id⟩

theorem LmonKeeps.trans {nlev : Nat} {a b c : Lmon} (h : LmonKeeps nlev a b) (k : LmonKeeps nlev b c) :
    LmonKeeps nlev a c :=
  ⟨fun i hi => k.latched i (h.latched i hi), fun hc => k.count (h.count hc), fun ht => k.tallies (h.tallies ht)⟩

/-- An operation that leaves every record's state, the failed count and the tallies' rule keeps all three. -/
theorem LmonKeeps.of_states {nlev : Nat} {m n : Lmon} (hs : ∀ i, (n.levels.get i).state = (m.levels.get i).state)
    (hf : n.failed = m.failed) (ht : TalliesFollowPhase m → TalliesFollowPhase n) : LmonKeeps nlev m n :=
  ⟨fun i h => (hs i).trans h, fun h => by rw [hf, h]; simp [countIn, hs], ht⟩

/-! ### Reading a table after an update -/

theorem get_mapFinIdx {α β : Type} {n : Nat} (v : Vector α n) (f : (i : Nat) → α → i < n → β) (i : Fin n) :
    (v.mapFinIdx f).get i = f i.val (v.get i) i.isLt := by
  show (v.mapFinIdx f)[i.val] = f i.val v[i.val] i.isLt
  simp

theorem get_set {α : Type} {n : Nat} (v : Vector α n) (i j : Fin n) (x : α) :
    (v.set i.val x i.isLt).get j = if i = j then x else v.get j := by
  by_cases h : i = j
  · subst h; simp
  · simp [h, get_set_other v x h]

/-! ### One record -/

@[simp] theorem indicated_state (l : Level) (c : IndicationClass) (p : ValvePhase) : (l.indicated c p).state = l.state := by
  cases c <;> rfl

@[simp] theorem restarted_state (l : Level) : l.restarted.state = l.state := by
  unfold Level.restarted; split <;> rfl

@[simp] theorem cleared_state (l : Level) : l.cleared.state = l.state := rfl

/-- A FAILED record is not judged again (R21, R42). -/
theorem judged_failed {l : Level} (c : CycleFlags) (h : l.state = .failed) : l.judged c = l := by
  simp [Level.judged, h]

/-! ### Valve events -/

theorem atXt_keeps (nlev : Nat) (m : Lmon) (t : StationTime) : LmonKeeps nlev m (m.atXt t) :=
  .of_states (fun _ => rfl) rfl fun h =>
    { rv := fun e => absurd e (by simp [Lmon.atXt, Tally.disarm])
      fv := fun _ => by cases hp : m.phase <;> simp [Lmon.atXt, phaseAfterXt, hp]
      rvDistinct := h.rvDistinct
      fvDistinct := by simp [TallyDistinct, Lmon.atXt, Tally.armAt]
      pfDistinct := by simp [TallyDistinct, Lmon.atXt, Tally.armAt] }

theorem atFv_keeps (nlev : Nat) (m : Lmon) (t : StationTime) : LmonKeeps nlev m (m.atFv t) :=
  .of_states (fun _ => rfl) rfl fun h =>
    { rv := fun _ => .inl rfl
      fv := fun e => absurd e (by simp [Lmon.atFv, Tally.disarm])
      rvDistinct := by
        by_cases hp : m.phase = .reverse
        · simp [TallyDistinct, Lmon.atFv, Tally.armAt, hp]
        · simpa [Lmon.atFv, hp] using h.rvDistinct
      fvDistinct := h.fvDistinct
      pfDistinct := h.pfDistinct }

theorem atPfq_keeps (nlev n : Nat) (m : Lmon) (t : StationTime) : LmonKeeps nlev m (m.atPfq n t) :=
  .of_states
    (fun i => by
      simp only [Lmon.atPfq, get_mapFinIdx]
      split <;> simp)
    rfl fun h =>
    { rv := fun _ => .inr rfl
      fv := fun e => absurd e (by simp [Lmon.atPfq, Tally.clearDisarm])
      rvDistinct := by simp [TallyDistinct, Lmon.atPfq, Tally.armAt]
      fvDistinct := by simp [TallyDistinct, Lmon.atPfq, Tally.clearDisarm]
      pfDistinct := h.pfDistinct }

/-! ### Taking an indication -/

/-- A level that is admitted was not a member (R26). -/
theorem add_distinct {y : Tally} {i : Fin 80} {t : StationTime} (h : TallyDistinct y) (ha : y.admits i t = true) :
    TallyDistinct (y.add i t) := by
  simp only [Tally.admits, Bool.and_eq_true, Bool.not_eq_true', List.any_eq_false] at ha
  unfold TallyDistinct Tally.add
  rw [List.map_append, List.nodup_append]
  refine ⟨h, by simp, ?_⟩
  intro a hm b hb e
  obtain ⟨x, hx, rfl⟩ := List.mem_map.mp hm
  simp at hb; subst hb
  exact absurd (ha.2 x hx) (by simp [e])

theorem tallied_keeps (nlev n : Nat) (m : Lmon) (i : Fin 80) (c : IndicationClass) (t : StationTime) :
    LmonKeeps nlev m (m.tallied n i c t).1 := by
  cases c with
  | malformed => exact .refl _ _
  | rv =>
    simp only [Lmon.tallied]
    by_cases ha : m.rv.admits i t
    · have h1 : LmonKeeps nlev m { m with rv := m.rv.add i t } :=
        .of_states (fun _ => rfl) rfl fun h => { h with rv := h.rv, rvDistinct := add_distinct h.rvDistinct ha }
      simp only [ha, if_true]
      split
      · exact h1.trans (atXt_keeps _ _ _)
      · exact h1
    · simp only [ha]; exact .refl _ _
  | fv =>
    simp only [Lmon.tallied]
    by_cases ha : m.fv.admits i t
    · have h1 : LmonKeeps nlev m { m with fv := m.fv.add i t } :=
        .of_states (fun _ => rfl) rfl fun h => { h with fv := h.fv, fvDistinct := add_distinct h.fvDistinct ha }
      simp only [ha, if_true]
      split
      · exact h1.trans (atFv_keeps _ _ _)
      · exact h1
    · simp only [ha]; exact .refl _ _
  | pf =>
    simp only [Lmon.tallied]
    by_cases ha : m.pf.admits i t
    · have h1 : LmonKeeps nlev m { m with pf := m.pf.add i t } :=
        .of_states (fun _ => rfl) rfl fun h => { h with pfDistinct := add_distinct h.pfDistinct ha }
      simp only [ha, if_true]
      split
      · exact h1.trans (atPfq_keeps _ _ _ _)
      · exact h1
    · simp only [ha]; exact .refl _ _

theorem lmonIndicated_keeps (nlev n : Nat) (m : Lmon) (i : Fin 80) (c : IndicationClass) (t : StationTime) :
    LmonKeeps nlev m (m.indicated n i c t).1 := by
  unfold Lmon.indicated
  split
  · exact .refl _ _
  · refine LmonKeeps.trans
      (b := { m with levels := m.levels.set i.val ((m.levels.get i).indicated c m.phase) i.isLt })
      (.of_states ?_ rfl ?_) (tallied_keeps _ _ _ _ _ _)
    · intro j
      simp only [get_set]
      split
      · rename_i h; subst h; simp
      · rfl
    · exact fun h => ⟨h.rv, h.fv, h.rvDistinct, h.fvDistinct, h.pfDistinct⟩

/-! ### The cycle mark -/

/-- The judged table keeps FAILED records (R21). -/
theorem judgedLevels_failed (m : Lmon) (n : Nat) (i : Fin 80) (h : (m.levels.get i).state = .failed) :
    (m.judgedLevels n).get i = m.levels.get i := by
  unfold Lmon.judgedLevels
  split
  · rfl
  · rw [get_mapFinIdx]; split
    · exact judged_failed _ h
    · rfl

/-- Clearing the cycle flags leaves every record's state (R36). -/
theorem cleared_get_state (v : Vector Level 80) (n : Nat) (i : Fin 80) :
    ((v.mapFinIdx fun i l _ => if i < n then l.cleared else l).get i).state = (v.get i).state := by
  rw [get_mapFinIdx]; split <;> rfl

theorem lmonJudged_keeps (straps : Straps) (m : Lmon) : LmonKeeps straps.nlev m (m.judged straps) where
  latched i h := by
    simp only [Lmon.judged, cleared_get_state, judgedLevels_failed m _ i h]; exact h
  count _ := by simp [Lmon.judged, countIn, cleared_get_state]
  tallies h := ⟨h.rv, h.fv, h.rvDistinct, h.fvDistinct, h.pfDistinct⟩

theorem atMark_distinct {y : Tally} (v : Vector Level 80) (h : TallyDistinct y) : TallyDistinct (y.atMark v) := by
  unfold Tally.atMark; split
  · exact (List.filter_sublist.map _).nodup h
  · exact h

theorem atMark_armed (y : Tally) (v : Vector Level 80) : (y.atMark v).armed = y.armed := by
  unfold Tally.atMark; split <;> rfl

theorem adjusted_keeps (nlev : Nat) (m : Lmon) : LmonKeeps nlev m m.adjusted :=
  .of_states (fun _ => rfl) rfl fun h =>
    { rv := by simpa [Lmon.adjusted, atMark_armed] using h.rv
      fv := by simpa [Lmon.adjusted, atMark_armed] using h.fv
      rvDistinct := atMark_distinct _ h.rvDistinct
      fvDistinct := atMark_distinct _ h.fvDistinct
      pfDistinct := atMark_distinct _ h.pfDistinct }

theorem markTallies_keeps (nlev n : Nat) (m : Lmon) : LmonKeeps nlev m (m.markTallies n).1 := by
  refine (adjusted_keeps _ _).trans (.trans (b := m.adjusted.markRv.1) ?_
    (.trans (b := m.adjusted.markRv.1.markFv.1) ?_ ?_))
  · unfold Lmon.markRv; split
    · exact atXt_keeps _ _ _
    · exact .refl _ _
  · unfold Lmon.markFv; split
    · exact atFv_keeps _ _ _
    · exact .refl _ _
  · show LmonKeeps nlev _ (Lmon.markPf _ _).1
    unfold Lmon.markPf; split
    · exact atPfq_keeps _ _ _ _
    · exact .refl _ _

theorem resumed_keeps (nlev : Nat) (m : Lmon) (own : Bool) (t : StationTime) : LmonKeeps nlev m (m.resumed own t) := by
  unfold Lmon.resumed; split
  · rename_i h
    exact .of_states (fun _ => rfl) rfl fun k =>
      { k with
        rv := fun _ => .inl h.2.1
        rvDistinct := by simp [TallyDistinct, Tally.armAt] }
  · exact .refl _ _

/-- A cycle mark's own part keeps what the Level Monitor keeps (R36). -/
theorem marked_keeps (straps : Straps) (m : Lmon) (own : Bool) (t : StationTime) :
    LmonKeeps straps.nlev m (m.marked straps own t).1 :=
  (lmonJudged_keeps _ _).trans ((markTallies_keeps _ _ _).trans (resumed_keeps _ _ _ _))

theorem fired_keeps (nlev : Nat) (m : Lmon) (t : StationTime) : LmonKeeps nlev m (m.fired t) :=
  .of_states (fun _ => rfl) rfl fun h =>
    { rv := fun _ => .inr rfl
      fv := fun e => absurd e (by simp [Lmon.fired, Tally.clearDisarm])
      rvDistinct := by simp [TallyDistinct, Lmon.fired, Tally.armAt]
      fvDistinct := by simp [TallyDistinct, Lmon.fired, Tally.clearDisarm]
      pfDistinct := h.pfDistinct }

/-! ### What a mark leaves in the cycle record -/

@[simp] theorem atXt_markTaken (m : Lmon) (t) : (m.atXt t).markTaken = m.markTaken := rfl
@[simp] theorem atFv_markTaken (m : Lmon) (t) : (m.atFv t).markTaken = m.markTaken := rfl
@[simp] theorem atPfq_markTaken (m : Lmon) (n t) : (m.atPfq n t).markTaken = m.markTaken := rfl
@[simp] theorem fired_markTaken (m : Lmon) (t) : (m.fired t).markTaken = m.markTaken := rfl

/-- After a mark the mark is taken (R34). -/
@[simp] theorem marked_markTaken (straps : Straps) (m : Lmon) (own : Bool) (t : StationTime) :
    (m.marked straps own t).1.markTaken = true := by
  have h1 : ∀ x : Lmon, x.markRv.1.markTaken = x.markTaken := fun x => by unfold Lmon.markRv; split <;> rfl
  have h2 : ∀ x : Lmon, x.markFv.1.markTaken = x.markTaken := fun x => by unfold Lmon.markFv; split <;> rfl
  have h3 : ∀ (x : Lmon) n, (x.markPf n).1.markTaken = x.markTaken := fun x n => by unfold Lmon.markPf; split <;> rfl
  have h4 : ∀ x : Lmon, (x.resumed own t).markTaken = x.markTaken := fun x => by unfold Lmon.resumed; split <;> rfl
  simp only [Lmon.marked, h4, Lmon.markTallies, h3, h2, h1]
  rfl

end Sys2Proof.Machine
end

