-- ==== Sys2Proof/Laws/Moves.lean ====
section
/-! SUPPORT. What can come of an event once the block that owns it has taken it. Faults, cycle marks, firings,
adoptions and deliveries all come down to a few kinds of move on the blocks, and every move leaves station time,
the straps, the reference unit and the two command lists alone. `Moves s t` says that t is reached from s by such
moves; one lemma for each operation says so of it, and one lemma for each promise of Safety.lean says that moves
keep it. -/

namespace Sys2Proof.Machine

/-- The station states that moves can lead to: `canFollow` closed under composition, but for the exit from START. -/
def mayMove : Station → Station → Bool
  | .start, _ => true
  | .inert, t => t = .inert
  | .survey, t => t ≠ .start && t ≠ .inert
  | .blocked, t => t ≠ .start && t ≠ .inert && t ≠ .survey
  | .firing, t => t ≠ .start && t ≠ .inert && t ≠ .survey
  | .bypass, t => t ≠ .start && t ≠ .inert && t ≠ .survey
  | .tripped, t => t = .tripped

/-- What a move on the Station Controller keeps: the station state goes only where R169 lets it and the status
lines with it (R183), the settings and modes stay (R193), counts stay in range (R185), `fired` stays once set,
and a settled record stays (R179). -/
structure StcKeeps (a b : Stc) : Prop where
  follow : mayMove a.station b.station = true
  lines : (b.tripLine = tripHigh b.station ∧ b.readyLine = readyHigh b.station) ∨
    (b.station = a.station ∧ b.tripLine = a.tripLine ∧ b.readyLine = a.readyLine)
  settings : b.gammaMin = a.gammaMin ∧ b.gammaAlarm = a.gammaAlarm ∧ b.gain = a.gain ∧ b.frozen = a.frozen
  modes : ∀ f, (b.fault f).mode = (a.fault f).mode
  counts : ∀ f, (a.fault f).count ≤ 127 → (b.fault f).count ≤ 127
  fired : a.fired = true → b.fired = true
  settled : ∀ r, a.record = some r → r.settled = true → b.record = some r

/-- What a move on the Coordination Unit keeps (R154, R164). -/
structure CruKeeps (a b : Cru) : Prop where
  advances : AdvancesInRange a.advances → AdvancesInRange b.advances
  history : HistoryInRange a.cfHistory → HistoryInRange b.cfHistory

/-- One move. -/
inductive Move : State → State → Prop where
  | train (s : State) (f : Option Train → Option Train) : Move s (s.onTrain f)
  | lmon (s : State) (m : Lmon) (h : LmonKeeps s.straps.nlev s.lmon m) : Move s (s.onLmon fun _ => m)
  | fcu (s : State) (f : Fcu → Fcu)
      (h : (f s.fcu).schedule.isSome = true → s.fcu.schedule.isSome = true ∨ s.firingOrHold = true) :
      Move s (s.onFcu f)
  | cru (s : State) (f : Cru → Cru) (h : CruKeeps s.cru (f s.cru)) : Move s (s.onCru f)
  | originate (s : State) (k : OwnKind) (p : List Byte) (e : Option StationTime) : Move s (originate k p e s)
  | stc (s : State) (f : Stc → Stc) (h : StcKeeps s.stc (f s.stc)) : Move s (s.onStc f)
  | drawn (s : State) : Move s s.drawn

/-- Reached by moves. -/
abbrev Moves : State → State → Prop := Relation.ReflTransGen Move

/-- An operation that only makes moves. -/
abbrev OnlyMoves (f : State → State) : Prop := ∀ s, Moves s (f s)

theorem Moves.refl (s : State) : Moves s s := Relation.ReflTransGen.refl

theorem Move.one {s t : State} (h : Move s t) : Moves s t := Relation.ReflTransGen.single h

theorem Moves.then {s t u : State} (h : Moves s t) (k : Moves t u) : Moves s u := Relation.ReflTransGen.trans h k

/-- A property that each move keeps is kept by moves. -/
theorem Moves.keeps {P : State → Prop} (hp : ∀ s t, Move s t → P s → P t) {s t : State} (h : Moves s t) (h0 : P s) :
    P t := by
  induction h with
  | refl => exact h0
  | tail _ hm ih => exact hp _ _ hm ih

theorem mayMove_refl (x : Station) : mayMove x x = true := by cases x <;> decide

theorem mayMove_trans {x y z : Station} (h : mayMove x y = true) (k : mayMove y z = true) :
    mayMove x z = true := by
  revert h k; cases x <;> cases y <;> cases z <;> decide

/-! ### What moves leave alone -/

theorem originate_cases (k : OwnKind) (p : List Byte) (e : Option StationTime) (s : State) :
    originate k p e s = s ∨ originate k p e s = s.onRif fun r => r.originated k p e := by
  unfold originate; split
  · exact .inl rfl
  · exact .inr rfl

@[simp] theorem originate_stc (k p e s) : (originate k p e s).stc = s.stc := by
  rcases originate_cases k p e s with h | h <;> rw [h]; rfl
@[simp] theorem originate_cru (k p e s) : (originate k p e s).cru = s.cru := by
  rcases originate_cases k p e s with h | h <;> rw [h]; rfl
@[simp] theorem originate_fcu (k p e s) : (originate k p e s).fcu = s.fcu := by
  rcases originate_cases k p e s with h | h <;> rw [h]; rfl
@[simp] theorem originate_lmon (k p e s) : (originate k p e s).lmon = s.lmon := by
  rcases originate_cases k p e s with h | h <;> rw [h]; rfl
@[simp] theorem originate_lca (k p e s) : (originate k p e s).lca = s.lca := by
  rcases originate_cases k p e s with h | h <;> rw [h]; rfl
@[simp] theorem originate_aru (k p e s) : (originate k p e s).aru = s.aru := by
  rcases originate_cases k p e s with h | h <;> rw [h]; rfl
@[simp] theorem originate_now (k p e s) : (originate k p e s).now = s.now := by
  rcases originate_cases k p e s with h | h <;> rw [h]; rfl
@[simp] theorem originate_straps (k p e s) : (originate k p e s).straps = s.straps := by
  rcases originate_cases k p e s with h | h <;> rw [h]; rfl
@[simp] theorem originate_pending (k p e s) : (originate k p e s).pending = s.pending := by
  rcases originate_cases k p e s with h | h <;> rw [h]; rfl
@[simp] theorem originate_handed (k p e s) : (originate k p e s).handed = s.handed := by
  rcases originate_cases k p e s with h | h <;> rw [h]; rfl

/-- Station time, straps, reference unit and command lists: what no move touches. -/
def SameFrame (s t : State) : Prop :=
  t.now = s.now ∧ t.straps = s.straps ∧ t.aru = s.aru ∧ t.pending = s.pending ∧ t.handed = s.handed ∧
    t.lca.channels = s.lca.channels

theorem Move.sameFrame {s t : State} (h : Move s t) : SameFrame s t := by
  cases h with
  | originate k p e => exact ⟨by simp, by simp, by simp, by simp, by simp, by simp⟩
  | train => exact ⟨rfl, rfl, rfl, rfl, rfl, rfl⟩
  | lmon => exact ⟨rfl, rfl, rfl, rfl, rfl, rfl⟩
  | fcu => exact ⟨rfl, rfl, rfl, rfl, rfl, rfl⟩
  | cru => exact ⟨rfl, rfl, rfl, rfl, rfl, rfl⟩
  | stc => exact ⟨rfl, rfl, rfl, rfl, rfl, rfl⟩
  | drawn => exact ⟨rfl, rfl, rfl, rfl, rfl, rfl⟩

/-- Moves leave station time, the straps, the reference unit, the channels and the command lists alone. -/
theorem Moves.sameFrame {s t : State} (h : Moves s t) : SameFrame s t :=
  h.keeps (P := fun u => SameFrame s u)
    (fun _ _ m k => by
      obtain ⟨a, b, c, d, e, f⟩ := k
      obtain ⟨a', b', c', d', e', f'⟩ := m.sameFrame
      exact ⟨a'.trans a, b'.trans b, c'.trans c, d'.trans d, e'.trans e, f'.trans f⟩)
    ⟨rfl, rfl, rfl, rfl, rfl, rfl⟩

/-! ### Lists of changes -/

theorem inTurn_moves {fs : List (State → State)} (h : ∀ f ∈ fs, OnlyMoves f) : OnlyMoves (inTurn fs) := fun s =>
  inTurn_keeps (P := Moves s) (.refl s) fun f hf t ht => ht.then (h f hf t)

theorem inAnyOrder_moves {fs : List (State → State)} (h : ∀ f ∈ fs, OnlyMoves f) : OnlyMoves (inAnyOrder fs) :=
  fun s => inAnyOrder_keeps (P := Moves s) (Move.drawn s).one fun f hf t ht => ht.then (h f hf t)

theorem inTwoStreams_moves {fs gs : List (State → State)} (h : ∀ f ∈ fs ++ gs, OnlyMoves f) :
    OnlyMoves (inTwoStreams fs gs) :=
  fun s => inTwoStreams_keeps (P := Moves s) (Move.drawn s).one fun f hf t ht => ht.then (h f hf t)

/-! ### Moves of the Station Controller -/

theorem StcKeeps.refl (a : Stc) : StcKeeps a a :=
  ⟨mayMove_refl _, .inr ⟨rfl, rfl, rfl⟩, ⟨rfl, rfl, rfl, rfl⟩, fun _ => rfl, fun _ h => h, id, fun _ h _ => h⟩

theorem enter_moves {s : State} {x : Station} (h : mayMove s.stc.station x = true) : Moves s (s.enter x) :=
  (Move.stc s (fun c => c.enter x)
    ⟨h, .inl ⟨rfl, rfl⟩, ⟨rfl, rfl, rfl, rfl⟩, fun _ => rfl, fun _ h => h, id, fun _ h _ => h⟩).one

theorem onFault_keeps (a : Stc) (f : FaultCode) {g : FaultRecord → FaultRecord} (hm : ∀ r, (g r).mode = r.mode)
    (hc : ∀ r, r.count ≤ 127 → (g r).count ≤ 127) : StcKeeps a (a.onFault f g) where
  follow := mayMove_refl _
  lines := .inr ⟨rfl, rfl, rfl⟩
  settings := ⟨rfl, rfl, rfl, rfl⟩
  modes f' := by
    by_cases h : f = f'
    · subst h; rw [onFault_fault_same, hm]
    · rw [onFault_fault_other _ _ h]
  counts f' hf := by
    by_cases h : f = f'
    · subst h; rw [onFault_fault_same]; exact hc _ hf
    · rw [onFault_fault_other _ _ h]; exact hf
  fired := id
  settled _ h _ := h

theorem recordFault_moves (f : FaultCode) : OnlyMoves (·.recordFault f) := fun s =>
  (Move.stc s (·.onFault f FaultRecord.occurred)
    (onFault_keeps _ _ (fun _ => rfl) fun r _ => Nat.min_le_left 127 (r.count + 1))).one

theorem clearFault_moves (f : FaultCode) : OnlyMoves (·.clearFault f) := fun s =>
  (Move.stc s (·.onFault f fun r => { r with active := false })
    (onFault_keeps _ _ (fun _ => rfl) fun _ h => h)).one

/-- A change of the Station Controller that touches neither its state, its lines, its settings nor its fault
table, and keeps a settled record. -/
theorem stc_moves {s : State} {f : Stc → Stc}
    (h : (f s.stc).station = s.stc.station ∧ (f s.stc).tripLine = s.stc.tripLine ∧
      (f s.stc).readyLine = s.stc.readyLine ∧ (f s.stc).gammaMin = s.stc.gammaMin ∧
      (f s.stc).gammaAlarm = s.stc.gammaAlarm ∧ (f s.stc).gain = s.stc.gain ∧ (f s.stc).frozen = s.stc.frozen ∧
      (f s.stc).faults = s.stc.faults)
    (hf : s.stc.fired = true → (f s.stc).fired = true)
    (hr : ∀ r, s.stc.record = some r → r.settled = true → (f s.stc).record = some r) : Moves s (s.onStc f) := by
  obtain ⟨h1, h2, h3, h4, h5, h6, h7, h8⟩ := h
  refine (Move.stc s f ⟨?_, .inr ⟨h1, h2, h3⟩, ⟨h4, h5, h6, h7⟩, ?_, ?_, hf, hr⟩).one
  · rw [h1]; exact mayMove_refl _
  · intro f'; simp only [Stc.fault, h8]
  · intro f' h; simpa only [Stc.fault, h8] using h

/-! ### Moves of the Coordination Unit -/

/-- A change of the Coordination Unit that touches neither the advance list nor the history. -/
theorem cru_moves {s : State} {f : Cru → Cru}
    (h : (f s.cru).advances = s.cru.advances ∧ (f s.cru).cfHistory = s.cru.cfHistory) : Moves s (s.onCru f) :=
  (Move.cru s f ⟨fun k => h.1 ▸ k, fun k => h.2 ▸ k⟩).one

theorem onPeer_moves (s : State) (q : Nat) (f : Peer → Peer) : Moves s (s.onCru fun c => c.onPeer q f) :=
  cru_moves ⟨rfl, rfl⟩

theorem request_moves {r : Advance} (h1 : 1 ≤ r.magnitude) (h2 : r.magnitude ≤ 3000) (h3 : r.hold ≤ 20) :
    OnlyMoves (·.request r) := fun s =>
  (Move.cru s _ ⟨fun k => enterRequest_inRange k h1 h2 h3, id⟩).one

theorem requestMargin_moves (q γ : Nat) : OnlyMoves (requestMargin q γ) := fun s => by
  unfold requestMargin; split
  · rename_i h
    exact request_moves (r := ⟨q, .margin, marginMagnitude s.stc γ, 8⟩) h (marginMagnitude_le _ _) (by simp) s
  · exact .refl s

theorem requestCfail_moves (q : Nat) : OnlyMoves (requestCfail q) :=
  request_moves (r := ⟨q, .cfail, 3000, 20⟩) (by simp) (by simp) (by simp)

theorem originate_moves (k p e) : OnlyMoves (originate k p e) := fun s => (Move.originate s k p e).one

theorem originateHealth_moves (e) : OnlyMoves (originateHealth e) := fun s => originate_moves _ _ _ s

theorem originateReport_moves (p) : OnlyMoves (originateReport p) := fun s => originate_moves _ _ _ s

theorem originateBypass_moves (b) : OnlyMoves (originateBypass b) := fun s => originate_moves _ _ _ s

theorem train_moves (f) : OnlyMoves (·.onTrain f) := fun s => (Move.train s f).one

theorem lcaFiring_moves : OnlyMoves lcaFiring := fun s => train_moves _ s

theorem lcaAdoption_moves : OnlyMoves lcaAdoption := fun s => train_moves _ s

theorem lcaCeasing_moves : OnlyMoves lcaCeasing := fun s => train_moves _ s

theorem lcaCompanion_moves : OnlyMoves lcaCompanion := fun s => train_moves _ s

theorem lcaExit_moves : OnlyMoves lcaExit := fun s => train_moves _ s

theorem discardWatch_moves : OnlyMoves discardWatch := fun _ => cru_moves ⟨rfl, rfl⟩

theorem discardSchedule_moves : OnlyMoves discardSchedule := fun s =>
  (Move.fcu s _ (by simp)).one

/-! ### Adoption, trip and fault -/

theorem membershipActs_moves (was is : Bool) : ∀ f ∈ membershipActs was is, OnlyMoves f := by
  intro f hf
  cases was <;> cases is <;> simp [membershipActs] at hf
  · rcases hf with rfl | rfl
    · exact lcaAdoption_moves
    · exact discardWatch_moves
  · subst hf; exact lcaCeasing_moves
  · subst hf; exact lcaAdoption_moves

theorem stationAdopted_follow (x : Station) : mayMove x (stationAdopted x) = true := by cases x <;> decide

/-- A BYPASS is adopted only while no record is settled (R178, R179). -/
theorem judge_adopted {record : Option BlockRecord} {b : BypassOrder} (h : judgeBypass record b = .adopted) :
    ∀ r, record = some r → r.settled = false := by
  rintro r rfl
  unfold judgeBypass at h
  by_contra hs
  simp only [Bool.not_eq_false] at hs
  simp only [hs, if_true] at h
  split at h <;> simp at h

theorem adoptRecord_moves {s : State} {b : BypassOrder} (h : judgeBypass s.stc.record b = .adopted) :
    Moves s (s.adoptRecord b) :=
  stc_moves ⟨rfl, rfl, rfl, rfl, rfl, rfl, rfl, rfl⟩ id fun r hr hs => by
    rw [judge_adopted h r hr] at hs; exact absurd hs (by decide)

theorem adoptBypass_moves {cancel : State → State} (hc : OnlyMoves cancel) {b : BypassOrder} {s : State}
    (h : judgeBypass s.stc.record b = .adopted) : Moves s (adoptBypass cancel b s) := by
  unfold adoptBypass
  refine ((adoptRecord_moves h).then (enter_moves (stationAdopted_follow _))).then (inAnyOrder_moves ?_ _)
  intro f hf
  rcases List.mem_append.mp hf with hf | hf
  · exact membershipActs_moves _ _ f hf
  · split at hf
    · simp at hf; subst hf; exact hc
    · simp at hf

theorem takeBypass_moves {cancel : State → State} (hc : OnlyMoves cancel) (b : BypassOrder) :
    OnlyMoves (takeBypass cancel b) := fun s => by
  unfold takeBypass
  split
  · exact .refl s
  split
  · exact .refl s
  split
  · rename_i h; exact adoptBypass_moves hc h
  · exact recordFault_moves _ s
  · exact .refl s

theorem adoptAtTrip_moves (b : BypassOrder) : OnlyMoves (adoptAtTrip b) := fun s => by
  unfold adoptAtTrip
  split
  · rename_i h
    exact (adoptRecord_moves h).then (inTurn_moves (membershipActs_moves _ _) _)
  · exact recordFault_moves _ s
  · exact .refl s

theorem inTurn_membershipActs_station (was is : Bool) (s : State) :
    (inTurn (membershipActs was is) s).stc = s.stc := by
  cases was <;> cases is <;> rfl

@[simp] theorem adoptAtTrip_station (b : BypassOrder) (s : State) : (adoptAtTrip b s).stc.station = s.stc.station := by
  unfold adoptAtTrip
  split
  · rw [inTurn_membershipActs_station]; rfl
  · rfl
  · rfl

theorem startHold_moves : OnlyMoves startHold := fun _ =>
  stc_moves ⟨rfl, rfl, rfl, rfl, rfl, rfl, rfl, rfl⟩ id fun _ h _ => h

theorem tripFromFiring_moves {cancel : State → State} (hc : OnlyMoves cancel) (f : FaultCode) {s : State}
    (h : s.stc.station = .firing) : Moves s (tripFromFiring cancel f s) := by
  unfold tripFromFiring
  have h1 := originateBypass_moves (ownBypass s (f.code.val + 1)) s
  have h2 := adoptAtTrip_moves (ownBypass s (f.code.val + 1)) (originateBypass (ownBypass s (f.code.val + 1)) s)
  have h3 : Moves s ((adoptAtTrip (ownBypass s (f.code.val + 1))
      (originateBypass (ownBypass s (f.code.val + 1)) s)).enter .tripped) :=
    (h1.then h2).then (enter_moves (by simp [originateBypass, h, mayMove]))
  split
  · exact h3.then (startHold_moves _)
  · exact h3.then (hc _)

theorem trip_moves {cancel : State → State} (hc : OnlyMoves cancel) (f : FaultCode) : OnlyMoves (trip cancel f) :=
  fun s => by
  unfold trip
  split
  · rename_i h; exact tripFromFiring_moves hc f h
  · rename_i h; exact enter_moves (by rw [h]; decide)
  · rename_i h; exact enter_moves (by rw [h]; decide)
  · rename_i h; exact enter_moves (by rw [h]; decide)
  all_goals exact .refl s

theorem blockFromFiring_moves {cancel : State → State} (hc : OnlyMoves cancel) {s : State}
    (h : s.stc.station = .firing) : Moves s (blockFromFiring cancel s) :=
  (enter_moves (by rw [h]; decide)).then (hc _)

theorem escalate_moves : OnlyMoves State.escalate := fun _ =>
  stc_moves ⟨rfl, rfl, rfl, rfl, rfl, rfl, rfl, rfl⟩ id fun _ h _ => h

theorem blockByFault_moves {cancel : State → State} (hc : OnlyMoves cancel) (f : FaultCode) {s : State}
    (h : s.stc.station = .firing) : Moves s (blockByFault cancel f s) := by
  unfold blockByFault
  simp only
  split
  · exact (escalate_moves s).then (trip_moves hc f _)
  · exact (escalate_moves s).then (blockFromFiring_moves hc h)

/-- A fault taken makes moves only (R186). -/
theorem takeFaultWith_moves {cancel : State → State} (hc : OnlyMoves cancel) (f : FaultCode) :
    OnlyMoves (takeFaultWith cancel f) := fun s => by
  unfold takeFaultWith
  simp only
  refine (recordFault_moves f s).then ?_
  split
  · exact trip_moves hc f _
  · split
    · rename_i h; exact blockByFault_moves hc f h
    · exact .refl _
  · exact .refl _
  · exact .refl _

theorem surveyTest_moves : OnlyMoves surveyTest := fun s => by
  unfold surveyTest
  split
  · rename_i h
    split
    · exact enter_moves (by rw [h]; decide)
    · split
      · exact enter_moves (by rw [h]; decide)
      · exact .refl s
  · exact .refl s

theorem enterFiring_moves {s : State} (h : s.stc.station = .blocked) : Moves s (enterFiring s) := by
  unfold enterFiring
  refine (((enter_moves (by rw [h]; decide)).then (stc_moves ?_ ?_ ?_)).then (Move.fcu _ _ ?_).one).then
    (cru_moves ⟨rfl, rfl⟩)
  · exact ⟨rfl, rfl, rfl, rfl, rfl, rfl, rfl, rfl⟩
  · exact fun _ => rfl
  · exact fun _ h _ => h
  · exact fun h => .inl h

/-! ### Valve events and the cycle mark -/

theorem cruXt_moves (t p) : OnlyMoves (cruXt t p) := fun s => by
  unfold cruXt
  split
  · simp only
    split
    · exact .then (cru_moves ⟨rfl, rfl⟩) (originateHealth_moves _ _)
    · exact cru_moves ⟨rfl, rfl⟩
  · exact .refl s

theorem marginAlarm_moves (γ t) : OnlyMoves (marginAlarm γ t) := fun s => by
  unfold marginAlarm
  split
  · exact (originate_moves _ _ _ s).then (requestMargin_moves _ _ _)
  · exact .refl s

theorem cruFv_moves (t p) : OnlyMoves (cruFv t p) := fun s => by
  unfold cruFv
  split
  · exact .refl s
  split
  · split
    · exact cru_moves ⟨rfl, rfl⟩
    · exact .then (cru_moves ⟨rfl, rfl⟩) (marginAlarm_moves _ _ _)
  · exact .refl s

theorem enterAndTell_moves (c t) : OnlyMoves (enterAndTell c t) := fun s =>
  .then (Move.cru s _ ⟨id, historyEntered_inRange _⟩).one (originate_moves _ _ _ _)

theorem repetitionTest_moves {raise : FaultCode → State → State} (hr : ∀ f, OnlyMoves (raise f)) :
    OnlyMoves (repetitionTest raise) := fun s => by
  unfold repetitionTest
  split
  · exact (hr _ s).then (Move.cru _ _ ⟨id, fun _ => ⟨by simp, by simp⟩⟩).one
  · exact .refl s

theorem detectFailure_moves {raise : FaultCode → State → State} (hr : ∀ f, OnlyMoves (raise f)) (c t) :
    OnlyMoves (detectFailure raise c t) := fun s => by
  have h := (enterAndTell_moves c t s).then (requestCfail_moves s.straps.pos _)
  unfold detectFailure
  simp only
  split
  · exact h
  · exact h.then (repetitionTest_moves hr _)

theorem cruPfq_moves {raise : FaultCode → State → State} (hr : ∀ f, OnlyMoves (raise f)) (t) :
    OnlyMoves (cruPfq raise t) := fun _ => .then (cru_moves ⟨rfl, rfl⟩) (detectFailure_moves hr _ _ _)

theorem handEvent_moves {raise : FaultCode → State → State} (hr : ∀ f, OnlyMoves (raise f)) (e : ValveEvent) :
    OnlyMoves (handEvent raise e) := fun s => by
  cases e with
  | xt t p => exact (train_moves _ s).then (cruXt_moves _ _ _)
  | fv t p => exact cruFv_moves _ _ s
  | pfq t => exact cruPfq_moves hr _ s

theorem takeIndication_moves {raise : FaultCode → State → State} (hr : ∀ f, OnlyMoves (raise f)) (i c t) :
    OnlyMoves (takeIndication raise i c t) := fun s => by
  unfold takeIndication
  have h := (Move.lmon s _ (lmonIndicated_keeps s.straps.nlev s.straps.nlev s.lmon i c t)).one
  simp only
  split
  · exact h.then (handEvent_moves hr _ _)
  · exact h

theorem cruMark_moves : OnlyMoves cruMark := fun s => by
  unfold cruMark
  split <;> first | exact originateHealth_moves _ s | exact .refl s

theorem takeFaultInMark_moves (f) : OnlyMoves (takeFaultInMark f) := takeFaultWith_moves discardSchedule_moves f

/-- A cycle mark makes moves only (R36). -/
theorem cycleMark_moves (own : Bool) : OnlyMoves (cycleMark own) := fun s =>
  cycleMark_keeps (P := Moves s) own s
    (.then (.then (Move.lmon s _ (marked_keeps _ _ _ _)).one (Move.drawn _).one) (Move.drawn _).one)
    (fun e _ h => h.then (handEvent_moves (fun _ t => .refl t) e _)) (fun _ h => h.then (cruMark_moves _))
    (fun f _ h => h.then (takeFaultInMark_moves f _)) (fun _ h => h.then (surveyTest_moves _))

/-- A cancellation makes moves only (R75). -/
theorem cancelSchedule_moves : OnlyMoves cancelSchedule := fun s => by
  unfold cancelSchedule
  split
  · exact .refl s
  · split
    · exact (discardSchedule_moves s).then (cycleMark_moves _ _)
    · exact discardSchedule_moves s

theorem takeFault_moves (f) : OnlyMoves (takeFault f) := takeFaultWith_moves cancelSchedule_moves f

/-! ### Firing and reference event -/

theorem lmonFiring_moves (t) : OnlyMoves (lmonFiring t) := fun s => by
  unfold lmonFiring
  split
  · exact (Move.lmon s _ (fired_keeps _ _ _)).one
  · exact (cycleMark_moves _ s).then (Move.lmon _ _ (fired_keeps _ _ _)).one

theorem lmonReference_moves (z) : OnlyMoves (lmonReference z) := fun s => by
  have h : ∀ u : State, Moves u (u.onLmon fun m =>
      { m with markTaken := false, fallback := some (after z (ticks s.aru.period 9000)) }) := fun u =>
    (Move.lmon u { u.lmon with markTaken := false, fallback := some (after z (ticks s.aru.period 9000)) }
      (.of_states (fun _ => rfl) rfl fun k => ⟨k.rv, k.fv, k.rvDistinct, k.fvDistinct, k.pfDistinct⟩)).one
  unfold lmonReference
  split
  · exact h s
  · exact (cycleMark_moves _ s).then (h _)

theorem fcuReference_moves (e) : OnlyMoves (fcuReference e) := fun s => by
  unfold fcuReference
  split
  · rename_i h; exact (Move.fcu s _ fun _ => .inr h).one
  · exact .refl s

theorem fcuPredecessor_moves (i) : OnlyMoves (fcuPredecessor i) := fun s => by
  unfold fcuPredecessor
  split
  · rename_i h
    split
    · exact (Move.fcu s _ fun _ => .inl (by simp [h])).one
    · exact .refl s
  all_goals exact .refl s

theorem cruReference_moves : OnlyMoves cruReference := fun s => by
  have h : Moves s (s.onCru fun c => { c.staler with advances := decayAdvances c.advances }) :=
    (Move.cru s _ ⟨decayAdvances_inRange, id⟩).one
  unfold cruReference
  simp only
  split
  · exact (h.then (cru_moves ⟨rfl, rfl⟩)).then (takeFault_moves _ _)
  · exact h

theorem stcReference_moves : OnlyMoves stcReference := fun _ =>
  stc_moves ⟨rfl, rfl, rfl, rfl, rfl, rfl, rfl, rfl⟩ id fun _ h _ => h

theorem referenceReceivers_moves (e) : ∀ f ∈ referenceReceivers e, OnlyMoves f := by
  intro f hf
  simp only [referenceReceivers, List.mem_cons, List.not_mem_nil, or_false] at hf
  rcases hf with rfl | rfl | rfl | rfl
  · exact fcuReference_moves _
  · exact lmonReference_moves _
  · exact cruReference_moves
  · exact stcReference_moves

theorem lockTest_moves (was s) : ∀ f ∈ lockTest was s, OnlyMoves f := by
  intro f hf
  unfold lockTest at hf
  split at hf
  · simp at hf
  · simp at hf; subst hf; exact surveyTest_moves

theorem clearSequence_moves : OnlyMoves clearSequence := fun s =>
  ((clearFault_moves _ s).then (clearFault_moves _ _)).then (clearFault_moves _ _)

theorem watchFiring_moves (f) : OnlyMoves (watchFiring f) := fun _ => cru_moves ⟨rfl, rfl⟩

theorem originateFire_moves (f c) : OnlyMoves (originateFire f c) := fun s => originate_moves _ _ _ s

theorem assignFn_moves (fn) : OnlyMoves (assignFn fn) := fun _ => cru_moves ⟨rfl, rfl⟩

theorem judgeFiring_moves (clean) : OnlyMoves (judgeFiring clean) := fun s => by
  unfold judgeFiring
  split
  · exact (clearSequence_moves s).then (cru_moves ⟨rfl, rfl⟩)
  · exact cru_moves ⟨rfl, rfl⟩

theorem cruFiring_moves (f) : OnlyMoves (cruFiring f) := fun s => by
  have h : Moves s ((watchFiring f s).onCru Cru.consumed) := (watchFiring_moves f s).then (cru_moves ⟨rfl, rfl⟩)
  have rest : ∀ g ∈ [assignFn (nextFn s.cru), judgeFiring (cleanFiring s.cru), originateFire f s.cru],
      OnlyMoves g := by
    intro g hg
    simp only [List.mem_cons, List.not_mem_nil, or_false] at hg
    rcases hg with rfl | rfl | rfl
    · exact assignFn_moves _
    · exact judgeFiring_moves _
    · exact originateFire_moves _ _
  unfold cruFiring
  simp only
  split
  · refine h.then (inTwoStreams_moves ?_ _)
    intro g hg
    rcases List.mem_append.mp hg with hg | hg
    · exact rest g hg
    · rw [List.mem_singleton.mp hg]; exact takeFault_moves _
  · exact h.then (inTurn_moves rest _)

theorem fireAt_moves (f) : OnlyMoves (fireAt f) := fun s => by
  unfold fireAt
  refine .then (Move.fcu s _ (by simp)).one (inAnyOrder_moves ?_ _)
  intro g hg
  simp only [List.mem_cons, List.not_mem_nil, or_false] at hg
  rcases hg with rfl | rfl | rfl
  · exact lcaFiring_moves
  · exact lmonFiring_moves _
  · exact cruFiring_moves _

/-! ### Deliveries -/

theorem heard_moves (q) : OnlyMoves (heard q) := fun s => onPeer_moves s _ _

theorem stcDeblock_moves : OnlyMoves stcDeblock := fun s => by
  unfold stcDeblock
  split
  · rename_i h
    simp only [acceptsDeblock, Bool.and_eq_true, decide_eq_true_eq] at h
    exact enterFiring_moves h.1.1
  · exact .refl s

theorem stcBypassBlock_moves : OnlyMoves stcBypassBlock := fun s => by
  unfold stcBypassBlock
  split
  · exact (originateBypass_moves _ s).then (takeBypass_moves cancelSchedule_moves _ _)
  · exact .refl s

theorem stopHold_moves : OnlyMoves stopHold := fun _ =>
  stc_moves ⟨rfl, rfl, rfl, rfl, rfl, rfl, rfl, rfl⟩ id fun _ h _ => h

theorem handAngle_moves (a) : OnlyMoves (handAngle a) := fun s => (Move.fcu s _ fun h => .inl h).one

theorem resetStaleness_moves : OnlyMoves resetStaleness := fun s => by
  unfold resetStaleness
  split
  · exact (clearFault_moves _ s).then (cru_moves ⟨rfl, rfl⟩)
  · exact cru_moves ⟨rfl, rfl⟩

theorem writePredecessor_moves (f) : OnlyMoves (writePredecessor f) := fun _ => cru_moves ⟨rfl, rfl⟩

theorem currentFire_moves (f) : OnlyMoves (currentFire f) := fun s => by
  unfold currentFire
  simp only
  refine (writePredecessor_moves f s).then ?_
  split
  · exact (takeFault_moves _ _).then (fcuPredecessor_moves _ _)
  · exact fcuPredecessor_moves _ _

theorem predecessorFire_moves (f) : OnlyMoves (predecessorFire f) := fun s => by
  unfold predecessorFire
  split
  · exact currentFire_moves f s
  · exact .then (cru_moves ⟨rfl, rfl⟩) (takeFault_moves _ _)
  · exact cru_moves ⟨rfl, rfl⟩

theorem cruFire_moves (f) : OnlyMoves (cruFire f) := fun s => by
  unfold cruFire
  split
  · simp only
    refine (onPeer_moves s f.origin fun p => { p with fire := some f.fn }).then ?_
    split
    · split
      · exact predecessorFire_moves f _
      · exact .refl _
    · split
      · unfold bridgePredecessorFire; split
        · exact cru_moves ⟨rfl, rfl⟩
        · exact .refl _
      · split
        · unfold startRequest; split
          · exact lcaCompanion_moves _
          · exact .refl _
        · exact .refl _
  · exact .refl s

theorem measureMu_moves (i) : OnlyMoves (measureMu i) := fun s => by
  unfold measureMu
  split
  · split
    · exact cru_moves ⟨rfl, rfl⟩
    · exact .refl s
  · exact .refl s

theorem cruHealth_moves (q i) : OnlyMoves (cruHealth q i) := fun s => by
  unfold cruHealth
  split
  · simp only
    refine (onPeer_moves s q fun p => { p with xt := i }).then ?_
    split
    · exact measureMu_moves _ _
    · exact .refl _
  · exact .refl s

theorem cruMargin_moves (q γ) : OnlyMoves (cruMargin q γ) := fun s => by
  unfold cruMargin
  split
  · exact requestMargin_moves _ _ s
  · exact .refl s

theorem cruCfail_moves (q) : OnlyMoves (cruCfail q) := fun s => by
  unfold cruCfail
  split
  · exact requestCfail_moves _ s
  · exact .refl s

theorem cruQuery_moves (q a b) : OnlyMoves (cruQuery q a b) := fun s => by
  unfold cruQuery
  split
  · exact .refl s
  split
  · exact originateReport_moves _ s
  · exact cru_moves ⟨rfl, rfl⟩

theorem healthChanged_moves (p w) : OnlyMoves (healthChanged p w) := fun s => by
  unfold healthChanged
  split
  · exact (takeFault_moves _ s).then (surveyTest_moves _)
  · exact (clearFault_moves _ s).then (surveyTest_moves _)
  all_goals exact .refl s

/-! ### What moves keep -/

theorem Move.linesFollow {s t : State} (h : Move s t) (k : StatusLinesFollow s) : StatusLinesFollow t := by
  cases h with
  | stc f hk =>
    obtain ⟨h1, h2⟩ := k
    rcases hk.lines with ⟨ht, hr⟩ | ⟨hs, ht, hr⟩
    · refine ⟨?_, ?_⟩
      · show (f s.stc).tripLine = true ↔ _
        rw [ht]; simp [tripHigh]
      · show (f s.stc).readyLine = true ↔ _
        rw [hr]; simp [readyHigh, or_assoc]
    · refine ⟨?_, ?_⟩
      · show (f s.stc).tripLine = true ↔ (f s.stc).station = _
        rw [ht, hs]; exact h1
      · show (f s.stc).readyLine = true ↔ (f s.stc).station = _ ∨ (f s.stc).station = _ ∨ (f s.stc).station = _
        rw [hr, hs]; exact h2
  | originate k' p e => simpa [StatusLinesFollow] using k
  | train => exact k
  | lmon => exact k
  | fcu => exact k
  | cru => exact k
  | drawn => exact k

/-- Moves keep the status lines on the station state (R183). -/
theorem Moves.linesFollow {s t : State} (h : Moves s t) (k : StatusLinesFollow s) : StatusLinesFollow t :=
  h.keeps (fun _ _ m => m.linesFollow) k

theorem Move.follow {s t : State} (h : Move s t) : mayMove s.stc.station t.stc.station = true := by
  cases h with
  | stc f hk => exact hk.follow
  | originate k' p e => simpa using mayMove_refl _
  | train => exact mayMove_refl _
  | lmon => exact mayMove_refl _
  | fcu => exact mayMove_refl _
  | cru => exact mayMove_refl _
  | drawn => exact mayMove_refl _

/-- Moves take the station state only where it may go (R169). -/
theorem Moves.follow {s t : State} (h : Moves s t) : mayMove s.stc.station t.stc.station = true :=
  h.keeps (P := fun u => mayMove s.stc.station u.stc.station = true)
    (fun _ _ m k => mayMove_trans k m.follow) (mayMove_refl _)

theorem Move.lmonKeeps {s t : State} (h : Move s t) : LmonKeeps s.straps.nlev s.lmon t.lmon := by
  cases h with
  | lmon m hk => exact hk
  | originate k' p e => simpa using LmonKeeps.refl _ _
  | train => exact .refl _ _
  | stc => exact .refl _ _
  | fcu => exact .refl _ _
  | cru => exact .refl _ _
  | drawn => exact .refl _ _

/-- Moves keep what the Level Monitor keeps (R21, R30, R31). -/
theorem Moves.lmonKeeps {s t : State} (h : Moves s t) : LmonKeeps s.straps.nlev s.lmon t.lmon :=
  (h.keeps (P := fun u => LmonKeeps s.straps.nlev s.lmon u.lmon ∧ u.straps = s.straps)
    (fun _ _ m k => ⟨k.1.trans (k.2 ▸ m.lmonKeeps), (m.sameFrame.2.1).trans k.2⟩) ⟨.refl _ _, rfl⟩).1

theorem Move.cruKeeps {s t : State} (h : Move s t) : CruKeeps s.cru t.cru := by
  cases h with
  | cru f hk => exact hk
  | originate k' p e => rw [originate_cru]; exact ⟨id, id⟩
  | train => exact ⟨id, id⟩
  | stc => exact ⟨id, id⟩
  | fcu => exact ⟨id, id⟩
  | lmon => exact ⟨id, id⟩
  | drawn => exact ⟨id, id⟩

/-- Moves keep the advance list and the CF history in range (R154, R164). -/
theorem Moves.cruKeeps {s t : State} (h : Moves s t) : CruKeeps s.cru t.cru :=
  h.keeps (P := fun u => CruKeeps s.cru u.cru)
    (fun _ _ m k => ⟨fun a => m.cruKeeps.advances (k.advances a), fun a => m.cruKeeps.history (k.history a)⟩)
    ⟨id, id⟩

end Sys2Proof.Machine
end

