-- ==== Sys2Proof/Laws/Deliveries.lean ====
section
/-! SUPPORT. The operations that deliveries and orders are written over, each said once: a delivered copy, an ORDER of
the active source, a cancellation that takes no mark, a bypass exit, and the comparison with an instant. -/

namespace Sys2Proof.Machine

/-! ### Instants and counts -/

theorem reached_iff (t u : StationTime) : reached t u = true ↔ 0 ≤ (t - u).toInt := by
  simp [reached, atOrAfter, Machine.sdiff]

theorem atOrAfter_iff (t u : StationTime) : atOrAfter t u = true ↔ 0 ≤ (t - u).toInt := by
  simp [atOrAfter, Machine.sdiff]

/-- An instant is reached at its own tick (R1). -/
@[simp] theorem reached_self (t : StationTime) : reached t t = true := by simp [reached_iff]

/-! ### The fault table -/

/-- A table made fault by fault holds at each code what was made for its fault. -/
theorem fault_map {α : Type} (f : FaultCode) (g : FaultCode → α) : (FaultCode.all.map g).get f.code = g f := by
  have h : FaultCode.all.get f.code = f := by cases f <;> rfl
  show (FaultCode.all.map g)[f.code.val] = _
  rw [Vector.getElem_map]; exact congrArg g h

/-! ### A delivered copy (R83, R87, R135) -/

theorem onPosition_next {q : Nat} {t : State} (h1 : 1 ≤ q) (h2 : q ≤ 14) : onPosition q t = .next t := by
  simp [onPosition, h1, h2]

theorem onPosition_fault {q : Nat} {t : State} (h : q < 1 ∨ 14 < q) : onPosition q t = .fault .noSuchPosition := by
  have : ¬(1 ≤ q ∧ q ≤ 14) := by omega
  simp [onPosition, this]

/-- A copy of another station's telegram, delivered outside INERT: its origin is heard, then the block acts. -/
theorem delivered_eq {s : State} {q : Nat} {c : Instr} {act : State → State} (h : s.stc.station ≠ .inert)
    (hq : q ≠ s.straps.pos ∨ 12 < s.straps.pos) : delivered c q act s = act (s.hearing q c) := by
  have own : s.isOwn q = false := by
    rcases hq with h | h <;> simp [State.isOwn, isFiringPosition] <;> omega
  have : (s.taken c).delivers q = true := by
    show (decide (s.stc.station ≠ .inert) && !s.isOwn q) = true
    simp [own, h]
  simp only [delivered, this, if_true]
  rfl

/-- In INERT, and of the own position, nothing is delivered. -/
theorem delivered_none {s : State} {q : Nat} {c : Instr} {act : State → State}
    (h : s.stc.station = .inert ∨ s.isOwn q = true) : delivered c q act s = s.taken c := by
  have : (s.taken c).delivers q = false := by
    show (decide (s.stc.station ≠ .inert) && !s.isOwn q) = false
    rcases h with h | h <;> simp [h]
  simp [delivered, this]

/-! ### An ORDER of the active source (R141, R142) -/

/-- An ORDER with its active flag set, taken by the Coordination Unit. -/
theorem cruOrder_active {s : State} {o : Order} {c : Instr} {k : Command} (ho : ActiveOrder o) :
    cruOrder k o (s.hearing o.origin c) =
      if s.cru.lastExecuted = some { source := o.origin, number := o.number } then s.orderTaken o c
      else stcCommand k (s.orderTaken o c) := by
  obtain ⟨h1, h2, h3⟩ := ho
  have hf : fromControl o = true := by rcases h1 with h | h <;> simp [fromControl, isControlPosition, h, h2]
  have base : ∀ le, (resetStaleness (handAngle o.alpha
      ((s.hearing o.origin c).onCru fun c => { c with activeSource := some o.origin }))).onCru
        (fun c => { c with lastExecuted := le }) =
      { s.orderTaken o c with cru := { (s.orderTaken o c).cru with lastExecuted := le } } := by
    intro le
    simp only [resetStaleness]
    have : (handAngle o.alpha ((s.hearing o.origin c).onCru fun c =>
        { c with activeSource := some o.origin })).cru.lostSignalled = s.cru.lostSignalled := rfl
    rw [this]
    cases hl : s.cru.lostSignalled <;> simp [State.orderTaken, hl] <;> rfl
  simp only [cruOrder, hf, h3, Bool.not_true, Bool.false_eq_true, if_false, decideCommand]
  have e2 : (resetStaleness (handAngle o.alpha ((s.hearing o.origin c).onCru fun c =>
      { c with activeSource := some o.origin }))).cru.lastExecuted = s.cru.lastExecuted := by
    simp only [resetStaleness]; split <;> rfl
  rw [e2]
  by_cases hl : s.cru.lastExecuted = some (orderKey o)
  · have hl' : s.cru.lastExecuted = some { source := o.origin, number := o.number } := hl
    rw [if_pos hl, if_pos hl']
    have := base s.cru.lastExecuted
    rw [hl] at this
    refine Eq.trans ?_ (this.trans rfl)
    have e3 := e2.trans hl
    generalize resetStaleness _ = z at e3
    cases z; simp only [State.onCru] at *; simp_all
    rw [← e3]
  · have hl' : ¬s.cru.lastExecuted = some { source := o.origin, number := o.number } := hl
    rw [if_neg hl, if_neg hl']
    exact congrArg _ (base _)

/-- The command of an ORDER of the active source, delivered outside INERT. -/
theorem exec_activeOrder {s : State} {o : Order} {mk : Order → Instr} {k : Command} (ho : ActiveOrder o)
    (hi : s.stc.station ≠ .inert) :
    onPosition o.origin (delivered (mk o) o.origin (cruOrder k o) s) =
      .next (if s.cru.lastExecuted = some { source := o.origin, number := o.number } then s.orderTaken o (mk o)
        else stcCommand k (s.orderTaken o (mk o))) := by
  have h2 : o.origin ≠ s.straps.pos ∨ 12 < s.straps.pos := by
    rcases ho.1 with h | h <;> rw [h] <;> omega
  rw [onPosition_next (by rcases ho.1 with h | h <;> omega) (by rcases ho.1 with h | h <;> omega),
    delivered_eq hi h2, cruOrder_active ho]

@[simp] theorem orderTaken_station (s : State) (o c) : (s.orderTaken o c).stc.station = s.stc.station := by
  simp only [State.orderTaken]; split <;> rfl

@[simp] theorem orderTaken_record (s : State) (o c) : (s.orderTaken o c).stc.record = s.stc.record := by
  simp only [State.orderTaken]; split <;> rfl

@[simp] theorem orderTaken_holdRunning (s : State) (o c) :
    (s.orderTaken o c).stc.holdRunning = s.stc.holdRunning := by
  simp only [State.orderTaken]; split <;> rfl

/-! ### Cancellation and exit (R15, R34, R75) -/

/-- A cancellation that finds nothing scheduled, the mark taken or station time before M only discards the
schedule. -/
theorem cancelSchedule_eq {s : State} (h : CancelsWithoutMark s) :
    cancelSchedule s = { s with fcu := { s.fcu with schedule := none } } := by
  unfold cancelSchedule
  rcases hs : s.fcu.schedule with _ | c
  · simp only; rw [← hs]
  · have : s.pastFallback = false := by
      rcases h with h | h | h
      · rw [h] at hs; cases hs
      · simp [State.pastFallback, h]
      · unfold State.pastFallback
        rcases hf : s.lmon.fallback with _ | M
        · simp
        · have := h M hf
          have : reached s.now M = false := by
            rw [Bool.eq_false_iff, ne_eq, reached_iff]; omega
          simp [this]
    simp [this]; rfl

/-- A cancellation of a schedule standing at or after M takes the cycle mark. -/
theorem cancelSchedule_mark {s : State} (h : CancelTakesMark s) :
    cancelSchedule s = cycleMark false { s with fcu := { s.fcu with schedule := none } } := by
  obtain ⟨hs, hm, M, hf, hr⟩ := h
  obtain ⟨c, hc⟩ := Option.isSome_iff_exists.mp hs
  have hp : s.pastFallback = true := by
    simp only [State.pastFallback, hm, hf, (reached_iff _ _).mpr hr]; rfl
  simp only [cancelSchedule, hc, hp, if_true]
  rfl

theorem trainExit_eq (x : Option Train) : trainExit x = afterExit x := by
  cases x with
  | none => rfl
  | some r => cases r with | mk a b c k => cases k <;> rfl

end Sys2Proof.Machine
end

