-- ==== Sys2Proof/Laws/Adoption.lean ====
section
/-! SUPPORT. Changes that commute come to the same in any order, and so does the hand-over of an adoption that takes
no cycle mark (R177, R180). -/

namespace Sys2Proof.Machine

/-- Changes that commute on what they keep come to the same in any order. -/
theorem inTurn_perm {P : State → Prop} {fs gs : List (State → State)} (h : fs.Perm gs)
    (keep : ∀ f ∈ fs, ∀ t, P t → P (f t)) (comm : ∀ f ∈ fs, ∀ g ∈ fs, ∀ t, P t → f (g t) = g (f t)) :
    ∀ t, P t → inTurn fs t = inTurn gs t := by
  induction h with
  | nil => intro t _; rfl
  | cons f h ih =>
    intro t ht
    exact ih (fun f hf => keep f (by simp [hf])) (fun f hf g hg => comm f (by simp [hf]) g (by simp [hg])) _
      (keep f (by simp) t ht)
  | swap f g l =>
    intro t ht
    simp only [inTurn, List.foldl_cons]
    rw [comm f (by simp) g (by simp) t ht]
  | trans h1 h2 ih1 ih2 =>
    intro t ht
    rw [ih1 keep comm t ht]
    exact ih2 (fun f hf => keep f (h1.mem_iff.mpr hf))
      (fun f hf g hg => comm f (h1.mem_iff.mpr hf) g (h1.mem_iff.mpr hg)) t ht

theorem inAnyOrder_commuting {P : State → Prop} {fs : List (State → State)}
    (keep : ∀ f ∈ fs, ∀ t, P t → P (f t)) (comm : ∀ f ∈ fs, ∀ g ∈ fs, ∀ t, P t → f (g t) = g (f t)) (s : State)
    (h : P s.drawn) : inAnyOrder fs s = inTurn fs s.drawn :=
  inTurn_perm (shuffle_perm _ _) (fun f hf => keep f ((shuffle_perm _ _).mem_iff.mp hf))
    (fun f hf g hg => comm f ((shuffle_perm _ _).mem_iff.mp hf) g ((shuffle_perm _ _).mem_iff.mp hg)) _ h

theorem membershipActs_keep (was is : Bool) :
    ∀ f ∈ membershipActs was is, ∀ t, CancelsWithoutMark t → CancelsWithoutMark (f t) := by
  intro f hf t ht
  cases was <;> cases is <;> simp [membershipActs] at hf
  · rcases hf with rfl | rfl <;> exact ht
  · subst hf; exact ht
  · subst hf; exact ht

/-- What an adoption hands on, where the cancellation takes no mark: the membership acts, then the schedule gone. -/
theorem adoption_acts (was is firing : Bool) (s : State) (h : CancelsWithoutMark s) :
    inAnyOrder (membershipActs was is ++ if firing then [cancelSchedule] else []) s =
      inTurn (membershipActs was is ++ if firing then [discardSchedule] else []) s.drawn := by
  rw [inAnyOrder_commuting (P := CancelsWithoutMark)]
  · cases firing
    · rfl
    · simp only [if_true, inTurn, List.foldl_append]
      rw [List.foldl_cons, List.foldl_nil, cancelSchedule_eq]; rfl
      exact inTurn_keeps (P := CancelsWithoutMark) h (membershipActs_keep was is)
  · intro g hg t ht
    rcases List.mem_append.mp hg with hg | hg
    · exact membershipActs_keep was is g hg t ht
    · cases firing <;> simp at hg
      subst hg; rw [cancelSchedule_eq ht]; exact .inl rfl
  · have cc : ∀ t, CancelsWithoutMark t → ∀ g : State → State, (CancelsWithoutMark t → CancelsWithoutMark (g t)) →
        (discardSchedule (g t) = g (discardSchedule t)) → cancelSchedule (g t) = g (cancelSchedule t) := by
      intro t ht g hg hc
      rw [cancelSchedule_eq ht, cancelSchedule_eq (hg ht)]; exact hc
    intro f hf g hg t ht
    have c1 := cc t ht lcaAdoption (fun k => k) rfl
    have c2 := cc t ht discardWatch (fun k => k) rfl
    have c3 := cc t ht lcaCeasing (fun k => k) rfl
    cases was <;> cases is <;> cases firing <;> simp [membershipActs] at hf hg
    · subst hf; subst hg; rfl
    · rcases hf with rfl | rfl <;> rcases hg with rfl | rfl <;> rfl
    · rcases hf with rfl | rfl | rfl <;> rcases hg with rfl | rfl | rfl <;>
        first | rfl | exact c1 | exact c1.symm | exact c2 | exact c2.symm
    · subst hf; subst hg; rfl
    · rcases hf with rfl | rfl <;> rcases hg with rfl | rfl <;> first | rfl | exact c3 | exact c3.symm
    · subst hf; subst hg; rfl
    · rcases hf with rfl | rfl <;> rcases hg with rfl | rfl <;> first | rfl | exact c1 | exact c1.symm
  · exact h

end Sys2Proof.Machine
end

