-- ==== Sys2Proof/Laws/Indications.lean ====
section
/-! SUPPORT. An indication taken by the Level Monitor, said once for each class: discarded, noted on its level, entered
in its tally, or completing a quorum; and a commutation failure that is no repeated one. -/

namespace Sys2Proof.Machine

/-- A tally admits a level it does not hold, at or after its arming instant (R26). -/
theorem admits_of {y : Tally} {i : Fin 80} {r : StationTime} (h1 : y.armed = true) (h2 : 0 ≤ (r - y.armedAt).toInt)
    (h3 : ∀ m ∈ y.members, m.level ≠ i) : y.admits i r = true := by
  simp only [Tally.admits, h1, (atOrAfter_iff _ _).mpr h2, Bool.true_and, Bool.not_eq_true']
  simp only [List.any_eq_false, decide_eq_true_eq]; exact h3

/-- The Level Monitor with an indication noted on its level and entered in no tally (R23). -/
def Lmon.noted (m : Lmon) (i : Fin 80) (c : IndicationClass) : Lmon :=
  { m with levels := m.levels.set i.val ((m.levels.get i).indicated c m.phase) i.isLt }

theorem noted_level_same (m : Lmon) (i : Fin 80) (c : IndicationClass) :
    (m.noted i c).levels.get i = (m.levels.get i).indicated c m.phase := by simp [Lmon.noted]

theorem noted_level_other (m : Lmon) {i j : Fin 80} (c : IndicationClass) (h : j ≠ i) :
    (m.noted i c).levels.get j = m.levels.get j := by
  simp only [Lmon.noted, get_set]; rw [if_neg (Ne.symm h)]

/-- A malformed indication is noted on a level that is not FAILED and does nothing else (R23). -/
theorem takeIndication_malformed (s : State) (i : Fin 80) (r : StationTime) (raise : FaultCode → State → State) :
    takeIndication raise i .malformed r s =
      if (s.lmon.levels.get i).state = .failed then s else { s with lmon := s.lmon.noted i .malformed } := by
  simp only [takeIndication, Lmon.indicated]
  by_cases h : (s.lmon.levels.get i).state = .failed
  · rw [if_pos h, if_pos h]; rfl
  · rw [if_neg h, if_neg h]; rfl

/-- An RV of a level not FAILED: noted, entered where the tally admits it, and raising XT at the quorum (R26, R30). -/
theorem indicated_rv {m : Lmon} {n : Nat} {i : Fin 80} {r : StationTime} (hf : ¬(m.levels.get i).state = .failed) :
    m.indicated n i .rv r =
      if m.rv.admits i r = true then
        if m.rv.members.length + 1 = m.counted / 2 + 1 then
          (({ m.noted i .rv with rv := m.rv.add i r } : Lmon).atXt r, some (.xt r (phaseAfterXt m.phase)))
        else ({ m.noted i .rv with rv := m.rv.add i r }, none)
      else (m.noted i .rv, none) := by
  have hl : (m.rv.add i r).members.length = m.rv.members.length + 1 := by simp [Tally.add]
  simp only [Lmon.indicated, if_neg hf, Lmon.tallied]
  rw [← hl]; rfl

/-- An FV of a level not FAILED: noted, entered where the tally admits it, and raising FV at the quorum (R26, R31). -/
theorem indicated_fv {m : Lmon} {n : Nat} {i : Fin 80} {r : StationTime} (hf : ¬(m.levels.get i).state = .failed) :
    m.indicated n i .fv r =
      if m.fv.admits i r = true then
        if m.fv.members.length + 1 = m.counted / 2 + 1 then
          (({ m.noted i .fv with fv := m.fv.add i r } : Lmon).atFv r, some (.fv r m.phase))
        else ({ m.noted i .fv with fv := m.fv.add i r }, none)
      else (m.noted i .fv, none) := by
  have hl : (m.fv.add i r).members.length = m.fv.members.length + 1 := by simp [Tally.add]
  simp only [Lmon.indicated, if_neg hf, Lmon.tallied]
  rw [← hl]; rfl

/-- A PF of a level not FAILED: noted, entered where the tally admits it, and raising PFQ at the smaller quorum in
RECOVERY (R26, R32). -/
theorem indicated_pf {m : Lmon} {n : Nat} {i : Fin 80} {r : StationTime} (hf : ¬(m.levels.get i).state = .failed) :
    m.indicated n i .pf r =
      if m.pf.admits i r = true then
        if m.pf.members.length + 1 = m.counted / 4 + 1 ∧ m.phase = .recovery then
          (({ m.noted i .pf with pf := m.pf.add i r } : Lmon).atPfq n r, some (.pfq r))
        else ({ m.noted i .pf with pf := m.pf.add i r }, none)
      else (m.noted i .pf, none) := by
  have hl : (m.pf.add i r).members.length = m.pf.members.length + 1 := by simp [Tally.add]
  simp only [Lmon.indicated, if_neg hf, Lmon.tallied]
  rw [← hl]; rfl

/-- An indication of a FAILED level is discarded (R23). -/
theorem indicated_failed {m : Lmon} {n : Nat} {i : Fin 80} {c : IndicationClass} {r : StationTime}
    (hf : (m.levels.get i).state = .failed) : m.indicated n i c r = (m, none) := by
  simp [Lmon.indicated, hf]

/-- An indication that completes no quorum changes the Level Monitor alone. -/
theorem takeIndication_quiet {s : State} {i : Fin 80} {c : IndicationClass} {r : StationTime} {m : Lmon}
    {raise : FaultCode → State → State} (h : s.lmon.indicated s.straps.nlev i c r = (m, none)) :
    takeIndication raise i c r s = { s with lmon := m } := by
  simp only [takeIndication, h]; rfl

/-- An indication that completes a quorum is handed on as its valve event. -/
theorem takeIndication_event {s : State} {i : Fin 80} {c : IndicationClass} {r : StationTime} {m : Lmon}
    {e : ValveEvent} {raise : FaultCode → State → State}
    (h : s.lmon.indicated s.straps.nlev i c r = (m, some e)) :
    takeIndication raise i c r s = handEvent raise e { s with lmon := m } := by
  simp only [takeIndication, h]; rfl

/-! ### A commutation failure (R162, R163) -/

/-- The history after a detection, for a history in range (R162). -/
theorem historyEntered_eq {h : List FiringNumber} {fn : FiringNumber} (hl : h.length ≤ 4) :
    historyEntered h fn = if fn ∈ h then h else h.drop (h.length - 3) ++ [fn] := by
  unfold historyEntered
  by_cases hm : fn ∈ h
  · simp [hm]
  · rw [if_neg (by simpa using hm), if_neg hm]
    by_cases h4 : h.length < 4
    · have : h.length - 3 = 0 := by omega
      rw [if_pos h4, this, List.drop_zero]
    · have : h.length - 3 = 1 := by omega
      rw [if_neg h4, this]

/-- A history repeats only with four entries, the newest at most 600 after the oldest (R163). -/
theorem repeated_false {h : List FiringNumber} (hr : ∀ a b c d, h = [a, b, c, d] → 600 < (d - a).toNat) :
    repeated h = false := by
  unfold repeated
  split
  · rename_i a b c d; exact decide_eq_false (not_le.mpr (hr a b c d rfl))
  · rfl

/-- A failure that is no repeated one: the history entered, the CFAIL originated and the own request made. -/
theorem detectFailure_single {s : State} {cause : Nat} {t : StationTime} {raise : FaultCode → State → State}
    (h : s.cru.ownFn ∈ s.cru.cfHistory ∨ repeated (historyEntered s.cru.cfHistory s.cru.ownFn) = false) :
    detectFailure raise cause t s =
      requestCfail s.straps.pos
        (originate .cfail (cfailPayload cause (historyEntered s.cru.cfHistory s.cru.ownFn).length) (some t)
          (s.onCru fun c => { c with cfHistory := historyEntered s.cru.cfHistory s.cru.ownFn })) := by
  have e : (requestCfail s.straps.pos (enterAndTell cause t s)).cru.cfHistory =
      historyEntered s.cru.cfHistory s.cru.ownFn := by
    simp [requestCfail, State.request, enterAndTell]
  simp only [detectFailure]
  rcases h with h | h
  · rw [if_pos (by simpa using h)]; rfl
  · split
    · rfl
    · unfold repetitionTest
      rw [e, h]; rfl

end Sys2Proof.Machine
end

