-- ==== Sys2Proof/Laws/Mark.lean ====
section
/-! SUPPORT. A cycle mark said once: the Level Monitor after it is the Level Monitor's own part of it, whatever order
the receivers take its events and faults in, and the input blocks and the queues are as they were (R36, R191). -/

namespace Sys2Proof.Machine

/-- What the receivers of a cycle mark leave alone. -/
def State.markView (s : State) :
    Lmon × StationTime × Straps × Aru × Vector Channel 80 × List Instr × List Instr × Nat :=
  (s.lmon, s.now, s.straps, s.aru, s.lca.channels, s.pending, s.handed, s.fcu.alphaReq)

/-- A change that leaves the view of a cycle mark as it was. -/
abbrev KeepsMarkView (f : State → State) : Prop := ∀ s : State, (f s).markView = s.markView

theorem markView_originate (k p e) : KeepsMarkView (originate k p e) := fun s => by unfold originate; split <;> rfl

theorem markView_membershipActs (was is : Bool) : ∀ f ∈ membershipActs was is, KeepsMarkView f := by
  intro f hf
  cases was <;> cases is <;> simp [membershipActs] at hf
  · rcases hf with rfl | rfl <;> exact fun _ => rfl
  · subst hf; exact fun _ => rfl
  · subst hf; exact fun _ => rfl

theorem inTurn_markView {fs : List (State → State)} (h : ∀ f ∈ fs, KeepsMarkView f) : KeepsMarkView (inTurn fs) := by
  induction fs with
  | nil => exact fun _ => rfl
  | cons f fs ih =>
    exact fun s => (ih (fun g hg => h g (by simp [hg])) (f s)).trans (h f (by simp) s)

theorem adoptAtTrip_markView (b : BypassOrder) : KeepsMarkView (adoptAtTrip b) := fun s => by
  unfold adoptAtTrip
  split
  · exact inTurn_markView (markView_membershipActs _ _) _
  · rfl
  · rfl

theorem trip_markView {cancel : State → State} (hc : KeepsMarkView cancel) (f : FaultCode) :
    KeepsMarkView (trip cancel f) := fun s => by
  unfold trip
  split
  · have base : ((adoptAtTrip (ownBypass s (f.code.val + 1))
        (originateBypass (ownBypass s (f.code.val + 1)) s)).enter .tripped).markView = s.markView :=
      (adoptAtTrip_markView _ _).trans (markView_originate _ _ _ s)
    unfold tripFromFiring
    simp only
    split
    · exact base
    · exact (hc _).trans base
  all_goals rfl

theorem takeFaultWith_markView {cancel : State → State} (hc : KeepsMarkView cancel) (f : FaultCode) :
    KeepsMarkView (takeFaultWith cancel f) := fun s => by
  unfold takeFaultWith
  simp only
  split
  · exact (trip_markView hc f _).trans rfl
  · split
    · unfold blockByFault
      simp only
      split
      · exact (trip_markView hc f _).trans rfl
      · exact (hc _).trans rfl
    · rfl
  all_goals rfl

theorem takeFaultInMark_markView (f : FaultCode) : KeepsMarkView (takeFaultInMark f) :=
  takeFaultWith_markView (cancel := discardSchedule) (fun _ => rfl) f

theorem surveyTest_markView : KeepsMarkView surveyTest := fun s => by
  unfold surveyTest
  split
  · split
    · rfl
    · split <;> rfl
  · rfl

theorem cruMark_markView : KeepsMarkView cruMark := fun s => by
  unfold cruMark
  split <;> first | exact markView_originate _ _ _ s | rfl

theorem handEvent_markView {raise : FaultCode → State → State} (hr : ∀ f, KeepsMarkView (raise f)) (e : ValveEvent) :
    KeepsMarkView (handEvent raise e) := fun s => by
  cases e with
  | xt t p =>
    show (cruXt t p (lcaXt t s)).markView = _
    unfold cruXt
    split
    · simp only
      split
      · exact (markView_originate _ _ _ _).trans rfl
      · rfl
    · rfl
  | fv t p =>
    show (cruFv t p s).markView = _
    unfold cruFv
    split
    · rfl
    · split
      · split
        · rfl
        · unfold marginAlarm
          split
          · unfold requestMargin
            split
            · exact (markView_originate _ _ _ _).trans rfl
            · exact (markView_originate _ _ _ _).trans rfl
          · rfl
      · rfl
  | pfq t =>
    show (cruPfq raise t s).markView = _
    unfold cruPfq detectFailure
    have base : ∀ u : State, (requestCfail u.straps.pos (enterAndTell 2 t u)).markView = u.markView :=
      fun u => (markView_originate _ _ _ _).trans rfl
    simp only
    split
    · exact (base _).trans rfl
    · unfold repetitionTest
      split
      · exact ((hr _ _).trans (base _)).trans rfl
      · exact (base _).trans rfl

/-- A cycle mark leaves its view as the Level Monitor's own part of the mark leaves it. -/
theorem cycleMark_markView (own : Bool) (s : State) :
    (cycleMark own s).markView = { s with lmon := (s.lmon.marked s.straps own s.now).1 }.markView :=
  cycleMark_keeps (P := fun t => t.markView = _) own s rfl
    (fun e t h => (handEvent_markView (fun _ _ => rfl) e t).trans h) (fun t h => (cruMark_markView t).trans h)
    (fun f t h => (takeFaultInMark_markView f t).trans h) fun t h => (surveyTest_markView t).trans h

/-- The Level Monitor after a cycle mark. -/
@[simp] theorem cycleMark_lmon (own : Bool) (s : State) :
    (cycleMark own s).lmon = (s.lmon.marked s.straps own s.now).1 := congrArg (fun v => v.1) (cycleMark_markView own s)

@[simp] theorem cycleMark_now (own : Bool) (s : State) : (cycleMark own s).now = s.now :=
  congrArg (fun v => v.2.1) (cycleMark_markView own s)

@[simp] theorem cycleMark_straps (own : Bool) (s : State) : (cycleMark own s).straps = s.straps :=
  congrArg (fun v => v.2.2.1) (cycleMark_markView own s)

@[simp] theorem cycleMark_aru (own : Bool) (s : State) : (cycleMark own s).aru = s.aru :=
  congrArg (fun v => v.2.2.2.1) (cycleMark_markView own s)

end Sys2Proof.Machine
end

