-- ==== Sys2Proof/Laws/Modes.lean ====
section
/-! SUPPORT. The station state, the schedule, the isolation hold, the bypass record and the train: how every
operation keeps them in agreement (ModeConsistent and LitForTheBypass of Safety.lean). -/

namespace Sys2Proof.Machine

/-- Whether a bypass train is running. -/
def State.bypassLit (s : State) : Bool :=
  match s.lca.train with
  | some r => r.kind = .bypass
  | none => false

theorem lit_iff (s : State) : LitForTheBypass s ↔ s.bypassLit = s.isMember := by
  unfold LitForTheBypass State.bypassLit
  rcases s.lca.train with _ | r
  · cases h : s.isMember <;> simp
  · cases h : s.isMember <;> simp

/-- What the agreement reads of a state. -/
def State.modeView (s : State) : Station × Option BlockRecord × Bool × Bool × Bool × Bool × Nat :=
  (s.stc.station, s.stc.record, s.stc.holdRunning, s.fcu.schedule.isSome, s.stc.fired, s.bypassLit, s.straps.pos)

/-- The agreement without the schedule. -/
structure Agrees (s : State) : Prop where
  hold : s.stc.holdRunning = true → s.stc.station = .tripped
  record : s.stc.record.isSome = true → s.stc.station = .bypass ∨ s.stc.station = .tripped
  fired : s.stc.station = .firing → s.stc.fired = true
  lit : s.bypassLit = s.isMember

/-- The whole agreement. -/
structure Agreed (s : State) : Prop extends Agrees s where
  schedule : s.fcu.schedule.isSome = true →
    s.stc.station = .firing ∨ (s.stc.station = .tripped ∧ s.stc.holdRunning = true)

theorem agreed_iff (s : State) : Agreed s ↔ ModeConsistent s ∧ LitForTheBypass s := by
  rw [lit_iff]
  exact ⟨fun h => ⟨⟨h.schedule, h.hold, h.record, h.fired⟩, h.lit⟩,
    fun h => ⟨⟨h.1.hold, h.1.record, h.1.fired, h.2⟩, h.1.schedule⟩⟩

theorem isMember_eq (s : State) : s.isMember =
    match s.stc.record with | some r => namesLeg s.straps.pos r.star r.delta | none => false := rfl

theorem Agrees.congr {s t : State} (h : t.modeView = s.modeView) (k : Agrees s) : Agrees t := by
  simp only [State.modeView, Prod.mk.injEq] at h
  obtain ⟨h1, h2, h3, h4, h5, h6, h7⟩ := h
  exact ⟨by rw [h1, h3]; exact k.hold, by rw [h1, h2]; exact k.record, by rw [h1, h5]; exact k.fired,
    by rw [h6, k.lit, isMember_eq, isMember_eq, h2, h7]⟩

theorem Agreed.congr {s t : State} (h : t.modeView = s.modeView) (k : Agreed s) : Agreed t := by
  refine ⟨k.toAgrees.congr h, ?_⟩
  simp only [State.modeView, Prod.mk.injEq] at h
  obtain ⟨h1, h2, h3, h4, h5, h6, h7⟩ := h
  rw [h4, h1, h3]; exact k.schedule

theorem Agreed.same {s t : State} (k : Agreed s) (h : t.modeView = s.modeView) : Agreed t := k.congr h

/-- A record that is empty names no leg. -/
theorem notMember {s : State} (h : s.stc.record = none) : s.isMember = false := by rw [isMember_eq, h]

theorem Agrees.recordNone {s : State} (k : Agrees s) (h1 : s.stc.station ≠ .bypass) (h2 : s.stc.station ≠ .tripped) :
    s.stc.record = none := by
  rcases h : s.stc.record with _ | r
  · rfl
  · rcases k.record (by simp [h]) with h' | h'
    · exact absurd h' h1
    · exact absurd h' h2

theorem Agrees.holdOff {s : State} (k : Agrees s) (h : s.stc.station ≠ .tripped) : s.stc.holdRunning = false := by
  cases h' : s.stc.holdRunning
  · rfl
  · exact absurd (k.hold h') h

@[simp] theorem modeView_drawn (s : State) : s.drawn.modeView = s.modeView := rfl
@[simp] theorem modeView_originate (k p e) (s : State) : (originate k p e s).modeView = s.modeView := by
  rcases originate_cases k p e s with h | h <;> rw [h]; rfl
@[simp] theorem modeView_onCru (s : State) (f) : (s.onCru f).modeView = s.modeView := rfl
@[simp] theorem modeView_onLmon (s : State) (f) : (s.onLmon f).modeView = s.modeView := rfl
@[simp] theorem modeView_onAru (s : State) (f) : (s.onAru f).modeView = s.modeView := rfl
@[simp] theorem modeView_onRif (s : State) (f) : (s.onRif f).modeView = s.modeView := rfl
@[simp] theorem modeView_recordFault (s : State) (f) : (s.recordFault f).modeView = s.modeView := rfl
@[simp] theorem modeView_clearFault (s : State) (f) : (s.clearFault f).modeView = s.modeView := rfl

/-- A change of the train that neither makes nor ends a bypass train. -/
theorem modeView_onTrain {s : State} {f : Option Train → Option Train}
    (h : (match f s.lca.train with | some r => decide (r.kind = .bypass) | none => false) = s.bypassLit) :
    (s.onTrain f).modeView = s.modeView := by
  simp only [State.modeView, Prod.mk.injEq]
  exact ⟨rfl, rfl, rfl, rfl, rfl, h, rfl⟩

theorem modeView_lcaXt (t) (s : State) : (lcaXt t s).modeView = s.modeView := by
  refine modeView_onTrain ?_
  unfold State.bypassLit
  rcases h : s.lca.train with _ | r
  · rfl
  · rcases r with ⟨a, b, c, k⟩
    cases k with
    | normal l x => simp only [trainXt]; by_cases h2 : atOrAfter t x = true <;> simp [h2]
    | bypass => rfl

theorem modeView_lcaFiring (s : State) : (lcaFiring s).modeView = s.modeView := by
  refine modeView_onTrain ?_
  unfold State.bypassLit
  rcases h : s.lca.train with _ | r
  · rfl
  · rcases r with ⟨a, b, c, k⟩; cases k <;> rfl

theorem modeView_lcaCompanion (s : State) : (lcaCompanion s).modeView = s.modeView := by
  refine modeView_onTrain ?_
  unfold State.bypassLit
  rcases h : s.lca.train with _ | r <;> rfl

theorem bypassLit_adoption (s : State) : (lcaAdoption s).bypassLit = true := by
  unfold State.bypassLit lcaAdoption
  rcases h : s.lca.train with _ | r <;> simp [State.onTrain, State.onLca, Lca.onTrain, h, trainAdoption, mainFrom]

theorem bypassLit_ceasing (s : State) : (lcaCeasing s).bypassLit = false := by
  unfold State.bypassLit lcaCeasing
  rcases h : s.lca.train with _ | r
  · simp [State.onTrain, State.onLca, Lca.onTrain, h, trainCeasing]
  · rcases r with ⟨a, b, c, k⟩
    cases k <;> simp [State.onTrain, State.onLca, Lca.onTrain, h, trainCeasing, normalFrom]

theorem bypassLit_exit (s : State) : (lcaExit s).bypassLit = false := by
  unfold State.bypassLit lcaExit
  rcases h : s.lca.train with _ | r
  · simp [State.onTrain, State.onLca, Lca.onTrain, h, trainExit]
  · rcases r with ⟨a, b, c, k⟩
    cases k <;> simp [State.onTrain, State.onLca, Lca.onTrain, h, trainExit]

/-- An operation that keeps the whole agreement. -/
abbrev KeepsAgreement (f : State → State) : Prop := ∀ s, Agreed s → Agreed (f s)

theorem KeepsAgreement.of_view {f : State → State} (h : ∀ s, (f s).modeView = s.modeView) : KeepsAgreement f :=
  fun s k => k.congr (h s)

theorem KeepsAgreement.comp {f g : State → State} (hf : KeepsAgreement f)
    (hg : KeepsAgreement g) : KeepsAgreement fun s => g (f s) :=
  fun s k => hg _ (hf s k)

theorem inTurn_agreed {fs : List (State → State)} (h : ∀ f ∈ fs, KeepsAgreement f) : KeepsAgreement (inTurn fs) :=
  fun _ k => inTurn_keeps k h
theorem inAnyOrder_agreed {fs : List (State → State)} (h : ∀ f ∈ fs, KeepsAgreement f) : KeepsAgreement
    (inAnyOrder fs) :=
  fun _ k => inAnyOrder_keeps (k.congr (modeView_drawn _)) h
theorem inTwoStreams_agreed {fs gs : List (State → State)} (h : ∀ f ∈ fs ++ gs,
    KeepsAgreement f) : KeepsAgreement (inTwoStreams fs gs) :=
  fun _ k => inTwoStreams_keeps (k.congr (modeView_drawn _)) h

/-! ### Cancellation, trip and fault -/

/-- A cancellation made after the station has left FIRING. -/
abbrev CancelsWell (cancel : State → State) : Prop := ∀ s, Agrees s → s.stc.station ≠ .firing → Agreed (cancel s)

theorem discardSchedule_well : CancelsWell discardSchedule := fun s k _ => by
  refine ⟨⟨k.hold, k.record, k.fired, k.lit⟩, ?_⟩
  simp [discardSchedule]

/-- A station that is not FIRING and holds no agreement to the contrary may enter a state. -/
theorem enter_agrees {s : State} {x : Station} (k : Agrees s) (h1 : s.stc.holdRunning = true → x = .tripped)
    (h2 : s.stc.record.isSome = true → x = .bypass ∨ x = .tripped) (h3 : x = .firing → s.stc.fired =
        true) : Agrees (s.enter x) :=
  ⟨h1, h2, h3, k.lit⟩

theorem adoptAtTrip_none {b : BypassOrder} {s : State} (h : s.stc.record = none) :
    adoptAtTrip b s = inTurn (membershipActs false (s.adoptRecord b).isMember) (s.adoptRecord b) := by
  simp [adoptAtTrip, h, judgeBypass, notMember h]

theorem modeView_discardWatch (s : State) : (discardWatch s).modeView = s.modeView := rfl

theorem adoptAtTrip_view {b : BypassOrder} {s : State} (h : s.stc.record = none) (hl : s.bypassLit = false) :
    let t := adoptAtTrip b s
    t.bypassLit = t.isMember ∧ t.stc.station = s.stc.station ∧ t.stc.holdRunning = s.stc.holdRunning ∧
      t.stc.fired = s.stc.fired ∧ t.fcu.schedule.isSome = s.fcu.schedule.isSome := by
  simp only [adoptAtTrip_none h]
  cases hm : (s.adoptRecord b).isMember
  · exact ⟨hl.trans hm.symm, rfl, rfl, rfl, rfl⟩
  · refine ⟨?_, rfl, rfl, rfl, rfl⟩
    show (lcaAdoption (s.adoptRecord b)).bypassLit = (s.adoptRecord b).isMember
    rw [bypassLit_adoption, hm]

theorem tripFromFiring_agreed {cancel : State → State} (hc : CancelsWell cancel) (f : FaultCode) {s : State}
    (k : Agreed s) (h : s.stc.station = .firing) : Agreed (tripFromFiring cancel f s) := by
  have hr := k.recordNone (by simp [h]) (by simp [h])
  have hh := k.holdOff (by simp [h])
  have hl : s.bypassLit = false := by rw [k.lit, notMember hr]
  have hv : ∀ b, (originateBypass b s).modeView = s.modeView := fun b => modeView_originate _ _ _ _
  unfold tripFromFiring
  simp only
  generalize ownBypass s (f.code.val + 1) = b
  have hv := hv b
  generalize originateBypass b s = u at hv
  simp only [State.modeView, Prod.mk.injEq] at hv
  obtain ⟨h1, h2, h3, h4, h5, h6, h7⟩ := hv
  obtain ⟨a1, a2, a3, a4, a5⟩ := adoptAtTrip_view (b := b) (h2.trans hr) (h6.trans hl)
  generalize adoptAtTrip b u = w at *
  split
  · exact ⟨⟨fun _ => rfl, fun _ => .inr rfl, (fun h => by cases h), a1⟩, fun _ => .inr ⟨rfl, rfl⟩⟩
  · exact hc _ ⟨fun _ => rfl, fun _ => .inr rfl, (fun h => by cases h), a1⟩ (by simp [State.enter, State.onStc,
        Stc.enter])

theorem enterTripped_agreed {s : State} (k : Agreed s) (h : s.stc.station ≠ .firing) : Agreed (s.enter .tripped) :=
  ⟨⟨fun _ => rfl, fun _ => .inr rfl, (fun h => by cases h), k.lit⟩, fun hs => by
    rcases k.schedule hs with h' | h'
    · exact absurd h' h
    · exact .inr ⟨rfl, h'.2⟩⟩

theorem trip_agreed {cancel : State → State} (hc : CancelsWell cancel) (f : FaultCode) : KeepsAgreement
    (trip cancel f) :=
  fun s k => by
  unfold trip
  split
  · rename_i h; exact tripFromFiring_agreed hc f k h
  · rename_i h; exact enterTripped_agreed k (by simp [h])
  · rename_i h; exact enterTripped_agreed k (by simp [h])
  · rename_i h; exact enterTripped_agreed k (by simp [h])
  all_goals exact k

theorem blockFromFiring_agreed {cancel : State → State} (hc : CancelsWell cancel) {s : State} (k : Agreed s)
    (h : s.stc.station = .firing) : Agreed (blockFromFiring cancel s) := by
  have hr := k.recordNone (by simp [h]) (by simp [h])
  have hh := k.holdOff (by simp [h])
  exact hc _ (enter_agrees k.toAgrees (by simp [hh]) (by simp [hr]) (by simp)) (by simp [State.enter,
      State.onStc, Stc.enter])

theorem modeView_escalate (s : State) : s.escalate.modeView = s.modeView := rfl

theorem blockByFault_agreed {cancel : State → State} (hc : CancelsWell cancel) (f : FaultCode) {s : State}
    (k : Agreed s)
    (h : s.stc.station = .firing) : Agreed (blockByFault cancel f s) := by
  have k' := k.congr (modeView_escalate s)
  unfold blockByFault
  simp only
  split
  · exact trip_agreed hc f _ k'
  · exact blockFromFiring_agreed hc k' h

theorem takeFaultWith_agreed {cancel : State → State} (hc : CancelsWell cancel) (f : FaultCode) :
    KeepsAgreement (takeFaultWith cancel f) := fun s k => by
  have k' := k.congr (modeView_recordFault s f)
  unfold takeFaultWith
  simp only
  split
  · exact trip_agreed hc f _ k'
  · split
    · rename_i h; exact blockByFault_agreed hc f k' h
    · exact k'
  · exact k'
  · exact k'

theorem surveyTest_agreed : KeepsAgreement surveyTest := fun s k => by
  unfold surveyTest
  split
  · rename_i h
    split
    · exact enterTripped_agreed k (by simp [h])
    · split
      · have hr := k.recordNone (by simp [h]) (by simp [h])
        have hh := k.holdOff (by simp [h])
        refine ⟨enter_agrees k.toAgrees (by simp [hh]) (by simp [hr]) (by simp), fun hs => ?_⟩
        rcases k.schedule hs with h' | h'
        · rw [h] at h'; cases h'
        · rw [h] at h'; cases h'.1
      · exact k
  · exact k

/-! ### Valve events and marks -/

theorem modeView_cruXt (t p) (s : State) : (cruXt t p s).modeView = s.modeView := by
  unfold cruXt; split
  · simp only; split
    · unfold originateHealth; rw [modeView_originate]; rfl
    · rfl
  · rfl

theorem modeView_requestMargin (q γ) (s : State) : (requestMargin q γ s).modeView = s.modeView := by
  unfold requestMargin; split <;> rfl

theorem modeView_cruFv (t p) (s : State) : (cruFv t p s).modeView = s.modeView := by
  unfold cruFv; split
  · rfl
  split
  · split
    · rfl
    · unfold marginAlarm; split
      · rw [modeView_requestMargin, modeView_originate]; rfl
      · rfl
  · rfl

theorem modeView_enterAndTell (c t) (s : State) : (enterAndTell c t s).modeView = s.modeView := by
  unfold enterAndTell; simp only; rw [modeView_originate]; rfl

theorem detectFailure_agreed {raise : FaultCode → State → State} (hr : ∀ f, KeepsAgreement (raise f)) (c t) :
    KeepsAgreement (detectFailure raise c t) := fun s k => by
  have k' : Agreed (requestCfail s.straps.pos (enterAndTell c t s)) :=
    k.congr ((show _ = (enterAndTell c t s).modeView from rfl).trans (modeView_enterAndTell c t s))
  unfold detectFailure
  simp only
  split
  · exact k'
  · unfold repetitionTest; split
    · exact (hr _ _ k').congr (modeView_onCru _ _)
    · exact k'

theorem handEvent_agreed {raise : FaultCode → State → State} (hr : ∀ f, KeepsAgreement (raise f)) (e) :
    KeepsAgreement (handEvent raise e) := fun s k => by
  cases e with
  | xt t p => exact k.congr ((modeView_cruXt _ _ _).trans (modeView_lcaXt _ _))
  | fv t p => exact k.congr (modeView_cruFv _ _ _)
  | pfq t => exact detectFailure_agreed hr 2 t _ (k.congr (modeView_onCru _ _))

theorem takeFaultInMark_agreed (f) : KeepsAgreement (takeFaultInMark f) := takeFaultWith_agreed discardSchedule_well f

theorem modeView_cruMark (s : State) : (cruMark s).modeView = s.modeView := by
  unfold cruMark originateHealth; split <;> first | exact modeView_originate _ _ _ _ | rfl

theorem cycleMark_agreed (own) : KeepsAgreement (cycleMark own) := fun s k =>
  cycleMark_keeps own s (k.congr (s := s) rfl)
    (handEvent_agreed fun _ _ h => h) (fun _ h => h.congr (modeView_cruMark _)) takeFaultInMark_agreed surveyTest_agreed

theorem cancelSchedule_well : CancelsWell cancelSchedule := fun s k h => by
  unfold cancelSchedule
  split
  · rename_i h'; exact ⟨k, by simp [h']⟩
  · split
    · exact cycleMark_agreed _ _ (discardSchedule_well s k h)
    · exact discardSchedule_well s k h

theorem takeFault_agreed (f) : KeepsAgreement (takeFault f) := takeFaultWith_agreed cancelSchedule_well f

/-! ### Adoption (R177, R178, R180) -/

/-- A station that acts on an adopted bypass, with what a cycle mark cannot change of it. -/
def InBypass (r : Option BlockRecord) (hold fired lit : Bool) (pos : Nat) (s : State) : Prop :=
  (s.stc.station = .bypass ∨ s.stc.station = .tripped) ∧ s.stc.record = r ∧ s.stc.holdRunning = hold ∧
    s.stc.fired = fired ∧ s.bypassLit = lit ∧ s.straps.pos = pos

theorem InBypass.congr {r h f l p} {s t : State} (e : t.modeView = s.modeView) (k : InBypass r h f l p s) :
    InBypass r h f l p t := by
  simp only [State.modeView, Prod.mk.injEq] at e
  obtain ⟨h1, h2, h3, h4, h5, h6, h7⟩ := e
  unfold InBypass at *
  rw [h1, h2, h3, h5, h6, h7]; exact k

theorem takeFaultWith_inBypass {cancel : State → State} (f : FaultCode) {r h fi l p} {s : State}
    (k : InBypass r h fi l p s) : InBypass r h fi l p (takeFaultWith cancel f s) := by
  have k' := k.congr (modeView_recordFault s f)
  have hs : (s.recordFault f).stc.station = s.stc.station := rfl
  unfold takeFaultWith
  simp only
  split
  · unfold trip
    rw [hs]
    rcases k.1 with h' | h' <;> simp only [h']
    · exact ⟨.inr rfl, k'.2⟩
    · exact k'
  · rw [hs]
    rcases k.1 with h' | h' <;> simp only [h'] <;> exact k'
  · exact k'
  · exact k'

theorem surveyTest_inBypass {r h fi l p} {s : State} (k : InBypass r h fi l p s) : InBypass r h fi l p
    (surveyTest s) := by
  unfold surveyTest
  rcases k.1 with h' | h' <;> simp only [h'] <;> exact k

theorem modeView_handEvent (e) (s : State) : (handEvent onItsWay e s).modeView = s.modeView := by
  cases e with
  | xt t p => exact (modeView_cruXt _ _ _).trans (modeView_lcaXt _ _)
  | fv t p => exact modeView_cruFv _ _ _
  | pfq t =>
    have base : ∀ u : State, (requestCfail u.straps.pos (enterAndTell 2 t u)).modeView = u.modeView :=
      fun u => (modeView_onCru _ _).trans (modeView_enterAndTell _ _ _)
    show (cruPfq onItsWay t s).modeView = _
    unfold cruPfq detectFailure
    simp only
    split
    · exact (base _).trans rfl
    · unfold repetitionTest
      split
      · exact (modeView_onCru _ _).trans ((base _).trans rfl)
      · exact (base _).trans rfl

theorem cycleMark_inBypass (own) {r h fi l p} {s : State} (k : InBypass r h fi l p s) :
    InBypass r h fi l p (cycleMark own s) :=
  cycleMark_keeps own s (k.congr rfl) (fun e _ h => h.congr (modeView_handEvent e _))
    (fun _ h => h.congr (modeView_cruMark _)) (fun f _ h => takeFaultWith_inBypass f h) fun _ h => surveyTest_inBypass h

theorem cancelSchedule_inBypass {r h fi l p} {s : State} (k : InBypass r h fi l p s) :
    InBypass r h fi l p (cancelSchedule s) := by
  unfold cancelSchedule
  split
  · exact k
  · have : InBypass r h fi l p (discardSchedule s) := k
    split
    · exact cycleMark_inBypass _ this
    · exact this

theorem cycleMark_schedule (own) {s : State} (h : s.fcu.schedule = none) : (cycleMark own s).fcu.schedule = none := by
  have aux : ∀ (f) (t : State), t.fcu.schedule = none → (takeFaultInMark f t).fcu.schedule = none := by
    intro f t ht
    have hd : ∀ u : State, (discardSchedule u).fcu.schedule = none := fun _ => rfl
    have htrip : ∀ u : State, u.fcu.schedule = none → (trip discardSchedule f u).fcu.schedule = none := by
      intro u hu
      unfold trip
      split
      · unfold tripFromFiring; simp only
        split
        · show (adoptAtTrip _ _).fcu.schedule = none
          unfold adoptAtTrip
          have ho : ∀ b, (originateBypass b u).fcu.schedule = none := fun b => by
            unfold originateBypass; rw [originate_fcu]; exact hu
          split
          · refine (congrArg (fun x : Fcu => x.schedule) (?_ : _ = (originateBypass (ownBypass u
                (f.code.val + 1)) u).fcu)).trans (ho _)
            cases State.isMember (originateBypass (ownBypass u (f.code.val + 1)) u) <;>
              cases State.isMember ((originateBypass (ownBypass u (f.code.val + 1)) u).adoptRecord (ownBypass u
                  (f.code.val + 1))) <;> rfl
          · exact ho _
          · exact ho _
        · exact hd _
      all_goals exact hu
    unfold takeFaultInMark takeFaultWith; simp only
    split
    · exact htrip _ ht
    · split
      · unfold blockByFault; simp only; split
        · exact htrip _ ht
        · exact hd _
      · exact ht
    all_goals exact ht
  refine cycleMark_keeps (P := fun t => t.fcu.schedule = none) own s h ?_ ?_ aux ?_
  · intro e t ht
    cases e with
    | xt a b =>
        show (cruXt a b (lcaXt a t)).fcu.schedule = none
        unfold cruXt originateHealth; split
        · simp only; split
          · rw [originate_fcu]; exact ht
          · exact ht
        · exact ht
      | fv a b =>
        show (cruFv a b t).fcu.schedule = none
        unfold cruFv; split
        · exact ht
        split
        · split
          · exact ht
          · unfold marginAlarm; split
            · unfold requestMargin; split
              · show (originate _ _ _ _).fcu.schedule = none
                rw [originate_fcu]; exact ht
              · rw [originate_fcu]; exact ht
            · exact ht
        · exact ht
      | pfq a =>
        show (cruPfq onItsWay a t).fcu.schedule = none
        have k : ∀ u : State, u.fcu.schedule = none → (requestCfail u.straps.pos
            (enterAndTell 2 a u)).fcu.schedule = none := by
          intro u hu; show (enterAndTell 2 a u).fcu.schedule = none
          unfold enterAndTell; simp only; rw [originate_fcu]; exact hu
        unfold cruPfq detectFailure; simp only
        split
        · exact k _ ht
        · unfold repetitionTest; split
          · exact k _ ht
          · exact k _ ht
  · intro t ht
    show (cruMark t).fcu.schedule = none
    unfold cruMark originateHealth; split <;> first | (rw [originate_fcu]; exact ht) | exact ht
  · intro t ht
    unfold surveyTest; split
    · split
      · exact ht
      · split <;> exact ht
    · exact ht

theorem cancelSchedule_none (s : State) : (cancelSchedule s).fcu.schedule = none := by
  unfold cancelSchedule
  split
  · assumption
  · split
    · exact cycleMark_schedule _ rfl
    · rfl

theorem adoptBypass_agreed {b : BypassOrder} {s : State} (k : Agreed s)
    (h : s.stc.station ≠ .start ∧ s.stc.station ≠ .inert ∧ s.stc.station ≠ .survey) :
    Agreed (adoptBypass cancelSchedule b s) := by
  unfold adoptBypass
  simp only
  by_cases hf : s.stc.station = .firing
  · have hr := k.recordNone (by simp [hf]) (by simp [hf])
    have hh := k.holdOff (by simp [hf])
    have hl : s.bypassLit = false := by rw [k.lit, notMember hr]
    rw [if_pos hf, notMember hr]
    set t := (s.adoptRecord b).enter (stationAdopted s.stc.station) with ht
    have hst : t.stc.station = .bypass := by rw [ht, hf]; rfl
    have hP : ∀ l, t.bypassLit = l → InBypass t.stc.record false t.stc.fired l t.straps.pos t := fun l e =>
      ⟨.inl hst, rfl, hh, rfl, e, rfl⟩
    have hlt : t.bypassLit = false := hl
    have finish : ∀ u : State, InBypass t.stc.record false t.stc.fired t.isMember t.straps.pos u →
        u.fcu.schedule = none → Agreed u := by
      intro u hu hs
      obtain ⟨h1, h2, h3, h4, h5, h6⟩ := hu
      refine ⟨⟨by simp [h3], fun _ => h1, fun h' => by rw [h'] at h1; simp at h1, ?_⟩, by simp [hs]⟩
      rw [h5, isMember_eq, isMember_eq, h2, h6]
    cases hm : t.isMember
    · rw [hm] at finish
      refine finish _ ?_ ?_
      · refine inAnyOrder_keeps (P := InBypass t.stc.record false t.stc.fired false t.straps.pos) (hP _ hlt) ?_
        intro g hg u hu
        simp [membershipActs] at hg
        subst hg; exact cancelSchedule_inBypass hu
      · refine inAnyOrder_reaches (g := cancelSchedule) (P := fun _ => True) (Q := fun u => u.fcu.schedule =
            none) (by simp) trivial (fun _ _ _ _ => trivial) (fun u _ => cancelSchedule_none u) ?_
        intro g hg u _ hu
        simp [membershipActs] at hg
        subst hg; exact cancelSchedule_none u
    · rw [hm] at finish
      refine finish _ ?_ ?_
      · have := inAnyOrder_reaches (s := t) (fs := membershipActs false true ++ [cancelSchedule]) (g := lcaAdoption)
          (P := fun u => ∃ l, InBypass t.stc.record false t.stc.fired l t.straps.pos u)
          (Q := fun u => InBypass t.stc.record false t.stc.fired true t.straps.pos u)
              (by simp [membershipActs]) ⟨_, hP _ rfl⟩ ?_ ?_ ?_
        · exact this
        · rintro g hg u ⟨l, hu⟩
          simp [membershipActs] at hg
          rcases hg with rfl | rfl | rfl
          · exact ⟨_, hu.1, hu.2.1, hu.2.2.1, hu.2.2.2.1, rfl, hu.2.2.2.2.2⟩
          · exact ⟨l, hu⟩
          · exact ⟨l, cancelSchedule_inBypass hu⟩
        · rintro u ⟨l, hu⟩
          exact ⟨hu.1, hu.2.1, hu.2.2.1, hu.2.2.2.1, bypassLit_adoption u, hu.2.2.2.2.2⟩
        · rintro g hg u - hu
          simp [membershipActs] at hg
          rcases hg with rfl | rfl | rfl
          · exact ⟨hu.1, hu.2.1, hu.2.2.1, hu.2.2.2.1, bypassLit_adoption u, hu.2.2.2.2.2⟩
          · exact hu
          · exact cancelSchedule_inBypass hu
      · refine inAnyOrder_reaches (g := cancelSchedule) (P := fun _ => True) (Q := fun u => u.fcu.schedule =
            none) (by simp) trivial (fun _ _ _ _ => trivial) (fun u _ => cancelSchedule_none u) ?_
        intro g hg u _ hu
        simp [membershipActs] at hg
        rcases hg with rfl | rfl | rfl
        · exact hu
        · exact hu
        · exact cancelSchedule_none u
  · rw [if_neg hf, List.append_nil]
    set t := (s.adoptRecord b).enter (stationAdopted s.stc.station) with ht
    have hst : t.stc.station = .bypass ∨ (t.stc.station = .tripped ∧ s.stc.station = .tripped) := by
      rw [ht]
      rcases hs : s.stc.station <;> simp [hs] at h hf ⊢ <;> simp [stationAdopted]
    have hfix : ∀ u : State, u.stc = t.stc → u.fcu = t.fcu → u.straps = t.straps → u.bypassLit = t.isMember →
        Agreed u := by
      intro u h1 h2 h3 h4
      refine ⟨⟨?_, ?_, ?_, ?_⟩, ?_⟩
      · rw [h1]; intro hh
        have := k.hold hh
        rcases hst with h' | h'
        · rw [ht, this] at h'; cases h'
        · exact h'.1
      · rw [h1]; intro _; rcases hst with h' | h'
        · exact .inl h'
        · exact .inr h'.1
      · rw [h1]; intro h'; rw [h'] at hst; simp at hst
      · rw [h4, isMember_eq, isMember_eq, h1, h3]
      · rw [h2, h1]; intro hs
        rcases k.schedule hs with h' | h'
        · exact absurd h' hf
        · right; refine ⟨?_, h'.2⟩
          rw [ht, h'.1]; rfl
    have hl : t.bypassLit = s.isMember := k.lit
    cases hw : s.isMember <;> cases hm : t.isMember
    · refine hfix _ rfl rfl rfl ?_
      show t.bypassLit = _
      rw [hl, hw, hm]
    · have := inAnyOrder_reaches (s := t) (fs := membershipActs false true) (g := lcaAdoption)
          (P := fun u => u.stc = t.stc ∧ u.fcu = t.fcu ∧ u.straps = t.straps)
          (Q := fun u => u.bypassLit = true) (by simp [membershipActs]) ⟨rfl, rfl, rfl⟩ ?_ ?_ ?_
      · have h2 := inAnyOrder_keeps (s := t) (fs := membershipActs false true)
          (P := fun u => u.stc = t.stc ∧ u.fcu = t.fcu ∧ u.straps = t.straps) ⟨rfl, rfl, rfl⟩ (by
            intro g hg u hu
            simp [membershipActs] at hg
            rcases hg with rfl | rfl <;> exact hu)
        exact hfix _ h2.1 h2.2.1 h2.2.2 (this.trans hm.symm)
      · intro g hg u hu
        simp [membershipActs] at hg
        rcases hg with rfl | rfl <;> exact hu
      · intro u _; exact bypassLit_adoption u
      · intro g hg u _ hu
        simp [membershipActs] at hg
        rcases hg with rfl | rfl
        · exact bypassLit_adoption u
        · exact hu
    · refine hfix _ rfl rfl rfl ?_
      rw [hm]; exact bypassLit_ceasing _
    · refine hfix _ rfl rfl rfl ?_
      rw [hm]; exact bypassLit_adoption _

theorem takeBypass_agreed (b) : KeepsAgreement (takeBypass cancelSchedule b) := fun s k => by
  unfold takeBypass
  split
  · exact k
  split
  · exact k
  rename_i h
  split
  · exact adoptBypass_agreed k ⟨fun e => h (.inl e), fun e => h (.inr (.inl e)), fun e => h (.inr (.inr e))⟩
  · exact k.congr (modeView_recordFault _ _)
  · exact k

/-! ### Firing, reference event and deliveries -/

theorem lmonFiring_agreed (t) : KeepsAgreement (lmonFiring t) := fun s k => by
  unfold lmonFiring
  refine Agreed.congr (modeView_onLmon _ _) ?_
  split
  · exact k
  · exact cycleMark_agreed _ _ k

theorem lmonReference_agreed (z) : KeepsAgreement (lmonReference z) := fun s k => by
  unfold lmonReference
  refine Agreed.congr (modeView_onLmon _ _) ?_
  split
  · exact k
  · exact cycleMark_agreed _ _ k

/-- A change of the FCU while the station fires or holds. -/
theorem onFcu_agreed {s : State} {f : Fcu → Fcu} (k : Agreed s)
    (h : (f s.fcu).schedule.isSome = true → s.fcu.schedule.isSome = true ∨ s.firingOrHold = true) : Agreed
        (s.onFcu f) :=
  ⟨⟨k.hold, k.record, k.fired, k.lit⟩, fun hs => by
    rcases h hs with h' | h'
    · exact k.schedule h'
    · simp only [State.firingOrHold, State.inHold, Bool.or_eq_true, Bool.and_eq_true, decide_eq_true_eq] at h'
      rcases h' with h' | h'
      · exact .inl h'
      · exact .inr h'.1⟩

theorem fcuReference_agreed (e) : KeepsAgreement (fcuReference e) := fun s k => by
  unfold fcuReference
  split
  · rename_i h; exact onFcu_agreed k fun _ => .inr h
  · exact k

theorem fcuPredecessor_agreed (i) : KeepsAgreement (fcuPredecessor i) := fun s k => by
  unfold fcuPredecessor
  split
  · rename_i h
    split
    · exact onFcu_agreed k fun _ => .inl (by simp [h])
    · exact k
  all_goals exact k

theorem cruReference_agreed : KeepsAgreement cruReference := fun s k => by
  unfold cruReference
  simp only
  split
  · exact takeFault_agreed _ _ (k.same rfl)
  · exact k.same rfl

theorem stcReference_agreed : KeepsAgreement stcReference := .of_view fun _ => rfl

theorem referenceReceivers_agreed (e) : ∀ f ∈ referenceReceivers e, KeepsAgreement f := by
  intro f hf
  simp only [referenceReceivers, List.mem_cons, List.not_mem_nil, or_false] at hf
  rcases hf with rfl | rfl | rfl | rfl
  · exact fcuReference_agreed _
  · exact lmonReference_agreed _
  · exact cruReference_agreed
  · exact stcReference_agreed

theorem lockTest_agreed (was s) : ∀ f ∈ lockTest was s, KeepsAgreement f := by
  intro f hf
  unfold lockTest at hf
  split at hf
  · simp at hf
  · simp at hf; subst hf; exact surveyTest_agreed

theorem enterFree_agreed : KeepsAgreement enterFree := fun s k => surveyTest_agreed _ (k.congr (modeView_onAru s _))

theorem lossActs_agreed (n) : ∀ f ∈ lossActs n, KeepsAgreement f := by
  intro f hf
  unfold lossActs at hf
  split at hf
  · simp at hf
    rcases hf with rfl | rfl
    · exact enterFree_agreed
    · exact takeFault_agreed _
  · simp at hf

theorem acceptCrossing_agreed (t) : KeepsAgreement (acceptCrossing t) := fun s k => by
  unfold acceptCrossing
  simp only
  refine inAnyOrder_agreed ?_ _ (k.congr (modeView_onAru s _))
  intro f hf
  rcases List.mem_append.mp hf with hf | hf
  · exact referenceReceivers_agreed _ f hf
  · exact lockTest_agreed _ _ f hf

theorem declareMiss_agreed : KeepsAgreement declareMiss := fun s k => by
  unfold declareMiss
  simp only
  refine inAnyOrder_agreed ?_ _ (k.congr (modeView_onAru s _))
  intro f hf
  rcases List.mem_append.mp hf with hf | hf
  · rcases List.mem_append.mp hf with hf | hf
    · exact referenceReceivers_agreed _ f hf
    · exact lockTest_agreed _ _ f hf
  · exact lossActs_agreed _ f hf

theorem takeCrossing_agreed (t) : KeepsAgreement (takeCrossing t) := fun s k => by
  unfold takeCrossing
  split
  · exact inTurn_agreed (lockTest_agreed _ _) _ (k.congr (modeView_onAru s _))
  · exact inTurn_agreed (lockTest_agreed _ _) _ (k.congr (modeView_onAru s _))
  · split
    · exact acceptCrossing_agreed t s k
    · exact k.congr (modeView_onAru s _)
  · split
    · exact acceptCrossing_agreed t s k
    · exact k.congr (modeView_onAru s _)

theorem judgeFiring_agreed (clean) : KeepsAgreement (judgeFiring clean) := fun s k => by
  unfold judgeFiring; split <;> exact k.same rfl

theorem cruFiring_agreed (f) : KeepsAgreement (cruFiring f) := fun s k => by
  have k' : Agreed ((watchFiring f s).onCru Cru.consumed) := k.same rfl
  have rest : ∀ g ∈ [assignFn (nextFn s.cru), judgeFiring (cleanFiring s.cru), originateFire f s.cru],
      KeepsAgreement g := by
    intro g hg
    simp only [List.mem_cons, List.not_mem_nil, or_false] at hg
    rcases hg with rfl | rfl | rfl
    · exact fun u ku => ku.same rfl
    · exact judgeFiring_agreed _
    · exact .of_view fun u => modeView_originate _ _ _ _
  unfold cruFiring
  simp only
  split
  · refine inTwoStreams_agreed ?_ _ k'
    intro g hg
    rcases List.mem_append.mp hg with hg | hg
    · exact rest g hg
    · rw [List.mem_singleton.mp hg]; exact takeFault_agreed _
  · exact inTurn_agreed rest _ k'

theorem fireAt_agreed (f) : KeepsAgreement (fireAt f) := fun s k => by
  unfold fireAt
  refine inAnyOrder_agreed ?_ _ (onFcu_agreed k (by simp))
  intro g hg
  simp only [List.mem_cons, List.not_mem_nil, or_false] at hg
  rcases hg with rfl | rfl | rfl
  · exact .of_view modeView_lcaFiring
  · exact lmonFiring_agreed _
  · exact cruFiring_agreed _

theorem enterFiring_agreed {s : State} (k : Agreed s) (h : s.stc.station = .blocked) : Agreed (enterFiring s) := by
  have hr := k.recordNone (by simp [h]) (by simp [h])
  have hh := k.holdOff (by simp [h])
  refine ⟨⟨?_, ?_, fun _ => rfl, k.lit⟩, fun _ => .inl rfl⟩
  · intro h'; change s.stc.holdRunning = true at h'; rw [hh] at h'; cases h'
  · intro h'; change s.stc.record.isSome = true at h'; rw [hr] at h'; cases h'

theorem stcBlock_agreed : KeepsAgreement stcBlock := fun s k => by
  have hx : ∀ t : State, t.stc.record = none → t.bypassLit = false → t.bypassLit = t.isMember := fun t h1 h2 => by
    rw [h2, notMember h1]
  unfold stcBlock
  split
  · rename_i h; exact blockFromFiring_agreed cancelSchedule_well k h
  · rename_i h
    have hh := k.holdOff (by simp [h])
    refine ⟨⟨?_, ?_, (fun h => by cases h), hx _ rfl (bypassLit_exit s)⟩, ?_⟩
    · intro h'; change s.stc.holdRunning = true at h'; rw [hh] at h'; cases h'
    · intro h'; cases h'
    · intro hs
      rcases k.schedule hs with h' | h'
      · rw [h] at h'; cases h'
      · rw [h] at h'; cases h'.1
  · rename_i h
    simp only
    split
    · refine cancelSchedule_well _ ⟨?_, ?_, ?_, hx _ rfl (bypassLit_exit s)⟩ ?_
      · intro h'; cases h'
      · intro h'; cases h'
      · intro h'; change s.stc.station = .firing at h'; rw [h] at h'; cases h'
      · intro h'; change s.stc.station = .firing at h'; rw [h] at h'; cases h'
    · rename_i h2
      refine ⟨⟨fun _ => h, ?_, ?_, hx _ rfl (bypassLit_exit s)⟩, k.schedule⟩
      · intro h'; cases h'
      · intro h'; change s.stc.station = .firing at h'; rw [h] at h'; cases h'
  all_goals exact k

theorem stcCommand_agreed (c) : KeepsAgreement (stcCommand c) := fun s k => by
  cases c with
  | hold => exact k
  | deblock =>
    show Agreed (stcDeblock s)
    unfold stcDeblock
    split
    · rename_i h
      simp only [acceptsDeblock, Bool.and_eq_true, decide_eq_true_eq] at h
      exact enterFiring_agreed k h.1.1
    · exact k
  | block => exact stcBlock_agreed s k
  | bypassBlock =>
    show Agreed (stcBypassBlock s)
    unfold stcBypassBlock
    split
    · exact takeBypass_agreed _ _ (k.congr (modeView_originate _ _ _ _))
    · exact k
  | clear =>
    show Agreed (stcClear s)
    unfold stcClear
    split
    · exact k.same rfl
    · exact k

theorem resetStaleness_view (s : State) : (resetStaleness s).modeView = s.modeView := by
  unfold resetStaleness; split <;> rfl

theorem cruOrder_agreed (c o) : KeepsAgreement (cruOrder c o) := fun s k => by
  unfold cruOrder
  split
  · exact k.same rfl
  split
  · exact k
  · have k' : Agreed (resetStaleness (handAngle o.alpha (s.onCru fun c =>
        { c with activeSource := some o.origin }))) :=
      Agreed.congr (resetStaleness_view _) (k.same rfl)
    unfold decideCommand
    split
    · exact k'
    · exact stcCommand_agreed c _ (k'.same rfl)

theorem cruFire_agreed (f) : KeepsAgreement (cruFire f) := fun s k => by
  unfold cruFire
  split
  · have k' : Agreed (s.onCru fun c => c.onPeer f.origin fun p => { p with fire := some f.fn }) := k.same rfl
    simp only
    split
    · split
      · unfold predecessorFire
        split
        · unfold currentFire; simp only
          refine fcuPredecessor_agreed _ _ ?_
          split
          · exact takeFault_agreed _ _ (k'.same rfl)
          · exact k'.same rfl
        · exact takeFault_agreed _ _ (k'.same rfl)
        · exact k'.same rfl
      · exact k'
    · split
      · unfold bridgePredecessorFire; split
        · exact k'.same rfl
        · exact k'
      · split
        · unfold startRequest; split
          · exact k'.congr (modeView_lcaCompanion _)
          · exact k'
        · exact k'
  · exact k

theorem cruHealth_agreed (q i) : KeepsAgreement (cruHealth q i) := fun s k => by
  unfold cruHealth
  split
  · simp only
    split
    · unfold measureMu; split
      · split <;> exact k.same rfl
      · exact k.same rfl
    · exact k.same rfl
  · exact k

theorem delivered_agreed {c q act} (h : KeepsAgreement act) : KeepsAgreement (delivered c q act) := fun s k => by
  unfold delivered
  simp only
  split
  · exact h _ (k.same rfl)
  · exact k.same rfl

theorem healthChanged_agreed (p w) : KeepsAgreement (healthChanged p w) := fun s k => by
  unfold healthChanged
  split
  · exact surveyTest_agreed _ (takeFault_agreed _ _ k)
  · exact surveyTest_agreed _ (k.same rfl)
  all_goals exact k

theorem stcSettings_agreed (q r) : KeepsAgreement (stcSettings q r) := fun s k => by
  unfold stcSettings
  split
  · exact k
  split
  · exact k.same rfl
  split
  · exact k
  · exact takeFault_agreed _ _ k

theorem cruQuery_agreed (q a b) : KeepsAgreement (cruQuery q a b) := fun s k => by
  unfold cruQuery
  split
  · exact k
  split
  · unfold originateReport; exact k.congr (modeView_originate _ _ _ _)
  · exact k.same rfl

theorem arrive_view (p run) (s : State) : (arrive p run s).modeView = s.modeView := by
  unfold arrive
  split
  · split
    · split
      · unfold routeCopy
        split
        · rfl
        split
        · rfl
        · simp only
          split
          · rfl
          · unfold windowStep
            split
            · rfl
            · rfl
            · unfold deliverCopy; split <;> rfl
      · rfl
    · rfl
  · rfl

theorem takeIndication_agreed (i c t) : KeepsAgreement (takeIndication takeFault i c t) := fun s k => by
  unfold takeIndication
  simp only
  split
  · exact handEvent_agreed takeFault_agreed _ _ (k.congr (modeView_onLmon _ _))
  · exact k.congr (modeView_onLmon _ _)

theorem onPosition_agreed {q : Nat} {u t : State} (h : Agreed u) (e : onPosition q u = .next t) : Agreed t := by
  unfold onPosition at e
  split at e
  · cases e; exact h
  · cases e

end Sys2Proof.Machine
end

