-- ==== Sys2Proof/Laws/Queues.lean ====
section
/-! SUPPORT. The transmit queue (section 5.4): where an entry is placed, and that placing or replacing one keeps a
queue in the order of priority, within eight entries and with at most one HEALTH. -/

namespace Sys2Proof.Machine

/-! ### Placing by priority (R95) -/

/-- In a queue in order, an entry is placed after every entry of its own or a higher priority. -/
theorem insertByPriority_eq (e : QueueEntry) (l : List QueueEntry)
    (h : l.Pairwise fun x y => x.kind.priority ≤ y.kind.priority) :
    insertByPriority e l =
      (l.filter fun x => x.kind.priority ≤ e.kind.priority) ++
        e :: (l.filter fun x => e.kind.priority < x.kind.priority) := by
  induction l with
  | nil => rfl
  | cons x l ih =>
    rw [List.pairwise_cons] at h
    unfold insertByPriority
    by_cases hx : e.kind.priority < x.kind.priority
    · rw [if_pos hx]
      have h1 : (l.filter fun y => y.kind.priority ≤ e.kind.priority) = [] := by
        rw [List.filter_eq_nil_iff]; intro y hy; have := h.1 y hy; simp; omega
      have h2 : (l.filter fun y => e.kind.priority < y.kind.priority) = l := by
        rw [List.filter_eq_self]; intro y hy; have := h.1 y hy; simp; omega
      simp [hx, h1, h2]
    · rw [if_neg hx, ih h.2]
      have : x.kind.priority ≤ e.kind.priority := by omega
      simp [hx, this]

theorem insertByPriority_perm (e : QueueEntry) (l : List QueueEntry) : (insertByPriority e l).Perm (e :: l) := by
  induction l with
  | nil => exact .refl _
  | cons x l ih =>
    unfold insertByPriority; split
    · exact .refl _
    · exact (ih.cons x).trans (.swap _ _ _)

theorem insertByPriority_sorted (e : QueueEntry) (l : List QueueEntry)
    (h : l.Pairwise fun x y => x.kind.priority ≤ y.kind.priority) :
    (insertByPriority e l).Pairwise fun x y => x.kind.priority ≤ y.kind.priority := by
  rw [insertByPriority_eq e l h, List.pairwise_append, List.pairwise_cons]
  refine ⟨h.filter _, ⟨?_, h.filter _⟩, ?_⟩
  · intro y hy; have := (List.mem_filter.mp hy).2; simp at this; omega
  · intro x hx y hy
    have h1 := (List.mem_filter.mp hx).2; simp at h1
    rcases List.mem_cons.mp hy with rfl | hy
    · exact h1
    · have h2 := (List.mem_filter.mp hy).2; simp at h2; omega

/-! ### The one HEALTH of a queue (R96) -/

theorem replaceHealth_some {e x : QueueEntry} {l a b : List QueueEntry} (h : l = a ++ x :: b) (hx : x.kind = .health)
    (ha : ∀ y ∈ a, y.kind ≠ .health) : replaceHealth e l = some (a ++ e :: b) := by
  subst h
  induction a with
  | nil => simp [replaceHealth, hx]
  | cons y a ih =>
    have hy := ha y (by simp)
    simp [replaceHealth, hy, ih (fun z hz => ha z (by simp [hz]))]

theorem replaceHealth_none {e : QueueEntry} {l : List QueueEntry} (h : ∀ y ∈ l, y.kind ≠ .health) :
    replaceHealth e l = none := by
  induction l with
  | nil => rfl
  | cons y a ih =>
    have hy := h y (by simp)
    simp [replaceHealth, hy, ih (fun z hz => h z (by simp [hz]))]

/-- A queue with at most one HEALTH has none before it and none after it. -/
theorem health_alone {x : QueueEntry} {l a b : List QueueEntry} (h : l = a ++ x :: b) (hx : x.kind = .health)
    (hc : (l.filter fun x => x.kind = .health).length ≤ 1) :
    (∀ y ∈ a, y.kind ≠ .health) ∧ ∀ y ∈ b, y.kind ≠ .health := by
  subst h
  rw [List.filter_append, List.length_append, List.filter_cons, if_pos (by simp [hx]), List.length_cons] at hc
  constructor
  · intro y hy hh
    have : y ∈ a.filter fun x => x.kind = .health := by simp [hy, hh]
    have := List.length_pos_of_mem this
    omega
  · intro y hy hh
    have : y ∈ b.filter fun x => x.kind = .health := by simp [hy, hh]
    have := List.length_pos_of_mem this
    omega

theorem health_or_none (l : List QueueEntry) :
    (∀ y ∈ l, y.kind ≠ .health) ∨ ∃ a x b, l = a ++ x :: b ∧ x.kind = .health := by
  by_cases h : ∀ y ∈ l, y.kind ≠ .health
  · exact .inl h
  · push Not at h
    obtain ⟨y, hy, hk⟩ := h
    obtain ⟨a, b, hab⟩ := List.append_of_mem hy
    exact .inr ⟨a, y, b, hab, hk⟩

/-! ### Entering a queue (R95 to R97) -/

/-- Placing an entry keeps the queue in order and changes the queue and the counts alone. -/
theorem place_ordered (p : RingPort) (e : QueueEntry) (h : QueueOrdered p.queue) (hl : p.queue.length ≤ 8)
    (hh : e.kind ≠ .health ∨ ∀ x ∈ p.queue, x.kind ≠ .health) :
    QueueOrdered (p.place e).queue ∧ (p.place e).queue.length ≤ 8 ∧
      p.place e = { p with queue := (p.place e).queue, counts := (p.place e).counts } := by
  have hins : ∀ l : List QueueEntry, QueueOrdered l → (e.kind ≠ .health ∨ ∀ x ∈ l, x.kind ≠ .health) →
      QueueOrdered (insertByPriority e l) := by
    intro l hl hh
    refine ⟨insertByPriority_sorted _ _ hl.priority, ?_⟩
    rw [((insertByPriority_perm e l).filter _).length_eq, List.filter_cons]
    rcases hh with hh | hh
    · simp [hh]; exact hl.health
    · have : (l.filter fun x => x.kind = .health) = [] := by simpa using hh
      split
      · rw [List.length_cons, this]; simp
      · rw [this]; simp
  have hsub : ∀ l : List QueueEntry, l.Sublist p.queue → QueueOrdered l := fun l hs =>
    ⟨h.priority.sublist hs, ((hs.filter _).length_le).trans h.health⟩
  unfold RingPort.place
  split
  · refine ⟨hins _ h hh, ?_, rfl⟩
    show (insertByPriority e p.queue).length ≤ 8
    rw [(insertByPriority_perm e _).length_eq]; simp; omega
  · split
    · exact ⟨h, hl, rfl⟩
    · split
      · have hs := List.dropLast_sublist p.queue
        refine ⟨hins _ (hsub _ hs) (hh.imp id fun h x hx => h x (hs.subset hx)), ?_, rfl⟩
        show (insertByPriority e p.queue.dropLast).length ≤ 8
        rw [(insertByPriority_perm e _).length_eq]; simp; omega
      · exact ⟨h, hl, rfl⟩

theorem place_health (p : RingPort) (e : QueueEntry) : (p.place e).health = p.health := by
  unfold RingPort.place; split
  · rfl
  · split
    · rfl
    · split <;> rfl

/-- An origination leaves the health of a ring alone. -/
theorem enqueue_health (p : RingPort) (e : QueueEntry) : (p.enqueue e).health = p.health := by
  unfold RingPort.enqueue; split
  · split
    · rfl
    · exact place_health _ _
  · exact place_health _ _

end Sys2Proof.Machine
end

