-- ==== Sys2Proof/Tests/Slice0.lean ====
section
/-! SUPPORT. The writer's own tests: each check of WellFormed refuses an ill-formed term, the spec's worked examples
come out as the spec prints them, and every statement with hypotheses has states that meet them. -/

namespace Sys2Proof.Tests

open Sys2Proof Sys2Proof.Machine

-- One theorem at a time: kernel evaluations of a hundred theorems side by side take a thread each.
set_option Elab.async false

/-! ### WellFormed -/

/-- An ORDER from station 13. -/
def order (origin controlId alpha : Nat) : Order :=
  { origin := origin, active := true, controlId := controlId, number := 7, alpha := alpha }

theorem test_wellFormed_positions :
    (Instr.report 0).wellFormed = false ∧ (Instr.report 15).wellFormed = false ∧
      (Instr.peerLost 15).wellFormed = false ∧ (Instr.hold (order 0 0 0)).wellFormed = false ∧
      (Instr.report 1).wellFormed = true ∧ (Instr.report 14).wellFormed = true := by decide +kernel

theorem test_wellFormed_emptyRun :
    (Instr.telegramArrival .a []).wellFormed = false ∧ (Instr.telegramArrival .a [0]).wellFormed = true :=
        by decide +kernel

theorem test_wellFormed_controlId :
    (Instr.hold (order 13 16 0)).wellFormed = false ∧ (Instr.hold (order 13 15 0)).wellFormed = true :=
        by decide +kernel

theorem test_wellFormed_hops :
    (Instr.ownTelegramReturn .a 0 0 16 0).wellFormed = false ∧
      (Instr.ownTelegramReturn .a 0 0 15 0).wellFormed = true := by decide +kernel

theorem test_wellFormed_oneByte :
    (Instr.cfail 1 256 0).wellFormed = false ∧ (Instr.cfail 1 0 256).wellFormed = false ∧
      (Instr.query 13 256 0).wellFormed = false ∧ (Instr.query 13 0 256).wellFormed = false ∧
      (Instr.bypass { origin := 1, fn := 0, star := 256, delta := 1, cause := 0 }).wellFormed = false ∧
      (Instr.cfail 1 255 255).wellFormed = true := by decide +kernel

theorem test_wellFormed_twoBytes :
    (Instr.margin 1 65536).wellFormed = false ∧ (Instr.hold (order 13 13 65536)).wellFormed = false ∧
      (Instr.ownTelegramReturn .a 0 65536 0 0).wellFormed = false ∧
      (Instr.settings 13 { gammaMin := 65536, gammaAlarm := 0, gain := 1, modes := 0 }).wellFormed = false ∧
      (Instr.fire { origin := 1, fn := 0, alphaF := 65536, start := false, instant := none }).wellFormed = false ∧
      (Instr.margin 1 65535).wellFormed = true := by decide +kernel

/-! ### Worked examples of the spec -/

/-- No row of the table has bits, so no word spells a command. -/
theorem test_decode_none : decodeTableWord 32 0 = none ∧ decodeTableWord 0 0 = none := ⟨rfl, rfl⟩

/-- Chapter 0, R2: position 9 stands in leg 2; 1 and 7, 4 and 10, 6 and 12 share a leg. -/
theorem test_legIndex :
    legIndex 9 = 2 ∧ legIndex 1 = 1 ∧ legIndex 7 = 1 ∧ legIndex 4 = 2 ∧ legIndex 10 = 2 ∧ legIndex 6 = 3 ∧
      legIndex 12 = 3 := by decide +kernel

/-- Chapters 3 and 4: ticks(500) and ticks(1500) at T_MAX, ticks(16500) at 60 Hz nominal, angle(16722) and
angle(55011) at 50 Hz nominal. -/
theorem test_conversions :
    ticks 222300 500 = 3087 ∧ ticks 166667 16500 = 76389 ∧ ticks 222300 1500 = 9262 ∧ angle 200000 16722 = 3009 ∧
      angle 200000 55011 = 9901 := by decide +kernel

/-- The reference unit of chapter 3's acquisition at 50 Hz, as the first crossing at 100,000 leaves it. -/
def acquiring : Aru := (Aru.resetWith .hz50 true).firstCrossing 100000

/-- Chapter 3, acquisition at 50 Hz: T_est and the good count after each crossing, and the lock at the fourth. -/
theorem test_acquisition :
    let a := acquiring.acquiringCrossing 300100
    let b := a.acquiringCrossing 500150
    let c := b.acquiringCrossing 700260
    acquiring.lock = .acquiring ∧ (a.period, a.goodCount) = (200100, 1) ∧ (b.period, b.goodCount) = (200094, 2) ∧
      (c.period, c.goodCount, c.lock, c.zRef, c.zPred) = (200096, 3, .locked, 700260, 900356) ∧
      b.blanking = some 550173 ∧ c.window = some { opens := 894798, closes := 902023 } := by decide +kernel

/-- The reference unit of chapter 3's locked sequence before its first crossing. -/
def lockedAt : Aru :=
  { Aru.resetWith .hz50 true with lock := .locked, zRef := 1000000, zPred := 1200000 }

/-- Chapter 3, an accepted crossing late and one early. -/
theorem test_acceptedCrossings :
    let a := lockedAt.accept 1200840
    let b := a.accept 1399900
    (a.period, a.zRef, a.zPred) = (200105, 1200210, 1400315) ∧
      a.window = some { opens := 1394757, closes := 1401982 } ∧
      (b.period, b.zRef, b.zPred) = (200054, 1400212, 1600266) ∧
      b.window = some { opens := 1594709, closes := 1601933 } := by decide +kernel

/-- Chapter 3, the miss and the recovery that follow. -/
theorem test_missAndRecovery :
    let m := ((lockedAt.accept 1200840).accept 1399900).missed
    let r := m.accept 1800600
    (m.lock, m.period, m.zRef, m.zPred, m.missCount) = (.holdover, 200054, 1600266, 1800320, 1) ∧
      m.window = some { opens := 1794763, closes := 1801987 } ∧
      (r.lock, r.period, r.zRef, r.zPred, r.missCount) = (.locked, 200089, 1800390, 2000479, 0) := by decide +kernel

/-- A station in a state, at a station time, with the straps of `State.reset` and NLEV taken. -/
def inState (st : Station) (now : StationTime) : State :=
  { State.reset with
    now := now
    stc := { Stc.reset.enter st with fired := decide (st = .firing) }
    lmon := { Lmon.reset with counted := 80 } }

/-- A FIRING station with chapter 4's order, advance, overlap and predecessor instant. -/
def ordered (alphaReq advance mu gammaMin : Nat) (p : Option StationTime) : State :=
  let s := inState .firing 0
  { s with
    fcu := { s.fcu with alphaReq := alphaReq }
    stc := { s.stc with gammaMin := gammaMin, gammaAlarm := max 2200 (gammaMin + 200) }
    cru := { s.cru with
      muLast := mu
      advances := if advance = 0 then [] else [{ source := 1, kind := .margin, magnitude := advance, hold := 8 }]
      predecessor := p.map fun t => { fn := 0, instant := some t, replaced := false } } }

/-- Chapter 4, the computation at 50 Hz, with the predecessor at 1,060,500 and at 1,068,000. -/
theorem test_computation :
    let e : ReferenceEvent := { accepted := true, zRef := 1000000, period := 200000, missCount := 0 }
    let a := ordered 14500 600 2300 1700 (some 1060500)
    let b := ordered 14500 600 2300 1700 (some 1068000)
    computedAngle a = 13900 ∧
      computedSchedule e a =
        { firing := 1077222, unguarded := 1077222, step := 11111, cap := 8333, provisional := false } ∧
      (computedSchedule e b).firing = 1079111 := by decide +kernel

/-- Chapter 4, figures at the limits: the smallest angle, the limit binding, the largest angle capped. -/
theorem test_limits :
    let e (z : StationTime) (t : Nat) : ReferenceEvent :=
      { accepted := false, zRef := z, period := t, missCount := 0 }
    computedSchedule (e 10000000 153800) (ordered 2000 3000 2000 1700 none) =
        { firing := 10002136, unguarded := 10002136, step := 8544, cap := 6408, provisional := true } ∧
      (computedSchedule (e 0 200000) (ordered 16500 0 6000 3000 none)).firing = 50000 ∧
      (computedSchedule (e 20000000 222300) (ordered 16500 0 0 1000 (some 20099000))).firing = 20111149 :=
          by decide +kernel

/-- Chapter 4, a provisional instant moved by the predecessor. -/
theorem test_recomputed :
    let c : Schedule := { firing := 3050000, unguarded := 3050000, step := 11111, cap := 8333, provisional := true }
    (c.recomputed 3043900).firing = 3055011 ∧ (c.recomputed 3043900).provisional = false := by decide +kernel

/-- Chapter 5, the window of one origin: the outcome of each arrival that passes the check code. -/
theorem test_window :
    let w253 : SeenWindow :=
      { highest := 253, seen := [253, 251, 250, 249, 248, 247, 246, 245, 244, 243, 242, 241, 240, 239, 238] }
    judgeSequence (some { highest := 251, seen := w253.seen.drop 1 ++ [237, 236] }) 253 = .accepted w253 ∧
      judgeSequence (some { highest := 251, seen := w253.seen.drop 1 ++ [237, 236] }) 251 = .duplicate ∧
      judgeSequence (some w253) 252 = .accepted { highest := 253, seen := 252 :: w253.seen } ∧
      judgeSequence (some w253) 253 = .duplicate ∧ judgeSequence (some w253) 200 = .stale ∧
      judgeSequence (some w253) 100 = .accepted { highest := 100, seen := [100] } := by decide +kernel

/-- Chapter 5: the ages and hops of the FIRE at stations 9 and 6. -/
theorem test_forwardedAges :
    let x : Telegram :=
      { kind := 2, origin := 5, sequence := 37, timed := true, hops := 1, age := 14, payload := [0, 0, 0, 0, 0] }
    forwardedAge { telegram := x, stamp := 2500300 } 2500326 = 40 ∧
      forwardedAge { telegram := { x with hops := 2, age := 40 }, stamp := 7000050 } 7000098 = 88 := by decide +kernel

/-- Chapter 7, a round trip on ring A: d_meas 46, d_est from 50 to 49. -/
theorem test_roundTrip :
    let e : Outstanding := { sequence := 37, departure := 1000014, initialAge := 14, expiry := 1020014 }
    measuredDelay e 382 12 1000980 = 46 ∧ hopDelayAfter 50 46 = 49 := by decide +kernel

/-- Chapter 6: the twelve bytes of the HEALTH of position 3. -/
theorem test_healthPayload :
    let s := inState .firing 0
    let up : RingPort := { RingPort.reset with health := .up }
    healthPayload { s with
        lmon := { s.lmon with phase := .recovery, failed := 1, suspects := 2 }
        aru := { s.aru with lock := .locked }
        rif := { s.rif with portA := up, portB := up }
        cru := { s.cru with gammaLast := 1900, muLast := 2300 } } =
      [20, 14, 1, 2, 0x07, 0x6C, 0x08, 0xFC, 0, 0, 0, 0] := by decide +kernel

/-- Chapter 6: entry 3 and entry 5 of the level page of a twelve-level valve. -/
theorem test_levelEntries :
    let s := inState .blocked 0
    let ten : Level := { Level.reset with state := .suspect, score := 6, pfCount := 1, lastAnomaly := .pf }
    let u : State :=
      { s with
        straps := { s.straps with nlev := 12 }
        lmon := { s.lmon with levels := s.lmon.levels.set 10 ten } }
    levelEntry u 10 = [0xA6, 0x14] ∧ levelEntry u 12 = [0, 0] := by decide +kernel

/-- Chapter 9: γ of the worked firing cycle, μ of the translated XT, and the request of 600 it makes. -/
theorem test_marginAndOverlap :
    measuredGamma 200000 5046230 5056786 = some 1900 ∧ measuredMu 200000 (some 1077222) (some 1090000) = some 2300 ∧
      marginMagnitude Stc.reset 1900 = 600 := by decide +kernel

/-- Chapter 9, a margin alarm through decay: the list after the own request of 200, and reference event 12. -/
theorem test_advances :
    let own (m h : Nat) : Advance := { source := 6, kind := .margin, magnitude := m, hold := h }
    let nine (m h : Nat) : Advance := { source := 9, kind := .margin, magnitude := m, hold := h }
    enterRequest [own 600 5, nine 300 7] (own 200 8) = [own 600 8, nine 300 7] ∧
      decayAdvances [own 600 0, nine 150 0] = [own 450 0] ∧ decayAdvances [own 150 0] = [] := by decide +kernel

/-- Chapter 9: the history of the overdue extinction, and the numbers that end the fifty cycles. -/
theorem test_history :
    historyEntered [4130, 4142] 4190 = [4130, 4142, 4190] ∧ repeated [4130, 4142, 4190, 4730] = true ∧
      repeated [4130, 4142, 4190, 4731] = false ∧ repeated [4130, 4142, 4190] = false := by decide +kernel

/-! ### Witnesses: the queue, the tick and the start -/

theorem witness_StepTakesTheFrontCommand :
    ({ State.reset with pending := [.miss, .startExit] } : State).pending = .miss :: [.startExit] := rfl

/-- Nothing is due at reset, and START_EXIT is at tick 1000, not at 999. A blanking interval or a busy link that ends at
the new tick is over, one that ends a tick later stands. -/
theorem witness_EmptyQueuePostsWhatIsDueOrTicks :
    (State.reset.pending = [] ∧ dueCommands State.reset = []) ∧
      (inState .start 1000).pending = [] ∧ dueCommands (inState .start 1000) = [.startExit] ∧
      dueCommands (inState .start 999) = [] ∧ heldUntil 8 (some 8) = none ∧ heldUntil 8 (some 9) = some 9 := by
  decide +kernel

/-- A station in START at tick 1000 with these straps. -/
def starting (pos nlev red : Nat) (f : NominalFrequency) : State :=
  { inState .start 1000 with straps := { pos := pos, nlev := nlev, red := red, nomf := f } }

/-- Straps at the ends of their ranges are valid, and one past an end are not. -/
theorem witness_StartEndsAtTick1000 :
    (starting 1 8 1 .hz50).stc.station = .start ∧ (starting 1 8 1 .hz50).now = 1000 ∧
      validStraps (starting 1 8 1 .hz50).straps = true ∧ validStraps (starting 12 80 8 .hz60).straps = true ∧
      validStraps (starting 13 80 8 .hz60).straps = false ∧ validStraps (starting 1 8 2 .hz50).straps = false ∧
      validStraps (starting 1 7 1 .hz50).straps = false ∧ validStraps (starting 1 8 1 .neither).straps = false := by
  decide +kernel

/-- What a station in START has heard is gone in INERT and stays in SURVEY (R135, R171). -/
theorem test_leaveStart_peers :
    let heard13 := fun s : State => { s with cru := s.cru.onPeer 13 fun p => { p with presence := .present } }
    (leaveStart (heard13 (starting 13 80 8 .hz60))).cru = Cru.reset ∧
      ((leaveStart (heard13 (starting 12 80 8 .hz60))).cru.peer 13).presence = .present := by decide +kernel

/-! ### Witnesses: level channels and valve events -/

/-- The channel 0 of a station in this condition. -/
def withChannel (s : State) (c : Channel) : State :=
  { s with lca := { s.lca with channels := s.lca.channels.set 0 c } }

/-- A pulse that began at 5000 stands on channel 0 and is `w` ticks old. -/
def pulse (st : Station) (w : Nat) : State :=
  withChannel (inState st (5000 + BitVec.ofNat 32 w)) { input := true, classifier := .measuring 5000 }

/-- Channel 0 recovers since 5000, `d` ticks ago. -/
def recovering (st : Station) (d : Nat) : State :=
  withChannel (inState st (5000 + BitVec.ofNat 32 d)) { input := false, classifier := .recovering 5000 }

theorem witness_RisingEdgeStartsAMeasurement :
    ((recovering .survey 20).channel 0).input = false ∧ ((recovering .survey 19).channel 0).input = false ∧
      (recovering .survey 20).live 0 = true ∧ ((inState .start 0).channel 0).input = false ∧
      (inState .start 0).live 0 = false := by decide +kernel

/-- A rising edge 19 ticks into a recovery leaves the channel STUCK, one at 20 starts a measurement (R18). -/
theorem test_risingEdge_boundary :
    (((recovering .survey 19).channel 0).rising true 5019).classifier = .stuck ∧
      (((recovering .survey 20).channel 0).rising true 5020).classifier = .measuring 5020 := by decide +kernel

theorem witness_BadPulseCountsAgainstItsLevelAlone :
    ∀ w ∈ [1, 2, 3, 5, 15, 23, 37, 49, 71, 1000],
      Measuring (pulse .blocked w) 0 5000 ∧ ((pulse .blocked w).now - 5000).toNat = w := by
  unfold Measuring; decide +kernel

/-- A measurement 1000 ticks old; a STUCK channel with its input high; a dark channel and one with its input low; and a
recovery 20 ticks old. -/
theorem witness_StuckChannelReportsOnceAndRecovers :
    (Measuring (pulse .firing 1000) 0 5000 ∧ (pulse .firing 1000).now = 5000 + 1000) ∧
      (let s := withChannel (inState .firing 7000) { input := true, classifier := .stuck }
       s.live 0 = true ∧ s.channel 0 = { input := true, classifier := .stuck }) ∧
      (inState .start 0).live 0 = false ∧ ((inState .firing 0).channel 0).input = false ∧
      (recovering .firing 20).live 0 = true ∧
      (recovering .firing 20).channel 0 = { input := false, classifier := .recovering 5000 } ∧
      (recovering .firing 20).now = 5000 + 20 := by
  unfold Measuring; decide +kernel

/-- Levels 1 to 4 in a tally armed at 4000. -/
def fourIn (n : Nat) : Tally :=
  { armed := true, armedAt := 4000
    members := ([1, 2, 3, 4].take n).map fun i => { level := i, stamp := 4500 } }

/-- A FIRING station of eight levels with a pulse on channel 0 and these tallies. -/
def gathering (w : Nat) (phase : ValvePhase) (rv fv pf : Tally) : State :=
  let s := pulse .firing w
  { s with
    straps := { s.straps with nlev := 8, red := 1 }
    lmon := { s.lmon with counted := 8, phase := phase, rv := rv, fv := fv, pf := pf } }

/-- At both ends of each class: a FAILED level; an FV that a disarmed tally does not take; an FV, an RV and a PF one
short of the quorum; and a PF at the quorum outside RECOVERY. -/
theorem witness_ForwardVoltageIsNotedOnItsLevel :
    (let failed : Level := { Level.reset with state := .failed }
     let s := pulse .survey 6
     let t : State := { s with lmon := { s.lmon with levels := s.lmon.levels.set 0 failed } }
     Measuring t 0 5000 ∧ (t.now - 5000).toNat = 6 ∧ (t.level 0).state = .failed) ∧
      (∀ w ∈ [6, 14], Measuring (pulse .survey w) 0 5000 ∧ ((pulse .survey w).now - 5000).toNat = w ∧
        ((pulse .survey w).level 0).state ≠ .failed ∧ (pulse .survey w).lmon.fv.armed = false) ∧
      (∀ w ∈ [6, 14, 24, 36, 50, 70],
        let s := gathering w .recovery (fourIn 3) (fourIn 3) (fourIn 1)
        Measuring s 0 5000 ∧ (s.now - 5000).toNat = w ∧ (s.level 0).state ≠ .failed ∧ s.lmon.counted = 8 ∧
          (∀ y ∈ [s.lmon.rv, s.lmon.fv, s.lmon.pf],
            y.armed = true ∧ 0 ≤ ((5000 : StationTime) - y.armedAt).toInt ∧ ∀ m ∈ y.members, m.level ≠ 0) ∧
          3 + 1 ≠ s.lmon.counted / 2 + 1 ∧ 1 + 1 ≠ s.lmon.counted / 4 + 1) ∧
      (gathering 50 .reverse Tally.reset (fourIn 3) (fourIn 2)).lmon.phase ≠ .recovery := by
  unfold Measuring; decide +kernel

/-- In CONDUCTING and in FORWARD, in FIRING and in BYPASS, at both ends of the class. -/
theorem witness_ReverseVoltageQuorumIsAnExtinction :
    ∀ w ∈ [24, 36], ∀ phase ∈ [ValvePhase.conducting, .forward], ∀ st ∈ [Station.firing, .bypass],
      let u := gathering w phase (fourIn 4) Tally.reset Tally.reset
      let s : State := { u with stc := u.stc.enter st }
      Measuring s 0 5000 ∧ (s.now - 5000).toNat = w ∧ (s.level 0).state ≠ .failed ∧ s.stc.station = st ∧
        s.lmon.phase = phase ∧ s.lmon.rv.armed = true ∧ 0 ≤ ((5000 : StationTime) - s.lmon.rv.armedAt).toInt ∧
        (∀ m ∈ s.lmon.rv.members, m.level ≠ 0) ∧ s.lmon.rv.members.length + 1 = s.lmon.counted / 2 + 1 := by
  unfold Measuring; decide +kernel

/-- A γ of 2199 alarms by the default settings and one of 2200 does not; a γ start after the stamp and none; and the
quorum in REVERSE. -/
theorem witness_ForwardVoltageQuorumMeasuresTheMargin :
    (∀ x ∈ [(6, 12222, 2199), (14, 12223, 2200)],
      let s := gathering x.1 .recovery Tally.reset (fourIn 4) Tally.reset
      let g : StationTime := 5000 - BitVec.ofNat 32 x.2.1
      let t : State := { s with cru := { s.cru with gammaStart := some g } }
      Measuring t 0 5000 ∧ (t.now - 5000).toNat = x.1 ∧ (t.level 0).state ≠ .failed ∧ t.stc.station = .firing ∧
        t.lmon.phase = .recovery ∧ t.lmon.fv.armed = true ∧ 0 ≤ ((5000 : StationTime) - t.lmon.fv.armedAt).toInt ∧
        (∀ m ∈ t.lmon.fv.members, m.level ≠ 0) ∧ t.lmon.fv.members.length + 1 = t.lmon.counted / 2 + 1 ∧
        t.cru.gammaStart = some g ∧ 0 ≤ (5000 - g).toInt ∧
        x.2.2 = min 36000 ((5000 - g).toInt.toNat * 36000 / t.aru.period) ∧ 1 ≤ t.stc.gain) ∧
      ((5000 : StationTime) - 5001).toInt < 0 ∧
      (gathering 6 .recovery Tally.reset (fourIn 4) Tally.reset).cru.gammaStart = none ∧
      let s := gathering 6 .reverse Tally.reset (fourIn 4) Tally.reset
      Measuring s 0 5000 ∧ s.lmon.phase = .reverse ∧ s.lmon.fv.armed = true ∧
        s.lmon.fv.members.length + 1 = s.lmon.counted / 2 + 1 := by
  unfold Measuring; decide +kernel

/-- A history with room, one that holds the own number already, and a full one whose oldest entry leaves for it with
601 firings between its ends. -/
theorem witness_ProtectiveQuorumIsACommutationFailure :
    ∀ w ∈ [50, 70],
      ∀ h ∈ [([4130, 4142], [4130, 4142, 4190]), ([4130, 4190], [4130, 4190]),
        ([3000, 3589, 4142, 4154], [3589, 4142, 4154, 4190])],
      let s := gathering w .recovery Tally.reset (fourIn 4) (fourIn 2)
      let t : State := { s with cru := { s.cru with cfHistory := h.1.map (BitVec.ofNat 16), ownFn := 4190 } }
      Measuring t 0 5000 ∧ (t.now - 5000).toNat = w ∧ (t.level 0).state ≠ .failed ∧ t.lmon.phase = .recovery ∧
        t.lmon.pf.armed = true ∧ 0 ≤ ((5000 : StationTime) - t.lmon.pf.armedAt).toInt ∧
        (∀ m ∈ t.lmon.pf.members, m.level ≠ 0) ∧ t.lmon.pf.members.length + 1 = t.lmon.counted / 4 + 1 ∧
        t.cru.cfHistory.length ≤ 4 ∧
        historyEntered t.cru.cfHistory t.cru.ownFn = h.2.map (BitVec.ofNat 16) ∧
        (t.cru.ownFn ∈ t.cru.cfHistory ∨ repeated (h.2.map (BitVec.ofNat 16)) = false) ∧
        600 < ((4190 : FiringNumber) - 3589).toNat := by
  unfold Measuring; decide +kernel

/-- A FIRING station at the fallback instant of an open reference cycle. -/
def atFallback : State :=
  let s := inState .firing 50000
  { s with lmon := { s.lmon with markTaken := false, fallback := some 50000, quorumXt := true } }

/-- An eight-level station at its fallback instant in this phase with these tallies, the level 5 about to fail. -/
def marking (st : Station) (phase : ValvePhase) (rv fv pf : Tally) : State :=
  let s := inState st 50000
  let failing : Level := { Level.reset with state := .suspect, score := 15 }
  { s with
    straps := { s.straps with nlev := 8, red := 1 }
    lmon := { s.lmon with
      counted := 8, markTaken := false, fallback := some 50000, quorumXt := true, phase := phase, rv := rv, fv := fv
      pf := pf, levels := s.lmon.levels.set 5 failing } }

/-- The level 5 fails at the mark: with RED 1 the redundancy is at its LAST, and EXHAUSTED with RED 0. The quorum falls
from 5 to 4, so a tally of four levels raises its event, in each phase of it; one of three raises none. The smaller
quorum falls from 3 to 2. A station in SURVEY makes its test. -/
theorem witness_FallbackInstantTakesTheCycleMark :
    (∀ st ∈ [Station.firing, .survey, .blocked],
      ∀ x ∈ [(ValvePhase.conducting, 4, 0, 0), (.forward, 4, 0, 0), (.recovery, 0, 4, 0), (.reverse, 0, 4, 0),
        (.recovery, 0, 3, 2), (.conducting, 3, 0, 0)],
      let s := marking st x.1 (if x.2.1 = 0 then Tally.reset else fourIn x.2.1)
        (if x.2.2.1 = 0 then Tally.reset else fourIn x.2.2.1) (if x.2.2.2 = 0 then Tally.reset else fourIn x.2.2.2)
      s.lmon.markTaken = false ∧ s.lmon.fallback = some s.now ∧ s.fcu.schedule = none ∧ s.stc.station = st ∧
        (s.lmon.judged s.straps).counted = 7 ∧ (s.lmon.judged s.straps).redundancy = .last ∧
        s.lmon.redundancy = .normal ∧ (s.lmon.judged { s.straps with red := 0 }).redundancy = .exhausted ∧
        ((s.lmon.judged s.straps).levels.get 5).state = .failed) ∧
      atFallback.lmon.markTaken = false ∧ atFallback.lmon.fallback = some atFallback.now ∧
      atFallback.fcu.schedule = none ∧
      (atFallback.lmon.judged atFallback.straps).redundancy = atFallback.lmon.redundancy := by decide +kernel

/-- A station in SURVEY at its mark in this phase, its PF tally armed with one level: no level UNKNOWN, the reference
LOCKED and ring A UP. -/
def surveying (phase : ValvePhase) (red : Nat) : State :=
  let s := marking .survey phase Tally.reset Tally.reset (fourIn 1)
  let levels := s.lmon.levels.map fun l => if l.state = .unknown then { l with state := .healthy } else l
  { s with
    straps := { s.straps with red := red }
    lmon := { s.lmon with levels := levels }
    aru := lockedAt
    rif := { s.rif with portA := { s.rif.portA with health := .up } } }

/-- The tests of R172 at a mark with the PF tally armed: BLOCKED with RED 1, where the level 5 leaves it at LAST, and
TRIPPED with RED 0. The tally is not at its quorum of 2, in RECOVERY and outside it. -/
theorem witness_FallbackInstantTakesTheCycleMark_survey :
    ∀ phase ∈ [ValvePhase.forward, .recovery, .reverse], ∀ red ∈ [0, 1],
      let s := surveying phase red
      let m := s.lmon.judged s.straps
      s.stc.station = .survey ∧ s.lmon.markTaken = false ∧ s.lmon.fallback = some s.now ∧ s.fcu.schedule = none ∧
        (s.stc.fault .redundancyLow).mode = .report ∧ (s.stc.fault .redundancyExhausted).mode = .trip ∧
        s.lmon.pf.armed = true ∧ s.lmon.pf.members.length < m.counted / 4 + 1 ∧ m.unknowns = 0 ∧
        s.aru.lock = .locked ∧ s.rif.portA.health = .up ∧
        m.redundancy = (if red = 0 then .exhausted else .last) := by decide +kernel

/-- A protective firing raised at a mark that makes four failures in fifty cycles raises the fault, which the Station
Controller takes on its own: none with three failures, or without the firing (R163, R191). -/
theorem test_failureFault :
    let s := inState .firing 0
    let u : State := { s with cru := { s.cru with cfHistory := [1, 2, 3], ownFn := 601 } }
    failureFault [.xt 0 .recovery, .pfq 0] u = [.commutationFailureRepeated] ∧ failureFault [.xt 0 .recovery] u = [] ∧
      failureFault [.pfq 0] { u with cru := { u.cru with ownFn := 602 } } = [] ∧ failureFault [.pfq 0] s = [] := by
  decide +kernel

/-- A judged record of each kind: one that is FAILED, and one that is not, on the last live level. -/
theorem witness_CycleMarkScoresAndJudgesEachLevel :
    let failed : Level := { Level.reset with state := .failed, score := 16 }
    let s : State :=
      { atFallback with lmon := { atFallback.lmon with levels := atFallback.lmon.levels.set 0 failed } }
    (79 : Fin 80).val < s.straps.nlev ∧ s.lmon.quorumXt = true ∧ (s.level 0).state = .failed ∧
      (s.level 79).state ≠ .failed ∧ s.lmon.markTaken = false ∧ s.lmon.fallback = some s.now ∧
      s.fcu.schedule = none := by decide +kernel

/-- The two examples of R41, a tie, and two kinds by points alone (notes/assumptions/14.md). -/
theorem test_lastAnomaly :
    let f : CycleFlags := { quorumXt := true, quorumFv := false, cf := false }
    let l : Level := { Level.reset with state := .healthy, rvSeen := true }
    ((({ l with pfSeen := true, malformed := 1 } : Level).judged f).lastAnomaly = .pf) ∧
      (({ l with rvSeen := false, alternation := 1 } : Level).judged f).lastAnomaly = .miss ∧
      (({ l with malformed := 1, alternation := 1 } : Level).judged f).lastAnomaly = .malformed ∧
      (({ l with malformed := 1, alternation := 2 } : Level).judged f).lastAnomaly = .alternation ∧
      (({ l with lastAnomaly := .miss } : Level).judged f).lastAnomaly = .miss := by decide +kernel

theorem witness_QuietCycleJudgesNoLevel :
    (inState .firing 0).lmon.quorumXt = false ∧ (inState .firing 0).lmon.quorumFv = false ∧
      (79 : Fin 80).val < (inState .firing 0).straps.nlev := by decide +kernel

/-- A miss of 4 points on top of a score of 12 makes a level FAILED, on top of 11 SUSPECT (R39, R42). -/
theorem test_judged_boundary :
    let f : CycleFlags := { quorumXt := true, quorumFv := false, cf := false }
    (({ Level.reset with score := 12 } : Level).judged f).state = .failed ∧
      (({ Level.reset with score := 11 } : Level).judged f).state = .suspect := by decide +kernel

/-! ### Witnesses: the reference -/

/-- A station with this reference unit. -/
def withAru (st : Station) (now : StationTime) (a : Aru) : State := { inState st now with aru := a }

/-- The synchronising input low and high, before the start and in SURVEY with a blanking interval that stands and one
that is over. -/
theorem witness_SyncEdgesStartAndForgetAQualification :
    (inState .start 0).aru.input = false ∧ (inState .survey 0).aru.input = false ∧
      (withAru .survey 100 { Aru.resetWith .hz50 true with blanking := some 101 }).aru.input = true ∧
      (Aru.resetWith .hz50 true).blanked 100 = false ∧
      ({ Aru.resetWith .hz50 true with blanking := some 101 } : Aru).blanked 100 = true ∧
      ({ Aru.resetWith .hz50 true with blanking := some 100 } : Aru).blanked 100 = false := by decide +kernel

/-- A second high sample is no rising edge: the qualification that began at 100 goes on (R44). -/
theorem test_highSample_isNoEdge :
    let s := syncRising (withAru .survey 100 (Aru.resetWith .hz50 false))
    s.aru.qualifier = some 100 ∧ (syncRising { s with now := 120 }).aru.qualifier = some 100 ∧
      (syncRising (withAru .survey 100 (Aru.resetWith .hz50 true))).aru.qualifier = none := by decide +kernel

theorem witness_AcquisitionBeginsAndTimesOut :
    (let s := withAru .survey 100049 { Aru.resetWith .hz50 true with qualifier := some 100000 }
     s.aru.lock = .free ∧ Qualifies s 100000) ∧
      (let s := withAru .survey 544600 acquiring
       s.aru.lock = .acquiring ∧ s.aru.previous = some 100000 ∧ s.now = 100000 + 444600) := by
  unfold Qualifies; decide +kernel

/-- Measured periods at both ends of the range and one past each, at the first and at the third good measurement. -/
theorem witness_AcquisitionMeasuresThePeriod :
    ∀ x ∈ [(153800, 0), (222300, 0), (153799, 0), (222301, 0), (153800, 2), (222300, 2)],
      let t : StationTime := 100000 + BitVec.ofNat 32 x.1
      let s := withAru .survey (t + 49) { acquiring with goodCount := x.2, qualifier := some t }
      s.aru.lock = .acquiring ∧ Qualifies s t ∧ s.aru.previous = some 100000 ∧ (t - 100000).toInt = x.1 ∧
        s.aru.goodCount ≤ 2 ∧ PeriodInBounds s := by
  unfold Qualifies PeriodInBounds; decide +kernel

/-- The reference unit of chapter 3 in LOCKED or HOLDOVER with the window [1,194,445, 1,201,666] and an edge at `t`
that has stood 50 ticks. -/
def crossing (lock : LockState) (st : Station) (t : StationTime) : State :=
  withAru st (t + 49)
    { lockedAt with
      lock := lock, qualifier := some t, window := some { opens := 1194445, closes := 1201666 } }

theorem witness_StrayCrossingIsOnlyCounted :
    ∀ n ∈ [1194444, 1201667],
      let t : StationTime := BitVec.ofNat 32 n
      let s := crossing .holdover .firing t
      s.aru.lock = .holdover ∧ Qualifies s t ∧ s.aru.window = some { opens := 1194445, closes := 1201666 } ∧
        ¬(0 ≤ (t - 1194445).toInt ∧ 0 ≤ (1201666 - t).toInt) := by
  unfold Qualifies; decide +kernel

/-- A station in the isolation hold at this count. -/
def holding (count : Nat) (s : State) : State :=
  { s with stc := { s.stc.enter .tripped with holdRunning := true, holdCount := count } }

/-- At both ends of the window, in FIRING and in the hold before and at its last count. -/
theorem witness_AcceptedCrossingFollowsTheVoltage :
    ∀ n ∈ [1194445, 1201666],
      let t : StationTime := BitVec.ofNat 32 n
      let s := crossing .locked .firing t
      s.aru.lock = .locked ∧ Qualifies s t ∧ s.aru.window = some { opens := 1194445, closes := 1201666 } ∧
        0 ≤ (t - 1194445).toInt ∧ 0 ≤ (1201666 - t).toInt ∧ s.lmon.markTaken = true ∧ s.cru.staleness < 49 ∧
        s.stc.station = .firing ∧ (holding 9 s).inHold = true ∧ (holding 10 s).inHold = true ∧
        (holding 9 s).stc.holdCount < 10 ∧ (holding 10 s).stc.holdCount = 10 := by
  unfold Qualifies; decide +kernel

/-- Orders lost at the event: staleness 49 before it, an active source, in FIRING and in BYPASS,
each in the modes BLOCK and REPORT; and a crossing with no orders to lose. -/
theorem witness_AcceptedCrossingFollowsTheVoltage_lost :
    (∀ st ∈ [Station.firing, .bypass], ∀ m ∈ [FaultMode.block, .report],
      let s := crossing .locked st 1194445
      let u : State := { s with
        cru := { s.cru with staleness := 49, activeSource := some 13 }
        stc := s.stc.onFault .orderLost fun f => { f with mode := m } }
      u.aru = s.aru ∧ u.lmon.markTaken = true ∧ 49 ≤ u.cru.staleness ∧ u.stc.station = st ∧
        u.cru.activeSource.isSome = true ∧ u.cru.lostSignalled = false ∧ (u.stc.fault .orderLost).mode = m ∧
        u.stc.holdRunning = false) ∧
      (crossing .locked .firing 1194445).cru.staleness = 0 := by decide +kernel

/-- A crossing that finds the mark of a quiet cycle pending: no level fails, no tally is at its quorum, and
the redundancy state stays; in FIRING, and in SURVEY with HOLDOVER becoming LOCKED. -/
theorem witness_ReferenceEventTaken_pending :
    ∀ st ∈ [Station.firing, .survey, .blocked],
      let s : State := { crossing .holdover st 1194445 with
        lmon := { (inState st 0).lmon with
          markTaken := false, rv := fourIn 4, phase := .conducting, unknowns := 80 } }
      s.lmon.markTaken = false ∧ s.MarkRaisesNoEvent false ∧ (s.lmonMarked false).redundancy = s.lmon.redundancy ∧
        (s.lmonMarked false).unknowns = s.lmon.unknowns ∧ s.losesOrders = false ∧ s.stc.station = st ∧
        s.stc.holdRunning = false := by
  unfold State.MarkRaisesNoEvent State.lmonMarked
  simp only [cycleMark_lmon]
  decide +kernel

/-- A station at the end of its window with this many misses behind it. -/
def closing (misses : Nat) : State :=
  withAru .firing 1201666
    { lockedAt with
      lock := .holdover, missCount := misses, window := some { opens := 1194445, closes := 1201666 } }

/-- At W1, and 49 ticks later where a qualification under way at W1 has failed. -/
theorem witness_MissProjectsTheZero :
    let s := closing 10
    s.aru.lock = .holdover ∧ s.aru.window = some { opens := 1194445, closes := 1201666 } ∧
      (s.now - 1201666).toNat = 0 ∧ ({ s with now := s.now + 49 }.now - 1201666).toNat = 49 ∧
      s.aru.qualifier = none ∧ s.aru.missCount < 11 ∧ s.lmon.markTaken = true ∧ s.cru.staleness < 49 ∧
      s.stc.station = .firing ∧ (holding 9 s).inHold = true ∧ (holding 10 s).inHold = true := by decide +kernel

/-- A station with an empty record, no schedule and no hold is consistent in its mode. -/
theorem consistent_of {s : State} (h1 : s.fcu.schedule = none) (h2 : s.stc.holdRunning = false)
    (h3 : s.stc.record = none) (h4 : s.stc.station ≠ .firing ∨ s.stc.fired = true) : ModeConsistent s :=
  ⟨by simp [h1], by simp [h2], by simp [h3], fun h => h4.resolve_left (by simp [h])⟩

theorem witness_TwelfthMissLosesTheReference :
    let s := closing 11
    s.aru.lock = .holdover ∧ s.aru.window = some { opens := 1194445, closes := 1201666 } ∧ s.now = 1201666 ∧
      s.aru.qualifier = none ∧ s.aru.missCount = 11 ∧ ModeConsistent s ∧ s.stc.holdRunning = false ∧
      (s.stc.fault .referenceLost).mode = .block :=
  ⟨by decide +kernel, by decide +kernel, by decide +kernel, by decide +kernel, by decide +kernel,
    consistent_of (by decide +kernel) (by decide +kernel) (by decide +kernel) (by decide +kernel), by decide +kernel,
    by decide +kernel⟩

/-- The twelfth miss 49 ticks after W1, a qualification for an edge past the window under way, before the fallback instant
a quarter period after the projected zero: in BLOCKED, and in the isolation hold before its last count. -/
theorem witness_TwelfthMissLosesTheReference_late :
    (∀ st ∈ [Station.firing, .blocked, .bypass],
      let c := closing 11
      let s : State :=
        { c with now := c.now + 49, stc := c.stc.enter st, aru := { c.aru with qualifier := some 1201667 } }
      (s.now - 1201666).toNat = 49 ∧ ¬(0 ≤ ((1201667 : StationTime) - 1194445).toInt ∧
          0 ≤ ((1201666 : StationTime) - 1201667).toInt) ∧
        (s.now - (s.aru.zPred + BitVec.ofNat 32 (9000 * s.aru.period / 36000))).toInt < 0 ∧
        s.lmon.markTaken = true ∧ s.losesOrders = false ∧ s.stc.station = st) ∧
      (holding 9 (closing 11)).inHold = true ∧ ModeConsistent (holding 9 (closing 11)) :=
  ⟨by decide +kernel, by decide +kernel,
    ⟨fun h => absurd h (by decide +kernel), fun _ => by decide +kernel, fun h => absurd h (by decide +kernel),
      fun h => absurd h (by decide +kernel)⟩⟩

theorem witness_PeriodEstimateStaysInBounds :
    PeriodInBounds State.reset ∧ ∃ t, step State.reset = .next t :=
  ⟨by unfold PeriodInBounds; decide +kernel, _, rfl⟩

theorem witness_AngleAndTicksRoundDown :
    ∀ period ∈ [153800, 222300], 153800 ≤ period ∧ period ≤ 222300 := by decide +kernel

/-! ### Witnesses: the firing -/

/-- The predecessor at the boundaries of the guard of chapter 4: P + s at F0, one later, at F0 + c, one later. -/
theorem witness_SpacingGuardHoldsTheFiringBehindItsPredecessor :
    let e : ReferenceEvent := { accepted := true, zRef := 1000000, period := 200000, missCount := 0 }
    ∀ x ∈ [((1066111 : StationTime), (0 : Int)), (1066112, 1), (1074444, 8333), (1074445, 8334)],
      let s := ordered 14500 600 2300 1700 (some x.1)
      s.cru.predecessor = some { fn := 0, instant := some x.1, replaced := false } ∧ 153800 ≤ e.period ∧
        e.period ≤ 222300 ∧
        (x.1 + BitVec.ofNat 32 (computedSchedule e s).step - (computedSchedule e s).unguarded).toInt = x.2 ∧
        s.stc.station = .firing ∧ (holding 3 s).inHold = true ∧ SettingsInRange s.stc ∧ 500 ≤ s.fcu.alphaReq ∧
        s.fcu.alphaReq ≤ 16500 ∧ s.cru.muLast ≤ 6000 := by
  unfold SettingsInRange; decide +kernel

theorem witness_FiringIsScheduledFromTheReferenceZero :
    ∀ x ∈ [(500, 3000, 6000, 3000), (16500, 0, 0, 1000)],
      let s := ordered x.1 x.2.1 x.2.2.1 x.2.2.2 none
      SettingsInRange s.stc ∧ 500 ≤ s.fcu.alphaReq ∧ s.fcu.alphaReq ≤ 16500 ∧
        s.cru.muLast ≤ 6000 ∧ s.stc.station = .firing ∧ s.cru.predecessor = none ∧
        ({ s.cru with
          predecessor := some { fn := 3, instant := none, replaced := true } } : Cru).predecessor.bind
            (fun x => x.instant) = none := by
  unfold SettingsInRange; decide +kernel

/-- A FIRING station at its firing instant 3,055,011, with this predecessor record. -/
def atFiring (x : Option Predecessor) : State :=
  let s := inState .firing 3055011
  { s with
    fcu :=
      { alphaReq := 9000, previous := some 2855200, lastAlpha := some 9000
        schedule := some
          { firing := 3055011, unguarded := 3050000, step := 11111, cap := 8333, provisional := false } }
    cru := { s.cru with predecessor := x, ownFn := 500 } }

/-- A clean record and a replaced one. -/
def predecessor (replaced : Bool) : Predecessor := { fn := 511, instant := some 3043900, replaced := replaced }

/-- With a record and without; and without one at a miss count of 2, whose rise to 3 raises PEER_SILENT. -/
theorem witness_FiringInstantIsMade :
    (∀ x ∈ [none, some (predecessor false)],
      (atFiring x).fcu.schedule.map (fun c => c.firing) = some (atFiring x).now) ∧
      (atFiring none).cru.predecessor = none ∧
      raisesSilent { (atFiring none).cru with missCount := 2 } = true ∧
      raisesSilent { (atFiring none).cru with missCount := 1 } = false := by decide +kernel

/-- The same with the cycle mark pending, at which the level 5 fails: the RV tally of three levels stays short of the
quorum of 4, and with RED 1 the redundancy enters LAST. -/
def atPendingFiring (x : Option Predecessor) : State :=
  let s := atFiring x
  let u := marking .firing .conducting (fourIn 3) Tally.reset Tally.reset
  { s with straps := u.straps, lmon := u.lmon }

/-- With a clean record, a replaced one and none, before a third miss too. -/
theorem witness_FiringLightsTheValveAndTellsTheGroup :
    ∀ x ∈ [none, some (predecessor false), some (predecessor true)],
      let s := atPendingFiring x
      s.fcu.schedule.map (fun c => c.firing) = some s.now ∧ s.fcu.lastAlpha = some 9000 ∧ s.stc.station = .firing ∧
        s.lmon.markTaken = false ∧ s.MarkRaisesNoEvent true ∧ s.lmon.redundancy ≠ .last ∧
        (s.lmonMarked true).redundancy = .last ∧ (s.stc.fault .redundancyLow).mode = .report ∧
        (s.stc.fault .peerSilent).mode = .report := by
  unfold State.MarkRaisesNoEvent State.lmonMarked
  simp only [cycleMark_lmon]
  decide +kernel

/-- A normal train in MAIN that began at 1,000,000. -/
def train : Train := { phase := .main, start := 1000000, origin := 1000100, kind := .normal 1083333 1000000 }

/-- A FIRING station with this train. -/
def lit (now : StationTime) (r : Train) : State :=
  let s := inState .firing now
  { s with lca := { s.lca with train := some r } }

theorem witness_TrainMovesOnAndEnds :
    ((lit 1000099 train).lca.train = some train ∧ train.phase = .main ∧ (lit 1000099 train).firingOutput 0 = true) ∧
      ((lit 1000100 train).lca.train = some train ∧ (lit 1000100 train).now = train.origin) ∧
      ((lit 1000100 { train with kind := .bypass }).now = train.origin) ∧
      (train.kind = .normal (lit 1083333 train).now 1000000) ∧
      ({ train with phase := .refresh } : Train).phase ≠ .main ∧
      0 ≤ ((lit 1000100 { train with phase := .refresh }).now - train.origin).toInt := by decide +kernel

/-- In REFRESH the light stands for the first 20 ticks of each 500 from m (R6, R7). -/
theorem test_refresh_pattern :
    let r : Train := { train with phase := .refresh }
    trainLit (some r) 1000600 = true ∧ trainLit (some r) 1000619 = true ∧ trainLit (some r) 1000620 = false := by
  decide +kernel

/-- Chapter 9's overdue extinction, with this history before it and the deadline 3,177,300 reached. -/
def overdue (history : List FiringNumber) (fn : FiringNumber) : State :=
  let s := inState .firing 3177300
  { s with
    cru := { s.cru with
      watch := some { deadline := 3177300, firing := 3077300 }, cfHistory := history, ownFn := fn } }

/-- A history with room, one that holds the own number, and a full one that does not repeat with it. -/
theorem witness_OverdueExtinctionIsACommutationFailure :
    ∀ h ∈ [[4130, 4142], [4130, 4190], [3000, 3589, 4142, 4154]],
      let s := overdue (h.map (BitVec.ofNat 16)) 4190
      s.cru.watch = some { deadline := 3177300, firing := 3077300 } ∧ s.now = 3177300 ∧
        s.cru.cfHistory.length ≤ 4 ∧ s.stc.station ≠ .start ∧ s.stc.station ≠ .inert ∧
        (s.cru.ownFn ∈ s.cru.cfHistory ∨ repeated (historyEntered s.cru.cfHistory s.cru.ownFn) = false) := by
  decide +kernel

/-- A history of three, and one of four whose oldest leaves, the distance at 600; by the overdue watch, and by a PF that
completes the smaller quorum. -/
theorem witness_FourFailuresInFiftyCyclesTrip :
    ∀ h ∈ [[(4130 : FiringNumber), 4142, 4190], [9, 4130, 4142, 4190]],
      let s := overdue h 4730
      let g := gathering 70 .recovery Tally.reset (fourIn 4) (fourIn 2)
      let u : State := { g with cru := s.cru }
      s.cru.watch = some { deadline := 3177300, firing := 3077300 } ∧ s.now = 3177300 ∧
        s.cru.cfHistory.drop (h.length - 3) = [4130, 4142, 4190] ∧ s.cru.ownFn ∉ s.cru.cfHistory ∧
        (s.cru.ownFn - 4130).toNat = 600 ∧ s.stc.station = .firing ∧
        (s.stc.fault .commutationFailureRepeated).mode = .trip ∧ s.stc.record = none ∧ s.fcu.schedule = none ∧
        Measuring u 0 5000 ∧ (u.now - 5000).toNat = 70 ∧ (u.level 0).state ≠ .failed ∧ u.lmon.phase = .recovery ∧
        u.lmon.pf.armed = true ∧ 0 ≤ ((5000 : StationTime) - u.lmon.pf.armedAt).toInt ∧
        (∀ m ∈ u.lmon.pf.members, m.level ≠ 0) ∧ u.lmon.pf.members.length + 1 = u.lmon.counted / 4 + 1 ∧
        u.stc.station ≠ .start ∧ u.stc.station ≠ .inert ∧
        (u.stc.fault .commutationFailureRepeated).mode = .trip := by
  unfold Measuring; decide +kernel

/-- A full advance list with a hold and a magnitude at each end of its range. -/
def fullAdvances : List Advance :=
  [ { source := 1, kind := .cfail, magnitude := 3000, hold := 20 },
    { source := 2, kind := .margin, magnitude := 1, hold := 0 },
    { source := 3, kind := .margin, magnitude := 600, hold := 8 },
    { source := 4, kind := .margin, magnitude := 150, hold := 1 } ]

/-- A request of a source the list holds, one with room for it, and into the full list one that displaces the second
entry, the smallest, and one that does not. -/
theorem witness_RequestsNeverLowerTheAdvance :
    AdvancesInRange fullAdvances ∧ AdvancesInRange [] ∧ 1 ≤ 1 ∧ 3000 ≤ 3000 ∧ 20 ≤ 20 ∧
      fullAdvances.map (fun x => x.source) = [1, 2, 3, 4] ∧
      fullAdvances.map (fun x => x.magnitude) = [3000, 1, 600, 150] ∧
      ([] : List Advance).length < 4 ∧ fullAdvances.length = 4 ∧ 1 < 2 ∧ ¬1 < 1 :=
  ⟨⟨by decide +kernel, by decide +kernel, by decide +kernel, by decide +kernel⟩,
    ⟨by decide +kernel, by decide +kernel, by decide +kernel, by decide +kernel⟩, by decide +kernel,
    by decide +kernel, by decide +kernel, by decide +kernel, by decide +kernel, by decide +kernel, by decide +kernel,
    by decide +kernel, by decide +kernel⟩

/-- The four ways of R166: renewed, entered, displacing the smallest, dropped. -/
theorem test_requests :
    let r (q m : Nat) : Advance := { source := q, kind := .margin, magnitude := m, hold := 8 }
    (enterRequest fullAdvances (r 3 200)).map (fun x => (x.source, x.magnitude, x.hold)) =
        [(1, 3000, 20), (2, 1, 0), (3, 600, 8), (4, 150, 1)] ∧
      (enterRequest fullAdvances (r 5 2)).map (fun x => x.source) = [1, 3, 4, 5] ∧
      enterRequest fullAdvances (r 5 1) = fullAdvances ∧ enterRequest [] (r 5 1) = [r 5 1] ∧
      appliedAdvance fullAdvances = 3000 ∧ appliedAdvance [] = 0 := by decide +kernel

/-! ### Witnesses: the rings -/

/-- Bytes with their check code behind them. -/
def coded (l : List Byte) : List Byte := l ++ checkBytes l

/-- A run too short, one too long and one with a wrong code fail the first step. -/
theorem witness_FailedChecksDiscardTheRun_code :
    (List.replicate 7 (0 : Byte)).length < 8 ∧ 25 < (List.replicate 26 (0 : Byte)).length ∧
      checkBytes (List.replicate 6 (0 : Byte)) ≠ [0, 0] := by decide +kernel

/-- A run that passes the first step fails the second by each of its conditions on port A: origin 0, origin 15, a
length field above 17, one that is not that of the run, and the RING flag of port B. -/
theorem witness_FailedChecksDiscardTheRun_format :
    ∀ h ∈ [[(0x20 : Byte), 1, 0, 0, 0, 0], [0x2F, 1, 0, 0, 0, 0], [0x21, 1, 0, 0, 0, 18], [0x21, 1, 0, 0, 0, 1],
        [0x21, 1, 0x40, 0, 0, 0]],
      8 ≤ (coded h).length ∧ (coded h).length ≤ 25 ∧
        checkBytes ((coded h).take ((coded h).length - 2)) = (coded h).drop ((coded h).length - 2) ∧
        ((h.getD 0 0).toNat % 16 = 0 ∨ (h.getD 0 0).toNat % 16 = 15 ∨ 17 < (h.getD 5 0).toNat ∨
          (h.getD 5 0).toNat + 8 ≠ (coded h).length ∨ (h.getD 2 0).getLsbD 6 = true) := by decide +kernel

/-- A telegram with every field at the low end of its range. -/
def lowTelegram : Telegram :=
  { kind := 0, origin := 1, sequence := 0, timed := false, hops := 0, age := 0, payload := [] }

/-- A telegram with every field at the high end of its range. -/
def highTelegram : Telegram :=
  { kind := 15, origin := 14, sequence := 255, timed := true, hops := 15, age := 65535
    payload := List.replicate 17 255 }

/-- The spec's check value: the code of the bytes 31 to 39 hexadecimal is AEE7 (R107). -/
theorem test_checkCode :
    checkCode [0x31, 0x32, 0x33, 0x34, 0x35, 0x36, 0x37, 0x38, 0x39] = 0xAEE7#16 := by decide +kernel

theorem witness_DepartingTelegramIsReadBackWhole :
    ∀ x ∈ [lowTelegram, highTelegram],
      x.kind < 16 ∧ 1 ≤ x.origin ∧ x.origin ≤ 14 ∧ x.hops < 16 ∧ x.age < 65536 ∧ x.payload.length ≤ 17 := by
  decide +kernel

/-- The station at position 1 receives its own telegram; one of position 14 with hops 15 is an orphan; an INERT
station receives one with hops 0. -/
theorem witness_OwnTelegramsReturnOrphansEndInertForwards :
    ((inState .survey 0).stc.station ≠ .inert ∧ lowTelegram.origin = (inState .survey 0).straps.pos ∧
        (inState .survey 0).straps.pos ≤ 12) ∧
      (¬(highTelegram.origin = (inState .survey 0).straps.pos ∧ (inState .survey 0).straps.pos ≤ 12) ∧
        14 ≤ highTelegram.hops) ∧
      (inState .inert 0).stc.station = .inert ∧ lowTelegram.hops ≤ 13 := by decide +kernel

/-- A station that has heard position 13 up to number 250 of chapter 5's window, 236 of it missing. -/
def hearing13 : State :=
  let s := inState .blocked 0
  let w : SeenWindow := { highest := 250, seen := [250, 249, 235] }
  { s with cru := s.cru.onPeer 13 fun p => { p with window := some w } }

/-- A telegram of position 13 with this number. -/
def from13 (q : Seq) : Telegram :=
  { kind := 9, origin := 13, sequence := q, timed := true, hops := 13, age := 65534
    payload := List.replicate 17 0 }

/-- The number 250 again and the seen 235 are duplicates; 122 and 10 are stale; 251, 121 and the unseen 236 are
accepted; and an origin not heard yet has no window. -/
theorem witness_WindowDecidesWhichCopyIsDelivered :
    (hearing13.cru.peer 13).window = some { highest := 250, seen := [250, 249, 235] } ∧
      (hearing13.cru.peer 14).window = none ∧ hearing13.stc.station ≠ .inert ∧ 13 ≠ hearing13.straps.pos ∧
      (hearing13.port .a).forwarding.length = 0 ∧
      ((hearing13.onPort .a fun r =>
        { r with forwarding := List.replicate 4 { telegram := from13 0, stamp := 0 } }).port .a).forwarding.length = 4 ∧
      (from13 0).hops ≤ 13 ∧
      ((250 : Seq) - 250).toNat = 0 ∧ ((235 : Seq) - 250).toNat = 241 ∧ ((122 : Seq) - 250).toNat = 128 ∧
      ((234 : Seq) - 250).toNat = 240 ∧ ((251 : Seq) - 250).toNat = 1 ∧ ((121 : Seq) - 250).toNat = 127 ∧
      241 ≤ ((236 : Seq) - 250).toNat ∧ (236 : Seq) ∉ [(250 : Seq), 249, 235] ∧
      telegramCommand (from13 251) none = some (.report 13) ∧
      telegramCommand { from13 251 with kind := 10 } none = none := by decide +kernel

/-- A telegram of each kind read by the tables of chapter 6: an ORDER BLOCK and one of command 5, a FIRE, a HEALTH, a
MARGIN, a CFAIL, a BYPASS, a SETTINGS and a QUERY; and two whose length is not that of their kind. The model's reader
and the one of the statements agree on them. -/
theorem test_telegramCommand : ∀ command ∈ [deliveredCommand, telegramCommand],
    let read := fun (kind : Nat) (payload : List Byte) =>
      command { from13 251 with kind := kind, payload := payload } (some 7)
    read 1 [0x8D, 2, 1, 0, 0x38, 0xA4] =
        some (.block { origin := 13, active := true, controlId := 13, number := 256, alpha := 14500 }) ∧
      read 1 [0x0D, 5, 0, 1, 0, 0] =
        some (.hold { origin := 13, active := false, controlId := 13, number := 1, alpha := 0 }) ∧
      read 2 [0x01, 0x02, 0x36, 0x4C, 1] =
        some (.fire { origin := 13, fn := 258, alphaF := 13900, start := true, instant := some 7 }) ∧
      read 3 (List.replicate 12 0) = some (.health 13 (some 7)) ∧ read 4 [0x0B, 0xC1] = some (.margin 13 3009) ∧
      read 5 [2, 4] = some (.cfail 13 2 4) ∧
      read 6 [1, 0, 2, 3, 6] = some (.bypass { origin := 13, fn := 256, star := 2, delta := 3, cause := 6 }) ∧
      read 7 [0x06, 0xA4, 0x08, 0x98, 2, 0x40, 0x01] =
        some (.settings 13 { gammaMin := 1700, gammaAlarm := 2200, gain := 2, modes := 0x4001 }) ∧
      read 8 [1, 11] = some (.query 13 1 11) ∧ read 8 [1, 11, 0] = none ∧ read 9 (List.replicate 16 0) = none := by
  decide +kernel

/-- A FIRING station with this port A, port B UP or DOWN, and the fault modes of reset. -/
def withPorts (a : RingPort) (b : RingHealth) : State :=
  let s := inState .firing 1020014
  { s with rif := { s.rif with portA := a, portB := { RingPort.reset with health := b } } }

/-- The entry of the FIRE of chapter 7. -/
def fire37 : Outstanding := { sequence := 37, departure := 1000014, initialAge := 14, expiry := 1020014 }

/-- A port with that entry alone, in this health and with these runs. -/
def portWith (h : RingHealth) (returns misses : Nat) : RingPort :=
  { RingPort.reset with outstanding := [fire37], health := h, returnRun := returns, missRun := misses }

/-- The third return in a row on a ring that is DOWN, with the other ring UP and DOWN, in FIRING and in SURVEY; one on
a ring that is UP; and a return that nothing matches. -/
theorem witness_MatchedReturnMeasuresItsRing :
    (∀ x ∈ [(RingHealth.down, RingHealth.up), (.down, .down), (.up, .down)],
      let s := withPorts (portWith x.1 2 0) x.2
      (s.port .a).outstanding = [] ++ fire37 :: [] ∧ fire37.sequence = 37 ∧ 65535 ≤ 65535 ∧ 14 ≤ 14 ∧
        (s.port .a).health = x.1 ∧ 2 ≤ (s.port .a).returnRun ∧ (s.port (otherPort .a)).health = x.2 ∧
        (∀ y ∈ (s.port .a).outstanding, y.sequence ≠ 38)) ∧
      (let s := inState .survey 0
       s.stc.station = .survey ∧ s.lmon.redundancy ≠ .exhausted ∧ s.lmon.unknowns = 0 ∧
         (withAru .survey 0 lockedAt).aru.lock = .locked) := by decide +kernel

theorem witness_ExpiryIsAMissingReturn :
    (∀ x ∈ [(RingHealth.down, 3), (.up, 1)],
      let s := withPorts (portWith x.1 0 x.2) .up
      (s.port .a).outstanding = [fire37] ∧ s.now = fire37.expiry ∧
        ((s.port .a).health = .down ∨ (s.port .a).missRun < 2)) ∧
      let s := withPorts (portWith .up 0 2) .up
      (s.port .a).outstanding = [fire37] ∧ s.now = fire37.expiry ∧ (s.port .a).health = .up ∧
        2 ≤ (s.port .a).missRun ∧ (s.port .b).health = .up ∧ s.stc.station ≠ .survey ∧
        (s.stc.fault .ringDegraded).mode = .report := by decide +kernel

/-- A station in this state with this port A, a third miss away from losing ring A, and with RING_DEGRADED in IGNORE. -/
def losing (st : Station) (a : RingPort) (b : RingHealth) : State :=
  let s := withPorts a b
  { s with
    stc := { s.stc.enter st with
      faults := (s.stc.onFault .ringDegraded fun f => { f with mode := .ignore }).faults }
    aru := lockedAt }

/-- A ring lost in SURVEY with the other UP and RING_DEGRADED in IGNORE, LOCKED with no level unknown; and the last one
lost in SURVEY and in BYPASS; by an expiry and by an entry displaced from a full list. -/
theorem witness_RingDownIsPlain :
    (∀ st ∈ [Station.survey, .bypass], ∀ b ∈ [RingHealth.up, .down],
      let s := losing st (portWith .up 0 2) b
      let u := losing st { portWith .up 0 2 with
        busyUntil := none, queue := [{ kind := .health, sequence := 3, payload := [], event := none }]
        outstanding := List.replicate 8 fire37 } b
      (s.port .a).outstanding = [fire37] ∧ s.now = fire37.expiry ∧ (s.port .a).health = .up ∧
        2 ≤ (s.port .a).missRun ∧ (s.port (otherPort .a)).health = b ∧ s.stc.station = st ∧
        s.lmon.unknowns = 0 ∧ s.aru.lock = .locked ∧ (s.stc.fault .ringDegraded).mode = .ignore ∧
        (s.stc.fault .ringLost).mode = .trip ∧ (u.port .a).forwarding = [] ∧ (u.port .a).queue.length = 1 ∧
        8 ≤ (u.port .a).outstanding.length ∧ (u.port .a).health = .up ∧ 2 ≤ (u.port .a).missRun) ∧
      (losing .survey (portWith .up 0 2) .up).RingDownIsPlain (otherPort .a) ∧
      (losing .bypass (portWith .up 0 2) .down).RingDownIsPlain (otherPort .a) :=
  ⟨by decide +kernel, .inr (by decide +kernel), by constructor <;> decide +kernel⟩

/-- A station that has fired FN 500 in position 1 names its own leg in its own bridge, so it is a member. -/
theorem witness_LastRingLostInFiringBeginsTheIsolationHold :
    let s := withPorts (portWith .up 0 2) .down
    let u : State := { s with cru := { s.cru with ownFn := 500, ownFnValid := true } }
    ((s.port .a).outstanding = [fire37] ∧ s.now = fire37.expiry ∧ (s.port .a).health = .up ∧
      2 ≤ (s.port .a).missRun ∧ (s.port .b).health = .down ∧ s.stc.station = .firing ∧
      (s.stc.fault .ringLost).mode = .trip ∧ s.stc.record = none) ∧
      (ownBypass u 6).star = legIndex u.straps.pos ∧
      (u.adoptRecord (ownBypass u 6)).isMember = true := by decide +kernel

/-- An entry of a transmit queue. -/
def queued (k : OwnKind) (q : Seq) : QueueEntry := { kind := k, sequence := q, payload := [], event := none }

theorem witness_ForwardedBeforeOwnDeparture :
    (let s := withPorts { RingPort.reset with
        busyUntil := some 1020014, forwarding := [{ telegram := lowTelegram, stamp := 1020000 }] } .down
     (s.port .a).busyUntil = some s.now ∧
        (s.port .a).forwarding = { telegram := lowTelegram, stamp := 1020000 } :: []) ∧
      ∀ n ∈ [7, 8],
        let s := withPorts { RingPort.reset with
          busyUntil := none, queue := [queued .health 3], outstanding := List.replicate n fire37 } .down
        (s.port .a).busyUntil = none ∧ (s.port .a).forwarding = [] ∧ (s.port .a).queue = queued .health 3 :: [] ∧
          (s.port .a).outstanding.length = n ∧ (s.port .a).health = .down := by decide +kernel

/-- The last ring UP lost in FIRING at a departure from a full list, for a member and for a station that is none. -/
theorem witness_ForwardedBeforeOwnDeparture_hold :
    ∀ own ∈ [true, false],
      let s := withPorts { RingPort.reset with
        busyUntil := none, queue := [queued .health 3], outstanding := List.replicate 8 fire37, health := .up
        missRun := 2 } .down
      let u : State := { s with
        straps := { s.straps with pos := if own then 2 else 3 }, cru := { s.cru with ownFn := 500, ownFnValid := own } }
      (u.port .a).forwarding = [] ∧ (u.port .a).queue = queued .health 3 :: [] ∧
        8 ≤ (u.port .a).outstanding.length ∧ (u.port .a).health = .up ∧ 2 ≤ (u.port .a).missRun ∧
        (u.port (otherPort .a)).health = .down ∧ u.stc.station = .firing ∧ (u.stc.fault .ringLost).mode = .trip ∧
        u.stc.record = none ∧ (u.adoptRecord (ownBypass u 6)).isMember = own := by decide +kernel

/-- A queue of this many BYPASS entries, a HEALTH and a REPORT is in order. -/
theorem witness_queueOrdered (n : Nat) (h : n ∈ [5, 6]) :
    QueueOrdered (List.replicate n (queued .bypass 1) ++ [queued .health 2, queued .report 3]) := by
  simp only [List.mem_cons, List.not_mem_nil, or_false] at h
  rcases h with rfl | rfl <;> exact ⟨by decide +kernel, by decide +kernel⟩

/-- A queue with room, and one of eight whose last is a REPORT: a HEALTH waits in both, and a FIRE is no HEALTH. -/
theorem witness_QueuesKeepTheOrderOfPriority :
    (List.replicate 5 (queued .bypass 1) ++ [queued .health 2, queued .report 3]).length < 8 ∧
      (List.replicate 6 (queued .bypass 1) ++ [queued .health 2, queued .report 3]).length = 8 ∧
      (List.replicate 6 (queued .bypass 1) ++ [queued .health 2]).length = 7 ∧ OwnKind.fire ≠ .health ∧
      (queued .health 2).kind = .health := by decide +kernel

/-! ### Witnesses: peers, orders and deliveries -/

/-- A PRESENT peer at its deadline, in FIRING and in INERT, and one tick before it; and a peer that is SILENT. -/
theorem witness_PeerIsLostAtItsDeadline :
    (∀ st ∈ [Station.firing, .inert], ∀ d ∈ [600000, 600001],
      let s := inState st 600000
      let t : State :=
        { s with cru := s.cru.onPeer 14 fun p => { p with presence := .present, deadline := some (BitVec.ofNat 32 d) } }
      (t.cru.peer 14).presence = .present ∧ (t.cru.peer 14).deadline = some (BitVec.ofNat 32 d) ∧
        peerAbsent 14 t = (st = .firing && d = 600000)) ∧
      ((inState .firing 0).cru.peer 1).presence ≠ .present := by decide +kernel

theorem witness_OrdersAreTakenOncePerKey :
    let s := inState .survey 0
    s.stc.station ≠ .inert ∧ 13 ≠ s.straps.pos ∧ (order 12 12 0).origin ≤ 12 ∧
      (order 13 14 0).controlId ≠ (order 13 14 0).origin ∧ (13 ≤ (order 13 13 0).origin) ∧
      ({ order 13 13 0 with active := false } : Order).active = false ∧ ActiveOrder (order 14 14 0) := by
  unfold ActiveOrder; decide +kernel

/-- A station in this state, LOCKED, whose last executed order is another. -/
def commanded (st : Station) : State :=
  let s := inState st 500000
  { s with
    aru := { s.aru with lock := .locked }
    cru := { s.cru with lastExecuted := some { source := 13, number := 6 } } }

/-- Every station state but INERT, LOCKED, with a new key, nothing scheduled and an empty record. -/
theorem witness_orders :
    ∀ st ∈ [Station.start, .survey, .blocked, .firing, .bypass, .tripped],
      let s := commanded st
      ActiveOrder (order 13 13 9000) ∧ s.stc.station = st ∧ s.stc.station ≠ .inert ∧
        s.cru.lastExecuted ≠ some { source := 13, number := (order 13 13 9000).number } ∧ s.aru.lock = .locked ∧
        s.lmon.redundancy ≠ .exhausted ∧ s.fcu.schedule = none ∧ s.stc.record = none := by
  unfold ActiveOrder; decide +kernel

/-- Such a station with a firing scheduled that lies ahead, at the fallback instant M of its cycle. -/
def scheduled (st : Station) (markTaken : Bool) (M : StationTime) : State :=
  let s := commanded st
  { s with
    fcu := { s.fcu with
      schedule := some { firing := 560000, unguarded := 560000, step := 11111, cap := 8333, provisional := true } }
    lmon := { s.lmon with markTaken := markTaken, fallback := some M } }

/-- A cancellation takes the mark at M, and does not a tick before M or with the mark taken. -/
theorem witness_cancellation :
    ∀ st ∈ [Station.firing, .tripped],
      CancelTakesMark (scheduled st false 500000) ∧ CancelsWithoutMark (scheduled st false 500001) ∧
        CancelsWithoutMark (scheduled st true 500000) ∧ (scheduled st false 500000).stc.station = st ∧
        (scheduled st false 500000).stc.record = none ∧ (scheduled st false 500000).fcu.schedule.isSome = true := by
  intro st _
  refine ⟨⟨rfl, rfl, 500000, rfl, ?_⟩, .inr (.inr ?_), .inr (.inl rfl), rfl, rfl, rfl⟩
  · show 0 ≤ ((500000 : StationTime) - 500000).toInt
    decide
  · intro M h
    cases (Option.some.inj (h : some (500001 : StationTime) = some M))
    show ((500000 : StationTime) - 500001).toInt < 0
    decide

/-- DEBLOCK is accepted in BLOCKED and refused elsewhere. -/
theorem witness_DeblockEntersFiringOrIsRefused :
    ActiveOrder (order 13 13 9000) ∧ (commanded .blocked).stc.station = .blocked ∧
      (commanded .survey).stc.station ≠ .blocked :=
  ⟨(witness_orders .blocked (by decide)).1, by decide +kernel, by decide +kernel⟩

theorem witness_BlockStopsByTheStationState :
    ActiveOrder (order 13 13 9000) ∧ CancelsWithoutMark (commanded .firing) ∧
      (commanded .firing).stc.station = .firing ∧ (commanded .bypass).stc.station = .bypass ∧
      (commanded .tripped).stc.station = .tripped ∧ (commanded .survey).stc.station = .survey ∧
      CancelTakesMark (scheduled .firing false 500000) ∧ CancelTakesMark (holding 3 (scheduled .tripped false 500000)) ∧
      (holding 3 (scheduled .tripped false 500000)).stc.holdRunning = true :=
  ⟨(witness_orders .firing (by decide)).1, .inl (by decide +kernel), by decide +kernel, by decide +kernel,
    by decide +kernel, by decide +kernel, (witness_cancellation .firing (by decide)).1,
    (witness_cancellation .tripped (by decide)).1, rfl⟩

/-- Position 3 has fired last in the star bridge of this station, and nothing is known of the delta bridge; with
position 7 the latest, the station at position 1 is a member. A schedule stands before M and at M. -/
theorem witness_BypassBlockNamesTheLegsThatFiredLast :
    let fired := fun (q : Nat) (u : State) =>
      ({ u with cru := u.cru.onPeer q fun p => { p with fire := some 7 } } : State)
    let s := fired 3 (commanded .firing)
    ActiveOrder (order 13 13 9000) ∧ s.stc.station = .firing ∧ s.stc.record = none ∧ CancelsWithoutMark s ∧
      s.fireRecord 3 = some 7 ∧ (∀ q ∈ [1, 5, 7, 9, 11], s.fireRecord q = none) ∧
      (∀ q ∈ [2, 4, 6, 8, 10, 12], s.fireRecord q = none) ∧ (s.adoptRecord (ownBypass s 0)).isMember = false ∧
      ((fired 7 s).adoptRecord (ownBypass (fired 7 (commanded .firing)) 0)).isMember = true ∧
      CancelTakesMark (fired 3 (scheduled .firing false 500000)) ∧
      CancelsWithoutMark (fired 3 (scheduled .firing false 500001)) :=
  ⟨(witness_orders .firing (by decide)).1, by decide +kernel, by decide +kernel, .inl (by decide +kernel),
    by decide +kernel, by decide +kernel, by decide +kernel, by decide +kernel, by decide +kernel,
    (witness_cancellation .firing (by decide)).1, (witness_cancellation .firing (by decide)).2.1⟩

/-- The reference FN of R176: 0 with no valid FN, the number fired last across the wrap at 65535, and the common number of
two positions that fired last. -/
theorem test_referenceFn :
    let fired := fun (q : Nat) (f : FiringNumber) (u : State) =>
      ({ u with cru := u.cru.onPeer q fun p => { p with fire := some f } } : State)
    let s := commanded .firing
    (ownBypass s 0).fn = 0 ∧ (ownBypass (fired 3 65530 (fired 8 4 s)) 0).fn = 4 ∧
      (ownBypass (fired 12 9 (fired 4 9 (fired 3 65530 s))) 0).fn = 9 := by decide +kernel

theorem witness_ClearLowersReportFlagsInBlocked :
    ActiveOrder (order 13 13 9000) ∧ (commanded .blocked).stc.station = .blocked ∧
      (commanded .firing).stc.station ≠ .blocked :=
  ⟨(witness_orders .blocked (by decide)).1, by decide +kernel, by decide +kernel⟩

/-- A FIRE of the predecessor of position 1, position 12, with this instant. -/
def fireOf12 (p : Option StationTime) : Fire :=
  { origin := 12, fn := 511, alphaF := 9000, start := false, instant := p }

/-- The station at position 1 in FIRING that fired last at 2,855,200. -/
def firedAt : State :=
  let s := inState .firing 3046400
  { s with fcu := { s.fcu with previous := some 2855200 } }

/-- D at half a period is current, one below it and 1 are inverted, 0 is late; and an untimed FIRE. -/
theorem witness_FireFromThePredecessorIsClassified :
    firedAt.straps.pos = 1 ∧ (fireOf12 none).origin = (firedAt.straps.pos + 10) % 12 + 1 ∧
      firedAt.stc.station = .firing ∧ (firedAt.stc.fault .sequenceSlip).mode = .report ∧
      (firedAt.stc.fault .sequenceInversion).mode = .report ∧ PeriodInBounds firedAt ∧
      firedAt.fcu.previous = some 2855200 ∧ ((2955200 : StationTime) - 2855200).toInt =
          (firedAt.aru.period / 2 : Nat) ∧
      0 < ((2855201 : StationTime) - 2855200).toInt ∧
      ((2955199 : StationTime) - 2855200).toInt < (firedAt.aru.period / 2 : Nat) ∧
      ((2855200 : StationTime) - 2855200).toInt ≤ 0 ∧ (fireOf12 none).instant = none := by
  unfold PeriodInBounds; decide +kernel

/-- For position 1: 13 is no firing position, 12 is its predecessor and 11 its bridge predecessor, 3 its start
requester, 2 is none of these. -/
theorem witness_OtherFiresAreRecordedAndStartTheBridge :
    let s := inState .blocked 0
    s.straps.pos = 1 ∧ s.stc.station ≠ .inert ∧ s.stc.station ≠ .firing ∧ s.inHold = false ∧
      12 = (s.straps.pos + 10) % 12 + 1 ∧ 11 = (s.straps.pos + 9) % 12 + 1 ∧ 3 = (s.straps.pos + 1) % 12 + 1 ∧
      2 ≠ (s.straps.pos + 10) % 12 + 1 ∧ 2 ≠ (s.straps.pos + 9) % 12 + 1 ∧ 2 ≠ (s.straps.pos + 1) % 12 + 1 ∧
      (inState .firing 0).stc.station = .firing ∧ (inState .firing 0).cru.firedSince = false ∧
      (inState .firing 0).lca.train = none := by decide +kernel

/-- An overlap of 6000 is taken and one of 6001 is not; X at F_prev is not; and position 2 is not p − 4. -/
theorem witness_HealthOfTheOutgoingValveMeasuresTheOverlap :
    firedAt.straps.pos = 1 ∧ firedAt.stc.station = .firing ∧ 9 = (firedAt.straps.pos + 7) % 12 + 1 ∧
      2 ≠ (firedAt.straps.pos + 7) % 12 + 1 ∧ firedAt.fcu.previous = some 2855200 ∧
      0 < ((2855200 + 33333 : StationTime) - 2855200).toInt ∧ 33338 * 36000 / firedAt.aru.period = 6000 ∧
      6000 < 33339 * 36000 / firedAt.aru.period ∧ ((2855200 : StationTime) - 2855200).toInt ≤ 0 := by decide +kernel

theorem witness_WarningsOfThePeersRequestAnAdvance :
    let s := inState .blocked 0
    s.stc.station ≠ .inert ∧ 12 ≠ s.straps.pos ∧ 13 ≠ s.straps.pos ∧ 1 ≤ s.stc.gain ∧
      min 36000 2199 < s.stc.gammaAlarm ∧ ¬min 36000 2200 < s.stc.gammaAlarm := by decide +kernel

/-- A BYPASS of position 2 for the legs 1 and 3. -/
def bypassOf2 (fn : FiringNumber) : BypassOrder := { origin := 2, fn := fn, star := 1, delta := 3, cause := 0 }

/-- A station in BYPASS with the record of legs 2 and 3 under the key of FN 500 and origin 2. -/
def recorded (settled : Bool) : State :=
  let s := inState .bypass 1000
  { s with
    stc := { s.stc with
      record := some
        { star := 2, delta := 3, fn := 500, origin := 2, adopted := 900, deadline := 200900, settled := settled } } }

theorem recorded_consistent (b : Bool) : ModeConsistent (recorded b) :=
  ⟨by cases b <;> decide +kernel, by cases b <;> decide +kernel, by cases b <;> decide +kernel,
    by cases b <;> decide +kernel⟩

/-- With an empty record, in BLOCKED and in FIRING with a schedule that stands at M; with an unsettled one, under a
later key, FN 501, and under the same key; with a settled one, under the same legs and others. The leg 1 in the star
bridge is the station's own. -/
theorem witness_BypassIsAdoptedByItsKeyUntilSettled :
    (ModeConsistent (commanded .blocked) ∧ CancelsWithoutMark (commanded .blocked) ∧
        (commanded .blocked).stc.record = none) ∧
      (ModeConsistent (scheduled .firing false 500000) ∧ CancelTakesMark (scheduled .firing false 500000)) ∧
      (∀ b, ModeConsistent (recorded b) ∧ CancelsWithoutMark (recorded b)) ∧
      (1 ≤ (bypassOf2 501).star ∧ (bypassOf2 501).star ≤ 3 ∧ 1 ≤ (bypassOf2 501).delta ∧ (bypassOf2 501).delta ≤ 3) ∧
      ((bypassOf2 501).fn - 500).toNat = 1 ∧ ((bypassOf2 500).fn - 500).toNat = 0 ∧ ¬(bypassOf2 500).origin < 2 ∧
      (bypassOf2 501).star ≠ 2 ∧ ((recorded true).stc.fault .bypassConflict).mode = .report ∧
      ¬(1 ≤ ({ bypassOf2 1 with star := 0 } : BypassOrder).star) ∧
      ((commanded .blocked).adoptRecord (bypassOf2 501)).isMember = true ∧ (recorded false).isMember = false :=
  ⟨⟨consistent_of (by decide +kernel) (by decide +kernel) (by decide +kernel) (by decide +kernel),
      .inl (by decide +kernel), by decide +kernel⟩,
    ⟨⟨fun _ => .inl rfl, fun h => absurd h (by decide +kernel), fun h => absurd h (by decide +kernel), fun _ => rfl⟩,
      (witness_cancellation .firing (by decide)).1⟩,
    fun b => ⟨recorded_consistent b, .inl (by cases b <;> decide +kernel)⟩, by decide, by decide, by decide,
    by decide, by decide, by decide +kernel, by decide, by decide +kernel, by decide +kernel⟩

/-- The fault table of reset is in range. -/
theorem faults_of_reset : FaultTableInRange Stc.reset := by intro f; cases f <;> decide +kernel

/-- SETTINGS is taken in BLOCKED before any firing; a station that has fired compares it, and the default settings and
modes are the same content as the ones in force. -/
theorem witness_SettingsAreAcceptedOnceBeforeFiring :
    (let s := inState .blocked 0
     FaultTableInRange s.stc ∧ s.stc.station = .blocked ∧ s.stc.fired = false ∧ s.stc.frozen = false) ∧
      (let s := inState .firing 0
       FaultTableInRange s.stc ∧ s.stc.fired = true ∧
          (s.stc.gammaMin = max 1000 (min 3000 1700) ∧ s.stc.gammaAlarm = max (1700 + 200) (min 4000 2200) ∧
            s.stc.gain = max 1 (min 4 2)) ∧
          s.stc.gammaMin ≠ max 1000 (min 3000 1701)) ∧
      (settingsContent { gammaMin := 1700, gammaAlarm := 2200, gain := 2, modes := 0x4AAA } =
          Stc.reset.settingsInForce) :=
  ⟨⟨faults_of_reset, by decide +kernel⟩, ⟨faults_of_reset, by decide +kernel⟩, by decide +kernel⟩

/-- The clamps of SETTINGS at and past the ends of their ranges (R115). -/
theorem test_settings_clamps :
    let c := settingsContent { gammaMin := 999, gammaAlarm := 1199, gain := 0, modes := 0 }
    let d := settingsContent { gammaMin := 3001, gammaAlarm := 4001, gain := 5, modes := 0 }
    (c.gammaMin, c.gammaAlarm, c.gain) = (1000, 1200, 1) ∧ (d.gammaMin, d.gammaAlarm, d.gain) = (3000, 4000, 4) := by
  decide +kernel

/-- A QUERY of 13 for position 1, page 12 and page 13; one in START and one of position 2 are not acted on. -/
theorem witness_QueriesAreAnsweredAndReportsHeard :
    (inState .survey 0).stc.station ≠ .inert ∧ (inState .survey 0).stc.station ≠ .start ∧
      (inState .survey 0).straps.pos = 1 ∧ 12 ≤ 12 ∧ 12 < 13 ∧ (inState .start 0).stc.station = .start ∧ ¬13 ≤ 2 := by
  decide +kernel

/-! ### Witnesses: the Station Controller and the whole machine -/

/-- A station in this state with an escalation list whose first entry lies ahead and whose second is due at 1000. -/
def listed (st : Station) : State :=
  let s := inState st 1000
  { s with
    stc := { s.stc with escalation := [{ stamp := 5, expiry := 1001 }, { stamp := 4, expiry := 1000 }] } }

theorem witness_RecordListAndHoldEndAtTheirInstants :
    ((let s : State := { recorded false with now := 200900 }
      s.stc.record.map (fun r => (r.settled, r.deadline)) = some (false, s.now)) ∧
      ((listed .blocked).stc.station ≠ .tripped ∧
        (listed .blocked).stc.escalation =
          [{ stamp := 5, expiry := 1001 }] ++ { stamp := 4, expiry := 1000 } :: [] ∧
        (listed .blocked).now = 1000 ∧ ((1000 : StationTime) - 1001).toInt < 0) ∧
      (listed .tripped).stc.station = .tripped ∧
      (let s := holding 11 (inState .tripped 0)
       s.stc.holdRunning = true ∧ s.stc.holdCount = 11 ∧ s.fcu.schedule = none)) ∧
      CancelTakesMark (holding 11 (scheduled .tripped false 500000)) ∧
      CancelsWithoutMark (holding 11 (scheduled .tripped false 500001)) :=
  ⟨by decide +kernel, (witness_cancellation .tripped (by decide)).1, (witness_cancellation .tripped (by decide)).2.1⟩

/-- Every mode has a fault in it, the list of an escalating station is full, and a schedule stands at M and before. -/
theorem witness_FaultActsByItsModeInForce :
    FaultTableInRange (inState .firing 0).stc ∧ CancelsWithoutMark (inState .firing 0) ∧
      CancelTakesMark (scheduled .firing false 500000) ∧ CancelsWithoutMark (scheduled .firing false 500001) ∧
      (inState .firing 0).stc.record = none ∧
      ((inState .firing 0).stc.fault .referenceLost).mode = .block ∧
      ((inState .firing 0).stc.fault .redundancyExhausted).mode = .trip ∧
      ((inState .firing 0).stc.fault .orderLost).mode = .report ∧
      (inState .survey 0).stc.station = .survey ∧ (inState .tripped 0).stc.station = .tripped ∧
      (let l := escalated [{ stamp := 1, expiry := 0 }, { stamp := 2, expiry := 0 }] 200000001 200000
       escalates l 200000 = true) ∧
      (let l := escalated [{ stamp := 1, expiry := 0 }, { stamp := 2, expiry := 0 }] 200000002 200000
       escalates l 200000 = false) :=
  ⟨faults_of_reset, .inl (by decide +kernel), (witness_cancellation .firing (by decide)).1,
    (witness_cancellation .firing (by decide)).2.1, by decide +kernel, by decide +kernel, by decide +kernel,
    by decide +kernel, by decide +kernel, by decide +kernel, by decide +kernel, by decide +kernel⟩

/-- Positions 0 and 15 are foreign, 1 and 14 are not; a well-formed command; and a delivery in INERT. -/
theorem witness_CommandsStopOnlyForForeignPositions :
    positionNamed (.report 0) = some 0 ∧ positionNamed (.report 15) = some 15 ∧ positionNamed (.report 1) = some 1 ∧
      (Instr.report 14).wellFormed = true ∧ (inState .inert 0).stc.station = .inert ∧
      1 = (inState .survey 0).straps.pos ∧ (inState .survey 0).straps.pos ≤ 12 := by decide +kernel

/-- A station that has fired, with a settled record and a FAILED level, runs a command that is no RESET. -/
theorem witness_OnlyResetUndoesWhatIsLatched :
    let s : State := { recorded true with stc := { (recorded true).stc with fired := true, frozen := true } }
    let failed : Level := { Level.reset with state := .failed }
    let u : State := { s with lmon := { s.lmon with levels := s.lmon.levels.set 0 failed } }
    u.stc.fired = true ∧ u.stc.frozen = true ∧ (u.level 0).state = .failed ∧
      u.stc.record.map (fun r => r.settled) = some true ∧ ∃ t, exec .settleDeadline u = .next t :=
  ⟨by decide +kernel, by decide +kernel, by decide +kernel, by decide +kernel, _, rfl⟩

/-- A station in BYPASS, a member by the record of legs 1 and 3, its bypass train running and a BLOCK waiting. -/
def soundMember : State :=
  let s := recorded false
  { s with
    stc := { s.stc with record := s.stc.record.map fun r => { r with star := 1, delta := 3 } }
    lca := { s.lca with train := some { train with kind := .bypass } }
    pending := [.block (order 13 13 9000)] }

/-- A sound state that lights for its bypass, and has a step. -/
theorem witness_EveryStepKeepsTheStateSound :
    Sound soundMember ∧ LitForTheBypass soundMember ∧ ∃ t, step soundMember = .next t :=
  ⟨{  lines := by unfold StatusLinesFollow; decide +kernel
      settings := by unfold SettingsInRange; decide +kernel
      faults := by intro f; cases f <;> decide +kernel
      modes := ⟨by decide +kernel, by decide +kernel, by decide +kernel, by decide +kernel⟩
      period := by unfold PeriodInBounds; decide +kernel
      failed := by unfold FailedCountRight; decide +kernel
      tallies := ⟨by decide +kernel, by decide +kernel, by unfold TallyDistinct; decide +kernel,
        by unfold TallyDistinct; decide +kernel, by unfold TallyDistinct; decide +kernel⟩
      rings := by
        intro p
        cases p <;> exact ⟨⟨by decide +kernel, by decide +kernel, by decide +kernel, by decide +kernel,
          by decide +kernel, by decide +kernel⟩, ⟨by decide +kernel, by decide +kernel⟩⟩
      advances := ⟨by decide +kernel, by decide +kernel, by decide +kernel, by decide +kernel⟩
      history := by unfold HistoryInRange; decide +kernel
      angle := by unfold AngleInRange; decide +kernel
      overlap := by unfold OverlapInRange; decide +kernel
      inert := by intro h; exact absurd h (by decide +kernel)
      quiet := by intro h; exact absurd h (by decide +kernel) },
    ⟨fun _ => by decide +kernel, fun _ => ⟨_, rfl, rfl⟩⟩, _, rfl⟩

/-- The same state meets the premises of the statement on the train. -/
theorem witness_TrainIsABypassTrainExactlyForAMember :
    Sound soundMember ∧ LitForTheBypass soundMember ∧ soundMember.isMember = true :=
  ⟨witness_EveryStepKeepsTheStateSound.1, witness_EveryStepKeepsTheStateSound.2.1, by decide +kernel⟩

end Sys2Proof.Tests
end

section
/-! PROOFS. The conversions between angle and time, and the acquisition of the reference (chapter 3). -/

namespace Sys2Proof.Machine

/-! ### Angle and time (R59, R60) -/

theorem ticks_mul_le (period x : Nat) : ticks period x * 36000 ≤ x * period := Nat.div_mul_le_self _ _

theorem mul_lt_ticks_succ_mul (period x : Nat) : x * period < (ticks period x + 1) * 36000 :=
  Nat.lt_mul_of_div_lt (Nat.lt_succ_self _) (by decide)

theorem angle_mul_le (period t : Nat) : angle period t * period ≤ t * 36000 := Nat.div_mul_le_self _ _

/-- Rounding down twice never passes the tick difference (R60). -/
theorem ticks_angle_le (period t : Nat) : ticks period (angle period t) ≤ t :=
  Nat.div_le_of_le_mul (Nat.mul_comm t 36000 ▸ angle_mul_le period t)

/-- Rounding down twice never passes the angle (R60). -/
theorem angle_ticks_le (period x : Nat) : angle period (ticks period x) ≤ x :=
  Nat.div_le_of_le_mul (Nat.mul_comm x period ▸ ticks_mul_le period x)

/-- An angle unit is at least one tick long in every period of 36000 ticks or more, so the tick that `ticks` drops
costs at most one unit (R60). -/
theorem le_angle_ticks_succ {period : Nat} (h : 36000 ≤ period) (x : Nat) :
    x ≤ angle period (ticks period x) + 1 := by
  have dropped : x * period < ticks period x * 36000 + 36000 := by
    have := mul_lt_ticks_succ_mul period x
    omega
  have kept : (x - 1) * period ≤ ticks period x * 36000 := by
    rw [Nat.sub_mul, Nat.one_mul]
    omega
  have : x - 1 ≤ angle period (ticks period x) := (Nat.le_div_iff_mul_le (by omega)).2 kept
  omega

/-- Settles O23: both floors are the definitions, and each way round loses less than one unit. -/
theorem angleAndTicksRoundDown : Obligations.AngleAndTicksRoundDown := by
  intro period x t hlo _
  have below := angle_ticks_le period x
  have above := le_angle_ticks_succ (Nat.le_trans (by decide) hlo) x
  exact ⟨rfl, rfl, by omega, ticks_angle_le period t, fun ht => by omega⟩

/-! ### The measured period (R49) -/

theorem goodPeriod_iff (d : Int) : goodPeriod d = true ↔ 153800 ≤ d ∧ d ≤ 222300 := by
  simp only [goodPeriod, Bool.and_eq_true, decide_eq_true_eq]
  rfl

/-- The filter moves the estimate towards the measurement and never past it, so it keeps to any interval that holds
both. -/
theorem filteredPeriod_between {lo hi d : Int} {period : Nat} (hp : lo ≤ period ∧ (period : Int) ≤ hi)
    (hd : lo ≤ d ∧ d ≤ hi) : lo ≤ filteredPeriod period d ∧ filteredPeriod period d ≤ hi := by
  unfold filteredPeriod
  obtain up | down := Int.le_total 0 (d - period)
  · have := Int.tdiv_eq_ediv_of_nonneg (b := 8) up
    omega
  · have mirrored : (d - period).tdiv 8 = -((period - d) / 8) := by
      rw [← Int.tdiv_eq_ediv_of_nonneg (by omega), ← Int.neg_tdiv, Int.neg_sub]
    omega

/-- A good measurement in ACQUIRING loses nothing where the estimate is read as a natural number (R49). -/
theorem acquiredPeriod_eq (goodCount : Nat) {period : Nat} {d : Int} (hd : 0 ≤ d) :
    (acquiredPeriod goodCount period d : Int) =
      if goodCount = 0 then d else (period : Int) + (d - (period : Int)).tdiv 8 := by
  unfold acquiredPeriod
  split
  · exact Int.toNat_of_nonneg hd
  · have nonneg : 0 ≤ filteredPeriod period d :=
      (filteredPeriod_between (hi := max period d) ⟨by omega, by omega⟩ ⟨hd, by omega⟩).1
    exact Int.toNat_of_nonneg nonneg

/-! ### A crossing in ACQUIRING (R49, R51) -/

/-- The reference as it takes an edge: the qualification is over (R44). -/
def Aru.edgeTaken (a : Aru) : Aru := { a with qualifier := none }

/-- The reference after a good measurement that does not lock it (R49). -/
def Aru.measured (a : Aru) (t : StationTime) (d : Int) : Aru :=
  let p := acquiredPeriod a.goodCount a.period d
  { a with period := p, goodCount := a.goodCount + 1, previous := some t, blanking := some (blankingEnd t p) }

theorem acquire_bad {a : Aru} {t : StationTime} {d : Int} (h : ¬(153800 ≤ d ∧ d ≤ 222300)) :
    a.acquire t d = { a with goodCount := 0, previous := some t, blanking := some (blankingEnd t a.period) } := by
  rw [← goodPeriod_iff] at h
  simp [Aru.acquire, h]

theorem acquire_good {a : Aru} {t : StationTime} {d : Int} (h : 153800 ≤ d ∧ d ≤ 222300) (hc : a.goodCount ≠ 2) :
    a.acquire t d = a.measured t d := by
  rw [← goodPeriod_iff] at h
  simp [Aru.acquire, Aru.measured, h, hc]

theorem acquire_third {a : Aru} {t : StationTime} {d : Int} (h : 153800 ≤ d ∧ d ≤ 222300) (hc : a.goodCount = 2) :
    a.acquire t d = (a.measured t d).toLocked t := by
  rw [← goodPeriod_iff] at h
  simp [Aru.acquire, Aru.measured, h, hc]

/-- A crossing in ACQUIRING leaves the reference there or locks it. -/
theorem acquire_lock {a : Aru} (t : StationTime) (d : Int) (h : a.lock = .acquiring) :
    (a.acquire t d).lock = .acquiring ∨ (a.acquire t d).lock = .locked := by
  by_cases hd : 153800 ≤ d ∧ d ≤ 222300
  · by_cases hc : a.goodCount = 2
    · exact .inr (by rw [acquire_third hd hc]; rfl)
    · exact .inl (by rw [acquire_good hd hc]; exact h)
  · exact .inl (by rw [acquire_bad hd]; exact h)

/-! ### A qualified crossing and the SURVEY test (R44, R172) -/

/-- The SURVEY test of a station whose reference has become `a`. -/
theorem surveyTest_withAru (s : State) (a : Aru) : surveyTest { s with aru := a } = s.surveyed a := by
  unfold surveyTest State.surveyed
  by_cases hs : s.stc.station = .survey
  · simp only [hs, State.aRingUp, Bool.or_eq_true, decide_eq_true_eq, ne_eq, not_true_eq_false, if_true, if_false]
    rfl
  · simp [hs]

@[simp] theorem surveyed_aru (s : State) (a : Aru) : (s.surveyed a).aru = a := by
  unfold State.surveyed
  split
  · rfl
  · split
    · rfl
    · split <;> rfl

/-- An edge that has stood its 50 ticks is taken, and its qualification is over (R44). -/
theorem exec_qualifiedCrossing_of_qualifies {s : State} {t : StationTime} (h : Qualifies s t) :
    exec .qualifiedCrossing s = .next (takeCrossing t (s.onAru Aru.edgeTaken)) := by
  obtain ⟨edge, stood⟩ := h
  have due : s.aru.qualifies s.now = some t := by simp [Aru.qualifies, edge, stood, after]
  change Host.Outcome.next (qualifiedCrossing s) = _
  simp only [qualifiedCrossing, due]
  rfl

/-- A crossing taken in ACQUIRING: the reference acquires, and the test is made where that locks it (R49, R172). -/
theorem takeCrossing_acquiring {s : State} {t p : StationTime} (hl : s.aru.lock = .acquiring)
    (hp : s.aru.previous = some p) :
    takeCrossing t s =
      if (s.aru.acquire t (sdiff t p)).lock = .locked then s.surveyed (s.aru.acquire t (sdiff t p))
      else { s with aru := s.aru.acquire t (sdiff t p) } := by
  have acquires : s.aru.acquiringCrossing t = s.aru.acquire t (sdiff t p) := by
    simp [Aru.acquiringCrossing, hp]
  simp only [takeCrossing, hl, State.onAru, acquires, lockTest]
  obtain h | h := acquire_lock t (sdiff t p) hl
  · simp [h, inTurn]
  · simp [h, inTurn, surveyTest_withAru]

/-- QUALIFIED_CROSSING in ACQUIRING by the reference it leaves. -/
theorem exec_qualifiedCrossing_acquiring {s : State} {t p : StationTime} (hl : s.aru.lock = .acquiring)
    (hq : Qualifies s t) (hp : s.aru.previous = some p) :
    ∃ u, exec .qualifiedCrossing s = .next u ∧ u.aru = s.aru.edgeTaken.acquire t (sdiff t p) ∧
      u = if u.aru.lock = .locked then s.surveyed u.aru else { s with aru := u.aru } := by
  refine ⟨_, exec_qualifiedCrossing_of_qualifies hq, ?_⟩
  rw [takeCrossing_acquiring (s := s.onAru Aru.edgeTaken) hl hp, onAru_aru]
  split
  next locked => exact ⟨surveyed_aru _ _, by rw [surveyed_aru, if_pos locked]; rfl⟩
  next => exact ⟨rfl, rfl⟩

/-- Settles O17, by the measured period and the good count: the third good measurement, a good one before it, and a
bad one. -/
theorem acquisitionMeasuresThePeriod : Obligations.AcquisitionMeasuresThePeriod := by
  intro s t p d hl hq hp hd _ _
  obtain ⟨u, hu, haru, frame⟩ := exec_qualifiedCrossing_acquiring hl hq hp
  rw [show sdiff t p = d from hd] at haru
  refine ⟨u, hu, ?_⟩
  by_cases good : 153800 ≤ d ∧ d ≤ 222300
  · have period := acquiredPeriod_eq s.aru.goodCount (period := s.aru.period) (d := d) (by omega)
    rw [if_pos good]
    by_cases third : s.aru.goodCount = 2
    · rw [acquire_third (a := s.aru.edgeTaken) good third] at haru
      rw [haru] at frame ⊢
      rw [if_pos third]
      exact ⟨rfl, rfl, rfl, rfl, rfl, frame, rfl, period, rfl, rfl, rfl, rfl, rfl⟩
    · rw [acquire_good (a := s.aru.edgeTaken) good third] at haru
      rw [haru] at frame ⊢
      rw [if_neg third]
      exact ⟨rfl, rfl, rfl, rfl, rfl, frame, rfl, period, hl, rfl, rfl, rfl, rfl⟩
  · rw [acquire_bad (a := s.aru.edgeTaken) good] at haru
    rw [haru] at frame ⊢
    rw [if_neg good]
    exact ⟨rfl, rfl, rfl, rfl, rfl, frame, rfl, rfl, hl, rfl, rfl, rfl, rfl⟩

end Sys2Proof.Machine
end

section
/-! PROOFS. The Ring Interface (chapters 5 to 7): the runs its first two checks discard, the order of the transmit
queues, and what a departure sends and displaces. -/

namespace Sys2Proof.Machine

/-! ### The checks of an arrival (R85, R86) -/

theorem checkPasses_iff (run : List Byte) :
    checkPasses run = true ↔
      8 ≤ run.length ∧ run.length ≤ 25 ∧ checkBytes (run.take (run.length - 2)) = run.drop (run.length - 2) := by
  simp [checkPasses, and_assoc]

theorem formatPasses_iff (p : Port) (n : Nat) (r : ReadRun) :
    formatPasses p n r = true ↔
      r.telegram.origin ≠ 0 ∧ r.telegram.origin ≠ 15 ∧ r.length ≤ 17 ∧ r.length + 8 = n ∧ r.ring = ringFlag p := by
  simp [formatPasses, and_assoc]

/-- A RING flag that does not name the port is set on A and clear on B (R86). -/
theorem ringFlag_ne_iff (p : Port) (b : Bool) : b ≠ ringFlag p ↔ b = decide (p = .a) := by
  cases p <;> simp [ringFlag]

/-- A run that fails the check code step is counted as a CRC error and goes no further (R85). -/
theorem arrive_of_check_fails {p : Port} {run : List Byte} {s : State} (h : ¬checkPasses run = true) :
    arrive p run s = s.count p PortCounts.addCrc := by
  rw [arrive, if_neg h]

/-- A run that passes the check code step and fails the format step is counted as malformed and goes no further
(R86). -/
theorem arrive_of_format_fails {p : Port} {run : List Byte} {s : State} {r : ReadRun} (hc : checkPasses run = true)
    (hr : readRun run = some r) (hf : ¬formatPasses p run.length r = true) :
    arrive p run s = s.count p PortCounts.addMalformed := by
  rw [arrive, if_pos hc, hr]
  exact if_neg hf

/-- Settles O32, by the step of the arrival that the run fails. -/
theorem failedChecksDiscardTheRun : Obligations.FailedChecksDiscardTheRun := by
  intro p run s
  refine ⟨fun fails => ?_, fun b0 b1 b2 b3 b4 b5 rest read long short code fails => ?_⟩
  · refine congrArg Host.Outcome.next (arrive_of_check_fails ?_)
    rw [checkPasses_iff]
    rintro ⟨long, short, code⟩
    obtain h | h | h := fails
    · omega
    · omega
    · exact h code
  · have header := congrArg readRun read
    refine congrArg Host.Outcome.next
      (arrive_of_format_fails ((checkPasses_iff run).2 ⟨long, short, code⟩) header ?_)
    rw [formatPasses_iff]
    rintro ⟨own, foreign, bounded, whole, ring⟩
    obtain h | h | h | h | h := fails
    · exact own h
    · exact foreign h
    · exact absurd bounded (Nat.not_le.2 h)
    · exact h whole
    · exact (ringFlag_ne_iff p _).2 h ring

/-! ### Origination into a queue (R94 to R97) -/

/-- Either port of an origination is the port with the numbered telegram entered (R94). -/
theorem originated_port (r : Rif) (k : OwnKind) (payload : List Byte) (event : Option StationTime) (p : Port) :
    (r.originated k payload event).port p =
      (r.port p).enqueue { kind := k, sequence := r.ownSequence, payload := payload, event := event } := by
  cases p <;> rfl

/-- A HEALTH takes the place of the one that waits, and no count changes (R96). -/
theorem enqueue_replaces {p : RingPort} {e x : QueueEntry} {before after : List QueueEntry} (h : QueueOrdered p.queue)
    (hq : p.queue = before ++ x :: after) (hx : x.kind = .health) (he : e.kind = .health) :
    p.enqueue e = { p with queue := before ++ e :: after } := by
  rw [RingPort.enqueue, if_pos he, replaceHealth_some hq hx (health_alone hq hx h.health).1]

/-- A telegram that is no HEALTH, or finds none waiting, replaces nothing (R96). -/
theorem enqueue_places {p : RingPort} {e : QueueEntry} (h : e.kind ≠ .health ∨ ∀ x ∈ p.queue, x.kind ≠ .health) :
    p.enqueue e = p.place e := by
  rw [RingPort.enqueue]
  split
  next he => rw [replaceHealth_none (h.resolve_left (not_not_intro he))]
  next => rfl

/-- With room a telegram enters in its place and every entry stays (R95, R97). -/
theorem place_with_room {p : RingPort} {e : QueueEntry} (h : p.queue.length < 8) :
    p.place e = { p with queue := insertByPriority e p.queue } := by
  rw [RingPort.place, if_pos h]

/-- At a full queue the last entry leaves for a telegram that ranks higher; either way one is dropped (R97). -/
theorem place_at_full {p : RingPort} {e x : QueueEntry} {before : List QueueEntry} (hq : p.queue = before ++ [x])
    (hb : before.length = 7) :
    p.place e =
      if e.kind.priority < x.kind.priority then { p with queue := insertByPriority e before }.dropped
      else p.dropped := by
  have full : ¬p.queue.length < 8 := by simp [hq, hb]
  have last : p.queue.getLast? = some x := by simp [hq]
  have others : p.queue.dropLast = before := by simp [hq]
  rw [RingPort.place, if_neg full, last, others]

/-- A HEALTH in the place of another keeps the order, for both rank alike (R95, R96). -/
theorem queueOrdered_replaced {e x : QueueEntry} {before after : List QueueEntry}
    (h : QueueOrdered (before ++ x :: after)) (hk : e.kind = x.kind) : QueueOrdered (before ++ e :: after) := by
  refine ⟨?_, ?_⟩
  · simpa only [List.pairwise_append, List.pairwise_cons, List.forall_mem_cons, hk] using h.priority
  · simpa only [List.filter_append, List.filter_cons, List.length_append, hk, apply_ite List.length,
      List.length_cons] using h.health

/-- Entering a telegram keeps the queue in order and within eight entries, and changes the queue and the counts
alone (R95 to R97). -/
theorem enqueue_ordered {p : RingPort} {e : QueueEntry} (h : QueueOrdered p.queue) (hl : p.queue.length ≤ 8) :
    QueueOrdered (p.enqueue e).queue ∧ (p.enqueue e).queue.length ≤ 8 ∧
      p.enqueue e = { p with queue := (p.enqueue e).queue, counts := (p.enqueue e).counts } := by
  by_cases places : e.kind ≠ .health ∨ ∀ x ∈ p.queue, x.kind ≠ .health
  · rw [enqueue_places places]
    exact place_ordered p e h hl places
  · obtain ⟨isHealth, waits⟩ := not_or.1 places
    obtain ⟨before, x, after, hq, hx⟩ := (health_or_none p.queue).resolve_left waits
    rw [enqueue_replaces h hq hx (not_not.1 isHealth)]
    refine ⟨queueOrdered_replaced (hq ▸ h) ((not_not.1 isHealth).trans hx.symm), ?_, rfl⟩
    simpa [hq] using hl

/-- Settles O40, port by port: the entry replaces a HEALTH, is placed with room, or meets a full queue. -/
theorem queuesKeepTheOrderOfPriority : Obligations.QueuesKeepTheOrderOfPriority := by
  intro r k payload event e u
  refine ⟨rfl, fun p ordered bounded => ?_⟩
  rw [show u.port p = (r.port p).enqueue e from originated_port r k payload event p]
  obtain ⟨ordered', bounded', frame⟩ := enqueue_ordered (e := e) ordered bounded
  refine ⟨ordered', bounded', frame, ?replaces, ?room, ?full⟩
  case replaces =>
    intro before after x hq hx hk
    rw [enqueue_replaces ordered hq hx hk]
    exact ⟨rfl, rfl⟩
  case room =>
    intro places room
    rw [enqueue_places places, place_with_room room]
    exact ⟨insertByPriority_eq e _ ordered.priority, rfl⟩
  case full =>
    intro before x hq hb places
    have sorted : before.Pairwise fun y z => y.kind.priority ≤ z.kind.priority :=
      ordered.priority.sublist (hq ▸ List.sublist_append_left before [x])
    rw [enqueue_places places, place_at_full hq hb]
    split
    next => exact ⟨rfl, insertByPriority_eq e before sorted⟩
    next => exact ⟨rfl, rfl⟩

/-! ### A port changed -/

/-- Two changes that agree on the port as it stands are one. -/
theorem onPort_congr {s : State} {p : Port} {f g : RingPort → RingPort} (h : f (s.port p) = g (s.port p)) :
    s.onPort p f = s.onPort p g := by
  cases p
  · exact congrArg (fun r => ({ s with rif := { s.rif with portA := r } } : State)) h
  · exact congrArg (fun r => ({ s with rif := { s.rif with portB := r } } : State)) h

theorem onPort_onPort (s : State) (p : Port) (f g : RingPort → RingPort) :
    (s.onPort p f).onPort p g = s.onPort p fun r => g (f r) := by
  cases p <;> rfl

theorem port_onPort_same (s : State) (p : Port) (f) : (s.onPort p f).port p = f (s.port p) :=
  onPort_port_same s.rif p f

theorem port_onPort_otherPort (s : State) (p : Port) (f) : (s.onPort p f).port (otherPort p) = s.port (otherPort p) :=
  onPort_port_other s.rif f (by cases p <;> decide)

theorem aRingUp_of_up {s : State} {q : Port} (h : (s.port q).health = .up) : s.aRingUp = true := by
  cases q
  · exact Bool.or_eq_true_iff.2 (.inl (decide_eq_true h))
  · exact Bool.or_eq_true_iff.2 (.inr (decide_eq_true h))

/-! ### A ring lost outside FIRING (R129, R172, R181, R186) -/

theorem surveyTest_elsewhere {s : State} (h : s.stc.station ≠ .survey) : surveyTest s = s := if_neg h

/-- A fault in mode REPORT or IGNORE is entered in the fault table and does nothing else (R186). -/
theorem takeFault_recorded {s : State} {f : FaultCode}
    (h : (s.stc.fault f).mode = .report ∨ (s.stc.fault f).mode = .ignore) : takeFault f s = s.recordFault f := by
  obtain h | h := h <;> rw [takeFault, takeFaultWith, h]

/-- A fault in mode TRIP is entered in the fault table and trips the station (R186). -/
theorem takeFault_trips {s : State} {f : FaultCode} (h : (s.stc.fault f).mode = .trip) :
    takeFault f s = trip cancelSchedule f (s.recordFault f) := by
  rw [takeFault, takeFaultWith, h]

/-- A trip outside FIRING enters TRIPPED from the states in service and does nothing in the others (R181). -/
theorem trip_outside_firing {s : State} (cancel : State → State) (f : FaultCode) (h : s.stc.station ≠ .firing) :
    trip cancel f s =
      { s with
        stc :=
          if s.stc.station = .survey ∨ s.stc.station = .blocked ∨ s.stc.station = .bypass then s.stc.enter .tripped
          else s.stc } := by
  cases hs : s.stc.station
  case firing => exact absurd hs h
  all_goals
    simp only [trip, hs]
    rfl

/-- The SURVEY test with a ring UP changes the station state alone (R172). -/
theorem surveyTest_of_ringUp {s : State} (h : s.aRingUp = true) :
    surveyTest s =
      { s with
        stc :=
          if s.stc.station = .survey ∧ s.lmon.redundancy = .exhausted then s.stc.enter .tripped
          else if s.stc.station = .survey ∧ s.lmon.unknowns = 0 ∧ s.aru.lock = .locked then s.stc.enter .blocked
          else s.stc } := by
  by_cases hs : s.stc.station = .survey
  · simp only [surveyTest, hs, h, true_and, and_true, if_true]
    split
    next => rfl
    next => split <;> rfl
  · simp [surveyTest, hs]

/-- What the loss of a ring signals, where it is no loss of the last ring in FIRING, changes the Station Controller
alone. -/
theorem ringLoss_plain {s : State} {q : Port} (h : s.RingDownIsPlain q) :
    surveyTest (takeFault (ringFault (s.port q).health) s) =
      { s with stc := s.stcAfterRingDown (s.port q).health } := by
  unfold State.RingDownIsPlain at h
  cases hq : (s.port q).health <;> rw [hq] at h
  case up =>
    rw [ringFault, takeFault_recorded h, surveyTest_of_ringUp (s := s.recordFault _) (aRingUp_of_up (s := s) hq)]
    rfl
  case down =>
    obtain ⟨outside, trips⟩ := h
    have left : (if s.stc.station = .survey ∨ s.stc.station = .blocked ∨ s.stc.station = .bypass then
        (s.recordFault .ringLost).stc.enter .tripped else (s.recordFault .ringLost).stc).station ≠ .survey := by
      split
      next => simp
      next stays => exact fun survey => stays (.inl survey)
    rw [ringFault, takeFault_trips trips, trip_outside_firing _ _ (by exact outside)]
    exact surveyTest_elsewhere left

/-! ### The last ring lost in FIRING (R129, R180 to R182) -/

theorem trainAdoption_eq_memberTrain (now : StationTime) (train : Option Train) :
    trainAdoption now train = some (memberTrain now train) := by
  cases train with
  | none => rfl
  | some r => cases hp : r.phase <;> simp [trainAdoption, memberTrain, phaseAdopted, hp]

/-- The record of a first adoption (R178). -/
theorem adoptRecord_first {b : BypassOrder} {s : State} (h : s.stc.record = none) :
    s.adoptRecord b =
      { s with
        stc := { s.stc with
          record := some
            { star := b.star, delta := b.delta, fn := b.fn, origin := b.origin, adopted := s.now
              deadline := s.now + BitVec.ofNat 32 s.aru.period, settled := false } } } := by
  simp only [State.adoptRecord, State.onStc, h]
  rfl

/-- A BYPASS adopted at a trip with no bypass adopted before: the record entered, and a station that it makes a member
hands the adoption to its train and its overdue watch (R178, R180). -/
theorem adoptAtTrip_first {b : BypassOrder} {s : State} (h : s.stc.record = none) :
    adoptAtTrip b s =
      if (s.adoptRecord b).isMember = true then
        { s.adoptRecord b with
          cru := { s.cru with watch := none }
          lca := { s.lca with train := some (memberTrain s.now s.lca.train) } }
      else s.adoptRecord b := by
  rw [adoptAtTrip_none h]
  cases (s.adoptRecord b).isMember with
  | false => rfl
  | true => rw [← trainAdoption_eq_memberTrain]; rfl

/-- RING_LOST in mode TRIP, in FIRING: the station is tripped with its own BYPASS and the hold begins (R181, R182). -/
theorem takeFault_ringLost_in_firing {s : State} (hs : s.stc.station = .firing)
    (hm : (s.stc.fault .ringLost).mode = .trip) :
    takeFault .ringLost s =
      startHold ((adoptAtTrip (ownBypass s 6) (originateBypass (ownBypass s 6) (s.recordFault .ringLost))).enter
        .tripped) := by
  rw [takeFault_trips hm, trip, recordFault_stc, onFault_station, hs]
  rfl

/-- An origination in FIRING enters the queues and changes nothing else (R94). -/
theorem originate_in_firing {s : State} (hs : s.stc.station = .firing) (k : OwnKind) (payload : List Byte)
    (event : Option StationTime) :
    originate k payload event s = { s with rif := s.rif.originated k payload event } := by
  simp [originate, hs, State.onRif]

/-- The fault table after RING_LOST in mode TRIP (R186). -/
theorem fault_after_ringLost {c : Stc} (hm : (c.fault .ringLost).mode = .trip) (f : FaultCode) :
    (c.onFault .ringLost FaultRecord.occurred).fault f =
      if f = .ringLost then { c.fault f with active := true, count := min 127 ((c.fault f).count + 1) }
      else c.fault f := by
  by_cases h : f = .ringLost
  · subst h
    rw [onFault_fault_same, if_pos rfl]
    simp [FaultRecord.occurred, hm, satSucc]
  · rw [onFault_fault_other _ _ (Ne.symm h), if_neg h]

/-- The loss of the last ring in FIRING, with no bypass adopted before, is that of R181 and R182. -/
theorem ringLoss_in_firing {s : State} (hs : s.stc.station = .firing) (hm : (s.stc.fault .ringLost).mode = .trip)
    (hr : s.stc.record = none) : LastRingLostInFiring s (surveyTest (takeFault .ringLost s)) := by
  have faults := fault_after_ringLost hm
  rw [takeFault_ringLost_in_firing hs hm, surveyTest_elsewhere (by intro h; cases h), originateBypass,
    originate_in_firing (s := s.recordFault .ringLost) hs, adoptAtTrip_first (by exact hr),
    adoptRecord_first (by exact hr)]
  split
  next member => exact ⟨rfl, rfl, faults, rfl, (if_pos member).mpr ⟨rfl, rfl⟩⟩
  next outsider => exact ⟨rfl, rfl, faults, rfl, (if_neg outsider).mpr ⟨rfl, rfl⟩⟩

/-! ### A missing return (R128, R129) -/

theorem healthChanged_same {s : State} {p : Port} {was : RingHealth} (h : (s.port p).health = was) :
    healthChanged p was s = s := by
  subst h
  unfold healthChanged
  cases (s.port p).health <;> rfl

theorem healthChanged_lost {s : State} {p : Port} (h : (s.port p).health = .down) :
    healthChanged p .up s = surveyTest (takeFault (ringFault (s.port (otherPort p)).health) s) := by
  simp only [healthChanged, h]

/-- A missing return of a port changed by `f` that takes no ring DOWN changes the runs of the port alone. -/
theorem missingReturn_keeps_health {s : State} {p : Port} {f : RingPort → RingPort}
    (h : (f (s.port p)).health = .down ∨ (f (s.port p)).missRun < 2) :
    missingReturn p (s.onPort p f) =
      s.onPort p fun r => { f r with missRun := min 3 ((f r).missRun + 1), returnRun := 0 } := by
  have health : (f (s.port p)).missing.health = (f (s.port p)).health := by
    simp only [RingPort.missing, satSucc]
    obtain h | h := h
    · simp [h]
    · exact if_neg (by omega)
  rw [missingReturn, onPort_onPort, healthChanged_same (by rw [port_onPort_same, port_onPort_same, health])]
  exact onPort_congr (congrArg (fun x => { (f (s.port p)).missing with health := x }) health)

/-- The third missing return in a row takes an UP ring DOWN and signals its loss by the health of the other. -/
theorem missingReturn_third {s : State} {p : Port} {f : RingPort → RingPort} (hu : (f (s.port p)).health = .up)
    (hm : 2 ≤ (f (s.port p)).missRun) :
    missingReturn p (s.onPort p f) =
      surveyTest (takeFault (ringFault (s.port (otherPort p)).health)
        (s.onPort p fun r => { f r with missRun := 3, returnRun := 0, health := .down })) := by
  have third : satSucc 3 (f (s.port p)).missRun = 3 := by simp only [satSucc]; omega
  have down : (s.onPort p fun r => (f r).missing) =
      s.onPort p fun r => { f r with missRun := 3, returnRun := 0, health := .down } :=
    onPort_congr (by simp [RingPort.missing, third])
  rw [missingReturn, onPort_onPort, down, port_onPort_same, hu, healthChanged_lost (by rw [port_onPort_same]),
    port_onPort_otherPort]

/-- The third missing return in a row, where it loses no last ring in FIRING. -/
theorem missingReturn_third_plain {s : State} {p : Port} {f : RingPort → RingPort}
    (hu : (f (s.port p)).health = .up) (hm : 2 ≤ (f (s.port p)).missRun) (plain : s.RingDownIsPlain (otherPort p)) :
    missingReturn p (s.onPort p f) =
      { (s.onPort p fun r => { f r with missRun := 3, returnRun := 0, health := .down }) with
        stc := s.stcAfterRingDown (s.port (otherPort p)).health } := by
  have plain' : (s.onPort p fun r => { f r with missRun := 3, returnRun := 0, health := .down }).RingDownIsPlain
      (otherPort p) := by
    rw [State.RingDownIsPlain, port_onPort_otherPort]
    exact plain
  have lost := ringLoss_plain plain'
  rw [port_onPort_otherPort] at lost
  rw [missingReturn_third hu hm, lost]
  rfl

/-- The third missing return in a row, where it loses the last ring in FIRING with no bypass adopted before. -/
theorem missingReturn_third_lastRing {s : State} {p : Port} {f : RingPort → RingPort}
    (hu : (f (s.port p)).health = .up) (hm : 2 ≤ (f (s.port p)).missRun)
    (last : (s.port (otherPort p)).health = .down) (firing : s.stc.station = .firing)
    (trips : (s.stc.fault .ringLost).mode = .trip) (fresh : s.stc.record = none) :
    LastRingLostInFiring (s.onPort p fun r => { f r with missRun := 3, returnRun := 0, health := .down })
      (missingReturn p (s.onPort p f)) := by
  rw [missingReturn_third hu hm, last]
  exact ringLoss_in_firing firing trips fresh

/-! ### Departure (R99 to R102, R122) -/

/-- The port after an own telegram's departure, its entry behind the `kept` ones of the outstanding list, and before
a displaced entry is counted (R99, R101, R102, R122). -/
def RingPort.ownDeparted (r : RingPort) (p : Port) (pos : Nat) (e : QueueEntry) (rest : List QueueEntry)
    (kept : List Outstanding) (now : StationTime) : RingPort :=
  ({ r with queue := rest, outstanding := kept ++ [outstandingOf e now] } : RingPort).send now
    (encodeTelegram p (ownTelegram pos e now))

/-- With room in the outstanding list a departure displaces nothing. -/
theorem departOwn_with_room {p : Port} {e : QueueEntry} {rest : List QueueEntry} {s : State}
    (h : (s.port p).outstanding.length < 8) :
    departOwn p e rest s = s.onPort p fun r => r.ownDeparted p s.straps.pos e rest r.outstanding s.now := by
  rw [departOwn, if_pos h]
  exact onPort_congr (by rw [enterOutstanding, if_pos h]; rfl)

/-- From a full outstanding list a departure displaces the earliest entry, which is a missing return (R122). -/
theorem departOwn_at_full {p : Port} {e : QueueEntry} {rest : List QueueEntry} {s : State}
    (h : 8 ≤ (s.port p).outstanding.length) :
    departOwn p e rest s =
      missingReturn p (s.onPort p fun r => r.ownDeparted p s.straps.pos e rest (r.outstanding.drop 1) s.now) := by
  have full := Nat.not_lt.2 h
  rw [departOwn, if_neg full]
  exact congrArg _ (onPort_congr (by rw [enterOutstanding, if_neg full]; rfl))

/-- A link that is free, or busy until now, is free (R84). -/
theorem linkFree_of {r : RingPort} {now : StationTime} (h : ∀ b, r.busyUntil = some b → now = b) :
    r.linkFree now = true := by
  unfold RingPort.linkFree
  split
  next => rfl
  next b hb => rw [h b hb, reached_self]

/-- With the link free and something to send, DEPARTURE sends it (R99). -/
theorem exec_departure_of_free {p : Port} {s : State} (free : ∀ b, (s.port p).busyUntil = some b → s.now = b)
    (waiting : (s.port p).forwarding ≠ [] ∨ (s.port p).queue ≠ []) :
    exec (.departure p) s = .next (depart p s) := by
  have due : departureDue p s = true := by simpa [departureDue, linkFree_of free] using waiting
  exact congrArg Host.Outcome.next (if_pos due)

/-- Settles O39, by what departs and by what an entry displaced from a full list does to its ring. -/
theorem forwardedBeforeOwnDeparture : Obligations.ForwardedBeforeOwnDeparture := by
  intro p s free sentOn
  refine ⟨fun e rest forwards => ?forwarded, fun e rest nothing waits => ?own⟩
  case forwarded =>
    rw [exec_departure_of_free free (.inl (by simp [forwards])), depart, forwards]
    rfl
  case own =>
    intro age x entry
    have departs : exec (.departure p) s = .next (departOwn p e rest s) := by
      rw [exec_departure_of_free free (.inr (by simp [waits])), depart, nothing, waits]
    rw [departs]
    refine ⟨fun room => ?room, fun full keeps => ?keeps, fun full up third plain => ?plain,
      fun full up third last firing trips fresh => ?last⟩
    case room =>
      rw [departOwn_with_room room]
      rfl
    case keeps =>
      rw [departOwn_at_full full, missingReturn_keeps_health (by exact keeps)]
      rfl
    case plain =>
      rw [departOwn_at_full full, missingReturn_third_plain (by exact up) (by exact third) plain]
      rfl
    case last =>
      refine ⟨_, rfl, ?_⟩
      rw [departOwn_at_full full]
      exact missingReturn_third_lastRing (by exact up) (by exact third) last firing trips fresh

end Sys2Proof.Machine
end

section
/-! PROOFS. The overlap measured from the HEALTH of the outgoing valve (chapter 9). -/

namespace Sys2Proof.Machine

/-! ### The overlap of an extinction (R158) -/

theorem firingOrHold_iff (s : State) : s.firingOrHold = true ↔ s.stc.station = .firing ∨ s.inHold = true := by
  simp [State.firingOrHold]

theorem measuredMu_within {period : Nat} {x f : StationTime} (after : 0 < (x - f).toInt)
    (within : (x - f).toInt.toNat * 36000 / period ≤ 6000) :
    measuredMu period (some f) (some x) = some ((x - f).toInt.toNat * 36000 / period) :=
  if_pos ⟨after, within⟩

/-- An extinction that is not after the own firing, or gives an overlap above 6000, gives no μ (R158). -/
theorem measuredMu_outside {period : Nat} {x f : StationTime}
    (h : (x - f).toInt ≤ 0 ∨ 6000 < (x - f).toInt.toNat * 36000 / period) :
    measuredMu period (some f) (some x) = none := by
  refine if_neg fun ⟨after, within⟩ => ?_
  obtain early | wide := h
  · exact absurd after (Int.not_lt.2 early)
  · exact absurd within (Nat.not_le.2 wide)

theorem measuredMu_of_untimed (period : Nat) (previous : Option StationTime) :
    measuredMu period previous none = none := by
  rw [measuredMu]

theorem measuredMu_before_firing (period : Nat) (instant : Option StationTime) :
    measuredMu period none instant = none := by
  cases instant <;> rfl

theorem measureMu_measured {s : State} {instant : Option StationTime} {μ : Nat} (running : s.firingOrHold = true)
    (measured : measuredMu s.aru.period s.fcu.previous instant = some μ) :
    measureMu instant s = s.onCru fun c => { c with muLast := μ } := by
  rw [measureMu, if_pos running, measured]

/-- Outside FIRING and the isolation hold, or without a μ, μ_last stays (R158). -/
theorem measureMu_unmeasured {s : State} {instant : Option StationTime}
    (h : s.firingOrHold = false ∨ measuredMu s.aru.period s.fcu.previous instant = none) : measureMu instant s = s := by
  rw [measureMu]
  split
  next running =>
    obtain stopped | unmeasured := h
    · exact absurd running (Bool.eq_false_iff.1 stopped)
    · rw [unmeasured]
  next => rfl

/-! ### A HEALTH taken (R139) -/

theorem cruHealth_from_control {q : Nat} (h : 13 ≤ q) (instant : Option StationTime) (s : State) :
    cruHealth q instant s = s := by
  have : isFiringPosition q = false := by simp [isFiringPosition]; omega
  simp [cruHealth, this]

/-- A HEALTH of a firing position enters its instant in the summary; that of p − 4 is measured besides (R139, R158). -/
theorem cruHealth_from_firing {q : Nat} (h1 : 1 ≤ q) (h2 : q ≤ 12) (instant : Option StationTime) (s : State) :
    cruHealth q instant s =
      if q = (s.straps.pos + 7) % 12 + 1 then
        measureMu instant (s.onCru fun c => c.onPeer q fun p => { p with xt := instant })
      else s.onCru fun c => c.onPeer q fun p => { p with xt := instant } := by
  have firing : isFiringPosition q = true := by simp [isFiringPosition, h1, h2]
  rw [cruHealth, if_pos firing]
  rfl

/-- A HEALTH of another position, delivered outside INERT: its origin is heard and the Coordination Unit takes it. -/
theorem exec_health {q : Nat} {s : State} (h : s.stc.station ≠ .inert) (h1 : 1 ≤ q) (h2 : q ≤ 14)
    (other : q ≠ s.straps.pos) (instant : Option StationTime) :
    exec (.health q instant) s = .next (cruHealth q instant (s.hearing q (.health q instant))) :=
  (onPosition_next h1 h2).trans (congrArg _ (delivered_eq h (.inl other)))

/-- Settles O49, by the origin of the HEALTH and what its extinction measures. -/
theorem healthOfTheOutgoingValveMeasuresTheOverlap : Obligations.HealthOfTheOutgoingValveMeasuresTheOverlap := by
  intro q instant s _ _ live h1 h14 other v u
  rw [exec_health live h1 h14 other]
  refine ⟨fun control => ?control, fun X F outgoing running timed fired after within => ?measured,
    fun h12 unmeasured => ?unmeasured⟩
  case control => rw [cruHealth_from_control control]
  case measured =>
    have measured : measuredMu s.aru.period s.fcu.previous instant = some _ :=
      fired ▸ timed ▸ measuredMu_within after within
    rw [cruHealth_from_firing h1 (by omega), if_pos (by exact outgoing)]
    exact congrArg Host.Outcome.next (measureMu_measured (s := u) ((firingOrHold_iff s).2 running) measured)
  case unmeasured =>
    rw [cruHealth_from_firing h1 h12]
    split
    next outgoing =>
      refine congrArg Host.Outcome.next (measureMu_unmeasured (s := u) ?_)
      show s.firingOrHold = false ∨ measuredMu s.aru.period s.fcu.previous instant = none
      obtain elsewhere | ⟨notFiring, noHold⟩ | untimed | unfired | ⟨X, F, timed, fired, outside⟩ := unmeasured
      · exact absurd outgoing elsewhere
      · exact .inl (by simp [State.firingOrHold, notFiring, noHold])
      · exact .inr (untimed ▸ measuredMu_of_untimed _ _)
      · exact .inr (unfired ▸ measuredMu_before_firing _ _)
      · exact .inr (fired ▸ timed ▸ measuredMu_outside outside)
    next => rfl

end Sys2Proof.Machine
end

section
/-! PROOFS. DEBLOCK at the Station Controller (chapter 10). -/

namespace Sys2Proof.Machine

/-! ### Acceptance and entry to FIRING (R174) -/

theorem acceptsDeblock_iff (s : State) :
    acceptsDeblock s = true ↔
      s.stc.station = .blocked ∧ s.aru.lock = .locked ∧ s.lmon.redundancy ≠ .exhausted := by
  simp [acceptsDeblock, and_assoc]

/-- Taking an ORDER changes nothing that decides on a DEBLOCK. -/
theorem acceptsDeblock_orderTaken (s : State) (o : Order) (c : Instr) :
    acceptsDeblock (s.orderTaken o c) = acceptsDeblock s := by
  simp only [acceptsDeblock, orderTaken_station]
  rfl

/-- What entry to FIRING writes (R77, R144, R150, R174, R183, R193); the schedule and all else stay. -/
theorem enterFiring_eq (s : State) :
    enterFiring s =
      { s with
        stc := { s.stc with station := .firing, tripLine := false, readyLine := true, fired := true }
        fcu := { s.fcu with previous := none }
        cru := { s.cru with
          predecessor := none, missCount := 0, inversionMark := false, firedSince := false, bridgeHeard := false } } :=
  rfl

/-- Settles O43: a DEBLOCK under a new key reaches the Station Controller, which accepts it by what held before the
ORDER was taken. -/
theorem deblockEntersFiringOrIsRefused : Obligations.DeblockEntersFiringOrIsRefused := by
  intro o s active live newKey u
  have reaches : exec (.deblock o) s = .next (stcDeblock u) :=
    (exec_activeOrder (mk := .deblock) (k := .deblock) active live).trans (congrArg _ (if_neg newKey))
  have accepts : acceptsDeblock u = true ↔
      s.stc.station = .blocked ∧ s.aru.lock = .locked ∧ s.lmon.redundancy ≠ .exhausted := by
    rw [acceptsDeblock_orderTaken, acceptsDeblock_iff]
  rw [reaches, stcDeblock]
  by_cases accepted : acceptsDeblock u = true
  case pos => rw [if_pos accepted, if_pos (accepts.1 accepted), enterFiring_eq]
  case neg => rw [if_neg accepted, if_neg (accepts.not.1 accepted)]

end Sys2Proof.Machine
end

section
/-! PROOFS. The fault table and the settings (chapter 11): CLEAR, and SETTINGS taken into range, accepted once and
compared. -/

namespace Sys2Proof.Machine

/-! ### The fault table (R185) -/

/-- Every place of the table belongs to a fault. -/
theorem code_surjective : Function.Surjective FaultCode.code := fun i => ⟨FaultCode.all.get i, by decide +revert⟩

/-- Two tables are one when they agree at every fault. -/
theorem faultTable_ext_iff {α : Type} {v w : Vector α 12} :
    v = w ↔ ∀ f : FaultCode, v.get f.code = w.get f.code := by
  refine ⟨fun e f => e ▸ rfl, fun agree => Vector.ext fun i hi => ?_⟩
  obtain ⟨f, place⟩ := code_surjective ⟨i, hi⟩
  have here := agree f
  rw [place] at here
  exact here

/-- A table changed record by record is changed at every fault. -/
theorem get_map_code {α β : Type} (v : Vector α 12) (g : α → β) (f : FaultCode) :
    (v.map g).get f.code = g (v.get f.code) :=
  Vector.getElem_map g f.code.isLt

/-- The fault table is the list of its faults' records in the order of their codes. -/
theorem faults_eq_map (c : Stc) : c.faults = FaultCode.all.map c.fault :=
  faultTable_ext_iff.2 fun f => (fault_map f c.fault).symm

/-! ### CLEAR (R189) -/

/-- Settles O46: a CLEAR under a new key reaches the Station Controller, which acts on it in BLOCKED only. -/
theorem clearLowersReportFlagsInBlocked : Obligations.ClearLowersReportFlagsInBlocked := by
  intro o s active live newKey u
  have reaches : exec (.clear o) s = .next (stcClear u) :=
    (exec_activeOrder (mk := .clear) (k := .clear) active live).trans (congrArg _ (if_neg newKey))
  have station : u.stc.station = s.stc.station := orderTaken_station s o _
  rw [reaches, stcClear, station]
  exact ⟨fun blocked => ⟨_, congrArg _ (if_pos blocked), rfl, get_map_code u.stc.faults _⟩,
    fun elsewhere => congrArg _ (if_neg elsewhere)⟩

/-! ### SETTINGS taken into range (R115, R185) -/

/-- The four modes in the order of their codes (R105). -/
theorem getElem?_modes {n : Nat} (h : n < 4) :
    [FaultMode.trip, .block, .report, .ignore][n]? = some (modeOfCode n) := by
  interval_cases n <;> rfl

theorem settingMode_of_field {f : FaultCode} {b : Nat} (modes : BitVec 16) (h : f.modeBit = some b) :
    settingMode modes f = f.takenMode (modeOfCode ((modes.toNat / 2 ^ b) % 4)) := by
  rw [settingMode, h]

theorem settingMode_without_field {f : FaultCode} (modes : BitVec 16) (h : f.modeBit = none) :
    settingMode modes f = f.defaultMode := by
  rw [settingMode, h]

/-! ### The settings in force (R193 to R195) -/

theorem acceptsSettings_iff (c : Stc) :
    c.acceptsSettings = true ↔
      (c.station = .start ∨ c.station = .survey ∨ c.station = .blocked) ∧ c.fired = false ∧ c.frozen = false := by
  simp [Stc.acceptsSettings, and_assoc, or_assoc]

/-- The settings replaced give every fault its new mode; its flag and its count stay. -/
theorem settle_fault (c : Stc) (r : RawSettings) (f : FaultCode) :
    (c.settle (settingsContent r)).fault f = { c.fault f with mode := settingMode r.modes f } :=
  (get_mapFinIdx _ _ f.code).trans
    (congrArg (fun m => ({ c.fault f with mode := m } : FaultRecord)) (fault_map f (settingMode r.modes)))

/-- A SETTINGS has the content in force when the three numbers and every fault's mode agree. -/
theorem settingsContent_eq_inForce_iff (r : RawSettings) (c : Stc) :
    settingsContent r = c.settingsInForce ↔
      c.gammaMin = (settingsContent r).gammaMin ∧ c.gammaAlarm = (settingsContent r).gammaAlarm ∧
        c.gain = (settingsContent r).gain ∧ ∀ f : FaultCode, (c.fault f).mode = settingMode r.modes f := by
  rw [Stc.settingsInForce, settingsContent, SettingsContent.mk.injEq]
  refine and_congr eq_comm (and_congr eq_comm (and_congr eq_comm ?_))
  refine faultTable_ext_iff.trans (forall_congr' fun f => ?_)
  rw [fault_map, get_map_code, eq_comm]
  rfl

/-! ### SETTINGS judged (R186, R194) -/

/-- A fault in mode REPORT is counted, its flag is set, and nothing else follows (R186). -/
theorem takeFault_report {s : State} {f : FaultCode} (h : (s.stc.fault f).mode = .report) :
    takeFault f s =
      { s with stc := s.stc.onFault f fun r => { r with active := true, count := min 127 (r.count + 1) } } := by
  have occurs : FaultRecord.occurred (s.stc.fault f) =
      { s.stc.fault f with active := true, count := min 127 ((s.stc.fault f).count + 1) } := by
    simp [FaultRecord.occurred, h, satSucc]
  rw [takeFault_recorded (.inl h), State.recordFault, State.onStc, Stc.onFault, Stc.onFault, occurs]

/-- SETTINGS_REJECTED stands at REPORT, its one mode (R185). -/
theorem settingsRejected_mode {c : Stc} (h : FaultTableInRange c) : (c.fault .settingsRejected).mode = .report :=
  of_decide_eq_true (h .settingsRejected).1

/-- A SETTINGS of another position, delivered outside INERT: its origin is heard and the Station Controller judges
it. -/
theorem exec_settings {q : Nat} {s : State} (h : s.stc.station ≠ .inert) (h1 : 1 ≤ q) (h2 : q ≤ 14)
    (other : q ≠ s.straps.pos ∨ 12 < s.straps.pos) (r : RawSettings) :
    exec (.settings q r) s = .next (stcSettings q r (s.hearing q (.settings q r))) :=
  (onPosition_next h1 h2).trans (congrArg _ (delivered_eq h other))

theorem isControlPosition_iff {q : Nat} (h : q ≤ 14) : isControlPosition q = true ↔ 13 ≤ q := by
  simp [isControlPosition]; omega

theorem stcSettings_from_control {q : Nat} (h : isControlPosition q = true) (r : RawSettings) (s : State) :
    stcSettings q r s =
      if s.stc.acceptsSettings then s.onStc fun c => c.settle (settingsContent r)
      else if settingsContent r = s.stc.settingsInForce then s
      else takeFault .settingsRejected s := by
  rw [stcSettings, h]; rfl

theorem stcSettings_from_station {q : Nat} (h : isControlPosition q = false) (r : RawSettings) (s : State) :
    stcSettings q r s = s := by
  rw [stcSettings, h]; rfl

/-- Settles O52, by the origin of the SETTINGS, whether it is accepted, and whether its content is in force. -/
theorem settingsAreAcceptedOnceBeforeFiring : Obligations.SettingsAreAcceptedOnceBeforeFiring := by
  intro q r s live h1 h14 other range u low alarm gain code row coded mode taken same
  have rows : ∀ f m, (f.allows m = true ↔ m ∈ (row f).1) ∧ f.defaultMode = (row f).2 := by
    intro f m
    cases f <;> simp [row, FaultCode.allows, FaultCode.defaultMode]
  have fields : ∀ f, code f = f.modeBit.elim 4 fun b => (r.modes.toNat / 2 ^ b) % 4 := by
    intro f
    cases f <;> rfl
  have modes : ∀ f, mode f = settingMode r.modes f := by
    intro f
    cases field : f.modeBit with
    | none =>
      have uncoded : coded (code f) = none := by rw [fields, field]; rfl
      rw [settingMode_without_field _ field, (rows f .report).2]
      simp only [mode, uncoded]
    | some b =>
      have named : coded (code f) = some (modeOfCode ((r.modes.toNat / 2 ^ b) % 4)) := by
        rw [fields, field]
        exact getElem?_modes (Nat.mod_lt _ (by decide))
      simp only [settingMode_of_field _ field, mode, named, FaultCode.takenMode, (rows f _).1, (rows f .report).2]
  have accepts : u.stc.acceptsSettings = true ↔ taken := acceptsSettings_iff s.stc
  have inForce : settingsContent r = u.stc.settingsInForce ↔ same := by
    simp only [same, modes]
    exact settingsContent_eq_inForce_iff r s.stc
  rw [exec_settings live h1 h14 other]
  refine ⟨rows, fun h12 => ?station, fun control accepted => ?accepted, fun control notTaken isSame => ?compared,
    fun control notTaken differs => ?rejected⟩
  case station =>
    have notControl : isControlPosition q = false :=
      Bool.eq_false_iff.2 ((isControlPosition_iff h14).not.2 (by omega))
    rw [stcSettings_from_station notControl]
  all_goals rw [stcSettings_from_control ((isControlPosition_iff h14).2 control)]
  case accepted =>
    rw [if_pos (accepts.2 accepted)]
    exact ⟨_, rfl, rfl, fun f => (settle_fault s.stc r f).trans (by rw [modes])⟩
  case compared => rw [if_neg (accepts.not.2 notTaken), if_pos (inForce.2 isSame)]
  case rejected =>
    rw [if_neg (accepts.not.2 notTaken), if_neg (inForce.not.2 differs),
      takeFault_report (by exact settingsRejected_mode range)]

end Sys2Proof.Machine
end

section
/-! PROOFS. QUERY and REPORT (chapter 11): the content of the pages, and a QUERY judged. -/

namespace Sys2Proof.Machine

/-! ### The content of the pages (R117 to R120) -/

theorem levelEntry_live {s : State} {i : Fin 80} (h : i.val < s.straps.nlev) :
    levelEntry s i = levelBytes (s.level i) := by
  simp only [levelEntry, if_pos h, Nat.mul_comm _ 64, Nat.mul_comm _ 16]
  rfl

theorem levelEntry_dark {s : State} {i : Fin 80} (h : ¬i.val < s.straps.nlev) : levelEntry s i = [0, 0] := by
  rw [levelEntry, if_neg h]

/-- A level page is laid out by R117: every index of a page 0..9 is an index of the level table. -/
theorem levelPage_eq (s : State) {k : Nat} (h : k ≤ 9) : levelPage s k = levelPageBytes s k := by
  have entry : ∀ j : Fin 8, levelEntry s (Fin.ofNat 80 (8 * k + j.val)) =
      if 8 * k + j.val < s.straps.nlev then levelBytes (s.level (Fin.ofNat 80 (8 * k + j.val))) else [0, 0] := by
    intro j
    have index : (Fin.ofNat 80 (8 * k + j.val)).val = 8 * k + j.val := Nat.mod_eq_of_lt (by omega)
    split
    next live => exact levelEntry_live (index.symm ▸ live)
    next dark => exact levelEntry_dark (index.symm ▸ dark)
  have indices : [0, 1, 2, 3, 4, 5, 6, 7] = (List.finRange 8).map Fin.val := by decide
  rw [levelPage, levelPageBytes, indices, List.flatMap_map]
  exact List.flatMap_congr fun j _ => entry j

theorem length_levelBytes (l : Level) : (levelBytes l).length = 2 := rfl

theorem length_levelPageBytes (s : State) (k : Nat) : (levelPageBytes s k).length = 16 := by
  simp only [levelPageBytes, List.length_flatMap, apply_ite List.length, length_levelBytes]
  simp

theorem faultPage_eq (s : State) : faultPage s = faultPageBytes s := by
  simp only [faultPage, modeByte, Nat.mul_comm _ 64, Nat.mul_comm _ 16, Nat.mul_comm _ 4, faults_eq_map s.stc,
    Vector.toList_map, List.map_map]
  rfl

theorem counterPage_eq (s : State) : counterPage s = counterPageBytes s := by
  simp [counterPage, counterPageBytes, countBytes]

/-- The content of a REPORT is laid out by the tables. -/
theorem pageContent_eq (s : State) (page : Nat) : pageContent s page = pageBytes s page := by
  rw [pageContent, pageBytes, faultPage_eq, counterPage_eq]
  split
  next level => exact levelPage_eq s level
  next => rfl

theorem length_pageBytes (s : State) (page : Nat) : (pageBytes s page).length = 16 := by
  rw [pageBytes]
  split
  next => exact length_levelPageBytes s page
  next =>
    split
    next => rfl
    next => split <;> rfl

/-! ### A QUERY judged (R116, R192) -/

theorem originateReport_eq {s : State} (page : Nat) (h1 : s.stc.station ≠ .start) (h2 : s.stc.station ≠ .inert) :
    originateReport page s =
      { s with rif := s.rif.originated .report (BitVec.ofNat 8 page :: pageBytes s page) none } := by
  rw [originateReport, originate, if_neg (not_or.2 ⟨h1, h2⟩), pageContent_eq]
  rfl

/-- A QUERY is acted on under three conditions (R192). -/
theorem ignoresQuery_iff {q : Nat} (h : q ≤ 14) (target : Nat) (s : State) :
    (!isControlPosition q || target ≠ s.straps.pos || s.stc.station = .start) = true ↔
      ¬(13 ≤ q ∧ target = s.straps.pos ∧ s.stc.station ≠ .start) := by
  simp only [← isControlPosition_iff h, Bool.or_eq_true, Bool.not_eq_true', decide_eq_true_eq, not_and_or, not_not,
    Bool.not_eq_true, or_assoc, ne_eq]

theorem cruQuery_acted {q target : Nat} {s : State} (h : q ≤ 14)
    (acted : 13 ≤ q ∧ target = s.straps.pos ∧ s.stc.station ≠ .start) (page : Nat) :
    cruQuery q target page s =
      if page ≤ 12 then originateReport page s
      else s.onCru fun c => { c with badPages := satSucc 255 c.badPages } := by
  rw [cruQuery, if_neg ((ignoresQuery_iff h target s).not.2 (not_not.2 acted))]

theorem cruQuery_ignored {q target : Nat} {s : State} (h : q ≤ 14)
    (ignored : ¬(13 ≤ q ∧ target = s.straps.pos ∧ s.stc.station ≠ .start)) (page : Nat) :
    cruQuery q target page s = s := by
  rw [cruQuery, if_pos ((ignoresQuery_iff h target s).2 ignored)]

/-- A QUERY of another position, delivered outside INERT: its origin is heard and the Coordination Unit judges it. -/
theorem exec_query {q : Nat} {s : State} (h : s.stc.station ≠ .inert) (h1 : 1 ≤ q) (h2 : q ≤ 14)
    (other : q ≠ s.straps.pos ∨ 12 < s.straps.pos) (target page : Nat) :
    exec (.query q target page) s = .next (cruQuery q target page (s.hearing q (.query q target page))) :=
  (onPosition_next h1 h2).trans (congrArg _ (delivered_eq h other))

/-- Settles O53, by whether the QUERY is acted on and by its page; a REPORT has no act beyond being heard. -/
theorem queriesAreAnsweredAndReportsHeard : Obligations.QueriesAreAnsweredAndReportsHeard := by
  intro q target page s live h1 h14 other u acted
  rw [exec_query live h1 h14 other]
  refine ⟨(onPosition_next h1 h14).trans (congrArg _ (delivered_eq live other)), fun acts valid => ?answered,
    fun acts bad => ?badPage, fun idle => ?ignored⟩
  case answered =>
    refine ⟨length_pageBytes s page, ?_⟩
    rw [cruQuery_acted h14 (by exact acts), if_pos valid, originateReport_eq page (by exact acts.2.2) (by exact live)]
    rfl
  case badPage =>
    rw [cruQuery_acted h14 (by exact acts), if_neg (Nat.not_le.2 bad)]
    rfl
  case ignored => rw [cruQuery_ignored h14 (by exact idle)]

end Sys2Proof.Machine
end

section
/-! PROOFS. The bypass and the train agree after every step (chapters 1 and 10). -/

namespace Sys2Proof.Machine

/-! ### RESET, START_EXIT and the Station Controller's own events -/

theorem resetTo_agreed (straps : Straps) (s : State) : Agreed (resetTo straps s) where
  hold h := absurd h (by simp [resetTo, State.reset, Stc.reset])
  record h := absurd h (by simp [resetTo, State.reset, Stc.reset])
  fired h := absurd h (by simp [resetTo, State.reset, Stc.reset])
  lit := rfl
  schedule h := absurd h (by simp [resetTo, State.reset, Fcu.reset])

theorem leaveStart_agreed {s : State} (k : Agreed s) (h : s.stc.station = .start) : Agreed (leaveStart s) := by
  have hold := k.holdOff (by simp [h])
  have none := k.recordNone (by simp [h]) (by simp [h])
  have unscheduled : s.fcu.schedule.isSome = true → False := fun e => by
    rcases k.schedule e with e | e <;> simp [h] at e
  have off : s.stc.holdRunning = true → False := fun e => by simp [hold] at e
  have empty : s.stc.record.isSome = true → False := fun e => by simp [none] at e
  unfold leaveStart
  split
  · exact ⟨⟨fun e => (off e).elim, fun e => (empty e).elim, fun e => by simp at e, k.lit⟩,
      fun e => (unscheduled e).elim⟩
  · exact ⟨⟨fun e => (off e).elim, fun e => (empty e).elim, fun e => by simp at e, k.lit⟩,
      fun e => (unscheduled e).elim⟩

theorem settleRecord_agreed : KeepsAgreement settleRecord := fun s k => by
  refine ⟨⟨k.hold, fun e => k.record ?_, k.fired, ?_⟩, k.schedule⟩
  · simpa [settleRecord] using e
  · have lit : (settleRecord s).bypassLit = s.isMember := k.lit
    rw [lit, isMember_eq, isMember_eq]
    cases h : s.stc.record <;> simp [settleRecord, h]

theorem stopHold_cancel_agreed {s : State} (k : Agreed s) (h : s.stc.holdRunning = true) :
    Agreed (cancelSchedule (stopHold s)) := by
  have tripped := k.hold h
  exact cancelSchedule_well _ ⟨fun e => by simp at e, k.record, k.fired, k.lit⟩ (by simp [tripped])

/-! ### The train -/

theorem modeView_trainMainEnd (s : State) : (s.onTrain (trainMainEnd s.now)).modeView = s.modeView := by
  refine modeView_onTrain ?_
  unfold State.bypassLit
  by_cases due : mainEndDue s.now s.lca.train = true
  · cases h : s.lca.train <;> simp_all [trainMainEnd]
  · simp only [trainMainEnd, if_neg due]

theorem modeView_trainLimit (s : State) : (s.onTrain (trainLimit s.now)).modeView = s.modeView := by
  refine modeView_onTrain ?_
  unfold State.bypassLit
  rcases s.lca.train with _ | r
  · rfl
  · cases hk : r.kind with
    | bypass => simp [trainLimit, hk]
    | normal limit xref => by_cases hr : reached s.now limit = true <;> simp [trainLimit, hk, hr]

/-! ### The rings -/

theorem matchedReturn_agreed (p) : KeepsAgreement (matchedReturn p) := fun _ k =>
  healthChanged_agreed _ _ _ (k.congr (modeView_onRif _ _))

theorem missingReturn_agreed (p) : KeepsAgreement (missingReturn p) := fun _ k =>
  healthChanged_agreed _ _ _ (k.congr (modeView_onRif _ _))

theorem ownReturn_agreed (p q age hops stamp) : KeepsAgreement (ownReturn p q age hops stamp) := fun s k => by
  unfold ownReturn
  split
  · exact matchedReturn_agreed p _ (k.congr (modeView_onRif _ _))
  · exact k

theorem depart_agreed (p) : KeepsAgreement (depart p) := fun s k => by
  unfold depart
  split
  · exact k.same rfl
  · unfold departOwn
    simp only
    split
    · exact k.same rfl
    · exact missingReturn_agreed p _ (k.same rfl)
  · exact k

/-! ### Every command -/

theorem holdoverLimit_agreed : KeepsAgreement holdoverLimit := fun s k => by
  unfold holdoverLimit
  split
  · refine inAnyOrder_agreed (fun f hf => ?_) s k
    simp only [List.mem_cons, List.not_mem_nil, or_false] at hf
    rcases hf with rfl | rfl
    · exact enterFree_agreed
    · exact takeFault_agreed _
  · split
    · exact declareMiss_agreed s k
    · exact k

theorem detectOverdue_agreed (d) : KeepsAgreement fun s => detectFailure takeFault 1 d (discardWatch s) := fun s k =>
  detectFailure_agreed takeFault_agreed _ _ _ (k.congr (modeView_discardWatch s))

/-- A delivered command that runs keeps the agreement when the act of its block does. -/
theorem delivery_agreed {q : Nat} {c : Instr} {act : State → State} {s t : State} (k : Agreed s)
    (h : KeepsAgreement act) (e : onPosition q (delivered c q act s) = .next t) : Agreed t :=
  onPosition_agreed (delivered_agreed h s k) e

/-- Every command keeps the agreement of the station state, the bypass record and the train. -/
theorem exec_agreed {c : Instr} {s t : State} (k : Agreed s) (e : exec c s = .next t) : Agreed t := by
  cases c with
  | hold o => exact delivery_agreed k (cruOrder_agreed _ o) e
  | deblock o => exact delivery_agreed k (cruOrder_agreed _ o) e
  | block o => exact delivery_agreed k (cruOrder_agreed _ o) e
  | bypassBlock o => exact delivery_agreed k (cruOrder_agreed _ o) e
  | clear o => exact delivery_agreed k (cruOrder_agreed _ o) e
  | fire f => exact delivery_agreed k (cruFire_agreed f) e
  | health q i => exact delivery_agreed k (cruHealth_agreed q i) e
  | margin q γ =>
    refine delivery_agreed k (.of_view fun s => ?_) e
    unfold cruMargin; split
    · exact modeView_requestMargin _ _ s
    · rfl
  | cfail q a b =>
    refine delivery_agreed k (.of_view fun s => ?_) e
    unfold cruCfail; split <;> rfl
  | bypass b => exact delivery_agreed k (takeBypass_agreed b) e
  | settings q r => exact delivery_agreed k (stcSettings_agreed q r) e
  | query q a b => exact delivery_agreed k (cruQuery_agreed q a b) e
  | report q => exact delivery_agreed k (fun _ h => h) e
  | peerLost q =>
    refine onPosition_agreed ?_ e
    split
    · exact k.same rfl
    · exact k
  | reset straps => cases e; exact resetTo_agreed straps s
  | startExit =>
    cases e
    split
    · rename_i h
      simp only [startOver, Bool.and_eq_true, decide_eq_true_eq] at h
      exact leaveStart_agreed k h.1
    · exact k
  | indication i =>
    cases e
    unfold fallingEdge
    simp only
    split
    · exact takeIndication_agreed _ _ _ _ (k.same rfl)
    · exact k.same rfl
  | channelStuck i =>
    cases e
    unfold channelStuck
    split
    · exact takeIndication_agreed _ _ _ _ (k.same rfl)
    · exact k
  | stuckRecovery i =>
    cases e
    split
    · exact k.same rfl
    · exact k
  | qualifiedCrossing =>
    cases e
    unfold qualifiedCrossing
    split
    · exact takeCrossing_agreed _ _ (k.same rfl)
    · exact k
  | miss =>
    cases e
    split
    · exact declareMiss_agreed s k
    · exact k
  | holdoverLimit => cases e; exact holdoverLimit_agreed s k
  | acquisitionTimeout =>
    cases e
    split
    · exact enterFree_agreed s k
    · exact k
  | cycleMarkFallback =>
    cases e
    split
    · exact cycleMark_agreed _ s k
    · exact k
  | firingInstant =>
    cases e
    split
    · exact fireAt_agreed _ s k
    · exact k
  | mainPulseEnd => cases e; exact k.congr (modeView_trainMainEnd s)
  | conductionLimit => cases e; exact k.congr (modeView_trainLimit s)
  | overdueDeadline =>
    cases e
    split
    · exact detectOverdue_agreed _ s k
    · exact k
  | telegramArrival p run => cases e; exact k.congr (arrive_view p run s)
  | ownTelegramReturn p q age hops stamp => cases e; exact ownReturn_agreed _ _ _ _ _ _ (k.same rfl)
  | returnTimerExpiry p =>
    cases e
    split
    · exact missingReturn_agreed p _ (k.same rfl)
    · exact k
  | departure p =>
    cases e
    split
    · exact depart_agreed p s k
    · exact k
  | settleDeadline =>
    cases e
    split
    · exact settleRecord_agreed s k
    · exact k
  | escalationEntryExpiry =>
    cases e
    split
    · exact k.same rfl
    · exact k
  | isolationHoldEnd =>
    cases e
    split
    · rename_i h
      simp only [holdOver, Bool.and_eq_true] at h
      exact stopHold_cancel_agreed k h.1
    · exact k
  | indicationRisingEdge i => cases e; exact k.same rfl
  | qualificationStart => cases e; exact k.same rfl
  | qualificationFailure => cases e; exact k.same rfl

/-- A step with no command waiting changes nothing the agreement reads. -/
theorem modeView_idle (s : State) : (idle s).modeView = s.modeView := by
  unfold idle; split <;> rfl

/-- Every step keeps the agreement. -/
theorem step_agreed {s t : State} (k : Agreed s) (e : step s = .next t) : Agreed t := by
  unfold step at e
  split at e
  · refine exec_agreed ?_ e
    exact k.same rfl
  · cases e; exact k.congr (modeView_idle s)

/-- Settles O60: the agreement of modes, record and train is an invariant of every step. -/
theorem trainIsABypassTrainExactlyForAMember : Obligations.TrainIsABypassTrainExactlyForAMember := fun s t sound lit e =>
  ((agreed_iff t).1 (step_agreed ((agreed_iff s).2 ⟨sound.modes, lit⟩) e)).2

end Sys2Proof.Machine
end

section
/-! PROOFS. What the operations behind the commands keep of the station state, the isolation hold, the schedule, the
ordered angle and the overlap. `Steady` says what every one of them does alone, `Calm` adds that a schedule stands only
where firings are made: a station that leaves FIRING has done both once its schedule is cancelled. -/

namespace Sys2Proof.Machine

/-! ### Steady and calm -/

/-- The station states that operations other than an entry to FIRING, an adoption, a BLOCK and the exit from START lead
to: a survey ends in BLOCKED, FIRING ends in BLOCKED, and every station may trip. -/
def falls : Station → Station → Bool
  | .start, t => t = .start
  | .inert, t => t = .inert
  | .survey, t => t = .survey || t = .blocked || t = .tripped
  | .blocked, t => t = .blocked || t = .tripped
  | .firing, t => t = .firing || t = .blocked || t = .tripped
  | .bypass, t => t = .bypass || t = .tripped
  | .tripped, t => t = .tripped

theorem falls_refl (x : Station) : falls x x = true := by cases x <;> decide

theorem falls_trans {x y z : Station} (h : falls x y = true) (k : falls y z = true) : falls x z = true := by
  revert h k; cases x <;> cases y <;> cases z <;> decide

theorem canFollow_of_falls {x y : Station} (h : falls x y = true) : canFollow x y = true := by
  revert h; cases x <;> cases y <;> decide

/-- A tripped station stays so. -/
theorem falls_tripped {x y : Station} (h : falls x y = true) (e : x = .tripped) : y = .tripped := by
  subst e; simpa [falls] using h

/-- A station in FIRING was there before. -/
theorem falls_firing {x y : Station} (h : falls x y = true) (e : y = .firing) : x = .firing := by
  subst e; revert h; cases x <;> decide

/-- What every operation keeps that enters neither FIRING nor BYPASS and ends no bypass. -/
structure Steady (s t : State) : Prop where
  station : falls s.stc.station t.stc.station = true
  hold : t.stc.holdRunning = true → s.stc.holdRunning = true ∨ t.stc.station = .tripped
  record : t.stc.record.isSome = true → s.stc.record.isSome = true ∨ t.stc.station = .tripped
  fired : s.stc.fired = true → t.stc.fired = true
  angle : AngleInRange s → AngleInRange t
  overlap : OverlapInRange s.cru → OverlapInRange t.cru

/-- A schedule stands only in FIRING or within the isolation hold (R63, R75). -/
def ScheduleStands (s : State) : Prop :=
  s.fcu.schedule.isSome = true → s.stc.station = .firing ∨ (s.stc.station = .tripped ∧ s.stc.holdRunning = true)

/-- An operation that is steady and leaves a schedule only where one may stand. -/
structure Calm (s t : State) : Prop extends Steady s t where
  schedule : ScheduleStands s → ScheduleStands t

/-- An operation that is calm from every state. -/
abbrev IsCalm (f : State → State) : Prop := ∀ s, Calm s (f s)

/-- An operation that is steady from every state. -/
abbrev IsSteady (f : State → State) : Prop := ∀ s, Steady s (f s)

theorem Steady.refl (s : State) : Steady s s := ⟨falls_refl _, .inl, .inl, id, id, id⟩

theorem Steady.trans {s t u : State} (h : Steady s t) (k : Steady t u) : Steady s u where
  station := falls_trans h.station k.station
  hold e := (k.hold e).elim (fun e => (h.hold e).imp id (falls_tripped k.station)) .inr
  record e := (k.record e).elim (fun e => (h.record e).imp id (falls_tripped k.station)) .inr
  fired e := k.fired (h.fired e)
  angle e := k.angle (h.angle e)
  overlap e := k.overlap (h.overlap e)

theorem Calm.refl (s : State) : Calm s s := ⟨.refl s, id⟩

theorem Calm.trans {s t u : State} (h : Calm s t) (k : Calm t u) : Calm s u :=
  ⟨h.toSteady.trans k.toSteady, fun e => k.schedule (h.schedule e)⟩

/-- Steady operations keep the agreement of the modes where the schedule stands as it may. -/
theorem Calm.modes {s t : State} (h : Calm s t) (k : ModeConsistent s) : ModeConsistent t where
  schedule := h.schedule k.schedule
  hold e := (h.hold e).elim (fun e => falls_tripped h.station (k.hold e)) id
  record e := (h.record e).elim
    (fun e => (k.record e).elim
      (fun b => by
        have := h.station
        rw [b] at this
        simpa [falls] using this)
      (fun e => .inr (falls_tripped h.station e)))
    .inr
  fired e := h.fired (k.fired (falls_firing h.station e))

/-- A steady operation that leaves no schedule is calm. -/
theorem Steady.calm {s t : State} (h : Steady s t) (k : t.fcu.schedule = none) : Calm s t :=
  ⟨h, fun _ e => by simp [k] at e⟩

/-- What `Calm` reads of a state. -/
def State.calmView (s : State) : Station × Option BlockRecord × Bool × Bool × Bool × Nat × Nat :=
  (s.stc.station, s.stc.record, s.stc.holdRunning, s.stc.fired, s.fcu.schedule.isSome, s.fcu.alphaReq, s.cru.muLast)

theorem Calm.of_view {s t : State} (h : t.calmView = s.calmView) : Calm s t := by
  simp only [State.calmView, Prod.mk.injEq] at h
  obtain ⟨station, record, hold, fired, schedule, angle, overlap⟩ := h
  refine ⟨⟨by rw [station]; exact falls_refl _, by rw [hold]; exact .inl, by rw [record]; exact .inl,
    by rw [fired]; exact id, ?_, ?_⟩, ?_⟩
  · unfold AngleInRange; rw [angle]; exact id
  · unfold OverlapInRange; rw [overlap]; exact id
  · unfold ScheduleStands; rw [schedule, station, hold]; exact id

/-- A calm operation after a change that `Calm` does not read. -/
theorem IsCalm.after {f : State → State} (h : IsCalm f) {s t : State} (e : t.calmView = s.calmView) : Calm s (f t) :=
  (Calm.of_view e).trans (h t)

/-! ### Lists of changes -/

theorem inTurn_steady {fs : List (State → State)} (h : ∀ f ∈ fs, IsSteady f) : IsSteady (inTurn fs) := fun s =>
  inTurn_keeps (P := Steady s) (.refl s) fun f hf t ht => ht.trans (h f hf t)

theorem inAnyOrder_steady {fs : List (State → State)} (h : ∀ f ∈ fs, IsSteady f) : IsSteady (inAnyOrder fs) := fun s =>
  inAnyOrder_keeps (P := Steady s) (Calm.of_view (s := s) (t := s.drawn) rfl).toSteady fun f hf t ht => ht.trans (h f hf t)

theorem inTurn_calm {fs : List (State → State)} (h : ∀ f ∈ fs, IsCalm f) : IsCalm (inTurn fs) := fun s =>
  inTurn_keeps (P := Calm s) (.refl s) fun f hf t ht => ht.trans (h f hf t)

theorem inAnyOrder_calm {fs : List (State → State)} (h : ∀ f ∈ fs, IsCalm f) : IsCalm (inAnyOrder fs) := fun s =>
  inAnyOrder_keeps (P := Calm s) (.of_view rfl) fun f hf t ht => ht.trans (h f hf t)

theorem inTwoStreams_calm {fs gs : List (State → State)} (h : ∀ f ∈ fs ++ gs, IsCalm f) :
    IsCalm (inTwoStreams fs gs) := fun s =>
  inTwoStreams_keeps (P := Calm s) (.of_view rfl) fun f hf t ht => ht.trans (h f hf t)

/-! ### Operations that touch nothing of it -/

theorem originate_calm (k p e) : IsCalm (originate k p e) := fun s =>
  .of_view (by simp [State.calmView])

theorem recordFault_calm (f) : IsCalm (·.recordFault f) := fun _ => .of_view rfl

theorem clearFault_calm (f) : IsCalm (·.clearFault f) := fun _ => .of_view rfl

theorem requestMargin_calm (q γ) : IsCalm (requestMargin q γ) := fun s => .of_view (by unfold requestMargin; split <;> rfl)

theorem requestCfail_calm (q) : IsCalm (requestCfail q) := fun _ => .of_view rfl

theorem membershipActs_calm (was is : Bool) : ∀ f ∈ membershipActs was is, IsCalm f := by
  intro f hf s
  cases was <;> cases is <;> simp only [membershipActs, List.mem_cons, List.not_mem_nil, or_false] at hf
  · rcases hf with rfl | rfl <;> exact .of_view rfl
  · subst hf; exact .of_view rfl
  · subst hf; exact .of_view rfl

/-! ### Entering a station state -/

/-- A station state entered from one that falls to it; a schedule does not outlive FIRING. -/
theorem enter_steady {s : State} {x : Station} (h : falls s.stc.station x = true) : Steady s (s.enter x) :=
  ⟨h, .inl, .inl, id, id, id⟩

/-- A station that stands neither in FIRING nor in TRIPPED has nothing scheduled. -/
theorem enter_calm {s : State} {x : Station} (h : falls s.stc.station x = true) (h1 : s.stc.station ≠ .firing)
    (h2 : s.stc.station ≠ .tripped) : Calm s (s.enter x) :=
  ⟨enter_steady h, fun k e => ((k e).elim h1 fun e => h2 e.1).elim⟩

theorem surveyTest_calm : IsCalm surveyTest := fun s => by
  unfold surveyTest
  split
  · rename_i h
    split
    · exact enter_calm (by rw [h]; decide) (by simp [h]) (by simp [h])
    · split
      · exact enter_calm (by rw [h]; decide) (by simp [h]) (by simp [h])
      · exact .refl s
  · exact .refl s

/-! ### Trip and fault, for any cancellation -/

/-- What a cancellation does, whatever it is: steady, and nothing is scheduled after it. -/
structure Cancels (cancel : State → State) : Prop where
  steady : IsSteady cancel
  none : ∀ s, (cancel s).fcu.schedule = none

theorem discardSchedule_cancels : Cancels discardSchedule :=
  ⟨fun _ => ⟨falls_refl _, .inl, .inl, id, id, id⟩, fun _ => rfl⟩

/-- The adoption at a trip, and the trip after it: a record stands in TRIPPED. -/
theorem adoptAtTrip_enter_steady {b : BypassOrder} {s : State} (h : s.stc.station = .firing) :
    Steady s ((adoptAtTrip b s).enter .tripped) := by
  have tripped : falls s.stc.station .tripped = true := by rw [h]; decide
  have adopted : ∀ u : State, Steady (s.adoptRecord b) u → Steady s (u.enter .tripped) := fun u k =>
    ⟨tripped, fun e => (k.hold e).elim .inl fun _ => .inr rfl, fun _ => .inr rfl, k.fired, k.angle, k.overlap⟩
  unfold adoptAtTrip
  split
  · exact adopted _ (inTurn_steady (fun f hf => fun t => (membershipActs_calm _ _ f hf t).toSteady) _)
  · exact ((recordFault_calm _ s).toSteady).trans (enter_steady tripped)
  · exact enter_steady tripped

theorem tripFromFiring_calm {cancel : State → State} (hc : Cancels cancel) (f : FaultCode) {s : State}
    (h : s.stc.station = .firing) : Calm s (tripFromFiring cancel f s) := by
  have k : Steady s ((adoptAtTrip (ownBypass s (f.code.val + 1))
      (originateBypass (ownBypass s (f.code.val + 1)) s)).enter .tripped) :=
    (originate_calm _ _ _ s).toSteady.trans (adoptAtTrip_enter_steady (by simp [h]))
  unfold tripFromFiring
  simp only
  split
  · refine ⟨k.trans ⟨falls_refl _, fun _ => .inr rfl, .inl, id, id, id⟩, fun _ _ => .inr ⟨rfl, rfl⟩⟩
  · exact (k.trans (hc.steady _)).calm (hc.none _)

theorem trip_calm {cancel : State → State} (hc : Cancels cancel) (f : FaultCode) : IsCalm (trip cancel f) := fun s => by
  unfold trip
  split
  · rename_i h; exact tripFromFiring_calm hc f h
  · rename_i h; exact enter_calm (by rw [h]; decide) (by simp [h]) (by simp [h])
  · rename_i h; exact enter_calm (by rw [h]; decide) (by simp [h]) (by simp [h])
  · rename_i h; exact enter_calm (by rw [h]; decide) (by simp [h]) (by simp [h])
  all_goals exact .refl s

theorem blockFromFiring_calm {cancel : State → State} (hc : Cancels cancel) {s : State}
    (h : s.stc.station = .firing) : Calm s (blockFromFiring cancel s) :=
  ((enter_steady (by rw [h]; decide)).trans (hc.steady _)).calm (hc.none _)

theorem takeFaultWith_calm {cancel : State → State} (hc : Cancels cancel) (f : FaultCode) :
    IsCalm (takeFaultWith cancel f) := fun s => by
  unfold takeFaultWith
  simp only
  refine (recordFault_calm f s).trans ?_
  split
  · exact trip_calm hc f _
  · split
    · rename_i firing
      have escalated : Calm (s.recordFault f) (s.recordFault f).escalate := .of_view rfl
      unfold blockByFault
      simp only
      split
      · exact escalated.trans (trip_calm hc f _)
      · exact escalated.trans (blockFromFiring_calm hc firing)
    · exact .refl _
  · exact .refl _
  · exact .refl _

/-! ### Valve events and the cycle mark -/

theorem cruXt_calm (t p) : IsCalm (cruXt t p) := fun s => by
  unfold cruXt
  split
  · simp only
    split
    · exact IsCalm.after (originate_calm _ _ _) rfl
    · exact .of_view rfl
  · exact .refl s

theorem marginAlarm_calm (γ t) : IsCalm (marginAlarm γ t) := fun s => by
  unfold marginAlarm
  split
  · exact (originate_calm _ _ _ s).trans (requestMargin_calm _ _ _)
  · exact .refl s

theorem cruFv_calm (t p) : IsCalm (cruFv t p) := fun s => by
  unfold cruFv
  split
  · exact .refl s
  split
  · split
    · exact .of_view rfl
    · exact IsCalm.after (marginAlarm_calm _ _) rfl
  · exact .refl s

theorem detectFailure_calm {raise : FaultCode → State → State} (hr : ∀ f, IsCalm (raise f)) (c t) :
    IsCalm (detectFailure raise c t) := fun s => by
  have told : Calm s (enterAndTell c t s) := IsCalm.after (originate_calm _ _ _) rfl
  have asked := told.trans (requestCfail_calm s.straps.pos _)
  unfold detectFailure
  simp only
  split
  · exact asked
  · refine asked.trans ?_
    unfold repetitionTest
    split
    · exact (hr _ _).trans (.of_view rfl)
    · exact .refl _

theorem handEvent_calm {raise : FaultCode → State → State} (hr : ∀ f, IsCalm (raise f)) (e : ValveEvent) :
    IsCalm (handEvent raise e) := fun s => by
  cases e with
  | xt t p => exact .trans (t := lcaXt t s) (.of_view rfl) (cruXt_calm _ _ _)
  | fv t p => exact cruFv_calm _ _ s
  | pfq t =>
    exact .trans (t := s.onCru fun c => { c with gammaStart := none }) (.of_view rfl) (detectFailure_calm hr _ _ _)

theorem cruMark_calm : IsCalm cruMark := fun s => by
  unfold cruMark
  split
  case h_5 | h_6 | h_7 => exact .refl s
  all_goals exact originate_calm _ _ _ s

theorem takeFaultInMark_calm (f) : IsCalm (takeFaultInMark f) := takeFaultWith_calm discardSchedule_cancels f

theorem cycleMark_calm (own) : IsCalm (cycleMark own) := fun s =>
  cycleMark_keeps (P := Calm s) own s (.of_view rfl) (fun e _ h => h.trans (handEvent_calm (fun _ => .refl) e _))
    (fun _ h => h.trans (cruMark_calm _)) (fun f _ h => h.trans (takeFaultInMark_calm f _))
    (fun _ h => h.trans (surveyTest_calm _))

theorem cancelSchedule_cancels : Cancels cancelSchedule := by
  refine ⟨fun s => ?_, cancelSchedule_none⟩
  have discarded : Steady s (discardSchedule s) := discardSchedule_cancels.steady s
  unfold cancelSchedule
  split
  · exact .refl s
  · split
    · exact discarded.trans (cycleMark_calm _ _).toSteady
    · exact discarded

theorem cancelSchedule_calm : IsCalm cancelSchedule := fun s =>
  (cancelSchedule_cancels.steady s).calm (cancelSchedule_none s)

theorem takeFault_calm (f) : IsCalm (takeFault f) := takeFaultWith_calm cancelSchedule_cancels f

theorem takeIndication_calm (i c t) : IsCalm (takeIndication takeFault i c t) := fun s => by
  unfold takeIndication
  simp only
  split
  · exact IsCalm.after (handEvent_calm takeFault_calm _) rfl
  · exact .of_view rfl

/-! ### The reference event and the firing -/

/-- A schedule made while the station fires or holds. -/
theorem fcuReference_calm (e) : IsCalm (fcuReference e) := fun s => by
  unfold fcuReference
  split
  · rename_i h
    refine ⟨⟨falls_refl _, .inl, .inl, id, id, id⟩, fun _ _ => ((firingOrHold_iff s).1 h).imp id fun holds => ?_⟩
    simp only [State.inHold, Bool.and_eq_true, decide_eq_true_eq] at holds
    exact holds.1
  · exact .refl s

theorem lmonMark_calm (own : Bool) : IsCalm fun s => if s.lmon.markTaken then s else cycleMark own s := fun s => by
  simp only
  split
  · exact .refl s
  · exact cycleMark_calm own s

theorem lmonReference_calm (z) : IsCalm (lmonReference z) := fun s => (lmonMark_calm false s).trans (.of_view rfl)

theorem lmonFiring_calm (t) : IsCalm (lmonFiring t) := fun s => (lmonMark_calm true s).trans (.of_view rfl)

theorem cruReference_calm : IsCalm cruReference := fun s => by
  unfold cruReference
  simp only
  split
  · exact IsCalm.after (takeFault_calm _) rfl
  · exact .of_view rfl

theorem referenceReceivers_calm (e) : ∀ f ∈ referenceReceivers e, IsCalm f := by
  intro f hf
  simp only [referenceReceivers, List.mem_cons, List.not_mem_nil, or_false] at hf
  rcases hf with rfl | rfl | rfl | rfl
  · exact fcuReference_calm _
  · exact lmonReference_calm _
  · exact cruReference_calm
  · exact fun _ => .of_view rfl

theorem lockTest_calm (was s) : ∀ f ∈ lockTest was s, IsCalm f := by
  intro f hf
  unfold lockTest at hf
  split at hf
  · simp at hf
  · rw [List.mem_singleton.mp hf]; exact surveyTest_calm

theorem enterFree_calm : IsCalm enterFree := fun _ => IsCalm.after surveyTest_calm rfl

theorem lossActs_calm (n) : ∀ f ∈ lossActs n, IsCalm f := by
  intro f hf
  unfold lossActs at hf
  split at hf
  · simp only [List.mem_cons, List.not_mem_nil, or_false] at hf
    rcases hf with rfl | rfl
    · exact enterFree_calm
    · exact takeFault_calm _
  · simp at hf

theorem acceptCrossing_calm (t) : IsCalm (acceptCrossing t) := fun s => by
  refine .trans (t := s.onAru fun a => a.accept t) (.of_view rfl) (inAnyOrder_calm (fun f hf => ?_) _)
  exact (List.mem_append.mp hf).elim (referenceReceivers_calm _ f) (lockTest_calm _ _ f)

theorem declareMiss_calm : IsCalm declareMiss := fun s => by
  refine .trans (t := s.onAru Aru.missed) (.of_view rfl) (inAnyOrder_calm (fun f hf => ?_) _)
  exact (List.mem_append.mp hf).elim
    (fun hf => (List.mem_append.mp hf).elim (referenceReceivers_calm _ f) (lockTest_calm _ _ f)) (lossActs_calm _ f)

theorem takeCrossing_calm (t) : IsCalm (takeCrossing t) := fun s => by
  unfold takeCrossing
  split
  · exact .trans (t := s.onAru fun a => a.firstCrossing t) (.of_view rfl) (inTurn_calm (lockTest_calm _ _) _)
  · exact .trans (t := s.onAru fun a => a.acquiringCrossing t) (.of_view rfl) (inTurn_calm (lockTest_calm _ _) _)
  · split
    · exact acceptCrossing_calm t s
    · exact .of_view rfl
  · split
    · exact acceptCrossing_calm t s
    · exact .of_view rfl

theorem holdoverLimit_calm : IsCalm holdoverLimit := fun s => by
  unfold holdoverLimit
  split
  · refine inAnyOrder_calm (fun f hf => ?_) s
    simp only [List.mem_cons, List.not_mem_nil, or_false] at hf
    rcases hf with rfl | rfl
    · exact enterFree_calm
    · exact takeFault_calm _
  · split
    · exact declareMiss_calm s
    · exact .refl s

theorem cruFiring_calm (f) : IsCalm (cruFiring f) := fun s => by
  have consumed : Calm s ((watchFiring f s).onCru Cru.consumed) := .of_view rfl
  have rest : ∀ g ∈ [assignFn (nextFn s.cru), judgeFiring (cleanFiring s.cru), originateFire f s.cru], IsCalm g := by
    intro g hg
    simp only [List.mem_cons, List.not_mem_nil, or_false] at hg
    rcases hg with rfl | rfl | rfl
    · exact fun _ => .of_view rfl
    · exact fun t => .of_view (by unfold judgeFiring; split <;> rfl)
    · exact fun t => originate_calm _ _ _ t
  unfold cruFiring
  simp only
  split
  · refine consumed.trans (inTwoStreams_calm (fun g hg => ?_) _)
    rcases List.mem_append.mp hg with hg | hg
    · exact rest g hg
    · rw [List.mem_singleton.mp hg]; exact takeFault_calm _
  · exact consumed.trans (inTurn_calm rest _)

theorem fireAt_calm (f) : IsCalm (fireAt f) := fun s => by
  have fired : Calm s (s.onFcu fun u => { u with previous := some f, schedule := none }) :=
    Steady.calm ⟨falls_refl _, .inl, .inl, id, id, id⟩ rfl
  refine fired.trans (inAnyOrder_calm (fun g hg => ?_) _)
  simp only [List.mem_cons, List.not_mem_nil, or_false] at hg
  rcases hg with rfl | rfl | rfl
  · exact fun _ => .of_view rfl
  · exact lmonFiring_calm _
  · exact cruFiring_calm _

/-! ### Deliveries -/

theorem fcuPredecessor_calm (i) : IsCalm (fcuPredecessor i) := fun s => by
  unfold fcuPredecessor
  split
  · rename_i h
    split
    · exact .of_view (by simp [State.calmView, h])
    · exact .refl s
  all_goals exact .refl s

theorem predecessorFire_calm (f) : IsCalm (predecessorFire f) := fun s => by
  unfold predecessorFire
  split
  · unfold currentFire
    simp only
    split
    · exact .trans (t := takeFault .sequenceSlip (writePredecessor f s))
        (.trans (t := writePredecessor f s) (.of_view rfl) (takeFault_calm _ _)) (fcuPredecessor_calm _ _)
    · exact .trans (t := writePredecessor f s) (.of_view rfl) (fcuPredecessor_calm _ _)
  · exact IsCalm.after (takeFault_calm _) rfl
  · exact .of_view rfl

theorem cruFire_calm (f) : IsCalm (cruFire f) := fun s => by
  unfold cruFire
  split
  · simp only
    refine .trans (t := s.onCru fun c => c.onPeer f.origin fun p => { p with fire := some f.fn }) (.of_view rfl) ?_
    split
    · split
      · exact predecessorFire_calm f _
      · exact .refl _
    · split
      · exact .of_view (by unfold bridgePredecessorFire; split <;> rfl)
      · split
        · exact .of_view (by unfold startRequest; split <;> rfl)
        · exact .refl _
  · exact .refl s

/-- An overlap that R158 takes is at most 60°. -/
theorem measuredMu_le {period : Nat} {f x : Option StationTime} {μ : Nat} (h : measuredMu period f x = some μ) :
    μ ≤ 6000 := by
  unfold measuredMu at h
  split at h
  · split at h
    · rename_i bound; cases h; exact bound.2
    · cases h
  · cases h
  · cases h

theorem measureMu_calm (i) : IsCalm (measureMu i) := fun s => by
  unfold measureMu
  split
  · split
    · rename_i measured
      exact ⟨⟨falls_refl _, .inl, .inl, id, id, fun _ => measuredMu_le measured⟩, id⟩
    · exact .refl s
  · exact .refl s

theorem cruHealth_calm (q i) : IsCalm (cruHealth q i) := fun s => by
  unfold cruHealth
  split
  · simp only
    refine .trans (t := s.onCru fun c => c.onPeer q fun p => { p with xt := i }) (.of_view rfl) ?_
    split
    · exact measureMu_calm i _
    · exact .refl _
  · exact .refl s

theorem cruMargin_calm (q γ) : IsCalm (cruMargin q γ) := fun s => by
  unfold cruMargin; split
  · exact requestMargin_calm _ _ s
  · exact .refl s

theorem cruCfail_calm (q) : IsCalm (cruCfail q) := fun s => .of_view (by unfold cruCfail; split <;> rfl)

theorem stcSettings_calm (q r) : IsCalm (stcSettings q r) := fun s => by
  unfold stcSettings
  split
  · exact .refl s
  split
  · exact .of_view rfl
  split
  · exact .refl s
  · exact takeFault_calm _ s

theorem cruQuery_calm (q a b) : IsCalm (cruQuery q a b) := fun s => by
  unfold cruQuery
  split
  · exact .refl s
  split
  · exact originate_calm _ _ _ s
  · exact .of_view rfl

/-- The ordered angle as it is held lies in its range (R64). -/
theorem heldAngle_inRange (α : Nat) : 500 ≤ heldAngle α ∧ heldAngle α ≤ 16500 := by
  unfold heldAngle clamp; omega

/-- The state in which the command of an ORDER is decided, reached from the delivery. -/
theorem orderHeard_calm (s : State) (o : Order) :
    Calm s (resetStaleness (handAngle o.alpha (s.onCru fun c => { c with activeSource := some o.origin }))) := by
  have held : Calm s (handAngle o.alpha (s.onCru fun c => { c with activeSource := some o.origin })) :=
    ⟨⟨falls_refl _, .inl, .inl, id, fun _ => heldAngle_inRange o.alpha, id⟩, id⟩
  refine held.trans (.of_view ?_)
  unfold resetStaleness; split <;> rfl

/-- An ORDER whose command is calm at the Station Controller is calm. -/
theorem cruOrder_calm {k : Command} (h : IsCalm (stcCommand k)) (o : Order) : IsCalm (cruOrder k o) := fun s => by
  unfold cruOrder
  split
  · exact .of_view rfl
  split
  · exact .refl s
  refine (orderHeard_calm s o).trans ?_
  unfold decideCommand
  split
  · exact .refl _
  · exact IsCalm.after h rfl

theorem stcClear_calm : IsCalm stcClear := fun s => .of_view (by unfold stcClear; split <;> rfl)

/-- A delivered copy whose act is calm. -/
theorem delivered_calm {act : State → State} (h : IsCalm act) (c q) : IsCalm (delivered c q act) := fun s => by
  unfold delivered
  simp only
  split
  · exact .trans (t := heard q (s.taken c)) (.of_view rfl) (h _)
  · exact .of_view rfl

/-! ### The rings and the Station Controller's own events -/

theorem healthChanged_calm (p w) : IsCalm (healthChanged p w) := fun s => by
  unfold healthChanged
  split
  · exact (takeFault_calm _ s).trans (surveyTest_calm _)
  · exact (clearFault_calm _ s).trans (surveyTest_calm _)
  all_goals exact .refl s

theorem matchedReturn_calm (p) : IsCalm (matchedReturn p) := fun s =>
  .trans (t := s.onPort p RingPort.matched) (.of_view rfl) (healthChanged_calm _ _ _)

theorem missingReturn_calm (p) : IsCalm (missingReturn p) := fun s =>
  .trans (t := s.onPort p RingPort.missing) (.of_view rfl) (healthChanged_calm _ _ _)

theorem ownReturn_calm (p q age hops stamp) : IsCalm (ownReturn p q age hops stamp) := fun s => by
  unfold ownReturn
  split
  · exact IsCalm.after (matchedReturn_calm p) rfl
  · exact .refl s

theorem depart_calm (p) : IsCalm (depart p) := fun s => by
  unfold depart
  split
  · exact .of_view rfl
  · unfold departOwn
    simp only
    split
    · exact .of_view rfl
    · exact IsCalm.after (missingReturn_calm p) rfl
  · exact .refl s

theorem arrive_calm (p run) : IsCalm (arrive p run) := fun s => by
  unfold arrive
  split
  · split
    · split
      · unfold routeCopy
        split
        · exact .of_view rfl
        split
        · exact .of_view rfl
        · simp only
          split
          · exact .of_view rfl
          · unfold windowStep
            split
            · exact .of_view rfl
            · exact .of_view rfl
            · exact .of_view (by unfold deliverCopy; split <;> rfl)
      · exact .of_view rfl
    · exact .of_view rfl
  · exact .of_view rfl

theorem settleRecord_calm : IsCalm settleRecord := fun s =>
  ⟨⟨falls_refl _, .inl, fun e => .inl (by simpa [settleRecord] using e), id, id, id⟩, id⟩

theorem stopHold_cancel_calm (s : State) : Calm s (cancelSchedule (stopHold s)) :=
  Steady.calm (.trans (t := stopHold s) ⟨falls_refl _, fun e => by simp at e, .inl, id, id, id⟩
    (cancelSchedule_cancels.steady _)) (cancelSchedule_none _)

end Sys2Proof.Machine
end

section
/-! PROOFS. What one command other than RESET and START_EXIT can change. `Changes c s t` says that t is reached from s by
moves and by the few changes that are no moves: a channel, the reference unit within the bounds of T_est, a port kept in
range and in order, the hand-over list, an accepted SETTINGS, and the bypass record emptied by a BLOCK. -/

namespace Sys2Proof.Machine

/-! ### One change -/

/-- What R89, R95, R103, R121, R127 and R128 say of one port. -/
def PortSound (p : RingPort) : Prop := PortInRange p ∧ QueueOrdered p.queue

/-- One change that the command `c` can make. -/
inductive Change (c : Instr) : State → State → Prop where
  | move {s t : State} (h : Move s t) : Change c s t
  | channel (s : State) (i : Fin 80) (f : Channel → Channel) : Change c s (s.onChannel i f)
  | aru (s : State) (f : Aru → Aru) (h : PeriodInBounds s → PeriodInBounds (s.onAru f)) : Change c s (s.onAru f)
  | port (s : State) (p : Port) (f : RingPort → RingPort) (h : PortSound (s.port p) → PortSound (f (s.port p))) :
      Change c s (s.onPort p f)
  | handed (s : State) (l : List Instr) : Change c s { s with handed := l }
  | settings (s : State) (r : RawSettings) (h : s.stc.acceptsSettings = true) :
      Change c s (s.onStc fun k => k.settle (settingsContent r))
  | record (s : State) (h : ∃ o, c = .block o) : Change c s (emptyRecord s)

/-- Reached by changes of the command `c`. -/
abbrev Changes (c : Instr) : State → State → Prop := Relation.ReflTransGen (Change c)

/-- An operation that makes only changes of the command `c`. -/
abbrev OnlyChanges (c : Instr) (f : State → State) : Prop := ∀ s, Changes c s (f s)

theorem Changes.refl {c : Instr} (s : State) : Changes c s s := Relation.ReflTransGen.refl

theorem Change.one {c : Instr} {s t : State} (h : Change c s t) : Changes c s t := Relation.ReflTransGen.single h

theorem Changes.then {c : Instr} {s t u : State} (h : Changes c s t) (k : Changes c t u) : Changes c s u :=
  Relation.ReflTransGen.trans h k

theorem Moves.changes {c : Instr} {s t : State} (h : Moves s t) : Changes c s t :=
  h.keeps (P := Changes c s) (fun _ _ m k => .tail k (.move m)) (.refl s)

/-- A property that each change keeps is kept by changes. -/
theorem Changes.keeps {c : Instr} {P : State → Prop} (hp : ∀ s t, Change c s t → P s → P t) {s t : State}
    (h : Changes c s t) (h0 : P s) : P t := by
  induction h with
  | refl => exact h0
  | tail _ hm ih => exact hp _ _ hm ih

section Commands
variable {c : Instr}

theorem inTurn_changes {fs : List (State → State)} (h : ∀ f ∈ fs, OnlyChanges c f) : OnlyChanges c (inTurn fs) :=
  fun s => inTurn_keeps (P := Changes c s) (.refl s) fun f hf t ht => ht.then (h f hf t)

theorem inAnyOrder_changes {fs : List (State → State)} (h : ∀ f ∈ fs, OnlyChanges c f) :
    OnlyChanges c (inAnyOrder fs) := fun s =>
  inAnyOrder_keeps (P := Changes c s) (Change.move (.drawn s)).one fun f hf t ht => ht.then (h f hf t)

/-! ### The reference unit (R49 to R57) -/

/-- A change of the reference unit that leaves T_est. -/
theorem aru_changes {s : State} {f : Aru → Aru} (h : (f s.aru).period = s.aru.period) : Changes c s (s.onAru f) :=
  (Change.aru s f fun k => by unfold PeriodInBounds at *; rw [onAru_aru, h]; exact k).one

/-- A good measurement in ACQUIRING leaves T_est in its bounds (R49, R57). -/
theorem acquire_inBounds {a : Aru} (t : StationTime) (d : Int) (h : 153800 ≤ a.period ∧ a.period ≤ 222300) :
    153800 ≤ (a.acquire t d).period ∧ (a.acquire t d).period ≤ 222300 := by
  by_cases good : 153800 ≤ d ∧ d ≤ 222300
  · have measured : 153800 ≤ (a.measured t d).period ∧ (a.measured t d).period ≤ 222300 := by
      show 153800 ≤ acquiredPeriod _ _ _ ∧ acquiredPeriod _ _ _ ≤ 222300
      have exact := acquiredPeriod_eq a.goodCount (period := a.period) (d := d) (by omega)
      have filtered := filteredPeriod_between (lo := 153800) (hi := 222300) (period := a.period) ⟨by omega, by omega⟩ good
      unfold filteredPeriod at filtered
      split at exact <;> omega
    by_cases third : a.goodCount = 2
    · rw [acquire_third good third]; exact measured
    · rw [acquire_good good third]; exact measured
  · rw [acquire_bad good]; exact h

theorem acquiringCrossing_inBounds {a : Aru} (t : StationTime) (h : 153800 ≤ a.period ∧ a.period ≤ 222300) :
    153800 ≤ (a.acquiringCrossing t).period ∧ (a.acquiringCrossing t).period ≤ 222300 := by
  unfold Aru.acquiringCrossing
  split
  · exact acquire_inBounds _ _ h
  · exact h

/-- An accepted crossing clamps T_est into its bounds (R53, R57). -/
theorem accept_inBounds (a : Aru) (t : StationTime) : 153800 ≤ (a.accept t).period ∧ (a.accept t).period ≤ 222300 := by
  show 153800 ≤ a.acceptedPeriod t ∧ a.acceptedPeriod t ≤ 222300
  simp only [Aru.acceptedPeriod, clampInt, periodMin, periodMax]
  omega

theorem enterFree_changes : OnlyChanges c enterFree := fun _ =>
  (aru_changes (f := Aru.toFree) rfl).then (surveyTest_moves _).changes

theorem lossActs_changes (n) : ∀ f ∈ lossActs n, OnlyChanges c f := by
  intro f hf
  unfold lossActs at hf
  split at hf
  · simp only [List.mem_cons, List.not_mem_nil, or_false] at hf
    rcases hf with rfl | rfl
    · exact enterFree_changes
    · exact fun s => (takeFault_moves _ s).changes
  · simp at hf

theorem acceptCrossing_changes (t) : OnlyChanges c (acceptCrossing t) := fun s => by
  refine .trans (Change.aru s (fun a => a.accept t) fun _ => accept_inBounds s.aru t).one (inAnyOrder_changes ?_ _)
  exact fun f hf u => (List.mem_append.mp hf).elim (fun hf => (referenceReceivers_moves _ f hf u).changes)
    (fun hf => (lockTest_moves _ _ f hf u).changes)

theorem declareMiss_changes : OnlyChanges c declareMiss := fun _ => by
  refine .trans (aru_changes (f := Aru.missed) rfl) (inAnyOrder_changes ?_ _)
  exact fun f hf u => (List.mem_append.mp hf).elim
    (fun hf => (List.mem_append.mp hf).elim (fun hf => (referenceReceivers_moves _ f hf u).changes)
      (fun hf => (lockTest_moves _ _ f hf u).changes))
    (fun hf => lossActs_changes _ f hf u)

theorem takeCrossing_changes (t) : OnlyChanges c (takeCrossing t) := fun s => by
  have stray : Changes c s (s.onAru Aru.stray) := aru_changes rfl
  unfold takeCrossing
  split
  · exact .trans (aru_changes (f := fun a => a.firstCrossing t) rfl) (inTurn_moves (lockTest_moves _ _) _).changes
  · exact .trans (Change.aru s (fun a => a.acquiringCrossing t) fun k => acquiringCrossing_inBounds t k).one
      (inTurn_moves (lockTest_moves _ _) _).changes
  · split
    · exact acceptCrossing_changes t s
    · exact stray
  · split
    · exact acceptCrossing_changes t s
    · exact stray

theorem holdoverLimit_changes : OnlyChanges c holdoverLimit := fun s => by
  unfold holdoverLimit
  split
  · refine inAnyOrder_changes (fun f hf => ?_) s
    simp only [List.mem_cons, List.not_mem_nil, or_false] at hf
    rcases hf with rfl | rfl
    · exact enterFree_changes
    · exact fun s => (takeFault_moves _ s).changes
  · split
    · exact declareMiss_changes s
    · exact .refl s

/-! ### The ports (R87 to R103, R121 to R128) -/

/-- A change of one port that keeps it sound. -/
theorem port_changes {s : State} {p : Port} {f : RingPort → RingPort} (h : PortSound (s.port p) → PortSound (f (s.port p))) :
    Changes c s (s.onPort p f) := (Change.port s p f h).one

theorem count_changes (s : State) (p) (f) : Changes c s (s.count p f) :=
  port_changes fun k => ⟨⟨k.1.forwarding, k.1.queue, k.1.outstanding, k.1.hopDelay, k.1.returnRun, k.1.missRun⟩, k.2⟩

theorem forward_sound {p : RingPort} (t : Telegram) (stamp : StationTime) (k : PortSound p) :
    PortSound (p.forward t stamp) := by
  obtain ⟨range, order⟩ := k
  unfold RingPort.forward
  split
  · refine ⟨{ range with forwarding := ?_ }, order⟩
    simp only [List.length_append, List.length_singleton]; omega
  · exact ⟨⟨range.forwarding, range.queue, range.outstanding, range.hopDelay, range.returnRun, range.missRun⟩, order⟩

theorem forward_changes (s : State) (p : Port) (t : Telegram) (stamp : StationTime) :
    Changes c s (s.onPort p fun r => r.forward t stamp) := port_changes (forward_sound t stamp)

theorem matched_sound {p : RingPort} (k : PortSound p) : PortSound p.matched :=
  ⟨{ k.1 with returnRun := Nat.min_le_left _ _, missRun := Nat.zero_le _ }, k.2⟩

theorem missing_sound {p : RingPort} (k : PortSound p) : PortSound p.missing :=
  ⟨{ k.1 with missRun := Nat.min_le_left _ _, returnRun := Nat.zero_le _ }, k.2⟩

theorem length_removeFirst_le {α : Type} (q : α → Bool) (l : List α) : (removeFirst q l).length ≤ l.length := by
  induction l with
  | nil => exact Nat.le_refl _
  | cons x l ih => unfold removeFirst; split <;> simp only [List.length_cons] <;> omega

theorem hopDelayAfter_le (estimate : Nat) (measured : Int) : hopDelayAfter estimate measured ≤ 2000 := by
  unfold hopDelayAfter clampInt; omega

theorem returned_sound {p : RingPort} (e : Outstanding) (age hops : Nat) (stamp : StationTime) (k : PortSound p) :
    PortSound (p.returned e age hops stamp) := by
  refine ⟨{ k.1 with outstanding := (length_removeFirst_le _ _).trans k.1.outstanding, hopDelay := ?_ }, k.2⟩
  show (if _ then _ else _) ≤ 2000
  split
  · exact k.1.hopDelay
  · exact hopDelayAfter_le _ _

theorem dropEarliest_sound {p : RingPort} (k : PortSound p) : PortSound p.dropEarliest :=
  ⟨{ k.1 with outstanding := ((List.drop_sublist 1 p.outstanding).length_le).trans k.1.outstanding }, k.2⟩

/-- A queue without its head stays in order. -/
theorem queueOrdered_tail {e : QueueEntry} {rest : List QueueEntry} (h : QueueOrdered (e :: rest)) : QueueOrdered rest :=
  have tail := List.sublist_cons_self e rest
  ⟨h.priority.sublist tail, ((tail.filter _).length_le).trans h.health⟩

theorem length_enterOutstanding_le {l : List Outstanding} (e : Outstanding) (h : l.length ≤ 8) :
    (enterOutstanding l e).length ≤ 8 := by
  unfold enterOutstanding
  split <;> simp only [List.length_append, List.length_singleton, List.length_drop] <;> omega

theorem matchedReturn_changes (p) : OnlyChanges c (matchedReturn p) := fun _ =>
  (port_changes matched_sound).then (healthChanged_moves _ _ _).changes

theorem missingReturn_changes (p) : OnlyChanges c (missingReturn p) := fun _ =>
  (port_changes missing_sound).then (healthChanged_moves _ _ _).changes

theorem ownReturn_changes (p q age hops stamp) : OnlyChanges c (ownReturn p q age hops stamp) := fun s => by
  unfold ownReturn
  split
  · exact (port_changes (returned_sound _ _ _ _)).then (matchedReturn_changes p _)
  · exact .refl s

theorem depart_changes (p) : OnlyChanges c (depart p) := fun s => by
  unfold depart
  split
  · rename_i e rest hq
    refine port_changes fun k => ⟨{ k.1 with forwarding := ?_ }, k.2⟩
    have := k.1.forwarding
    rw [hq, List.length_cons] at this
    exact Nat.le_of_succ_le this
  · rename_i e rest _ hq
    have departed : Changes c s (s.onPort p fun r =>
        ({ r with queue := rest, outstanding := enterOutstanding r.outstanding (outstandingOf e s.now) } :
          RingPort).send s.now (encodeTelegram p (ownTelegram s.straps.pos e s.now))) := by
      refine port_changes fun k => ⟨{ k.1 with
        queue := ?_, outstanding := length_enterOutstanding_le _ k.1.outstanding }, queueOrdered_tail (hq ▸ k.2)⟩
      have := k.1.queue
      rw [hq, List.length_cons] at this
      exact Nat.le_of_succ_le this
    unfold departOwn
    simp only
    split
    · exact departed
    · exact departed.then (missingReturn_changes p _)
  · exact .refl s

theorem handed_changes (s : State) (l : List Instr) : Changes c s { s with handed := l } := (Change.handed s l).one

theorem deliverCopy_changes (p t stamp) : OnlyChanges c (deliverCopy p t stamp) := fun s => by
  unfold deliverCopy
  split
  · exact (heard_moves _ s).changes.then (handed_changes _ _)
  · exact count_changes s _ _

theorem windowStep_changes (p t stamp) : OnlyChanges c (windowStep p t stamp) := fun s => by
  unfold windowStep
  split
  · exact .refl s
  · exact count_changes s _ _
  · exact .trans (onPeer_moves s t.origin _).changes (deliverCopy_changes p t stamp _)

theorem routeCopy_changes (p t stamp) : OnlyChanges c (routeCopy p t stamp) := fun s => by
  unfold routeCopy
  split
  · exact handed_changes s _
  split
  · exact count_changes s _ _
  simp only
  split
  · exact forward_changes s p t stamp
  · exact (forward_changes s p t stamp).then (windowStep_changes p t stamp _)

theorem arrive_changes (p run) : OnlyChanges c (arrive p run) := fun s => by
  unfold arrive
  split
  · split
    · split
      · exact routeCopy_changes _ _ _ s
      · exact count_changes s _ _
    · exact count_changes s _ _
  · exact count_changes s _ _

/-! ### Orders, deliveries and the Station Controller's own events -/

theorem stcClear_moves : OnlyMoves stcClear := fun s => by
  unfold stcClear
  split
  · refine (Move.stc s _ { StcKeeps.refl s.stc with modes := fun f => ?_, counts := fun f h => ?_ }).one
    · simp only [Stc.fault, clearedFaults, get_map_code]; split <;> rfl
    · simp only [Stc.fault, clearedFaults, get_map_code]; split <;> exact h
  · exact .refl s

/-- A BLOCK ends a bypass as an exit, and else only moves. -/
theorem stcBlock_changes {o : Order} (h : c = .block o) : OnlyChanges c stcBlock := fun s => by
  have emptied : Changes c s (emptyRecord (lcaExit s)) :=
    (lcaExit_moves s).changes.then (Change.record _ ⟨o, h⟩).one
  unfold stcBlock
  split
  · rename_i firing; exact (blockFromFiring_moves cancelSchedule_moves firing).changes
  · rename_i bypass
    exact emptied.then (enter_moves (s := emptyRecord (lcaExit s)) (by simp [lcaExit, bypass, mayMove])).changes
  · simp only
    split
    · exact emptied.then ((stopHold_moves _).then (cancelSchedule_moves _)).changes
    · exact emptied
  all_goals exact .refl s

/-- An ORDER makes changes only when the Station Controller does at its command. -/
theorem cruOrder_changes {k : Command} (h : OnlyChanges c (stcCommand k)) (o : Order) : OnlyChanges c (cruOrder k o) :=
  fun s => by
  have taken : Moves s (s.onCru fun c => { c with activeSource := some o.origin }) := cru_moves ⟨rfl, rfl⟩
  unfold cruOrder
  split
  · exact (cru_moves ⟨rfl, rfl⟩).changes
  split
  · exact .refl s
  · refine ((taken.then (handAngle_moves o.alpha _)).then (resetStaleness_moves _)).changes.then ?_
    unfold decideCommand
    split
    · exact .refl _
    · exact .trans (Moves.changes (cru_moves ⟨rfl, rfl⟩)) (h _)

theorem stcSettings_changes (q r) : OnlyChanges c (stcSettings q r) := fun s => by
  unfold stcSettings
  split
  · exact .refl s
  split
  · rename_i accepts; exact (Change.settings s r accepts).one
  split
  · exact .refl s
  · exact (takeFault_moves _ s).changes

/-- A meaning on a position that runs comes to its own next state. -/
theorem eq_of_onPosition {q : Nat} {u t : State} (e : onPosition q u = .next t) : u = t := by
  unfold onPosition at e
  split at e
  · cases e; rfl
  · cases e

/-- A delivered command that runs makes changes only when its act does. -/
theorem delivery_changes {q : Nat} {act : State → State} {s t : State} (h : OnlyChanges c act)
    (e : onPosition q (delivered c q act s) = .next t) : Changes c s t := by
  rw [← eq_of_onPosition e]
  unfold delivered
  simp only
  split
  · exact (handed_changes s _).then ((heard_moves _ _).changes.then (h _))
  · exact handed_changes s _

theorem channel_changes (s : State) (i) (f) : Changes c s (s.onChannel i f) := (Change.channel s i f).one

end Commands

/-- The Station Controller makes changes only at every command but BLOCK, whatever the ORDER that brings it. -/
theorem stcCommand_changes {c : Instr} (k : Command) (h : k ≠ .block) : OnlyChanges c (stcCommand k) := fun s => by
  cases k with
  | hold => exact .refl s
  | deblock => exact (stcDeblock_moves s).changes
  | block => exact absurd rfl h
  | bypassBlock => exact (stcBypassBlock_moves s).changes
  | clear => exact (stcClear_moves s).changes

/-- Every command but RESET and START_EXIT makes changes only. -/
theorem exec_changes {c : Instr} {s t : State} (reset : ∀ straps, c ≠ .reset straps) (start : c ≠ .startExit)
    (e : exec c s = .next t) : Changes c s t := by
  cases c with
  | reset straps => exact absurd rfl (reset straps)
  | startExit => exact absurd rfl start
  | hold o => exact delivery_changes (cruOrder_changes (stcCommand_changes _ (by decide)) o) e
  | deblock o => exact delivery_changes (cruOrder_changes (stcCommand_changes _ (by decide)) o) e
  | block o => exact delivery_changes (cruOrder_changes (k := .block) (stcBlock_changes rfl) o) e
  | bypassBlock o => exact delivery_changes (cruOrder_changes (stcCommand_changes _ (by decide)) o) e
  | clear o => exact delivery_changes (cruOrder_changes (stcCommand_changes _ (by decide)) o) e
  | fire f => exact delivery_changes (fun u => (cruFire_moves f u).changes) e
  | health q i => exact delivery_changes (fun u => (cruHealth_moves q i u).changes) e
  | margin q γ => exact delivery_changes (fun u => (cruMargin_moves q γ u).changes) e
  | cfail q a b => exact delivery_changes (fun u => (cruCfail_moves q u).changes) e
  | bypass b => exact delivery_changes (fun u => (takeBypass_moves cancelSchedule_moves b u).changes) e
  | settings q r => exact delivery_changes (stcSettings_changes q r) e
  | query q a b => exact delivery_changes (fun u => (cruQuery_moves q a b u).changes) e
  | report q => exact delivery_changes .refl e
  | peerLost q =>
    rw [← eq_of_onPosition e]
    split
    · exact (onPeer_moves s q _).changes
    · exact .refl s
  | indication i =>
    cases e
    unfold fallingEdge
    simp only
    split
    · exact (channel_changes s i _).then (takeIndication_moves takeFault_moves _ _ _ _).changes
    · exact channel_changes s i _
  | channelStuck i =>
    cases e
    unfold channelStuck
    split
    · exact (channel_changes s i _).then (takeIndication_moves takeFault_moves _ _ _ _).changes
    · exact .refl s
  | stuckRecovery i =>
    cases e
    split
    · exact channel_changes s i _
    · exact .refl s
  | indicationRisingEdge i => cases e; exact channel_changes s i _
  | qualificationStart => cases e; exact aru_changes rfl
  | qualificationFailure => cases e; exact aru_changes rfl
  | qualifiedCrossing =>
    cases e
    unfold qualifiedCrossing
    split
    · exact .trans (aru_changes rfl) (takeCrossing_changes _ _)
    · exact .refl s
  | miss =>
    cases e
    split
    · exact declareMiss_changes s
    · exact .refl s
  | holdoverLimit => cases e; exact holdoverLimit_changes s
  | acquisitionTimeout =>
    cases e
    split
    · exact enterFree_changes s
    · exact .refl s
  | cycleMarkFallback =>
    cases e
    split
    · exact (cycleMark_moves _ s).changes
    · exact .refl s
  | firingInstant =>
    cases e
    split
    · exact (fireAt_moves _ s).changes
    · exact .refl s
  | mainPulseEnd => cases e; exact (train_moves _ s).changes
  | conductionLimit => cases e; exact (train_moves _ s).changes
  | overdueDeadline =>
    cases e
    split
    · exact ((discardWatch_moves s).then (detectFailure_moves takeFault_moves _ _ _)).changes
    · exact .refl s
  | telegramArrival p run => cases e; exact arrive_changes p run s
  | ownTelegramReturn p q age hops stamp => cases e; exact (handed_changes s _).then (ownReturn_changes _ _ _ _ _ _)
  | returnTimerExpiry p =>
    cases e
    split
    · exact (port_changes dropEarliest_sound).then (missingReturn_changes p _)
    · exact .refl s
  | departure p =>
    cases e
    split
    · exact depart_changes p s
    · exact .refl s
  | settleDeadline =>
    cases e
    split
    · rename_i due
      refine (stc_moves ⟨rfl, rfl, rfl, rfl, rfl, rfl, rfl, rfl⟩ id fun r hr settled => ?_).changes
      simp [settleDue, hr, settled] at due
    · exact .refl s
  | escalationEntryExpiry =>
    cases e
    split
    · exact (stc_moves ⟨rfl, rfl, rfl, rfl, rfl, rfl, rfl, rfl⟩ id fun _ h _ => h).changes
    · exact .refl s
  | isolationHoldEnd =>
    cases e
    split
    · exact ((stopHold_moves s).then (cancelSchedule_moves _)).changes
    · exact .refl s

/-! ### What changes keep: T_est (R57) -/

theorem Change.periodInBounds {c : Instr} {s t : State} (h : Change c s t) (k : PeriodInBounds s) : PeriodInBounds t := by
  cases h with
  | move h => unfold PeriodInBounds; rw [h.sameFrame.2.2.1]; exact k
  | aru f h => exact h k
  | channel => exact k
  | port => exact k
  | handed => exact k
  | settings => exact k
  | record => exact k

/-- The nominal period lies in the bounds of T_est (R46, R57). -/
theorem resetTo_periodInBounds (straps : Straps) (s : State) : PeriodInBounds (resetTo straps s) := by
  show 153800 ≤ nominalPeriod straps.nomf ∧ nominalPeriod straps.nomf ≤ 222300
  cases straps.nomf <;> decide

theorem leaveStart_aru (s : State) : (leaveStart s).aru = s.aru := by unfold leaveStart; split <;> rfl

theorem exec_periodInBounds {c : Instr} {s t : State} (k : PeriodInBounds s) (e : exec c s = .next t) :
    PeriodInBounds t := by
  by_cases reset : ∃ straps, c = .reset straps
  · obtain ⟨straps, rfl⟩ := reset
    cases e; exact resetTo_periodInBounds straps s
  by_cases start : c = .startExit
  · subst start
    cases e
    split
    · unfold PeriodInBounds; rw [leaveStart_aru]; exact k
    · exact k
  · exact (exec_changes (fun straps h => reset ⟨straps, h⟩) start e).keeps (fun _ _ => Change.periodInBounds) k

/-- A step with no command waiting leaves T_est. -/
theorem idle_period (s : State) : (idle s).aru.period = s.aru.period := by unfold idle; split <;> rfl

/-- Settles O22: every change of the reference unit keeps T_est in its bounds, and a tick leaves it. -/
theorem periodEstimateStaysInBounds : Obligations.PeriodEstimateStaysInBounds := by
  refine ⟨by unfold PeriodInBounds; decide, fun s t k e => ?_⟩
  unfold step at e
  split at e
  · refine exec_periodInBounds ?_ e
    exact k
  · cases e
    unfold PeriodInBounds
    rw [idle_period]
    exact k

end Sys2Proof.Machine
end

section
/-! PROOFS. What no command but RESET undoes (chapters 2, 10 and 11): the station state moves only as chapter 10 lets it,
and what is latched stays. -/

namespace Sys2Proof.Machine

/-! ### Every command -/

/-- What a command other than RESET does to the station state, and what it keeps of the modes, the ordered angle and the
overlap. -/
structure Orderly (s t : State) : Prop where
  follow : canFollow s.stc.station t.stc.station = true
  modes : ModeConsistent s → ModeConsistent t
  angle : AngleInRange s → AngleInRange t
  overlap : OverlapInRange s.cru → OverlapInRange t.cru

theorem Calm.orderly {s t : State} (h : Calm s t) : Orderly s t :=
  ⟨canFollow_of_falls h.station, h.modes, h.angle, h.overlap⟩

/-- A change of nothing that `Calm` reads. -/
theorem Orderly.of_view {s t : State} (h : t.calmView = s.calmView) : Orderly s t := (Calm.of_view h).orderly

/-- A calm beginning that leaves the station state. -/
theorem Orderly.after {s u t : State} (h : Orderly u t) (k : Calm s u) (e : u.stc.station = s.stc.station) :
    Orderly s t :=
  ⟨e ▸ h.follow, fun m => h.modes (k.modes m), fun a => h.angle (k.angle a), fun o => h.overlap (k.overlap o)⟩

/-- A calm operation after a change that `Calm` does not read. -/
theorem IsCalm.orderlyAfter {f : State → State} (h : IsCalm f) {s t : State} (e : t.calmView = s.calmView) :
    Orderly s (f t) := (IsCalm.after h e).orderly

/-! ### DEBLOCK and BLOCK (R174, R175) -/

theorem enterFiring_orderly {s : State} (h : s.stc.station = .blocked) : Orderly s (enterFiring s) where
  follow := by rw [h, enterFiring_eq]; rfl
  modes k := by
    have notBypass : s.stc.record.isSome = true → False := fun e => by simpa [h] using k.record e
    have notHolding : s.stc.holdRunning = true → False := fun e => by simpa [h] using k.hold e
    rw [enterFiring_eq]
    exact ⟨fun _ => .inl rfl, fun e => (notHolding e).elim, fun e => (notBypass e).elim, fun _ => rfl⟩
  angle := id
  overlap := id

theorem stcDeblock_orderly (s : State) : Orderly s (stcDeblock s) := by
  unfold stcDeblock
  split
  · rename_i accepts; exact enterFiring_orderly ((acceptsDeblock_iff s).1 accepts).1
  · exact (Calm.refl s).orderly

/-- The record emptied and a bypass train ended: nothing else changes. -/
theorem exit_calm (s : State) : Calm s (emptyRecord (lcaExit s)) :=
  ⟨⟨falls_refl _, .inl, fun e => by simp at e, id, id, id⟩, id⟩

theorem stcBlock_orderly (s : State) : Orderly s (stcBlock s) := by
  unfold stcBlock
  split
  · rename_i firing; exact (blockFromFiring_calm cancelSchedule_cancels firing).orderly
  · rename_i bypass
    refine ⟨by rw [bypass]; rfl, fun k => ?_, id, id⟩
    have unscheduled : s.fcu.schedule.isSome = true → False := fun e => by simpa [bypass] using k.schedule e
    have notHolding : s.stc.holdRunning = true → False := fun e => by simpa [bypass] using k.hold e
    exact ⟨fun e => (unscheduled e).elim, fun e => (notHolding e).elim, fun e => by simp at e, fun e => by simp at e⟩
  · simp only
    split
    · exact ((exit_calm s).trans (stopHold_cancel_calm _)).orderly
    · exact (exit_calm s).orderly
  all_goals exact (Calm.refl s).orderly

/-! ### Adoption (R177 to R180) -/

/-- The station states in which a BYPASS is adopted. -/
def adopts (x : Station) : Prop := x ≠ .start ∧ x ≠ .inert ∧ x ≠ .survey

theorem stationAdopted_cases {x : Station} (h : adopts x) :
    stationAdopted x = .bypass ∧ canFollow x .bypass = true ∧ canFollow x .tripped = true ∨
      stationAdopted x = .tripped ∧ x = .tripped := by
  obtain ⟨h1, h2, h3⟩ := h
  cases x
  case blocked | firing | bypass => exact .inl ⟨rfl, rfl, rfl⟩
  case tripped => exact .inr ⟨rfl, rfl⟩
  all_goals contradiction

/-- What is handed on at an adoption, with the cancellation of a station that leaves FIRING. -/
def adoptionActs (was is firing : Bool) : List (State → State) :=
  membershipActs was is ++ if firing then [cancelSchedule] else []

theorem adoptionActs_calm (was is firing : Bool) : ∀ f ∈ adoptionActs was is firing, IsCalm f := by
  intro f hf
  refine (List.mem_append.mp hf).elim (membershipActs_calm was is f) fun hf => ?_
  split at hf
  · rw [List.mem_singleton.mp hf]; exact cancelSchedule_calm
  · cases hf

/-- The hand-over of an adoption leaves the schedule, or discards it. -/
theorem adoptionActs_schedule (was is firing : Bool) :
    ∀ f ∈ adoptionActs was is firing, ∀ t : State, t.fcu.schedule = none → (f t).fcu.schedule = none := by
  intro f hf t ht
  refine (List.mem_append.mp hf).elim (fun hf => ?_) fun hf => ?_
  · cases was <;> cases is <;> simp only [membershipActs, List.mem_cons, List.not_mem_nil, or_false] at hf
    · rcases hf with rfl | rfl <;> exact ht
    · subst hf; exact ht
    · subst hf; exact ht
  · split at hf
    · rw [List.mem_singleton.mp hf]; exact cancelSchedule_none t
    · cases hf

/-- An adoption from FIRING leaves nothing scheduled. -/
theorem adoption_schedule (was is : Bool) (t : State) :
    (inAnyOrder (adoptionActs was is true) t).fcu.schedule = none :=
  inAnyOrder_reaches (P := fun _ => True) (Q := fun u => u.fcu.schedule = none) (g := cancelSchedule)
    (by simp [adoptionActs]) trivial (fun _ _ _ _ => trivial) (fun u _ => cancelSchedule_none u)
    (fun f hf u _ => adoptionActs_schedule was is true f hf u)

theorem adoptBypass_orderly {b : BypassOrder} {s : State} (h : adopts s.stc.station) :
    Orderly s (adoptBypass cancelSchedule b s) := by
  set t := (s.adoptRecord b).enter (stationAdopted s.stc.station) with entered
  have adoption : adoptBypass cancelSchedule b s =
      inAnyOrder (adoptionActs s.isMember t.isMember (s.stc.station = .firing)) t := by
    simp only [adoptBypass, adoptionActs, decide_eq_true_eq, entered]
  rw [adoption]
  set u := inAnyOrder (adoptionActs s.isMember t.isMember (s.stc.station = .firing)) t
  have acts : Calm t u := inAnyOrder_calm (adoptionActs_calm _ _ _) t
  have reached := acts.station
  rcases stationAdopted_cases h with ⟨adopted, bypass, trip⟩ | ⟨adopted, tripped⟩
  · have ends : u.stc.station = .bypass ∨ u.stc.station = .tripped := by
      rw [show t.stc.station = .bypass from adopted] at reached
      simpa [falls] using reached
    refine ⟨?_, fun k => ⟨fun e => ?_, fun e => ?_, fun _ => ends, fun e => ?_⟩, acts.angle, acts.overlap⟩
    · rcases ends with e | e <;> rw [e] <;> assumption
    · by_cases firing : s.stc.station = .firing
      · have none : u.fcu.schedule = none := by
          have := adoption_schedule s.isMember t.isMember t
          simpa only [u, firing, decide_true] using this
        simp [none] at e
      · refine acts.schedule (fun e => ?_) e
        rcases k.schedule e with e | ⟨e, -⟩
        · exact absurd e firing
        · rw [e] at adopted; cases adopted
    · refine (acts.hold e).elim (fun e => ?_) id
      have := k.hold e
      rw [this] at adopted; cases adopted
    · rw [e] at ends; simp at ends
  · have ends : u.stc.station = .tripped := falls_tripped reached adopted
    refine ⟨by rw [tripped, ends]; rfl, fun k => ⟨acts.schedule fun e => .inr ⟨adopted, ?_⟩, fun _ => ends,
      fun _ => .inr ends, fun e => by rw [ends] at e; cases e⟩, acts.angle, acts.overlap⟩
    rcases k.schedule e with e | ⟨-, e⟩
    · rw [tripped] at e; cases e
    · exact e

theorem takeBypass_orderly (b : BypassOrder) (s : State) : Orderly s (takeBypass cancelSchedule b s) := by
  unfold takeBypass
  split
  · exact (Calm.refl s).orderly
  split
  · exact (Calm.refl s).orderly
  rename_i elsewhere
  split
  · exact adoptBypass_orderly
      ⟨fun e => elsewhere (.inl e), fun e => elsewhere (.inr (.inl e)), fun e => elsewhere (.inr (.inr e))⟩
  · exact (recordFault_calm _ s).orderly
  · exact (Calm.refl s).orderly

theorem stcBypassBlock_orderly (s : State) : Orderly s (stcBypassBlock s) := by
  unfold stcBypassBlock
  split
  · exact (takeBypass_orderly _ _).after (originate_calm _ _ _ s) (by simp [originateBypass])
  · exact (Calm.refl s).orderly

/-! ### Deliveries -/

/-- An ORDER is orderly when its command is at the Station Controller. -/
theorem cruOrder_orderly {k : Command} (h : ∀ s, Orderly s (stcCommand k s)) (o : Order) (s : State) :
    Orderly s (cruOrder k o s) := by
  unfold cruOrder
  split
  · exact .of_view rfl
  split
  · exact (Calm.refl s).orderly
  set u := resetStaleness (handAngle o.alpha (s.onCru fun c => { c with activeSource := some o.origin })) with heard
  have calm : Calm s u := orderHeard_calm s o
  have same : u.stc.station = s.stc.station := by
    rw [heard]; unfold resetStaleness; split <;> rfl
  unfold decideCommand
  split
  · exact calm.orderly
  · exact (h _).after (calm.trans (.of_view rfl)) same

theorem stcCommand_orderly (k : Command) (s : State) : Orderly s (stcCommand k s) := by
  cases k with
  | hold => exact (Calm.refl s).orderly
  | deblock => exact stcDeblock_orderly s
  | block => exact stcBlock_orderly s
  | bypassBlock => exact stcBypassBlock_orderly s
  | clear => exact (stcClear_calm s).orderly

/-- A delivered command that runs is orderly when its act is. -/
theorem delivery_orderly {q : Nat} {c : Instr} {act : State → State} {s t : State} (h : ∀ u, Orderly u (act u))
    (e : onPosition q (delivered c q act s) = .next t) : Orderly s t := by
  rw [← eq_of_onPosition e]
  unfold delivered
  simp only
  split
  · exact (h _).after (u := heard q (s.taken c)) (.of_view rfl) rfl
  · exact .of_view rfl

/-! ### START_EXIT (R170) -/

theorem leaveStart_orderly {s : State} (h : s.stc.station = .start) : Orderly s (leaveStart s) := by
  have idle : ModeConsistent s → s.fcu.schedule.isSome = false ∧ s.stc.holdRunning = false ∧
      s.stc.record.isSome = false := fun k => by
    refine ⟨?_, ?_, ?_⟩ <;> refine Bool.eq_false_iff.2 fun e => ?_
    · simpa [h] using k.schedule e
    · simpa [h] using k.hold e
    · simpa [h] using k.record e
  unfold leaveStart
  split
  · refine ⟨by rw [h]; rfl, fun k => ?_, id, id⟩
    obtain ⟨schedule, hold, record⟩ := idle k
    exact ⟨by simp [schedule], by simp [hold], by simp [record], by simp⟩
  · refine ⟨by rw [h]; rfl, fun k => ?_, id, fun _ => by show 2000 ≤ 6000; decide⟩
    obtain ⟨schedule, hold, record⟩ := idle k
    exact ⟨by simp [schedule], by simp [hold], by simp [record], by simp⟩

/-- Every command but RESET is orderly. -/
theorem exec_orderly {c : Instr} {s t : State} (reset : ∀ straps, c ≠ .reset straps) (e : exec c s = .next t) :
    Orderly s t := by
  have stays : Orderly s s := (Calm.refl s).orderly
  cases c with
  | reset straps => exact absurd rfl (reset straps)
  | startExit =>
    cases e
    split
    · rename_i due
      simp only [startOver, Bool.and_eq_true, decide_eq_true_eq] at due
      exact leaveStart_orderly due.1
    · exact stays
  | hold o => exact delivery_orderly (cruOrder_orderly (stcCommand_orderly _) o) e
  | deblock o => exact delivery_orderly (cruOrder_orderly (stcCommand_orderly _) o) e
  | block o => exact delivery_orderly (cruOrder_orderly (stcCommand_orderly _) o) e
  | bypassBlock o => exact delivery_orderly (cruOrder_orderly (stcCommand_orderly _) o) e
  | clear o => exact delivery_orderly (cruOrder_orderly (stcCommand_orderly _) o) e
  | fire f => exact delivery_orderly (fun u => (cruFire_calm f u).orderly) e
  | health q i => exact delivery_orderly (fun u => (cruHealth_calm q i u).orderly) e
  | margin q γ => exact delivery_orderly (fun u => (cruMargin_calm q γ u).orderly) e
  | cfail q a b => exact delivery_orderly (fun u => (cruCfail_calm q u).orderly) e
  | bypass b => exact delivery_orderly (takeBypass_orderly b) e
  | settings q r => exact delivery_orderly (fun u => (stcSettings_calm q r u).orderly) e
  | query q a b => exact delivery_orderly (fun u => (cruQuery_calm q a b u).orderly) e
  | report q => exact delivery_orderly (fun u => (Calm.refl u).orderly) e
  | peerLost q =>
    rw [← eq_of_onPosition e]
    split
    · exact .of_view rfl
    · exact stays
  | indication i =>
    cases e
    unfold fallingEdge
    simp only
    split
    · exact IsCalm.orderlyAfter (takeIndication_calm _ _ _) rfl
    · exact .of_view rfl
  | channelStuck i =>
    cases e
    unfold channelStuck
    split
    · exact IsCalm.orderlyAfter (takeIndication_calm _ _ _) rfl
    · exact stays
  | stuckRecovery i =>
    cases e
    split
    · exact .of_view rfl
    · exact stays
  | indicationRisingEdge i => cases e; exact .of_view rfl
  | qualificationStart => cases e; exact .of_view rfl
  | qualificationFailure => cases e; exact .of_view rfl
  | qualifiedCrossing =>
    cases e
    unfold qualifiedCrossing
    split
    · exact IsCalm.orderlyAfter (takeCrossing_calm _) rfl
    · exact stays
  | miss =>
    cases e
    split
    · exact (declareMiss_calm s).orderly
    · exact stays
  | holdoverLimit => cases e; exact (holdoverLimit_calm s).orderly
  | acquisitionTimeout =>
    cases e
    split
    · exact (enterFree_calm s).orderly
    · exact stays
  | cycleMarkFallback =>
    cases e
    split
    · exact (cycleMark_calm _ s).orderly
    · exact stays
  | firingInstant =>
    cases e
    split
    · exact (fireAt_calm _ s).orderly
    · exact stays
  | mainPulseEnd => cases e; exact .of_view rfl
  | conductionLimit => cases e; exact .of_view rfl
  | overdueDeadline =>
    cases e
    split
    · exact IsCalm.orderlyAfter (detectFailure_calm takeFault_calm _ _) (t := discardWatch s) rfl
    · exact stays
  | telegramArrival p run => cases e; exact (arrive_calm p run s).orderly
  | ownTelegramReturn p q age hops stamp => cases e; exact IsCalm.orderlyAfter (ownReturn_calm _ _ _ _ _) rfl
  | returnTimerExpiry p =>
    cases e
    split
    · exact IsCalm.orderlyAfter (missingReturn_calm p) rfl
    · exact stays
  | departure p =>
    cases e
    split
    · exact (depart_calm p s).orderly
    · exact stays
  | settleDeadline =>
    cases e
    split
    · exact (settleRecord_calm s).orderly
    · exact stays
  | escalationEntryExpiry =>
    cases e
    split
    · exact .of_view rfl
    · exact stays
  | isolationHoldEnd =>
    cases e
    split
    · exact (stopHold_cancel_calm s).orderly
    · exact stays

/-! ### What is latched -/

/-- What no command but RESET undoes, and what of the record only a BLOCK does (R21, R179, R193). -/
structure Latched (c : Instr) (s t : State) : Prop where
  straps : t.straps = s.straps
  failed : ∀ i, (s.level i).state = .failed → (t.level i).state = .failed
  fired : s.stc.fired = true → t.stc.fired = true
  frozen : s.stc.frozen = true → t.stc.frozen = true
  settings : s.stc.fired = true ∨ s.stc.frozen = true →
    t.stc.gammaMin = s.stc.gammaMin ∧ t.stc.gammaAlarm = s.stc.gammaAlarm ∧ t.stc.gain = s.stc.gain ∧
      ∀ f : FaultCode, (t.stc.fault f).mode = (s.stc.fault f).mode
  record : (∀ o, c ≠ .block o) → ∀ r, s.stc.record = some r → r.settled = true → t.stc.record = some r

theorem Latched.refl (c : Instr) (s : State) : Latched c s s :=
  ⟨rfl, fun _ => id, id, id, fun _ => ⟨rfl, rfl, rfl, fun _ => rfl⟩, fun _ _ h _ => h⟩

theorem Latched.trans {c : Instr} {s t u : State} (h : Latched c s t) (k : Latched c t u) : Latched c s u where
  straps := k.straps.trans h.straps
  failed i e := k.failed i (h.failed i e)
  fired e := k.fired (h.fired e)
  frozen e := k.frozen (h.frozen e)
  settings e := by
    obtain ⟨min, alarm, gain, modes⟩ := h.settings e
    obtain ⟨min', alarm', gain', modes'⟩ := k.settings (e.imp h.fired h.frozen)
    exact ⟨min'.trans min, alarm'.trans alarm, gain'.trans gain, fun f => (modes' f).trans (modes f)⟩
  record b r hr settled := k.record b r (h.record b r hr settled) settled

/-- A change outside the straps, the level table and the Station Controller. -/
theorem Latched.of_same {c : Instr} {s t : State} (straps : t.straps = s.straps) (lmon : t.lmon = s.lmon)
    (stc : t.stc = s.stc) : Latched c s t := by
  refine ⟨straps, ?_, ?_, ?_, ?_, ?_⟩
  · unfold State.level; rw [lmon]; exact fun _ => id
  · rw [stc]; exact id
  · rw [stc]; exact id
  · rw [stc]; exact fun _ => ⟨rfl, rfl, rfl, fun _ => rfl⟩
  · rw [stc]; exact fun _ _ h _ => h

theorem Move.latched {c : Instr} {s t : State} (h : Move s t) : Latched c s t := by
  cases h with
  | stc f k =>
    obtain ⟨min, alarm, gain, frozen⟩ := k.settings
    exact ⟨rfl, fun _ => id, k.fired, fun e => frozen.trans e, fun _ => ⟨min, alarm, gain, k.modes⟩,
      fun _ => k.settled⟩
  | lmon m k => exact ⟨rfl, k.latched, id, id, fun _ => ⟨rfl, rfl, rfl, fun _ => rfl⟩, fun _ _ h _ => h⟩
  | originate k p e => exact .of_same (by simp) (by simp) (by simp)
  | train => exact .of_same rfl rfl rfl
  | fcu => exact .of_same rfl rfl rfl
  | cru => exact .of_same rfl rfl rfl
  | drawn => exact .of_same rfl rfl rfl

theorem Change.latched {c : Instr} {s t : State} (h : Change c s t) : Latched c s t := by
  cases h with
  | move h => exact h.latched
  | settings r accepts =>
    obtain ⟨-, fired, frozen⟩ := (acceptsSettings_iff _).1 accepts
    exact ⟨rfl, fun _ => id, id, fun _ => rfl, fun e => by simp [fired, frozen] at e, fun _ _ h _ => h⟩
  | record block =>
    obtain ⟨o, block⟩ := block
    exact ⟨rfl, fun _ => id, id, id, fun _ => ⟨rfl, rfl, rfl, fun _ => rfl⟩, fun other => absurd block (other o)⟩
  | channel => exact .of_same rfl rfl rfl
  | aru => exact .of_same rfl rfl rfl
  | port => exact .of_same rfl rfl rfl
  | handed => exact .of_same rfl rfl rfl

theorem Changes.latched {c : Instr} {s t : State} (h : Changes c s t) : Latched c s t :=
  h.keeps (P := Latched c s) (fun _ _ m k => k.trans m.latched) (.refl c s)

theorem leaveStart_latched (c : Instr) (s : State) : Latched c s (leaveStart s) := by
  unfold leaveStart
  split <;> exact ⟨rfl, fun _ => id, id, id, fun _ => ⟨rfl, rfl, rfl, fun _ => rfl⟩, fun _ _ h _ => h⟩

theorem exec_latched {c : Instr} {s t : State} (reset : ∀ straps, c ≠ .reset straps) (e : exec c s = .next t) :
    Latched c s t := by
  by_cases start : c = .startExit
  · subst start
    cases e
    split
    · exact leaveStart_latched _ s
    · exact .refl _ s
  · exact (exec_changes reset start e).latched

/-- Settles O57: the station state goes where `Orderly` lets it, and what is latched stays through every change. -/
theorem onlyResetUndoesWhatIsLatched : Obligations.OnlyResetUndoesWhatIsLatched := fun c s t reset e => by
  obtain ⟨straps, failed, fired, frozen, settings, record⟩ := exec_latched reset e
  exact ⟨(exec_orderly reset e).follow, straps, failed, fired, frozen, settings, record⟩

end Sys2Proof.Machine
end

section
/-! PROOFS. A sound state stays sound: what moves and changes keep of each promise of Safety.lean, and the quiet of a
station in START or INERT. -/

namespace Sys2Proof.Machine

/-! ### What changes keep -/

theorem enqueue_sound {p : RingPort} (e : QueueEntry) (k : PortSound p) : PortSound (p.enqueue e) := by
  obtain ⟨range, order⟩ := k
  obtain ⟨ordered, length, same⟩ := enqueue_ordered (e := e) order range.queue
  refine ⟨?_, ordered⟩
  rw [same]
  exact ⟨range.forwarding, length, range.outstanding, range.hopDelay, range.returnRun, range.missRun⟩

theorem onPort_ringsInOrder {s : State} {p : Port} {f : RingPort → RingPort}
    (h : PortSound (s.port p) → PortSound (f (s.port p))) (k : RingsInOrder s) : RingsInOrder (s.onPort p f) := by
  intro q
  by_cases same : p = q
  · subst same; rw [port_onPort_same]; exact h (k p)
  · rw [show (s.onPort p f).port q = s.port q from onPort_port_other s.rif f same]; exact k q

theorem Move.ringsInOrder {s t : State} (h : Move s t) (k : RingsInOrder s) : RingsInOrder t := by
  cases h with
  | originate kind payload event =>
    rcases originate_cases kind payload event s with e | e <;> rw [e]
    · exact k
    · intro p
      show PortSound ((s.rif.originated kind payload event).port p)
      rw [originated_port]
      exact enqueue_sound _ (k p)
  | train => exact k
  | lmon => exact k
  | fcu => exact k
  | cru => exact k
  | stc => exact k
  | drawn => exact k

theorem Change.ringsInOrder {c : Instr} {s t : State} (h : Change c s t) (k : RingsInOrder s) : RingsInOrder t := by
  cases h with
  | move h => exact h.ringsInOrder k
  | port p f h => exact onPort_ringsInOrder h k
  | channel => exact k
  | aru => exact k
  | handed => exact k
  | settings => exact k
  | record => exact k

theorem Change.linesFollow {c : Instr} {s t : State} (h : Change c s t) (k : StatusLinesFollow s) :
    StatusLinesFollow t := by
  cases h with
  | move h => exact h.linesFollow k
  | port => exact k
  | channel => exact k
  | aru => exact k
  | handed => exact k
  | settings => exact k
  | record => exact k

/-- The settings in their ranges and every fault in a mode it allows. -/
def SettingsSound (c : Stc) : Prop := SettingsInRange c ∧ FaultTableInRange c

theorem StcKeeps.settingsSound {a b : Stc} (h : StcKeeps a b) (k : SettingsSound a) : SettingsSound b := by
  obtain ⟨min, alarm, gain, -⟩ := h.settings
  obtain ⟨range, faults⟩ := k
  refine ⟨by unfold SettingsInRange at *; rw [min, alarm, gain]; exact range, fun f => ⟨?_, h.counts f (faults f).2⟩⟩
  rw [h.modes]; exact (faults f).1

/-- The mode that a SETTINGS gives a fault is one that R185 allows it. -/
theorem settingMode_allowed (modes : BitVec 16) (f : FaultCode) : f.allows (settingMode modes f) = true := by
  have default : f.allows f.defaultMode = true := by cases f <;> rfl
  unfold settingMode FaultCode.takenMode
  split
  · split
    · assumption
    · exact default
  · exact default

theorem settle_settingsSound {c : Stc} (r : RawSettings) (k : SettingsSound c) :
    SettingsSound (c.settle (settingsContent r)) := by
  refine ⟨?_, fun f => ?_⟩
  · simp only [SettingsInRange, Stc.settle, settingsContent, clamp]
    omega
  · rw [settle_fault]
    exact ⟨settingMode_allowed _ _, (k.2 f).2⟩

theorem Move.stcKeeps {s t : State} (h : Move s t) : StcKeeps s.stc t.stc := by
  cases h with
  | stc f k => exact k
  | originate => rw [originate_stc]; exact .refl _
  | train => exact .refl _
  | lmon => exact .refl _
  | fcu => exact .refl _
  | cru => exact .refl _
  | drawn => exact .refl _

theorem Change.settingsSound {c : Instr} {s t : State} (h : Change c s t) (k : SettingsSound s.stc) :
    SettingsSound t.stc := by
  cases h with
  | move h => exact h.stcKeeps.settingsSound k
  | settings r accepts => exact settle_settingsSound r k
  | port => exact k
  | channel => exact k
  | aru => exact k
  | handed => exact k
  | record => exact k

/-- The failed count is right and the tallies follow the phase. -/
def LmonSound (s : State) : Prop := FailedCountRight s ∧ TalliesFollowPhase s.lmon

theorem Change.lmonSound {c : Instr} {s t : State} (h : Change c s t) (k : LmonSound s) : LmonSound t := by
  cases h with
  | move h =>
    refine ⟨?_, h.lmonKeeps.tallies k.2⟩
    unfold FailedCountRight
    rw [recordsIn_eq, h.sameFrame.2.1]
    exact h.lmonKeeps.count (by rw [← recordsIn_eq]; exact k.1)
  | port => exact k
  | channel => exact k
  | aru => exact k
  | handed => exact k
  | settings => exact k
  | record => exact k

theorem Change.cruKeeps {c : Instr} {s t : State} (h : Change c s t) : CruKeeps s.cru t.cru := by
  cases h with
  | move h => exact h.cruKeeps
  | port => exact ⟨id, id⟩
  | channel => exact ⟨id, id⟩
  | aru => exact ⟨id, id⟩
  | handed => exact ⟨id, id⟩
  | settings => exact ⟨id, id⟩
  | record => exact ⟨id, id⟩

/-! ### START and INERT (R22, R46, R94, R171) -/

/-- What the quiet of START and INERT is about, with the station state. -/
def State.quietView (s : State) :=
  (s.stc.station, s.lmon, s.aru.lock, s.aru.qualifier, s.lca.train, s.fcu.schedule, s.rif.ownSequence, s.rif.portA.queue,
    s.rif.portB.queue, s.rif.portA.outstanding, s.rif.portB.outstanding)

/-- What reset leaves of it but for the station state. -/
def IsQuiet (s : State) : Prop :=
  s.quietView.2 = (Lmon.reset, .free, none, none, none, 0, [], [], [], [])

/-- A station that has not left START for SURVEY. -/
def Unstarted (s : State) : Prop := s.stc.station = .start ∨ s.stc.station = .inert

theorem unstartedIsQuiet_iff (s : State) : UnstartedIsQuiet s ↔ (Unstarted s → IsQuiet s) := by
  simp only [UnstartedIsQuiet, Unstarted, IsQuiet, State.quietView, Prod.mk.injEq]

theorem IsQuiet.port {s : State} (h : IsQuiet s) (p : Port) : (s.port p).queue = [] ∧ (s.port p).outstanding = [] := by
  simp only [IsQuiet, State.quietView, Prod.mk.injEq] at h
  obtain ⟨-, -, -, -, -, -, qa, qb, oa, ob⟩ := h
  cases p
  · exact ⟨qa, oa⟩
  · exact ⟨qb, ob⟩

/-- A change in a station that has not started: all that it could do is out of its reach. -/
structure Muted (s t : State) : Prop where
  view : t.quietView = s.quietView
  cru : s.stc.station = .inert → t.cru = s.cru

theorem Muted.refl (s : State) : Muted s s := ⟨rfl, fun _ => rfl⟩

theorem Muted.of_view {s t : State} (h : t.quietView = s.quietView) (start : s.stc.station = .start) : Muted s t :=
  ⟨h, fun e => by rw [start] at e; cases e⟩

theorem Unstarted.not_live {s : State} (h : Unstarted s) (i : Nat) : s.live i = false := by
  unfold State.live; rcases h with h | h <;> simp [h]

/-- A fault in START or INERT is entered in its table alone (R181, R186). -/
theorem takeFaultWith_unstarted {cancel : State → State} {f : FaultCode} {s : State} (h : Unstarted s) :
    takeFaultWith cancel f s = s.recordFault f := by
  unfold takeFaultWith
  simp only
  split
  · unfold trip
    rcases h with h | h <;> rw [recordFault_stc, onFault_station, h]
  · rw [if_neg]
    rw [recordFault_stc, onFault_station]
    rcases h with h | h <;> simp [h]
  · rfl
  · rfl

/-- No command of an ORDER has an effect in START (R173). -/
theorem stcCommand_start (k : Command) {s : State} (h : s.stc.station = .start) : stcCommand k s = s := by
  cases k with
  | hold => rfl
  | deblock => exact if_neg (by simp [acceptsDeblock, h])
  | block => simp only [stcCommand, stcBlock, h]
  | bypassBlock => exact if_neg (by simp [h])
  | clear => exact if_neg (by simp [h])

theorem originate_start {k p e} {s : State} (h : s.stc.station = .start) : originate k p e s = s := if_pos (.inl h)

/-- What an act of a delivery does in START: nothing that the quiet is about. -/
abbrev QuietInStart (f : State → State) : Prop := ∀ s, s.stc.station = .start → (f s).quietView = s.quietView

theorem cruOrder_quiet (k o) : QuietInStart (cruOrder k o) := fun s h => by
  unfold cruOrder
  split
  · rfl
  split
  · rfl
  set u := resetStaleness (handAngle o.alpha (s.onCru fun c => { c with activeSource := some o.origin })) with heard
  have same : u.quietView = s.quietView ∧ u.stc.station = s.stc.station := by
    rw [heard]; unfold resetStaleness; split <;> exact ⟨rfl, rfl⟩
  unfold decideCommand
  split
  · exact same.1
  · rw [stcCommand_start k (by exact same.2.trans h)]
    exact same.1

theorem cruFire_quiet (f) : QuietInStart (cruFire f) := fun s h => by
  have notHolding : s.inHold = false := by simp [State.inHold, h]
  unfold cruFire
  split
  · simp only
    split
    · rw [if_neg]
      · rfl
      · exact fun e => by simpa [h, notHolding] using (firingOrHold_iff _).1 e
    · split
      · unfold bridgePredecessorFire; split <;> rfl
      · split
        · unfold startRequest
          rw [if_neg (by simp [h])]
          rfl
        · rfl
  · rfl

theorem cruHealth_quiet (q i) : QuietInStart (cruHealth q i) := fun s _ => by
  unfold cruHealth
  split
  · simp only
    split
    · unfold measureMu
      split
      · split <;> rfl
      · rfl
    · rfl
  · rfl

theorem takeBypass_quiet (b) : QuietInStart (takeBypass cancelSchedule b) := fun s h => by
  unfold takeBypass
  split
  · rfl
  · rw [if_pos (.inl h)]

theorem stcSettings_quiet (q r) : QuietInStart (stcSettings q r) := fun s h => by
  unfold stcSettings
  split
  · rfl
  split
  · rfl
  split
  · rfl
  · rw [takeFault, takeFaultWith_unstarted (.inl h)]; rfl

theorem cruQuery_quiet (q a b) : QuietInStart (cruQuery q a b) := fun s h => by
  unfold cruQuery
  rw [if_pos (by simp [h])]

theorem cruMargin_quiet (q γ) : QuietInStart (cruMargin q γ) := fun s _ => by
  unfold cruMargin requestMargin
  split
  · split <;> rfl
  · rfl

theorem detectFailure_quiet (c t) : QuietInStart (detectFailure takeFault c t) := fun s h => by
  have told : enterAndTell c t s = s.onCru fun k => { k with cfHistory := historyEntered k.cfHistory k.ownFn } :=
    originate_start h
  unfold detectFailure
  simp only [told]
  split
  · rfl
  · unfold repetitionTest
    split
    · generalize e : requestCfail _ _ = u
      have start : Unstarted u := .inl (by rw [← e]; exact h)
      rw [takeFault, takeFaultWith_unstarted start, ← e]
      rfl
    · rfl

/-- In INERT a delivery leaves the hand-over list; in START its act keeps the quiet. -/
theorem delivery_muted {q : Nat} {c : Instr} {act : State → State} {s t : State} (h : QuietInStart act)
    (un : Unstarted s) (e : onPosition q (delivered c q act s) = .next t) : Muted s t := by
  rw [← eq_of_onPosition e]
  rcases un with start | inert
  · refine .of_view ?_ start
    unfold delivered
    simp only
    split
    · exact h (heard q (s.taken c)) start
    · rfl
  · rw [delivered_none (.inl inert)]
    exact ⟨rfl, fun _ => rfl⟩

theorem onChannel_muted (s : State) (i) (f) : Muted s (s.onChannel i f) := ⟨rfl, fun _ => rfl⟩

/-- A change of a port that leaves its queue and its outstanding list. -/
theorem onPort_muted {s : State} {p : Port} {f : RingPort → RingPort} (queue : (f (s.port p)).queue = (s.port p).queue)
    (outstanding : (f (s.port p)).outstanding = (s.port p).outstanding) : Muted s (s.onPort p f) := by
  refine ⟨?_, fun _ => rfl⟩
  cases p
  · simp only [State.quietView, onPort_stc, onPort_lmon, onPort_aru, onPort_lca, onPort_fcu, onPort_rif, onPort_ownSequence]
    exact congrArg₂ (fun x y => (s.stc.station, s.lmon, s.aru.lock, s.aru.qualifier, s.lca.train, s.fcu.schedule, s.rif.ownSequence,
      x, s.rif.portB.queue, y, s.rif.portB.outstanding)) queue outstanding
  · simp only [State.quietView, onPort_stc, onPort_lmon, onPort_aru, onPort_lca, onPort_fcu, onPort_rif, onPort_ownSequence]
    exact congrArg₂ (fun x y => (s.stc.station, s.lmon, s.aru.lock, s.aru.qualifier, s.lca.train, s.fcu.schedule, s.rif.ownSequence,
      s.rif.portA.queue, x, s.rif.portA.outstanding, y)) queue outstanding

theorem count_muted (s : State) (p f) : Muted s (s.count p f) := onPort_muted rfl rfl

theorem forward_muted (s : State) (p t stamp) : Muted s (s.onPort p fun r => r.forward t stamp) := by
  refine onPort_muted ?_ ?_ <;> unfold RingPort.forward <;> split <;> rfl

theorem windowStep_quiet (p t stamp) (s : State) : (windowStep p t stamp s).quietView = s.quietView := by
  unfold windowStep
  split
  · rfl
  · exact (count_muted s p _).view
  · unfold deliverCopy
    split
    · rfl
    · exact (count_muted _ p _).view

theorem arrive_muted {s : State} (un : Unstarted s) (p run) : Muted s (arrive p run s) := by
  unfold arrive
  split
  · split
    · split
      · unfold routeCopy
        split
        · exact ⟨rfl, fun _ => rfl⟩
        split
        · exact count_muted s p _
        simp only
        split
        · exact forward_muted s p _ _
        · rename_i live
          exact .of_view ((windowStep_quiet _ _ _ _).trans (forward_muted s p _ _).view) (un.resolve_right live)
      · exact count_muted s p _
    · exact count_muted s p _
  · exact count_muted s p _

/-- A station that has not started, as it stands in a sound state. -/
structure UnstartedState (s : State) : Prop where
  unstarted : Unstarted s
  quiet : IsQuiet s
  mute : InertIsMute s
  hold : s.stc.holdRunning = false

/-- In START and INERT every command but RESET and START_EXIT leaves what the quiet is about, and in INERT the
Coordination Unit. -/
theorem exec_muted {c : Instr} {s t : State} (reset : ∀ straps, c ≠ .reset straps) (start : c ≠ .startExit)
    (h : UnstartedState s) (e : exec c s = .next t) : Muted s t := by
  obtain ⟨un, quiet, mute, hold⟩ := h
  have ports := quiet.port
  simp only [IsQuiet, State.quietView, Prod.mk.injEq] at quiet
  obtain ⟨lmon, lock, qualifier, train, schedule, -⟩ := quiet
  have stays : Muted s s := .refl s
  cases c with
  | reset straps => exact absurd rfl (reset straps)
  | startExit => exact absurd rfl start
  | hold o => exact delivery_muted (cruOrder_quiet _ o) un e
  | deblock o => exact delivery_muted (cruOrder_quiet _ o) un e
  | block o => exact delivery_muted (cruOrder_quiet _ o) un e
  | bypassBlock o => exact delivery_muted (cruOrder_quiet _ o) un e
  | clear o => exact delivery_muted (cruOrder_quiet _ o) un e
  | fire f => exact delivery_muted (cruFire_quiet f) un e
  | health q i => exact delivery_muted (cruHealth_quiet q i) un e
  | margin q γ => exact delivery_muted (cruMargin_quiet q γ) un e
  | cfail q a b => exact delivery_muted (fun s _ => by unfold cruCfail; split <;> rfl) un e
  | bypass b => exact delivery_muted (takeBypass_quiet b) un e
  | settings q r => exact delivery_muted (stcSettings_quiet q r) un e
  | query q a b => exact delivery_muted (cruQuery_quiet q a b) un e
  | report q => exact delivery_muted (fun _ _ => rfl) un e
  | peerLost q =>
    rw [← eq_of_onPosition e]
    rcases un with start | inert
    · exact .of_view (by split <;> rfl) start
    · rw [if_neg (by simp [peerAbsent, inert])]; exact stays
  | indication i =>
    cases e
    have dark : (s.channel i).handedAtFall (s.live i.val) s.now = none := by
      rw [un.not_live]; rfl
    simp only [fallingEdge, dark]
    exact onChannel_muted s i _
  | channelStuck i =>
    cases e
    have dark : (s.channel i).stuckStamp (s.live i.val) s.now = none := by
      rw [un.not_live]; rfl
    simp only [channelStuck, dark]
    exact stays
  | stuckRecovery i =>
    cases e
    split
    · exact onChannel_muted s i _
    · exact stays
  | indicationRisingEdge i => cases e; exact onChannel_muted s i _
  | qualificationStart =>
    cases e
    have unwatched : s.watching = false := by unfold State.watching; rcases un with h | h <;> simp [h]
    exact ⟨by simp [syncRising, unwatched, State.quietView], fun _ => rfl⟩
  | qualificationFailure => cases e; exact ⟨by simp [State.quietView, qualifier], fun _ => rfl⟩
  | qualifiedCrossing =>
    cases e
    have unqualified : s.aru.qualifies s.now = none := by simp only [Aru.qualifies, qualifier]
    simp only [qualifiedCrossing, unqualified]
    exact stays
  | miss => cases e; rw [if_neg (by simp [Aru.missDue, lock])]; exact stays
  | holdoverLimit => cases e; rw [holdoverLimit, if_neg (by simp [lock]), if_neg (by simp [Aru.missDue, lock])]; exact stays
  | acquisitionTimeout => cases e; rw [if_neg (by simp [Aru.acquisitionOver, lock])]; exact stays
  | cycleMarkFallback =>
    cases e; rw [if_neg (by simp [fallbackDue, State.pastFallback, lmon, Lmon.reset])]; exact stays
  | firingInstant =>
    cases e
    have unscheduled : reachedSchedule s = none := by simp only [reachedSchedule, schedule]
    simp only [unscheduled]
    exact stays
  | mainPulseEnd =>
    cases e; exact ⟨by simp [State.quietView, Lca.onTrain, trainMainEnd, mainEndDue, train], fun _ => rfl⟩
  | conductionLimit => cases e; exact ⟨by simp [State.quietView, Lca.onTrain, trainLimit, train], fun _ => rfl⟩
  | overdueDeadline =>
    cases e
    rcases un with start | inert
    · refine .of_view ?_ start
      split
      · exact detectFailure_quiet _ _ (discardWatch s) start
      · rfl
    · have unwatched : overdueAt s = none := by simp only [overdueAt, mute inert]; rfl
      simp only [unwatched]
      exact stays
  | telegramArrival p run => cases e; exact arrive_muted un p run
  | ownTelegramReturn p q age hops stamp =>
    cases e
    have unmatched : (((s.taken (.ownTelegramReturn p q age hops stamp)).port p).outstanding.find?
        fun x => x.sequence = q) = none := by
      rw [show ((s.taken (.ownTelegramReturn p q age hops stamp)).port p).outstanding = [] from (ports p).2]; rfl
    simp only [ownReturn, unmatched]
    exact ⟨rfl, fun _ => rfl⟩
  | returnTimerExpiry p =>
    cases e; rw [if_neg (by simp [returnExpired, (ports p).2])]; exact stays
  | departure p =>
    cases e
    split
    · unfold depart
      split
      · exact onPort_muted rfl rfl
      · rename_i waiting; rw [(ports p).1] at waiting; cases waiting
      · exact stays
    · exact stays
  | settleDeadline =>
    cases e
    split
    · exact ⟨rfl, fun _ => rfl⟩
    · exact stays
  | escalationEntryExpiry =>
    cases e
    split
    · exact ⟨rfl, fun _ => rfl⟩
    · exact stays
  | isolationHoldEnd => cases e; rw [if_neg (by simp [holdOver, hold])]; exact stays

/-! ### RESET and START_EXIT -/

/-- Every block at its reset values, whatever the straps, the input pins and the lists. -/
structure AsReset (s : State) : Prop where
  stc : s.stc = Stc.reset
  lmon : s.lmon = Lmon.reset
  aru : ∃ nomf input, s.aru = Aru.resetWith nomf input
  fcu : s.fcu = Fcu.reset
  rif : s.rif = Rif.reset
  cru : s.cru = Cru.reset
  train : s.lca.train = none

theorem level_of_reset {s : State} (h : s.lmon = Lmon.reset) (i : Fin 80) : s.lmon.levels.get i = Level.reset := by
  rw [h]
  show (Vector.replicate 80 Level.reset)[i.val] = Level.reset
  simp

/-- No record of a table as reset leaves it is FAILED. -/
theorem failedCountRight_of_levels {s : State} (levels : ∀ i, s.lmon.levels.get i = Level.reset)
    (failed : s.lmon.failed = 0) : FailedCountRight s := by
  simp [FailedCountRight, recordsIn, levels, Level.reset, failed]

theorem fault_reset (f : FaultCode) :
    Stc.reset.fault f = { active := false, count := 0, mode := f.defaultMode } := fault_map f _

theorem portSound_reset : PortSound RingPort.reset := by
  refine ⟨⟨?_, ?_, ?_, ?_, ?_, ?_⟩, ⟨?_, ?_⟩⟩ <;> simp [RingPort.reset]

theorem AsReset.sound {s : State} (h : AsReset s) : Sound s := by
  obtain ⟨stc, lmon, ⟨nomf, input, aru⟩, fcu, rif, cru, train⟩ := h
  exact
    { lines := by simp [StatusLinesFollow, stc, Stc.reset]
      settings := by rw [stc]; simp [SettingsInRange, Stc.reset]
      faults := fun f => by rw [stc, fault_reset]; cases f <;> decide
      modes := ⟨by simp [fcu, Fcu.reset], by simp [stc, Stc.reset], by simp [stc, Stc.reset], by simp [stc, Stc.reset]⟩
      period := by
        rw [PeriodInBounds, aru]
        show 153800 ≤ nominalPeriod _ ∧ nominalPeriod _ ≤ 222300
        cases nomf <;> decide
      failed := failedCountRight_of_levels (level_of_reset lmon) (by rw [lmon]; rfl)
      tallies := by
        rw [lmon]
        exact ⟨fun e => (by cases e), fun e => (by cases e), List.nodup_nil, List.nodup_nil, List.nodup_nil⟩
      rings := fun p => by unfold State.port; rw [rif]; cases p <;> exact portSound_reset
      advances := by rw [cru]; exact ⟨by decide, List.nodup_nil, by simp [Cru.reset], by simp [Cru.reset]⟩
      history := by rw [cru]; exact ⟨by decide, List.nodup_nil⟩
      angle := by simp [AngleInRange, fcu, Fcu.reset]
      overlap := by simp [OverlapInRange, cru, Cru.reset]
      inert := fun _ => cru
      quiet := fun _ => by simp [lmon, aru, Aru.resetWith, train, fcu, Fcu.reset, rif, Rif.reset, RingPort.reset] }

theorem resetTo_asReset (straps : Straps) (s : State) : AsReset (resetTo straps s) :=
  ⟨rfl, rfl, ⟨_, _, rfl⟩, rfl, rfl, rfl, rfl⟩

/-- Settles O58: every block is at its reset values. -/
theorem resetStateIsSound : Obligations.ResetStateIsSound := by
  have asReset : AsReset State.reset := ⟨rfl, rfl, ⟨_, _, rfl⟩, rfl, rfl, rfl, rfl⟩
  exact ⟨asReset.sound, (lit_iff _).2 rfl⟩

/-- The lines show the station state just entered (R183). -/
theorem enter_linesFollow (s : State) (x : Station) : StatusLinesFollow (s.enter x) := by
  simp [StatusLinesFollow, Stc.enter, tripHigh, readyHigh, or_assoc]

/-- The exit from START keeps a sound state sound: a table as reset leaves it, in SURVEY with the RV tally armed. -/
theorem leaveStart_sound {s : State} (k : Sound s) (h : s.stc.station = .start) : Sound (leaveStart s) := by
  have orderly := leaveStart_orderly h
  have latched := leaveStart_latched .startExit s
  obtain ⟨lmon, lock, qualifier, train, schedule, rings⟩ := k.quiet (.inl h)
  have levels := level_of_reset lmon
  by_cases valid : validStraps s.straps = true
  · have left : leaveStart s = (s.enter .survey).onLmon fun m => m.begun s.straps s.now := if_pos valid
    rw [left] at orderly latched ⊢
    exact
      { lines := enter_linesFollow s .survey
        settings := k.settings
        faults := k.faults
        modes := orderly.modes k.modes
        period := k.period
        failed := failedCountRight_of_levels levels (by rw [onLmon_lmon, enter_lmon, lmon]; rfl)
        tallies := by
          rw [onLmon_lmon, enter_lmon, lmon]
          exact ⟨fun _ => .inl rfl, fun e => (by cases e), List.nodup_nil, List.nodup_nil, List.nodup_nil⟩
        rings := k.rings
        advances := k.advances
        history := k.history
        angle := k.angle
        overlap := k.overlap
        inert := fun e => (by simp at e)
        quiet := fun e => (by simp at e) }
  · have left : leaveStart s = (s.enter .inert).onCru fun _ => Cru.reset := if_neg valid
    rw [left] at orderly latched ⊢
    exact
      { lines := enter_linesFollow s .inert
        settings := k.settings
        faults := k.faults
        modes := orderly.modes k.modes
        period := k.period
        failed := k.failed
        tallies := k.tallies
        rings := k.rings
        advances := by
          show AdvancesInRange Cru.reset.advances
          exact ⟨by decide, List.nodup_nil, by simp [Cru.reset], by simp [Cru.reset]⟩
        history := by
          show HistoryInRange Cru.reset.cfHistory
          exact ⟨by decide, List.nodup_nil⟩
        angle := k.angle
        overlap := orderly.overlap k.overlap
        inert := fun _ => rfl
        quiet := fun _ => ⟨lmon, lock, qualifier, train, schedule, rings⟩ }

/-! ### Every step -/

/-- What a sound state says of a station that has not started. -/
theorem Sound.unstarted {s : State} (k : Sound s) (un : Unstarted s) : UnstartedState s :=
  ⟨un, (unstartedIsQuiet_iff s).1 k.quiet un, k.inert, Bool.eq_false_iff.2 fun running => by
    have tripped := k.modes.hold running
    rcases un with e | e <;> rw [e] at tripped <;> cases tripped⟩

/-- A station that stands in START or INERT after a move of its state stood in one of them before it. -/
theorem unstarted_before {s t : State} (h : canFollow s.stc.station t.stc.station = true) (un : Unstarted t) :
    Unstarted s := by
  unfold Unstarted at *
  revert h
  rcases un with e | e <;> rw [e] <;> cases s.stc.station <;> simp [canFollow]

/-- What `Muted` leaves is quiet after it as before it. -/
theorem Muted.quiet {s t : State} (h : Muted s t) (k : IsQuiet s) : IsQuiet t := by
  unfold IsQuiet; rw [h.view]; exact k

theorem Muted.station {s t : State} (h : Muted s t) : t.stc.station = s.stc.station := congrArg Prod.fst h.view

/-- Every command but RESET and START_EXIT makes changes, each of which keeps what is promised of its block; what is
promised of several blocks at once is orderly. -/
theorem exec_sound_of_changes {c : Instr} {s t : State} (reset : ∀ straps, c ≠ .reset straps) (start : c ≠ .startExit)
    (k : Sound s) (e : exec c s = .next t) : Sound t := by
  have changes := exec_changes reset start e
  have orderly := exec_orderly reset e
  obtain ⟨settings, faults⟩ := changes.keeps (fun _ _ => Change.settingsSound) ⟨k.settings, k.faults⟩
  obtain ⟨failed, tallies⟩ := changes.keeps (fun _ _ => Change.lmonSound) ⟨k.failed, k.tallies⟩
  have muted (un : Unstarted t) : Muted s t :=
    exec_muted reset start (k.unstarted (unstarted_before orderly.follow un)) e
  exact
    { lines := changes.keeps (fun _ _ => Change.linesFollow) k.lines
      settings := settings
      faults := faults
      modes := orderly.modes k.modes
      period := exec_periodInBounds k.period e
      failed := failed
      tallies := tallies
      rings := changes.keeps (fun _ _ => Change.ringsInOrder) k.rings
      advances := changes.keeps (P := fun u => AdvancesInRange u.cru.advances) (fun _ _ h => h.cruKeeps.advances)
        k.advances
      history := changes.keeps (P := fun u => HistoryInRange u.cru.cfHistory) (fun _ _ h => h.cruKeeps.history)
        k.history
      angle := orderly.angle k.angle
      overlap := orderly.overlap k.overlap
      inert := fun inert => by
        have muted := muted (.inr inert)
        have before : s.stc.station = .inert := muted.station.symm.trans inert
        rw [muted.cru before]
        exact k.inert before
      quiet := (unstartedIsQuiet_iff t).2 fun un =>
        (muted un).quiet ((unstartedIsQuiet_iff s).1 k.quiet (unstarted_before orderly.follow un)) }

/-- Every command keeps a sound state sound. -/
theorem exec_sound {c : Instr} {s t : State} (k : Sound s) (e : exec c s = .next t) : Sound t := by
  by_cases reset : ∃ straps, c = .reset straps
  · obtain ⟨straps, rfl⟩ := reset
    cases e
    exact (resetTo_asReset straps s).sound
  by_cases start : c = .startExit
  · subst start
    cases e
    split
    · rename_i due
      simp only [startOver, Bool.and_eq_true, decide_eq_true_eq] at due
      exact leaveStart_sound k due.1
    · exact k
  · exact exec_sound_of_changes (fun straps h => reset ⟨straps, h⟩) start k e

theorem ModeConsistent.of_view {s t : State} (h : t.calmView = s.calmView) (k : ModeConsistent s) : ModeConsistent t :=
  (Calm.of_view h).modes k

/-- The queue is no part of what is promised. -/
theorem Sound.withPending {s : State} (k : Sound s) (l : List Instr) : Sound { s with pending := l } :=
  have modes : ModeConsistent { s with pending := l } := ModeConsistent.of_view (s := s) rfl k.modes
  ⟨k.lines, k.settings, k.faults, modes, k.period, k.failed, k.tallies, k.rings, k.advances, k.history, k.angle,
    k.overlap, k.inert, k.quiet⟩

/-- A tick passes over all that is promised. -/
theorem tick_sound {s : State} (k : Sound s) : Sound (tick s) :=
  have modes : ModeConsistent (tick s) := ModeConsistent.of_view (s := s) rfl k.modes
  ⟨k.lines, k.settings, k.faults, modes, k.period, k.failed, k.tallies,
    fun p => by
      cases p
      · obtain ⟨range, order⟩ := k.rings .a
        exact ⟨⟨range.1, range.2, range.3, range.4, range.5, range.6⟩, order⟩
      · obtain ⟨range, order⟩ := k.rings .b
        exact ⟨⟨range.1, range.2, range.3, range.4, range.5, range.6⟩, order⟩,
    k.advances, k.history, k.angle, k.overlap, k.inert, k.quiet⟩

theorem post_sound {s : State} (l : List Instr) (k : Sound s) : Sound (post l s) :=
  have modes : ModeConsistent (post l s) := ModeConsistent.of_view (s := s) rfl k.modes
  ⟨k.lines, k.settings, k.faults, modes, k.period, k.failed, k.tallies, k.rings, k.advances, k.history, k.angle,
    k.overlap, k.inert, k.quiet⟩

/-- Settles O59: every command keeps a sound state sound, and what is due or a tick of station time changes nothing that
is promised. -/
theorem everyStepKeepsTheStateSound : Obligations.EveryStepKeepsTheStateSound := fun s t k e => by
  unfold step at e
  split at e
  · exact exec_sound (k.withPending _) e
  · cases e
    unfold idle
    split
    · exact tick_sound k
    · exact post_sound _ k

end Sys2Proof.Machine
end

section
/-! PROOFS. The step and its queue: the command at the front, what is due on an empty queue and the tick, RESET and the
end of START, and the commands that stop. -/

namespace Sys2Proof.Machine

/-- Settles O1: the queue's case of `step`. -/
theorem stepTakesTheFrontCommand : Obligations.StepTakesTheFrontCommand := fun c rest s h => by
  simp only [step, h]

/-! ### The conditions of the events (R6, R13, R18, R34, R44, R50, R55, R78, R99, R123, R136, R160, R170, R179, R182,
R188) -/

theorem live_iff (s : State) (i : Nat) :
    s.live i = true ↔ s.stc.station ≠ .start ∧ s.stc.station ≠ .inert ∧ i < s.straps.nlev := by
  simp [State.live, and_assoc]

theorem reachedNow_iff (s : State) (d : StationTime) : reached s.now d = true ↔ Reached s d := reached_iff _ _

theorem startOver_iff (s : State) : startOver s = true ↔ s.stc.station = .start ∧ Reached s 1000 := by
  simp [startOver, reachedNow_iff]

theorem settleDue_iff (s : State) :
    settleDue s = true ↔ ∃ r, s.stc.record = some r ∧ r.settled = false ∧ Reached s r.deadline := by
  unfold settleDue
  cases s.stc.record <;> simp [reachedNow_iff]

theorem escalationDue_iff (s : State) :
    escalationDue s = true ↔ s.stc.station ≠ .tripped ∧ ∃ e ∈ s.stc.escalation, Reached s e.expiry := by
  simp [escalationDue, reachedNow_iff]

theorem holdOver_iff (s : State) : holdOver s = true ↔ s.stc.holdRunning = true ∧ 11 ≤ s.stc.holdCount := by
  simp [holdOver]

theorem qualifies_isSome_iff (s : State) :
    (s.aru.qualifies s.now).isSome = true ↔ ∃ t, s.aru.qualifier = some t ∧ Reached s (t + 49) := by
  unfold Aru.qualifies
  cases s.aru.qualifier with
  | none => simp
  | some t =>
    have reached : reached s.now (after t 49) = true ↔ Reached s (t + 49) := reachedNow_iff _ _
    simp [reached]

theorem holds_iff (w : Window) (t : StationTime) :
    w.holds t = true ↔ 0 ≤ (t - w.opens).toInt ∧ 0 ≤ (w.closes - t).toInt := by
  simp only [Window.holds, Bool.and_eq_true, atOrAfter_iff]

theorem qualifyingIn_iff (a : Aru) (w : Window) :
    a.qualifyingIn w = false ↔
      ∀ t, a.qualifier = some t → ¬(0 ≤ (t - w.opens).toInt ∧ 0 ≤ (w.closes - t).toInt) := by
  unfold Aru.qualifyingIn
  cases a.qualifier with
  | none => simp
  | some t => simp only [Option.some.injEq, forall_eq', ← holds_iff, Bool.not_eq_true]

theorem missDue_iff (s : State) : s.aru.missDue s.now = true ↔ MissDue s := by
  unfold Aru.missDue MissDue
  cases s.aru.window with
  | none => simp
  | some w =>
    simp only [Bool.and_eq_true, Bool.or_eq_true, decide_eq_true_eq, reachedNow_iff, Bool.not_eq_eq_eq_not, Bool.not_true,
      qualifyingIn_iff, Option.some.injEq, exists_eq_left']

theorem acquisitionOver_iff (s : State) :
    s.aru.acquisitionOver s.now = true ↔
      s.aru.lock = .acquiring ∧ ∃ p, s.aru.previous = some p ∧ Reached s (p + 444600) := by
  unfold Aru.acquisitionOver
  cases s.aru.previous with
  | none => simp
  | some p => simp [reachedNow_iff, after, periodMax]

theorem pastFallback_iff (s : State) :
    s.pastFallback = true ↔ s.lmon.markTaken = false ∧ ∃ M, s.lmon.fallback = some M ∧ Reached s M := by
  unfold State.pastFallback
  cases s.lmon.fallback <;> simp [reachedNow_iff]

theorem fallbackDue_iff (s : State) :
    fallbackDue s = true ↔
      s.lmon.markTaken = false ∧ s.fcu.schedule = none ∧ ∃ M, s.lmon.fallback = some M ∧ Reached s M := by
  simp only [fallbackDue, Bool.and_eq_true, pastFallback_iff, Option.isNone_iff_eq_none]
  tauto

theorem reachedSchedule_iff (s : State) :
    (reachedSchedule s).isSome = true ↔ ∃ c, s.fcu.schedule = some c ∧ Reached s c.firing := by
  unfold reachedSchedule
  cases s.fcu.schedule with
  | none => simp
  | some c => by_cases h : Reached s c.firing <;> simp [reachedNow_iff, h]

theorem mainEndDue_iff (s : State) :
    mainEndDue s.now s.lca.train = true ↔ ∃ r, s.lca.train = some r ∧ r.phase = .main ∧ Reached s r.origin := by
  unfold mainEndDue
  cases s.lca.train <;> simp [reachedNow_iff]

theorem limitDue_iff (s : State) :
    limitDue s.now s.lca.train = true ↔
      ∃ r limit xref, s.lca.train = some r ∧ r.kind = .normal limit xref ∧ Reached s limit := by
  unfold limitDue
  cases s.lca.train with
  | none => simp
  | some r => cases h : r.kind <;> simp [reachedNow_iff, h]

theorem overdueAt_iff (s : State) :
    (overdueAt s).isSome = true ↔ ∃ w, s.cru.watch = some w ∧ Reached s w.deadline := by
  unfold overdueAt
  cases s.cru.watch with
  | none => simp
  | some w => by_cases h : Reached s w.deadline <;> simp [reachedNow_iff, h]

theorem returnExpired_iff (p : Port) (s : State) :
    returnExpired p s = true ↔ ∃ e rest, (s.port p).outstanding = e :: rest ∧ Reached s e.expiry := by
  unfold returnExpired
  cases (s.port p).outstanding <;> simp [reachedNow_iff]

theorem linkFree_iff (r : RingPort) (s : State) :
    r.linkFree s.now = true ↔ ∀ b, r.busyUntil = some b → Reached s b := by
  unfold RingPort.linkFree
  cases r.busyUntil <;> simp [reachedNow_iff]

theorem departureDue_iff (p : Port) (s : State) :
    departureDue p s = true ↔
      (∀ b, (s.port p).busyUntil = some b → Reached s b) ∧ ((s.port p).forwarding ≠ [] ∨ (s.port p).queue ≠ []) := by
  simp [departureDue, linkFree_iff, ← not_and_or]

theorem peerAbsent_iff (q : Nat) (s : State) :
    peerAbsent q s = true ↔
      s.stc.station ≠ .inert ∧ (s.cru.peer q).presence = .present ∧
        ∃ d, (s.cru.peer q).deadline = some d ∧ Reached s d := by
  unfold peerAbsent Peer.absent
  cases (s.cru.peer q).deadline <;> simp [reachedNow_iff]

theorem stuckStamp_iff (s : State) (i : Fin 80) :
    ((s.channel i).stuckStamp (s.live i.val) s.now).isSome = true ↔ ∃ r, Measuring s i r ∧ Reached s (r + 1000) := by
  unfold Channel.stuckStamp Measuring
  cases s.live i.val
  · simp
  cases (s.channel i).input
  · simp
  cases (s.channel i).classifier with
  | measuring r =>
    have reached : reached s.now (after r 1000) = true ↔ Reached s (r + 1000) := reachedNow_iff _ _
    simp [reached]
  | idle => simp
  | stuck => simp
  | recovering f => simp

theorem recoveryDue_iff (s : State) (i : Fin 80) :
    (s.channel i).recoveryDue (s.live i.val) s.now = true ↔
      ∃ f, s.live i.val = true ∧ s.channel i = { input := false, classifier := .recovering f } ∧ Reached s (f + 20) := by
  unfold Channel.recoveryDue
  obtain ⟨input, classifier⟩ := s.channel i
  cases s.live i.val
  · simp
  cases input
  · cases classifier with
    | recovering f =>
      have reached : reached s.now (after f 20) = true ↔ Reached s (f + 20) := reachedNow_iff _ _
      simp [reached]
    | idle => simp
    | measuring r => simp
    | stuck => simp
  · simp

/-! ### What is due (notes/assumptions/1.md, 2.md) -/

theorem mem_dueIf {b : Bool} {c d : Instr} : c ∈ dueIf b d ↔ b = true ∧ c = d := by
  unfold dueIf; cases b <;> simp

theorem dueIf_sublist (b : Bool) (c : Instr) : (dueIf b c).Sublist [c] := by unfold dueIf; cases b <;> simp

/-- The events of the part that carry no index. -/
def singleEvents : List Instr :=
  [.startExit, .settleDeadline, .escalationEntryExpiry, .isolationHoldEnd, .qualifiedCrossing, .miss, .holdoverLimit,
    .acquisitionTimeout, .cycleMarkFallback, .firingInstant, .mainPulseEnd, .conductionLimit, .overdueDeadline,
    .returnTimerExpiry .a, .returnTimerExpiry .b, .departure .a, .departure .b]

/-- What station time or the part has brought about: `dueCommands` without the hand-over list. -/
def dueEvents (s : State) : List Instr :=
  dueController s ++ dueReference s ++ dueFiring s ++ dueRings s ++ dueChannels s

theorem dueCommands_eq (s : State) : dueCommands s = s.handed ++ dueEvents s := by
  simp [dueCommands, dueEvents, List.append_assoc]

/-- The losses of the peers and the events of the channels, each once. -/
def indexedEvents : List Instr :=
  ([1, 2, 3, 4, 5, 6, 7, 8, 9, 10, 11, 12, 13, 14].map Instr.peerLost) ++
    (List.finRange 80).flatMap fun i => [.channelStuck i, .stuckRecovery i]

theorem dueEvents_sublist (s : State) : (dueEvents s).Sublist (singleEvents ++ indexedEvents) := by
  have peers : ([1, 2, 3, 4, 5, 6, 7, 8, 9, 10, 11, 12, 13, 14].flatMap fun q => dueIf (peerAbsent q s) (.peerLost q)).Sublist
      ([1, 2, 3, 4, 5, 6, 7, 8, 9, 10, 11, 12, 13, 14].map Instr.peerLost) := by
    rw [List.map_eq_flatMap]
    exact List.Sublist.flatMap_right _ fun q _ => dueIf_sublist _ _
  have channels : (dueChannels s).Sublist ((List.finRange 80).flatMap fun i => [.channelStuck i, .stuckRecovery i]) :=
    List.Sublist.flatMap_right _ fun i _ => (dueIf_sublist _ _).append (dueIf_sublist _ _)
  have controller : (dueController s).Sublist [.startExit, .settleDeadline, .escalationEntryExpiry, .isolationHoldEnd] :=
    (((dueIf_sublist _ _).append (dueIf_sublist _ _)).append (dueIf_sublist _ _)).append (dueIf_sublist _ _)
  have reference : (dueReference s).Sublist [.qualifiedCrossing, .miss, .holdoverLimit, .acquisitionTimeout] :=
    (((dueIf_sublist _ _).append (dueIf_sublist _ _)).append (dueIf_sublist _ _)).append (dueIf_sublist _ _)
  have firing : (dueFiring s).Sublist
      [.cycleMarkFallback, .firingInstant, .mainPulseEnd, .conductionLimit, .overdueDeadline] :=
    ((((dueIf_sublist _ _).append (dueIf_sublist _ _)).append (dueIf_sublist _ _)).append (dueIf_sublist _ _)).append
      (dueIf_sublist _ _)
  have rings : (dueRings s).Sublist
      ([.returnTimerExpiry .a, .returnTimerExpiry .b, .departure .a, .departure .b] ++
        [1, 2, 3, 4, 5, 6, 7, 8, 9, 10, 11, 12, 13, 14].map Instr.peerLost) :=
    ((((dueIf_sublist _ _).append (dueIf_sublist _ _)).append (dueIf_sublist _ _)).append (dueIf_sublist _ _)).append peers
  simpa [dueEvents, singleEvents, indexedEvents, List.append_assoc] using
    ((((controller.append reference).append firing).append rings).append channels)

theorem events_nodup : (singleEvents ++ indexedEvents).Nodup := by
  have channels : ((List.finRange 80).flatMap fun i => [Instr.channelStuck i, .stuckRecovery i]).Nodup := by
    refine List.nodup_flatMap.2 ⟨fun i _ => by simp, ?_⟩
    refine (List.nodup_finRange 80).imp fun {i j} different => ?_
    simp [Function.onFun, List.Disjoint, different]
  have peers : ([1, 2, 3, 4, 5, 6, 7, 8, 9, 10, 11, 12, 13, 14].map Instr.peerLost).Nodup :=
    List.Nodup.map (fun a b h => by cases h; rfl) (by decide)
  have indexed : indexedEvents.Nodup := by
    refine List.nodup_append.2 ⟨peers, channels, fun a ha b hb same => ?_⟩
    obtain ⟨q, -, rfl⟩ := List.mem_map.1 ha
    simp [← same] at hb
  refine List.nodup_append.2 ⟨by decide, indexed, fun a ha b hb same => ?_⟩
  subst same
  rcases List.mem_append.1 hb with h | h
  · obtain ⟨q, -, rfl⟩ := List.mem_map.1 h
    simp [singleEvents] at ha
  · obtain ⟨i, -, h⟩ := List.mem_flatMap.1 h
    simp only [List.mem_cons, List.not_mem_nil, or_false] at h
    rcases h with rfl | rfl <;> simp [singleEvents] at ha

theorem mem_dueRings (s : State) (c : Instr) :
    c ∈ dueRings s ↔
      (∃ p, returnExpired p s = true ∧ c = .returnTimerExpiry p) ∨ (∃ p, departureDue p s = true ∧ c = .departure p) ∨
        ∃ q, (1 ≤ q ∧ q ≤ 14) ∧ peerAbsent q s = true ∧ c = .peerLost q := by
  have positions (q : Nat) : q ∈ [1, 2, 3, 4, 5, 6, 7, 8, 9, 10, 11, 12, 13, 14] ↔ 1 ≤ q ∧ q ≤ 14 := by
    simp only [List.mem_cons, List.not_mem_nil, or_false]; omega
  have both (f : Port → Prop) : (∃ p, f p) ↔ f .a ∨ f .b :=
    ⟨fun ⟨p, h⟩ => by cases p; exacts [.inl h, .inr h], fun h => h.elim (⟨_, ·⟩) (⟨_, ·⟩)⟩
  simp only [dueRings, List.mem_append, List.mem_flatMap, positions, mem_dueIf, both]
  tauto

theorem mem_dueEvents (s : State) (c : Instr) : c ∈ dueEvents s ↔ DueNow s c := by
  have channels : c ∈ dueChannels s ↔
      ∃ i, ((∃ r, Measuring s i r ∧ Reached s (r + 1000)) ∧ c = .channelStuck i) ∨
        ((∃ f, s.live i.val = true ∧ s.channel i = { input := false, classifier := .recovering f } ∧ Reached s (f + 20)) ∧
          c = .stuckRecovery i) := by
    simp only [dueChannels, List.mem_flatMap, List.mem_finRange, true_and, List.mem_append, mem_dueIf, stuckStamp_iff,
      recoveryDue_iff]
  simp only [dueEvents, List.mem_append, channels, mem_dueRings, dueController, dueReference, dueFiring, mem_dueIf,
    startOver_iff, settleDue_iff, escalationDue_iff, holdOver_iff, qualifies_isSome_iff, Bool.and_eq_true,
    Bool.or_eq_true, decide_eq_true_eq, missDue_iff, acquisitionOver_iff, fallbackDue_iff, reachedSchedule_iff,
    mainEndDue_iff, limitDue_iff, overdueAt_iff, returnExpired_iff, departureDue_iff, peerAbsent_iff]
  cases c <;> simp [DueNow, and_assoc]

/-- An instant is held until station time reaches it. -/
theorem expired_eq (now : StationTime) (d : Option StationTime) : expired now d = heldUntil now d := by
  unfold expired heldUntil
  cases d with
  | none => rfl
  | some t => by_cases h : 0 ≤ (now - t).toInt <;> simp [reached_iff, Option.filter, h, -BitVec.toInt_sub]

/-- Settles O2: the due events are a sublist of a list that names each event once. -/
theorem emptyQueuePostsWhatIsDueOrTicks : Obligations.EmptyQueuePostsWhatIsDueOrTicks := fun s empty => by
  refine ⟨⟨dueEvents s, dueCommands_eq s, events_nodup.sublist (dueEvents_sublist s), mem_dueEvents s⟩, idle s, ?_, ?_⟩
  · simp only [step, empty]
  · unfold idle
    split
    · simp only [tick, expired_eq]
    · exact ⟨shuffle_perm _ _, rfl⟩

/-! ### RESET and the end of START (R3, R22, R46, R170, R171) -/

theorem resetWith_channel (s : State) (straps : Straps) (i : Fin 80) :
    (resetTo straps s).channel i = { input := (s.channel i).input, classifier := .idle } := by
  obtain ⟨i, hi⟩ := i
  simp [State.channel, resetTo, Lca.resetWith, Vector.get]
  rfl

theorem peer_reset (q : Nat) : Cru.reset.peer q = Peer.reset := by
  simp [Cru.peer, Cru.reset, Vector.get]

/-- Settles O3: the reset values, block by block. -/
theorem resetRestoresEveryBlock : Obligations.ResetRestoresEveryBlock := fun straps s => by
  refine ⟨resetTo straps s, rfl, rfl, rfl, rfl, rfl, rfl, ⟨rfl, rfl, rfl, rfl, rfl, rfl, rfl, rfl, rfl, rfl, rfl, rfl, rfl,
    fun f => ?_⟩, ⟨rfl, resetWith_channel s straps⟩, ⟨level_of_reset rfl, rfl, rfl, rfl, rfl, rfl, rfl, rfl, rfl, rfl, rfl,
    rfl, rfl, rfl⟩, ?_, rfl, ⟨rfl, fun p => ?_⟩, peer_reset, rfl, rfl, rfl, rfl, rfl, rfl, rfl, rfl, rfl, rfl, rfl, rfl,
    rfl, rfl, rfl, rfl, rfl, rfl, rfl, rfl, rfl⟩
  · exact (fault_reset f).trans (by cases f <;> rfl)
  · exact rfl
  · cases p <;> exact ⟨rfl, rfl, rfl, rfl, rfl, rfl, rfl, rfl, rfl⟩

theorem validStraps_iff (st : Straps) :
    validStraps st = true ↔
      (1 ≤ st.pos ∧ st.pos ≤ 12) ∧ (8 ≤ st.nlev ∧ st.nlev ≤ 80) ∧ (st.red ≤ 8 ∧ 4 * st.red < st.nlev) ∧
        st.nomf ≠ .neither := by
  simp [validStraps, isFiringPosition, and_assoc]

/-- With no level failed the redundancy state is NORMAL (R43). -/
theorem redundancyOf_zero (red : Nat) : redundancyOf 0 red = .normal := by
  unfold redundancyOf
  rw [if_neg (by omega), if_neg (by omega)]

/-- Settles O4: the exit from START by the straps. -/
theorem startEndsAtTick1000 : Obligations.StartEndsAtTick1000 := fun s start now => by
  have ended : startOver s = true := (startOver_iff s).2 ⟨start, by rw [Reached, now]; decide⟩
  refine ⟨leaveStart s, congrArg _ (if_pos ended), ?_, ?_⟩
  · unfold leaveStart; split <;> rfl
  · simp only [← validStraps_iff]
    unfold leaveStart
    split
    · refine ⟨rfl, fun i => ?_, rfl, ?_⟩
      · simp [live_iff]
      · simp [Lmon.begun, redundancyOf_zero, Tally.armAt]
    · exact ⟨rfl, fun i => by simp [State.live], rfl, rfl⟩

/-! ### The edges of the synchronising input (R44, R45) -/

theorem blanked_iff (a : Aru) (now : StationTime) :
    a.blanked now = false ↔ ∀ e, a.blanking = some e → 0 ≤ (now - e).toInt := by
  unfold Aru.blanked
  cases a.blanking with
  | none => simp
  | some e => simp only [Option.some.injEq, forall_eq', ← atOrAfter_iff, Bool.not_eq_eq_eq_not, Bool.not_false]

theorem watching_iff (s : State) : s.watching = true ↔ s.stc.station ≠ .start ∧ s.stc.station ≠ .inert := by
  simp [State.watching]

/-- Settles O15: an edge is a high sample of an input that was low. -/
theorem syncEdgesStartAndForgetAQualification : Obligations.SyncEdgesStartAndForgetAQualification := fun s => by
  refine ⟨fun low => ⟨_, rfl, ?_⟩, fun high => ?_, _, rfl, rfl⟩
  · have starts : (s.watching && !s.aru.input && !s.aru.blanked s.now) = true ↔
        s.stc.station ≠ .start ∧ s.stc.station ≠ .inert ∧
          ∀ e, s.aru.blanking = some e → 0 ≤ (s.now - e).toInt := by
      rw [← blanked_iff]
      simp [watching_iff, low, and_assoc]
    simp only [syncRising, State.onAru, starts]
  · show Host.Outcome.next _ = _
    simp [syncRising, State.onAru, high]
    rw [← high]

theorem takeCrossing_tracking {s : State} {t : StationTime} (h : s.aru.lock = .locked ∨ s.aru.lock = .holdover) :
    takeCrossing t s = if s.aru.accepts t then acceptCrossing t s else s.onAru Aru.stray := by
  unfold takeCrossing
  rcases h with h | h <;> simp only [h]

/-- Settles O18: outside the window the crossing is a stray. -/
theorem strayCrossingIsOnlyCounted : Obligations.StrayCrossingIsOnlyCounted := fun s t w lock qualifies window outside => by
  have rejected : s.aru.edgeTaken.accepts t = false := by
    simp only [Aru.accepts, Aru.edgeTaken, window]
    rw [← Bool.not_eq_true, holds_iff]
    exact outside
  rw [exec_qualifiedCrossing_of_qualifies qualifies, takeCrossing_tracking (by exact lock), if_neg (by simp [rejected])]
  rfl

/-- Settles O41: the deadline of a PRESENT peer. -/
theorem peerIsLostAtItsDeadline : Obligations.PeerIsLostAtItsDeadline := fun q s low high => by
  have taken : exec (.peerLost q) s = .next (if peerAbsent q s then s.onCru fun c => c.onPeer q Peer.gone else s) :=
    onPosition_next low high
  refine ⟨fun present deadline active => ?_, fun kept => ?_⟩
  · rw [taken, if_pos ((peerAbsent_iff q s).2 ⟨active, present, s.now, deadline, by simp [Reached]⟩)]
    rfl
  · rw [taken, if_neg]
    rw [peerAbsent_iff]
    rintro ⟨active, present, d, deadline, due⟩
    rcases kept with h | ⟨e, ahead, h⟩ | h
    · exact h present
    · rw [deadline] at ahead
      cases ahead
      exact absurd due (by unfold Reached; omega)
    · exact active h

/-! ### The commands that stop (notes/assumptions/20.md) -/

/-- Every command that names a position but PEER_LOST is a delivery. -/
theorem exec_delivery {c : Instr} {q : Nat} (named : positionNamed c = some q) (k : c ≠ .peerLost q) :
    ∃ act : State → State, ∀ s, exec c s = onPosition q (delivered c q act s) := by
  cases c <;> cases named
  case peerLost => exact absurd rfl k
  all_goals exact ⟨_, fun _ => rfl⟩

/-- A command that names a position runs on a position of the group only. -/
theorem exec_named {c : Instr} {q : Nat} (named : positionNamed c = some q) :
    ∃ f : State → State, ∀ s, exec c s = onPosition q (f s) := by
  by_cases k : c = .peerLost q
  · subst k; exact ⟨_, fun _ => rfl⟩
  · obtain ⟨act, e⟩ := exec_delivery named k
    exact ⟨_, e⟩

theorem exec_unnamed {c : Instr} (s : State) (named : positionNamed c = none) : ∃ t, exec c s = .next t := by
  cases c <;> cases named <;> exact ⟨_, rfl⟩

theorem wellFormed_position {c : Instr} {q : Nat} (h : c.wellFormed = true) (named : positionNamed c = some q) :
    1 ≤ q ∧ q ≤ 14 := by
  cases c <;> cases named <;>
    simp only [Instr.wellFormed, Order.wellFormed, Fire.wellFormed, BypassOrder.wellFormed, validPosition,
      Bool.and_eq_true, decide_eq_true_eq] at h <;> omega

/-- Settles O56: a command runs on the position it names, and a delivery that is not taken leaves the list alone. -/
theorem commandsStopOnlyForForeignPositions : Obligations.CommandsStopOnlyForForeignPositions := fun c s => by
  have runs (valid : ∀ q, positionNamed c = some q → 1 ≤ q ∧ q ≤ 14) : ∃ t, exec c s = .next t := by
    cases named : positionNamed c with
    | none => exact exec_unnamed s named
    | some q =>
      obtain ⟨f, e⟩ := exec_named named
      obtain ⟨low, high⟩ := valid q named
      exact ⟨f s, (e s).trans (onPosition_next low high)⟩
  refine ⟨fun q named foreign => ?_, runs, fun wellFormed => runs fun q => wellFormed_position wellFormed,
    fun q named delivery low high closed => ?_⟩
  · obtain ⟨f, e⟩ := exec_named named
    exact (e s).trans (onPosition_fault foreign)
  · obtain ⟨act, e⟩ := exec_delivery named delivery
    rw [e, delivered_none, onPosition_next low high]
    · rfl
    · refine closed.imp_right fun ⟨own, firing⟩ => ?_
      simp only [State.isOwn, isFiringPosition, Bool.and_eq_true, decide_eq_true_eq]
      omega

end Sys2Proof.Machine
end

section
/-! PROOFS. The indications (chapters 1 and 2): the edges of a channel, a pulse short of its quorum, and the pulses that
complete one. -/

namespace Sys2Proof.Machine

/-! ### One channel changed -/

theorem onChannel_becomes {s : State} {i : Fin 80} {f : Channel → Channel} {input : Bool} {k : Classifier}
    (h : f (s.channel i) = { input := input, classifier := k }) : ChannelBecomes s (s.onChannel i f) i input k :=
  ⟨(onChannel_channel_same s i f).trans h, fun _ other => onChannel_channel_other s f (Ne.symm other), rfl⟩

/-- What a channel has become is read from the level channels alone. -/
theorem ChannelBecomes.congr {s t u : State} {i : Fin 80} {input : Bool} {k : Classifier}
    (h : ChannelBecomes s t i input k) (same : u.lca = t.lca) : ChannelBecomes s u i input k := by
  obtain ⟨becomes, others, train⟩ := h
  have channel (j : Fin 80) : u.channel j = t.channel j := by unfold State.channel; rw [same]
  exact ⟨(channel i).trans becomes, fun j other => (channel j).trans (others j other), by rw [same]; exact train⟩

/-- Settles O5: a rising edge by the state of the classifier. -/
theorem risingEdgeStartsAMeasurement : Obligations.RisingEdgeStartsAMeasurement := fun i s low => by
  refine ⟨_, rfl, rfl, onChannel_becomes ?_⟩
  unfold Channel.rising
  cases s.live i.val with
  | false => simp
  | true =>
    simp only [low, Bool.not_true, Bool.or_self, Bool.false_eq_true, if_false]
    cases (s.channel i).classifier with
    | recovering f =>
      have reached : reached s.now (after f 20) = true ↔ 0 ≤ (s.now - (f + 20)).toInt := reached_iff _ _
      by_cases h : 0 ≤ (s.now - (f + 20)).toInt <;> simp only [reached, h, if_true, if_false]
    | idle => simp
    | measuring r => simp
    | stuck => simp

/-! ### The falling edge of a pulse (R16, R17) -/

/-- The state after the falling edge of a measured pulse, before its class is taken. -/
def State.fallen (s : State) (i : Fin 80) : State := s.onChannel i fun c => c.falling (s.live i.val) s.now

theorem fallen_becomes {s : State} {i : Fin 80} {r : StationTime} (h : Measuring s i r) :
    ChannelBecomes s (s.fallen i) i false .idle := by
  obtain ⟨live, input, classifier⟩ := h
  exact onChannel_becomes (by simp [Channel.falling, live, input, classifier])

theorem handedAtFall_measuring {s : State} {i : Fin 80} {r : StationTime} (h : Measuring s i r) :
    (s.channel i).handedAtFall (s.live i.val) s.now = (pulseClass (s.now - r).toNat).map fun k => (k, r) := by
  obtain ⟨live, input, classifier⟩ := h
  simp [Channel.handedAtFall, live, input, classifier]

theorem exec_indication_class {s : State} {i : Fin 80} {r : StationTime} {k : IndicationClass} (h : Measuring s i r)
    (width : pulseClass (s.now - r).toNat = some k) :
    exec (.indication i) s = .next (takeIndication takeFault i k r (s.fallen i)) := by
  show Host.Outcome.next (fallingEdge i s) = _
  simp only [fallingEdge, handedAtFall_measuring h, width, Option.map_some]
  rfl

theorem exec_indication_unclassed {s : State} {i : Fin 80} {r : StationTime} (h : Measuring s i r)
    (width : pulseClass (s.now - r).toNat = none) : exec (.indication i) s = .next (s.fallen i) := by
  show Host.Outcome.next (fallingEdge i s) = _
  simp only [fallingEdge, handedAtFall_measuring h, width, Option.map_none]
  rfl

theorem pulseClass_glitch {w : Nat} (h : w ≤ 2) : pulseClass w = none := by
  rw [pulseClass, if_pos (by omega)]

theorem pulseClass_malformed {w : Nat}
    (h : (3 ≤ w ∧ w ≤ 5) ∨ (15 ≤ w ∧ w ≤ 23) ∨ (37 ≤ w ∧ w ≤ 49) ∨ (71 ≤ w ∧ w ≤ 1000)) :
    pulseClass w = some .malformed := by
  unfold pulseClass
  rw [if_neg (by omega)]
  rcases h with h | h | h | h
  · rw [if_pos (by omega)]
  · rw [if_neg (by omega), if_neg (by omega), if_pos (by omega)]
  · rw [if_neg (by omega), if_neg (by omega), if_neg (by omega), if_neg (by omega), if_pos (by omega)]
  · rw [if_neg (by omega), if_neg (by omega), if_neg (by omega), if_neg (by omega), if_neg (by omega), if_neg (by omega),
      if_pos (by omega)]

theorem pulseClass_fv {w : Nat} (low : 6 ≤ w) (high : w ≤ 14) : pulseClass w = some .fv := by
  rw [pulseClass, if_neg (by omega), if_neg (by omega), if_pos (by omega)]

theorem pulseClass_rv {w : Nat} (low : 24 ≤ w) (high : w ≤ 36) : pulseClass w = some .rv := by
  rw [pulseClass, if_neg (by omega), if_neg (by omega), if_neg (by omega), if_neg (by omega), if_pos (by omega)]

theorem pulseClass_pf {w : Nat} (low : 50 ≤ w) (high : w ≤ 70) : pulseClass w = some .pf := by
  rw [pulseClass, if_neg (by omega), if_neg (by omega), if_neg (by omega), if_neg (by omega), if_neg (by omega),
    if_neg (by omega), if_pos (by omega)]

/-! ### A pulse that is no FV, RV or PF (R17, R18, R23) -/

/-- A malformed pulse taken with one channel changed: it is counted against its level unless that is FAILED. -/
theorem takeIndication_malformed_level {s u : State} {i : Fin 80} {r : StationTime} (lmon : u.lmon = s.lmon)
    {t : State} (e : t = takeIndication takeFault i .malformed r u) :
    t = { u with lmon := { u.lmon with levels := t.lmon.levels } } ∧ (∀ j, j ≠ i → t.level j = s.level j) ∧
      t.level i =
        if (s.level i).state = .failed then s.level i
        else { s.level i with malformed := min 2 ((s.level i).malformed + 1) } := by
  rw [e, takeIndication_malformed, lmon]
  by_cases failed : (s.lmon.levels.get i).state = .failed
  · simp only [if_pos failed, State.level, lmon]
    exact ⟨by rw [← lmon], fun _ _ => trivial, (if_pos failed).symm⟩
  · simp only [if_neg failed]
    refine ⟨rfl, fun j other => noted_level_other s.lmon .malformed other, ?_⟩
    simp only [State.level, noted_level_same]
    exact (if_neg failed).symm

/-- Settles O6: a glitch is not handed over, and a malformed pulse is counted. -/
theorem badPulseCountsAgainstItsLevelAlone : Obligations.BadPulseCountsAgainstItsLevelAlone := by
  intro i s r w measuring width bad
  subst width
  by_cases glitch : (s.now - r).toNat ≤ 2
  · refine ⟨s.fallen i, exec_indication_unclassed measuring (pulseClass_glitch glitch), fallen_becomes measuring, rfl,
      fun _ _ => rfl, ?_⟩
    rw [if_pos (.inl glitch)]
    rfl
  · obtain ⟨frame, others, level⟩ := takeIndication_malformed_level (s := s) (u := s.fallen i) (i := i) (r := r) rfl rfl
    refine ⟨_, exec_indication_class measuring (pulseClass_malformed (by omega)),
      (fallen_becomes measuring).congr (by rw [frame]), frame.trans ?_, others, ?_⟩
    · rw [frame]
      rfl
    · rw [level]
      simp only [glitch, false_or]

/-- Settles O7: the stuck condition found, its light gone, and its recovery. -/
theorem stuckChannelReportsOnceAndRecovers : Obligations.StuckChannelReportsOnceAndRecovers := by
  intro i s r
  refine ⟨fun ⟨live, input, classifier⟩ due => ?_, fun live stuck => ?_, fun dark => ?_, fun live recovering due => ?_⟩
  · have stamp : (s.channel i).stuckStamp (s.live i.val) s.now = some r := by
      have reached : reached s.now (after r 1000) = true := by
        rw [due]; exact reached_self _
      simp [Channel.stuckStamp, live, input, classifier, reached]
    have e : exec (.channelStuck i) s =
        .next (takeIndication takeFault i .malformed r (s.onChannel i fun c => { c with classifier := .stuck })) := by
      show Host.Outcome.next (channelStuck i s) = _
      simp only [channelStuck, stamp]
    have becomes : ChannelBecomes s (s.onChannel i fun c => { c with classifier := .stuck }) i true .stuck :=
      onChannel_becomes (by simp [input])
    obtain ⟨frame, others, level⟩ := takeIndication_malformed_level (s := s) (i := i) (r := r)
      (u := s.onChannel i fun c => { c with classifier := .stuck }) rfl rfl
    refine ⟨_, e, becomes.congr (by rw [frame]), frame.trans ?_, others, level⟩
    rw [frame]
    rfl
  · have e : exec (.indication i) s = .next (s.fallen i) := by
      show Host.Outcome.next (fallingEdge i s) = _
      simp [fallingEdge, Channel.handedAtFall, stuck]
      rfl
    exact ⟨_, e, onChannel_becomes (by simp [Channel.falling, live, stuck]), rfl⟩
  · have unheard : (!s.live i.val || !(s.channel i).input) = true := by simpa using dark
    have e : exec (.indication i) s = .next (s.fallen i) := by
      show Host.Outcome.next (fallingEdge i s) = _
      simp [fallingEdge, Channel.handedAtFall, unheard]
      rfl
    exact ⟨_, e, onChannel_becomes (by simp [Channel.falling, unheard]), rfl⟩
  · have recovered : (s.channel i).recoveryDue (s.live i.val) s.now = true :=
      (recoveryDue_iff s i).2 ⟨r, live, recovering, by simp [Reached, due]⟩
    exact ⟨_, congrArg Host.Outcome.next (if_pos recovered), onChannel_becomes (by simp [recovering]), rfl⟩

/-! ### An FV, RV or PF short of its quorum (R23, R24, R26) -/

theorem admits_iff (y : Tally) (i : Fin 80) (r : StationTime) :
    y.admits i r = true ↔ y.armed = true ∧ 0 ≤ (r - y.armedAt).toInt ∧ ∀ m ∈ y.members, m.level ≠ i := by
  simp only [Tally.admits, Bool.and_eq_true, atOrAfter_iff, Bool.not_eq_eq_eq_not, Bool.not_true, List.any_eq_false,
    decide_eq_true_eq, and_assoc]

theorem indicated_level_fv (l : Level) (phase : ValvePhase) :
    l.indicated .fv phase = { l with
      fvSeen := true, lastIndication := .fv
      alternation :=
        if l.lastIndication = .fv ∨ phase = .conducting then min 2 (l.alternation + 1) else l.alternation } := by
  simp [Level.indicated, alternationError, satSucc]

theorem indicated_level_rv (l : Level) (phase : ValvePhase) :
    l.indicated .rv phase = { l with
      rvSeen := true, lastIndication := .rv
      alternation := if l.lastIndication = .rv then min 2 (l.alternation + 1) else l.alternation } := by
  simp [Level.indicated, alternationError, satSucc]

/-- An indication that completes no quorum, with one channel changed. -/
theorem exec_indication_quiet {s : State} {i : Fin 80} {r : StationTime} {k : IndicationClass} {m : Lmon}
    (h : Measuring s i r) (width : pulseClass (s.now - r).toNat = some k)
    (quiet : s.lmon.indicated s.straps.nlev i k r = (m, none)) :
    exec (.indication i) s = .next { s.fallen i with lmon := m } :=
  (exec_indication_class h width).trans (congrArg _ (takeIndication_quiet quiet))

theorem next_inj {s t : State} {o : Host.Outcome State Fault Refusal} (h : o = .next s) (k : o = .next t) : s = t := by
  rw [h] at k; cases k; rfl

/-- A tally with an indication entered where it is admitted (R26). -/
def Tally.entered (y : Tally) (i : Fin 80) (r : StationTime) : Tally := if y.admits i r = true then y.add i r else y

theorem entered_of_admits {y : Tally} {i : Fin 80} {r : StationTime} (h : y.admits i r = true) :
    y.entered i r = { y with members := y.members ++ [{ level := i, stamp := r }] } := if_pos h

theorem entered_of_not_admits {y : Tally} {i : Fin 80} {r : StationTime} (h : ¬y.admits i r = true) :
    y.entered i r = y := if_neg h

theorem indicated_fv_short {m : Lmon} {n : Nat} {i : Fin 80} {r : StationTime}
    (alive : ¬(m.levels.get i).state = .failed)
    (short : ¬(m.fv.admits i r = true ∧ m.fv.members.length + 1 = m.counted / 2 + 1)) :
    m.indicated n i .fv r = ({ m.noted i .fv with fv := m.fv.entered i r }, none) := by
  rw [indicated_fv alive]
  by_cases h : m.fv.admits i r = true
  · rw [if_pos h, if_neg fun full => short ⟨h, full⟩, Tally.entered, if_pos h]
  · rw [if_neg h, entered_of_not_admits h]
    rfl

theorem indicated_rv_short {m : Lmon} {n : Nat} {i : Fin 80} {r : StationTime}
    (alive : ¬(m.levels.get i).state = .failed)
    (short : ¬(m.rv.admits i r = true ∧ m.rv.members.length + 1 = m.counted / 2 + 1)) :
    m.indicated n i .rv r = ({ m.noted i .rv with rv := m.rv.entered i r }, none) := by
  rw [indicated_rv alive]
  by_cases h : m.rv.admits i r = true
  · rw [if_pos h, if_neg fun full => short ⟨h, full⟩, Tally.entered, if_pos h]
  · rw [if_neg h, entered_of_not_admits h]
    rfl

theorem indicated_pf_short {m : Lmon} {n : Nat} {i : Fin 80} {r : StationTime}
    (alive : ¬(m.levels.get i).state = .failed)
    (short : ¬(m.pf.admits i r = true ∧ m.pf.members.length + 1 = m.counted / 4 + 1 ∧ m.phase = .recovery)) :
    m.indicated n i .pf r = ({ m.noted i .pf with pf := m.pf.entered i r }, none) := by
  rw [indicated_pf alive]
  by_cases h : m.pf.admits i r = true
  · rw [if_pos h, if_neg fun full => short ⟨h, full⟩, Tally.entered, if_pos h]
  · rw [if_neg h, entered_of_not_admits h]
    rfl

/-- A pulse of a FAILED level is discarded: the channel alone changes. -/
theorem exec_indication_failed {s : State} {i : Fin 80} {r : StationTime} (h : Measuring s i r)
    (failed : (s.level i).state = .failed) : exec (.indication i) s = .next (s.fallen i) := by
  cases width : pulseClass (s.now - r).toNat with
  | none => exact exec_indication_unclassed h width
  | some k => exact exec_indication_quiet h width (indicated_failed failed)

/-- Settles O8: what an indication short of its quorum leaves, class by class. -/
theorem forwardVoltageIsNotedOnItsLevel : Obligations.ForwardVoltageIsNotedOnItsLevel := by
  intro i s r w measuring width
  subst width
  dsimp only
  simp only [← admits_iff]
  obtain ⟨t, e⟩ : ∃ t, exec (.indication i) s = .next t := ⟨_, rfl⟩
  have becomes := fallen_becomes measuring
  refine ⟨t, e, fun low high failed => ?_, fun low high alive short => ?_, fun low high alive short => ?_,
    fun low high alive short => ?_⟩
  · rw [next_inj e (exec_indication_failed measuring failed)]
    exact ⟨becomes, rfl⟩
  · rw [next_inj e (exec_indication_quiet measuring (pulseClass_fv low high) (indicated_fv_short alive short))]
    exact ⟨becomes.congr rfl, rfl, entered_of_admits, entered_of_not_admits,
      fun j other => noted_level_other s.lmon .fv other,
      (noted_level_same s.lmon i .fv).trans (indicated_level_fv _ _)⟩
  · rw [next_inj e (exec_indication_quiet measuring (pulseClass_rv low high) (indicated_rv_short alive short))]
    exact ⟨becomes.congr rfl, rfl, entered_of_admits, entered_of_not_admits,
      fun j other => noted_level_other s.lmon .rv other,
      (noted_level_same s.lmon i .rv).trans (indicated_level_rv _ _)⟩
  · rw [next_inj e (exec_indication_quiet measuring (pulseClass_pf low high) (indicated_pf_short alive short))]
    exact ⟨becomes.congr rfl, rfl, entered_of_admits, entered_of_not_admits,
      fun j other => noted_level_other s.lmon .pf other, noted_level_same s.lmon i .pf⟩

/-! ### The content of a HEALTH (R112) -/

/-- The fault bitmap by the faults' own bits. -/
theorem faultBitmap_eq (c : Stc) :
    faultBitmap c.faults = bit 1 (c.fault .redundancyLow).active + 2 * (bit 1 (c.fault .redundancyExhausted).active +
      2 * (bit 1 (c.fault .referenceLost).active + 2 * (bit 1 (c.fault .commutationFailureRepeated).active +
      2 * (bit 1 (c.fault .ringDegraded).active + 2 * (bit 1 (c.fault .ringLost).active +
      2 * (bit 1 (c.fault .orderLost).active + 2 * (bit 1 (c.fault .sequenceInversion).active +
      2 * (bit 1 (c.fault .sequenceSlip).active + 2 * (bit 1 (c.fault .peerSilent).active +
      2 * (bit 1 (c.fault .bypassConflict).active + 2 * bit 1 (c.fault .settingsRejected).active)))))))))) := by
  have table : c.faults.toList = FaultCode.all.toList.map c.fault := by
    conv_lhs => rw [faults_eq_map]
    exact Vector.toList_map
  have codes : FaultCode.all.toList =
      [.redundancyLow, .redundancyExhausted, .referenceLost, .commutationFailureRepeated, .ringDegraded, .ringLost,
        .orderLost, .sequenceInversion, .sequenceSlip, .peerSilent, .bypassConflict, .settingsRejected] := rfl
  simp only [faultBitmap, table, codes, List.map_cons, List.map_nil, List.foldr_cons, List.foldr_nil, Nat.mul_zero,
    Nat.add_zero]

/-- Twelve bits in two bytes: the upper four, then the lower eight. -/
theorem twoBytes_bits {a b c d e f g h i j k l : Nat} (lower : a ≤ 1 ∧ b ≤ 1 ∧ c ≤ 1 ∧ d ≤ 1 ∧ e ≤ 1 ∧ f ≤ 1 ∧ g ≤ 1 ∧ h ≤ 1) :
    twoBytes (a + 2 * (b + 2 * (c + 2 * (d + 2 * (e + 2 * (f + 2 * (g + 2 * (h + 2 * (i + 2 * (j + 2 * (k + 2 * l))))))))))) =
      [BitVec.ofNat 8 (8 * l + 4 * k + 2 * j + i),
        BitVec.ofNat 8 (128 * h + 64 * g + 32 * f + 16 * e + 8 * d + 4 * c + 2 * b + a)] := by
  simp only [twoBytes, List.cons.injEq, and_true]
  constructor
  · congr 1; omega
  · apply BitVec.eq_of_toNat_eq
    simp only [BitVec.toNat_ofNat]
    omega

/-- The bytes that R112 gives a HEALTH are those of its tables. -/
theorem healthPayload_eq (s : State) : healthPayload s = healthBytes s := by
  have weight (w : Nat) (b : Bool) : bit w b = w * if b = true then 1 else 0 := by cases b <;> simp [bit]
  have small (b : Bool) : (if b = true then 1 else 0) ≤ 1 := by cases b <;> decide
  have bitmap := twoBytes_bits (i := bit 1 (s.stc.fault .sequenceSlip).active) (j := bit 1 (s.stc.fault .peerSilent).active)
    (k := bit 1 (s.stc.fault .bypassConflict).active) (l := bit 1 (s.stc.fault .settingsRejected).active)
    ⟨small (s.stc.fault .redundancyLow).active, small (s.stc.fault .redundancyExhausted).active,
      small (s.stc.fault .referenceLost).active, small (s.stc.fault .commutationFailureRepeated).active,
      small (s.stc.fault .ringDegraded).active, small (s.stc.fault .ringLost).active,
      small (s.stc.fault .orderLost).active, small (s.stc.fault .sequenceInversion).active⟩
  rw [healthPayload, faultBitmap_eq]
  unfold healthBytes
  simp only [weight, Nat.one_mul] at bitmap ⊢
  rw [bitmap, Nat.mul_comm s.lmon.redundancy.code, Nat.mul_comm s.lmon.phase.code]
  rfl

/-- An origination leaves the health of both rings. -/
theorem originated_health (r : Rif) (k : OwnKind) (payload : List Byte) (event : Option StationTime) :
    (r.originated k payload event).portA.health = r.portA.health ∧
      (r.originated k payload event).portB.health = r.portB.health :=
  ⟨enqueue_health _ _, enqueue_health _ _⟩

/-- A HEALTH reads the health of the rings and nothing else of them. -/
theorem healthBytes_withRif (s : State) (k : OwnKind) (payload : List Byte) (event : Option StationTime) :
    healthBytes { s with rif := s.rif.originated k payload event } = healthBytes s := by
  obtain ⟨a, b⟩ := originated_health s.rif k payload event
  simp only [healthBytes, a, b]

theorem originate_active {s : State} (h1 : s.stc.station ≠ .start) (h2 : s.stc.station ≠ .inert) (k : OwnKind)
    (payload : List Byte) (event : Option StationTime) :
    originate k payload event s = { s with rif := s.rif.originated k payload event } :=
  if_neg fun h => h.elim h1 h2

theorem originateHealth_active {s : State} (h1 : s.stc.station ≠ .start) (h2 : s.stc.station ≠ .inert)
    (event : Option StationTime) :
    originateHealth event s = { s with rif := s.rif.originated .health (healthBytes s) event } := by
  rw [originateHealth, originate_active h1 h2, healthPayload_eq]

/-! ### The RV that completes the quorum (R30, R155, R159, R190) -/

theorem trainXt_eq (r : StationTime) (train : Option Train) : trainXt r train = trainAfterXt r train := by
  unfold trainXt trainAfterXt
  cases train with
  | none => rfl
  | some x =>
    obtain ⟨phase, start, origin, kind⟩ := x
    cases kind with
    | normal limit xref => simp only [atOrAfter_iff]
    | bypass => rfl

theorem beginsGamma_start (s : State) (r : StationTime) :
    (if beginsGamma s r = true then some r else s.cru.gammaStart) = (s.cruAfterXt r).gammaStart := by
  unfold beginsGamma State.cruAfterXt
  simp only [Bool.and_eq_true, firingOrHold_iff]
  by_cases running : s.stc.station = .firing ∨ s.inHold = true
  · cases s.fcu.previous <;> simp only [running, if_true, true_and, atOrAfter_iff]
  · simp only [running, false_and, if_false]

theorem watchAfterXt_eq (s : State) (r : StationTime) : watchAfterXt s.cru.watch r = (s.cruAfterXt r).watch := by
  unfold watchAfterXt State.cruAfterXt
  cases s.cru.watch <;> simp only [atOrAfter_iff]

/-- An XT into RECOVERY at the Coordination Unit. -/
theorem cruXt_recovery (r : StationTime) (s : State) :
    cruXt r .recovery s =
      if s.stc.station = .firing then originateHealth (some r) { s with cru := s.cruAfterXt r }
      else { s with cru := s.cruAfterXt r } := by
  have cru : s.onCru (fun c => { c with
      gammaStart := if beginsGamma s r then some r else c.gammaStart, watch := watchAfterXt c.watch r }) =
        { s with cru := s.cruAfterXt r } := by
    rw [State.onCru, beginsGamma_start, watchAfterXt_eq]
    rfl
  unfold cruXt
  simp only [if_true, cru]

theorem exec_indication_event {s : State} {i : Fin 80} {r : StationTime} {k : IndicationClass} {m : Lmon}
    {e : ValveEvent} (h : Measuring s i r) (width : pulseClass (s.now - r).toNat = some k)
    (event : s.lmon.indicated s.straps.nlev i k r = (m, some e)) :
    exec (.indication i) s = .next (handEvent takeFault e { s.fallen i with lmon := m }) :=
  (exec_indication_class h width).trans (congrArg _ (takeIndication_event event))

theorem indicated_rv_quorum {m : Lmon} {n : Nat} {i : Fin 80} {r : StationTime}
    (alive : ¬(m.levels.get i).state = .failed) (admits : m.rv.admits i r = true)
    (full : m.rv.members.length + 1 = m.counted / 2 + 1) :
    m.indicated n i .rv r =
      (({ m.noted i .rv with rv := m.rv.add i r } : Lmon).atXt r, some (.xt r (phaseAfterXt m.phase))) := by
  rw [indicated_rv alive, if_pos admits, if_pos full]

/-- The state after an RV that completes the quorum, before the Coordination Unit takes the event. -/
def State.extinguished (s : State) (i : Fin 80) (r : StationTime) : State :=
  lcaXt r { s.fallen i with lmon := ({ s.lmon.noted i .rv with rv := s.lmon.rv.add i r } : Lmon).atXt r }

/-- The same with the Coordination Unit after an XT into RECOVERY, and the HEALTH of a station in FIRING. -/
theorem cruXt_extinguished (s : State) (i : Fin 80) (r : StationTime) :
    cruXt r .recovery (s.extinguished i r) =
      { s.extinguished i r with
        cru := s.cruAfterXt r
        rif :=
          if s.stc.station = .firing then
            s.rif.originated .health (healthBytes { s.extinguished i r with cru := s.cruAfterXt r }) (some r)
          else s.rif } := by
  rw [cruXt_recovery]
  by_cases firing : s.stc.station = .firing
  · rw [if_pos (by exact firing), if_pos firing, originateHealth_active]
    · rfl
    · exact fun h => by cases firing.symm.trans h
    · exact fun h => by cases firing.symm.trans h
  · rw [if_neg (by exact firing), if_neg firing]
    rfl

/-- Settles O9: the extinction event at the Level Monitor, the generator and the Coordination Unit. -/
theorem reverseVoltageQuorumIsAnExtinction : Obligations.ReverseVoltageQuorumIsAnExtinction := by
  intro i s r measuring low high alive phase armed since fresh full
  have e := exec_indication_event measuring (pulseClass_rv low high)
    (indicated_rv_quorum (n := s.straps.nlev) alive (admits_of armed since fresh) full)
  obtain ⟨becomes, others, -⟩ := fallen_becomes measuring
  have train : trainXt r s.lca.train = trainAfterXt r s.lca.train := trainXt_eq _ _
  have level := (noted_level_same s.lmon i .rv).trans (indicated_level_rv _ _)
  have otherLevels (j : Fin 80) (other : j ≠ i) := noted_level_other s.lmon .rv other
  rcases phase with conducting | forward
  · rw [conducting] at e
    refine ⟨_, e.trans (congrArg _ (cruXt_extinguished s i r)), rfl, becomes, others, ⟨?_, otherLevels, level⟩, train,
      fun _ => ⟨rfl, ?_⟩, fun forward => absurd (conducting.symm.trans forward) (by decide)⟩
    · rw [if_pos conducting]
      simp [State.extinguished, lcaXt, Lmon.atXt, Lmon.noted, Tally.armAt, Tally.disarm, Tally.add, phaseAfterXt, conducting]
    · by_cases firing : s.stc.station = .firing
      · simp only [if_pos firing]
        exact congrArg (s.rif.originated .health · (some r)) (healthBytes_withRif { s.extinguished i r with
          cru := s.cruAfterXt r } _ _ _).symm
      · simp only [if_neg firing]
  · rw [forward] at e
    refine ⟨s.extinguished i r, e, rfl, becomes, others, ⟨?_, otherLevels, level⟩, train,
      fun conducting => absurd (forward.symm.trans conducting) (by decide), fun _ => ⟨rfl, rfl⟩⟩
    rw [if_neg (by rw [forward]; decide)]
    simp [State.extinguished, lcaXt, Lmon.atXt, Lmon.noted, Tally.armAt, Tally.disarm, Tally.add, phaseAfterXt, forward]

/-! ### The FV that completes the quorum (R31, R156, R157) -/

theorem indicated_fv_quorum {m : Lmon} {n : Nat} {i : Fin 80} {r : StationTime}
    (alive : ¬(m.levels.get i).state = .failed) (admits : m.fv.admits i r = true)
    (full : m.fv.members.length + 1 = m.counted / 2 + 1) :
    m.indicated n i .fv r =
      (({ m.noted i .fv with fv := m.fv.add i r } : Lmon).atFv r, some (.fv r m.phase)) := by
  rw [indicated_fv alive, if_pos admits, if_pos full]

/-- The state after an FV that completes the quorum, before the Coordination Unit takes the event. -/
def State.recovered (s : State) (i : Fin 80) (r : StationTime) : State :=
  { s.fallen i with lmon := ({ s.lmon.noted i .fv with fv := s.lmon.fv.add i r } : Lmon).atFv r }

/-- A γ below the alarm is told and asked for; any other is neither (R157, R165). -/
theorem marginAlarm_eq {s : State} (gain : 1 ≤ s.stc.gain) (γ : Nat) (r : StationTime) :
    marginAlarm γ r s =
      if γ < s.stc.gammaAlarm ∧ (s.stc.station = .firing ∨ s.inHold = true) then
        { s with
          rif := s.rif.originated .margin (wordBytes γ) (some r)
          cru := { s.cru with
            advances := enterRequest s.cru.advances
              { source := s.straps.pos, kind := .margin
                magnitude := min 3000 (s.stc.gain * (s.stc.gammaAlarm - γ)), hold := 8 } } }
      else s := by
  unfold marginAlarm
  simp only [firingOrHold_iff]
  split
  · rename_i alarm
    obtain ⟨below, running⟩ := alarm
    have active : s.stc.station ≠ .start ∧ s.stc.station ≠ .inert := by
      rcases running with h | h
      · rw [h]; decide
      · simp only [State.inHold, Bool.and_eq_true, decide_eq_true_eq] at h
        rw [h.1.1]; decide
    have asked : 0 < marginMagnitude s.stc γ := by
      have : 1 * 1 ≤ s.stc.gain * (s.stc.gammaAlarm - γ) := Nat.mul_le_mul gain (by omega)
      unfold marginMagnitude; omega
    rw [originate_active active.1 active.2, requestMargin, if_pos (by exact asked)]
    rfl
  · rfl

/-- The FV at the Coordination Unit, by the measurement that runs. -/
theorem cruFv_cases (s : State) (r : StationTime) :
    (∀ g, s.cru.gammaStart = some g → 0 ≤ (r - g).toInt →
      cruFv r .recovery s = marginAlarm (min 36000 ((r - g).toInt.toNat * 36000 / s.aru.period)) r
        { s with cru := { s.cru with
          gammaStart := none, gammaLast := min 36000 ((r - g).toInt.toNat * 36000 / s.aru.period) } }) ∧
    (∀ g, s.cru.gammaStart = some g → (r - g).toInt < 0 →
      cruFv r .recovery s = { s with cru := { s.cru with gammaStart := none } }) ∧
    (∀ phase, phase ≠ .recovery ∨ s.cru.gammaStart = none → cruFv r phase s = s) := by
  unfold cruFv measuredGamma
  refine ⟨fun g running later => ?_, fun g running earlier => ?_, fun phase idle => ?_⟩
  · have h : 0 ≤ sdiff r g := later
    simp only [running, h, if_true]
    rfl
  · have h : ¬0 ≤ sdiff r g := not_le.2 earlier
    simp only [running, h, if_true, if_false]
    rfl
  · cases running : s.cru.gammaStart with
    | none => rfl
    | some g => exact if_neg (idle.resolve_right (by simp [running]))

/-- An FV event at the Coordination Unit changes it and the rings alone. -/
theorem cruFv_frame (r : StationTime) (phase : ValvePhase) (s : State) :
    ∃ cru rif, cruFv r phase s = { s with cru := cru, rif := rif } := by
  have alarm (γ : Nat) (u : State) : ∃ cru rif, marginAlarm γ r u = { u with cru := cru, rif := rif } := by
    unfold marginAlarm requestMargin originate
    repeat' split
    all_goals exact ⟨_, _, rfl⟩
  unfold cruFv
  split
  · exact ⟨_, _, rfl⟩
  split
  · split
    · exact ⟨_, _, rfl⟩
    · exact alarm _ _
  · exact ⟨_, _, rfl⟩

/-- Settles O10: the forward event at the Level Monitor and the Coordination Unit. -/
theorem forwardVoltageQuorumMeasuresTheMargin : Obligations.ForwardVoltageQuorumMeasuresTheMargin := by
  intro i s r measuring low high alive phase armed since fresh full gain
  have e : exec (.indication i) s = .next (cruFv r s.lmon.phase (s.recovered i r)) :=
    exec_indication_event measuring (pulseClass_fv low high)
      (indicated_fv_quorum (n := s.straps.nlev) alive (admits_of armed since fresh) full)
  have becomes := fallen_becomes measuring
  have otherLevels (j : Fin 80) (other : j ≠ i) := noted_level_other s.lmon .fv other
  have level : (s.lmon.noted i .fv).levels.get i = _ := (noted_level_same s.lmon i .fv).trans (indicated_level_fv _ _)
  have notConducting : s.lmon.phase ≠ .conducting := by rcases phase with h | h <;> rw [h] <;> decide
  simp only [notConducting, or_false] at level
  have lmon : (s.recovered i r).lmon = { s.lmon with
      levels := (s.lmon.noted i .fv).levels, phase := .forward, quorumFv := true
      fv := { s.lmon.fv with armed := false, members := s.lmon.fv.members ++ [{ level := i, stamp := r }] }
      rv := if s.lmon.phase = .reverse then { armed := true, armedAt := r, members := [] } else s.lmon.rv } := rfl
  obtain ⟨measured, dropped, idle⟩ := cruFv_cases (s.recovered i r) r
  obtain ⟨cru, rif, shape⟩ := cruFv_frame r s.lmon.phase (s.recovered i r)
  rw [shape] at e
  refine ⟨_, e, rfl, becomes.congr rfl, lmon, otherLevels, level, fun g recovery running later => ?_,
    fun g recovery running earlier => ?_, fun unmeasured => ?_⟩
  · rw [recovery, measured g running later, marginAlarm_eq (by exact gain)] at shape
    dsimp only
    split
    · rename_i alarm
      rw [if_pos (by exact alarm)] at shape
      cases (congrArg State.cru shape : _ = cru)
      exact ⟨rfl, (congrArg State.rif shape).symm, rfl⟩
    · rename_i quiet
      rw [if_neg (by exact quiet)] at shape
      cases (congrArg State.cru shape : _ = cru)
      exact ⟨rfl, (congrArg State.rif shape).symm, rfl⟩
  · rw [recovery, dropped g running earlier] at shape
    exact ⟨(congrArg State.cru shape).symm, (congrArg State.rif shape).symm⟩
  · rw [idle _ (unmeasured.imp (fun h => by rw [h]; decide) id)] at shape
    exact ⟨(congrArg State.cru shape).symm, (congrArg State.rif shape).symm⟩

/-! ### A commutation failure that is no repeated one (R160 to R163) -/

/-- The failure detected by a started station: the history, the own request and the CFAIL. -/
theorem detectFailure_started {s : State} {cause : Nat} {r : StationTime} (h1 : s.stc.station ≠ .start)
    (h2 : s.stc.station ≠ .inert)
    (single : s.cru.ownFn ∈ s.cru.cfHistory ∨ repeated (historyEntered s.cru.cfHistory s.cru.ownFn) = false) :
    detectFailure takeFault cause r s =
      { s with
        cru := { s.cru with
          cfHistory := historyEntered s.cru.cfHistory s.cru.ownFn
          advances :=
            enterRequest s.cru.advances { source := s.straps.pos, kind := .cfail, magnitude := 3000, hold := 20 } }
        rif := s.rif.originated .cfail
          [BitVec.ofNat 8 cause, BitVec.ofNat 8 (historyEntered s.cru.cfHistory s.cru.ownFn).length] (some r) } := by
  rw [detectFailure_single single, originate_active (by exact h1) (by exact h2)]
  rfl

/-- A failure is single when its number is held already or no four entries lie within 600. -/
theorem single_of {h : List FiringNumber} {fn : FiringNumber}
    (single : fn ∈ h ∨ ∀ a b c d, historyEntered h fn = [a, b, c, d] → 600 < (d - a).toNat) :
    fn ∈ h ∨ repeated (historyEntered h fn) = false := single.imp_right repeated_false

/-- Settles O29: the watch that has reached its deadline. -/
theorem overdueExtinctionIsACommutationFailure : Obligations.OverdueExtinctionIsACommutationFailure := by
  intro s w watch due length started active
  dsimp only
  intro single
  rw [← historyEntered_eq length] at single ⊢
  have overdue : overdueAt s = some w.deadline := by simp [overdueAt, watch, due]
  have e : exec .overdueDeadline s = .next (detectFailure takeFault 1 w.deadline (discardWatch s)) := by
    show Host.Outcome.next _ = _
    simp only [overdue]
  rw [e, detectFailure_started (by exact started) (by exact active) (by exact single_of single)]
  rfl

/-- The state after a PF that completes the smaller quorum, before the Coordination Unit takes the event. -/
def State.refired (s : State) (i : Fin 80) (r : StationTime) : State :=
  { s.fallen i with lmon := ({ s.lmon.noted i .pf with pf := s.lmon.pf.add i r } : Lmon).atPfq s.straps.nlev r }

theorem exec_indication_pfq {s : State} {i : Fin 80} {r : StationTime} (measuring : Measuring s i r)
    (low : 50 ≤ (s.now - r).toNat) (high : (s.now - r).toNat ≤ 70) (alive : (s.level i).state ≠ .failed)
    (phase : s.lmon.phase = .recovery) (armed : s.lmon.pf.armed = true) (since : 0 ≤ (r - s.lmon.pf.armedAt).toInt)
    (fresh : ∀ m ∈ s.lmon.pf.members, m.level ≠ i) (full : s.lmon.pf.members.length + 1 = s.lmon.counted / 4 + 1) :
    exec (.indication i) s = .next (cruPfq takeFault r (s.refired i r)) := by
  refine exec_indication_event measuring (pulseClass_pf low high) (m := (s.refired i r).lmon) (e := .pfq r) ?_
  rw [indicated_pf alive, if_pos (admits_of armed since fresh), if_pos ⟨full, phase⟩]
  rfl

/-- The Level Monitor after the quorum of a PF. -/
theorem refired_lmon (s : State) (i : Fin 80) (r : StationTime) :
    (s.refired i r).lmon = { s.lmon with
      levels := (s.refired i r).lmon.levels, phase := .conducting, cfCycle := true
      pf := { s.lmon.pf with armed := false, members := s.lmon.pf.members ++ [{ level := i, stamp := r }] }
      fv := { s.lmon.fv with armed := false, members := [] }
      rv := { armed := true, armedAt := r, members := [] } } := rfl

theorem refired_level (s : State) (i : Fin 80) (r : StationTime) (j : Fin 80) :
    (s.refired i r).level j =
      if j.val < s.straps.nlev ∧ (s.level j).state ≠ .failed then
        { (if j = i then { s.level j with pfSeen := true } else s.level j) with lastIndication := .none }
      else if j = i then { s.level j with pfSeen := true } else s.level j := by
  have noted : (s.lmon.noted i .pf).levels.get j =
      if j = i then { s.level j with pfSeen := true } else s.level j := by
    by_cases same : j = i
    · subst same; rw [noted_level_same, if_pos rfl]; rfl
    · rw [noted_level_other s.lmon .pf same, if_neg same]; rfl
  have state : (if j = i then { s.level j with pfSeen := true } else s.level j).state = (s.level j).state := by
    split <;> rfl
  have get : (s.refired i r).level j =
      if j.val < s.straps.nlev then ((s.lmon.noted i .pf).levels.get j).restarted
      else (s.lmon.noted i .pf).levels.get j := get_mapFinIdx _ _ j
  rw [get, noted]
  unfold Level.restarted
  generalize (if j = i then { s.level j with pfSeen := true } else s.level j) = l at state ⊢
  by_cases live : j.val < s.straps.nlev
  · by_cases failed : (s.level j).state = .failed
    · rw [if_pos live, if_pos (state.trans failed), if_neg fun h => h.2 failed]
    · rw [if_pos live, if_neg fun h => failed (state.symm.trans h), if_pos ⟨live, failed⟩]
  · rw [if_neg live, if_neg fun h => live h.1]

theorem measuring_started {s : State} {i : Fin 80} {r : StationTime} (h : Measuring s i r) :
    s.stc.station ≠ .start ∧ s.stc.station ≠ .inert := by
  obtain ⟨started, active, -⟩ := (live_iff s i.val).1 h.1
  exact ⟨started, active⟩

/-- Settles O11: the protective event at the Level Monitor, and the failure it is. -/
theorem protectiveQuorumIsACommutationFailure : Obligations.ProtectiveQuorumIsACommutationFailure := by
  intro i s r measuring low high alive phase armed since fresh full length
  dsimp only
  intro single
  rw [← historyEntered_eq length] at single ⊢
  obtain ⟨started, active⟩ := measuring_started measuring
  have e := exec_indication_pfq measuring low high alive phase armed since fresh full
  rw [cruPfq, detectFailure_started (by exact started) (by exact active) (by exact single_of single)] at e
  exact ⟨_, e, rfl, (fallen_becomes measuring).congr rfl, refired_lmon s i r, refired_level s i r, rfl, rfl⟩

end Sys2Proof.Machine
end

section
/-! PROOFS. What the peers send (chapters 8 and 9): ORDERs by their origin and key, warnings, and FIREs by the place of
their origin in the firing order. -/

namespace Sys2Proof.Machine

/-! ### ORDERs (R137, R141, R142) -/

/-- Each of the five orders is one delivery to the Coordination Unit with its command. -/
theorem exec_order {mk : Order → Instr}
    (h : mk ∈ [Instr.hold, Instr.deblock, Instr.block, Instr.bypassBlock, Instr.clear]) :
    ∃ k : Command, (∀ o s, exec (mk o) s = onPosition o.origin (delivered (mk o) o.origin (cruOrder k o) s)) ∧
      ∀ o, mk o = .hold o → k = .hold := by
  simp only [List.mem_cons, List.not_mem_nil, or_false] at h
  rcases h with rfl | rfl | rfl | rfl | rfl
  · exact ⟨.hold, fun _ _ => rfl, fun _ _ => rfl⟩
  · exact ⟨.deblock, fun _ _ => rfl, fun _ h => by cases h⟩
  · exact ⟨.block, fun _ _ => rfl, fun _ h => by cases h⟩
  · exact ⟨.bypassBlock, fun _ _ => rfl, fun _ h => by cases h⟩
  · exact ⟨.clear, fun _ _ => rfl, fun _ h => by cases h⟩

theorem fromControl_iff {o : Order} (h : o.origin ≤ 14) :
    fromControl o = true ↔ 13 ≤ o.origin ∧ o.controlId = o.origin := by
  simp [fromControl, isControlPosition_iff h]

/-- Settles O42: an ORDER foreign, inactive, or taken under a repeated key or as HOLD. -/
theorem ordersAreTakenOncePerKey : Obligations.OrdersAreTakenOncePerKey := by
  intro mk o s order active low high other
  obtain ⟨k, e, hold⟩ := exec_order order
  have heard : exec (mk o) s = .next (cruOrder k o (s.hearing o.origin (mk o))) := by
    rw [e, onPosition_next low high, delivered_eq active other]
  refine ⟨fun foreign => ?_, fun control own inactive => ?_, fun taken once => ?_⟩
  · have notControl : fromControl o = false := by
      rw [← Bool.not_eq_true, fromControl_iff high]; omega
    rw [heard, cruOrder, notControl]
    rfl
  · rw [heard, cruOrder, (fromControl_iff high).2 ⟨control, own⟩, inactive]
    rfl
  · rw [e, exec_activeOrder taken active]
    rcases once with repeated | isHold
    · rw [if_pos repeated]
    · rw [hold o isHold, stcCommand, ite_self]

/-! ### MARGIN and CFAIL (R165) -/

theorem isFiringPosition_iff {q : Nat} (h : 1 ≤ q) : isFiringPosition q = true ↔ q ≤ 12 := by
  simp [isFiringPosition, h]

/-- A margin below the alarm asks for an advance; any other forms no request. -/
theorem requestMargin_eq {s : State} (gain : 1 ≤ s.stc.gain) (q γ : Nat) :
    requestMargin q γ s =
      if γ < s.stc.gammaAlarm then
        s.request { source := q, kind := .margin, magnitude := min 3000 (s.stc.gain * (s.stc.gammaAlarm - γ)), hold := 8 }
      else s := by
  have asked : 0 < marginMagnitude s.stc γ ↔ γ < s.stc.gammaAlarm := by
    have positive : 0 < s.stc.gain * (s.stc.gammaAlarm - γ) ↔ 0 < s.stc.gammaAlarm - γ :=
      Nat.mul_pos_iff_of_pos_left gain
    unfold marginMagnitude
    omega
  simp only [requestMargin, asked]
  rfl

/-- Settles O50: a warning of a firing position enters its request. -/
theorem warningsOfThePeersRequestAnAdvance : Obligations.WarningsOfThePeersRequestAnAdvance := by
  intro q γ cause count s active low high other gain
  have margin : exec (.margin q γ) s = .next (cruMargin q γ (s.hearing q (.margin q γ))) := by
    show onPosition q (delivered _ q _ s) = _
    rw [onPosition_next low high, delivered_eq active other]
  have cfail : exec (.cfail q cause count) s = .next (cruCfail q (s.hearing q (.cfail q cause count))) := by
    show onPosition q (delivered _ q _ s) = _
    rw [onPosition_next low high, delivered_eq active other]
  refine ⟨?_, ?_⟩
  · rw [margin, cruMargin, requestMargin_eq (by exact gain)]
    simp only [isFiringPosition_iff low]
    by_cases firing : q ≤ 12
    · by_cases below : min 36000 γ < s.stc.gammaAlarm
      · rw [if_pos firing, if_pos (by exact below), if_pos ⟨firing, below⟩]
        rfl
      · rw [if_pos firing, if_neg (by exact below), if_neg fun h => below h.2]
    · rw [if_neg firing, if_neg fun h => firing h.1]
  · rw [cfail, cruCfail]
    simp only [isFiringPosition_iff low]
    by_cases firing : q ≤ 12
    · rw [if_pos firing, if_pos firing]
      rfl
    · rw [if_neg firing, if_neg firing]

/-! ### FIRE (R138, R144 to R146, R150, R151) -/

/-- The state after a FIRE of a firing position has been heard and entered in its fire record. -/
def State.recorded (s : State) (f : Fire) : State :=
  (s.hearing f.origin (.fire f)).onCru fun c => c.onPeer f.origin fun p => { p with fire := some f.fn }

theorem exec_fire {f : Fire} {s : State} (active : s.stc.station ≠ .inert) (low : 1 ≤ f.origin) (high : f.origin ≤ 14)
    (other : f.origin ≠ s.straps.pos ∨ 12 < s.straps.pos) :
    exec (.fire f) s = .next (cruFire f (s.hearing f.origin (.fire f))) := by
  show onPosition f.origin (delivered _ f.origin _ s) = _
  rw [onPosition_next low high, delivered_eq active other]

/-- A FIRE of a firing position by its place before or after the own one. -/
theorem cruFire_from_firing {f : Fire} {s : State} (low : 1 ≤ f.origin) (high : f.origin ≤ 12)
    (pos : 1 ≤ s.straps.pos) :
    cruFire f (s.hearing f.origin (.fire f)) =
      if f.origin = (s.straps.pos + 10) % 12 + 1 then
        if s.firingOrHold then predecessorFire f (s.recorded f) else s.recorded f
      else if f.origin = (s.straps.pos + 9) % 12 + 1 then bridgePredecessorFire (s.recorded f)
      else if f.origin = (s.straps.pos + 1) % 12 + 1 then
        if f.start then startRequest (s.recorded f) else s.recorded f
      else s.recorded f := by
  have after : positionAfter s.straps.pos 2 = (s.straps.pos + 1) % 12 + 1 := by
    unfold positionAfter; omega
  rw [cruFire, if_pos ((isFiringPosition_iff low).2 high), ← after, ← ite_and]
  rfl

/-- Settles O48: a FIRE from any place but that of the predecessor in the firing order. -/
theorem otherFiresAreRecordedAndStartTheBridge : Obligations.OtherFiresAreRecordedAndStartTheBridge := by
  intro f s posLow posHigh active low high other
  have e := exec_fire active low high (.inl other)
  refine ⟨fun control => ?_, fun firing => ?_⟩
  · rw [e, cruFire, if_neg]
    rw [isFiringPosition_iff low]; omega
  rw [e, cruFire_from_firing low firing posLow]
  refine ⟨fun previous notFiring noHold => ?_, fun bridge => ?_, fun companion => ?_, fun a b c => ?_⟩
  · have idle : s.firingOrHold = false := by
      rw [← Bool.not_eq_true, firingOrHold_iff]; simp [notFiring, noHold]
    rw [if_pos previous, idle]
    rfl
  · rw [if_neg (by omega), if_pos bridge, bridgePredecessorFire]
    by_cases firing : s.stc.station = .firing
    · rw [if_pos (by exact firing)]
      simp only [firing, decide_true, Bool.or_true]
      rfl
    · rw [if_neg (by exact firing)]
      simp only [firing, decide_false, Bool.or_false]
      rfl
  · rw [if_neg (by omega), if_neg (by omega), if_pos companion]
    by_cases start : f.start = true
    · rw [if_pos start, startRequest]
      by_cases lights : s.stc.station = .firing ∧ s.cru.firedSince = false ∧ s.lca.train = none
      · have train : trainCompanion s.aru.period s.now s.lca.train =
            some (mainFrom s.now (normalFrom s.aru.period s.now)) := by rw [lights.2.2]; rfl
        rw [if_pos (by exact lights), if_pos ⟨start, lights⟩]
        exact congrArg (fun x => Host.Outcome.next { s.recorded f with lca := { s.lca with train := x } }) train
      · rw [if_neg (by exact lights), if_neg fun h => lights h.2]
        rfl
    · rw [if_neg start, if_neg fun h => start h.1]
      rfl
  · rw [if_neg a, if_neg b, if_neg c]
    rfl

/-- A FIRE of the predecessor by its distance from the own last firing instant. -/
theorem classifyFire_eq (period : Nat) (previous instant : Option StationTime) :
    (previous = none ∨ instant = none → classifyFire period previous instant = .current) ∧
    ∀ F P, previous = some F → instant = some P →
      classifyFire period previous instant =
        if (period / 2 : Nat) ≤ (P - F).toInt then .current else if 0 < (P - F).toInt then .inverted else .late := by
  refine ⟨fun absent => ?_, fun F P h k => by rw [h, k]; rfl⟩
  rcases absent with rfl | rfl
  · rfl
  · cases previous <;> rfl

/-- A current FIRE handed to the FCU: a provisional schedule takes its instant as a guard (R72, R73). -/
theorem fcuPredecessor_eq (instant : Option StationTime) (s : State) :
    fcuPredecessor instant s = { s with fcu := { s.fcu with
      schedule :=
        match s.fcu.schedule, instant with
        | some c, some p =>
          some (if c.provisional = true then
            { c with firing := guarded c.unguarded p c.step c.cap, provisional := false } else c)
        | some c, none => some c
        | none, _ => none } } := by
  unfold fcuPredecessor
  cases schedule : s.fcu.schedule with
  | none =>
    cases instant <;> simp only <;> rw [← schedule]
  | some c =>
    cases instant with
    | none => simp only; rw [← schedule]
    | some p =>
      by_cases provisional : c.provisional = true
      · simp only [provisional, if_true]; rfl
      · simp only [if_neg provisional]; rw [← schedule]

/-- Settles O47: a FIRE of the predecessor, current, inverted or late. -/
theorem fireFromThePredecessorIsClassified : Obligations.FireFromThePredecessorIsClassified := by
  intro f s posLow posHigh origin running slip inversion bounds
  have active : s.stc.station ≠ .inert := by
    rcases running with h | h
    · rw [h]; decide
    · simp only [State.inHold, Bool.and_eq_true, decide_eq_true_eq] at h
      rw [h.1.1]; decide
  have e : exec (.fire f) s = .next (predecessorFire f (s.recorded f)) := by
    rw [exec_fire active (by omega) (by omega) (.inl (by omega)), cruFire_from_firing (by omega) (by omega) posLow,
      if_pos origin, if_pos ((firingOrHold_iff s).2 running)]
  obtain ⟨absent, timed⟩ := classifyFire_eq s.aru.period s.fcu.previous f.instant
  have half : 0 < (s.aru.period / 2 : Nat) := by unfold PeriodInBounds at bounds; omega
  refine ⟨fun current => ?_, fun F P previous instant ahead below => ?_, fun F P previous instant behind => ?_⟩
  · have current : classifyFire s.aru.period s.fcu.previous f.instant = .current := by
      rcases current with h | h | ⟨F, P, previous, instant, far⟩
      · exact absent (.inl h)
      · exact absent (.inr h)
      · rw [timed F P previous instant, if_pos far]
    have taken : predecessorFire f (s.recorded f) = currentFire f (s.recorded f) := by
      unfold predecessorFire
      rw [show classifyFire (s.recorded f).aru.period (s.recorded f).fcu.previous f.instant = .current from current]
    rw [e, taken, currentFire, fcuPredecessor_eq]
    by_cases slips : s.cru.predecessor.isSome = true ∧ s.fcu.previous.isSome = true
    · simp only [if_pos slips]
      rw [if_pos (by exact slips), takeFault_report (by exact slip)]
      rfl
    · simp only [if_neg slips]
      rw [if_neg (by exact slips)]
      rfl
  · have inverted : classifyFire s.aru.period s.fcu.previous f.instant = .inverted := by
      rw [timed F P previous instant, if_neg (not_le.2 below), if_pos ahead]
    have taken : predecessorFire f (s.recorded f) =
        takeFault .sequenceInversion ((s.recorded f).onCru fun c => { c with inversionMark := true }) := by
      unfold predecessorFire
      rw [show classifyFire (s.recorded f).aru.period (s.recorded f).fcu.previous f.instant = .inverted from inverted]
    rw [e, taken, takeFault_report (by exact inversion)]
    rfl
  · have late : classifyFire s.aru.period s.fcu.previous f.instant = .late := by
      rw [timed F P previous instant, if_neg (by omega), if_neg (by omega)]
    have taken : predecessorFire f (s.recorded f) =
        (s.recorded f).onCru fun c => { c with lateFires := satSucc 255 c.lateFires } := by
      unfold predecessorFire
      rw [show classifyFire (s.recorded f).aru.period (s.recorded f).fcu.previous f.instant = .late from late]
    rw [e, taken]
    rfl

end Sys2Proof.Machine
end

section
/-! PROOFS. Returns of own telegrams (chapter 7): a missing one at its expiry, and a matched one. -/

namespace Sys2Proof.Machine

/-! ### RETURN_TIMER_EXPIRY (R123, R128, R129) -/

theorem exec_returnTimerExpiry {p : Port} {e : Outstanding} {rest : List Outstanding} {s : State}
    (earliest : (s.port p).outstanding = e :: rest) (due : s.now = e.expiry) :
    exec (.returnTimerExpiry p) s = .next (missingReturn p (s.onPort p fun r => { r with outstanding := rest })) := by
  have expired : returnExpired p s = true := (returnExpired_iff p s).2 ⟨e, rest, earliest, by simp [Reached, due]⟩
  have dropped : s.onPort p RingPort.dropEarliest = s.onPort p fun r => { r with outstanding := rest } :=
    onPort_congr (by rw [RingPort.dropEarliest, earliest]; rfl)
  rw [← dropped]
  exact congrArg Host.Outcome.next (if_pos expired)

/-- Settles O37: a missing return, and the third in a row. -/
theorem expiryIsAMissingReturn : Obligations.ExpiryIsAMissingReturn := by
  intro p e rest s earliest due
  rw [exec_returnTimerExpiry earliest due]
  exact ⟨fun keeps => congrArg _ (missingReturn_keeps_health keeps),
    fun up third plain => congrArg _ (missingReturn_third_plain up third plain)⟩

/-- Settles O38: the third missing return in a row, of the last ring in FIRING. -/
theorem lastRingLostInFiringBeginsTheIsolationHold : Obligations.LastRingLostInFiringBeginsTheIsolationHold := by
  intro p e rest s earliest due up third last firing trips fresh
  obtain ⟨frame, stc, faults, rif, train⟩ := missingReturn_third_lastRing (s := s) (p := p)
    (f := fun r => { r with outstanding := rest }) up third last firing trips fresh
  have lost := faults .ringLost
  rw [if_pos rfl] at lost
  exact ⟨_, exec_returnTimerExpiry earliest due, frame, stc, by rw [lost], by rw [lost]; rfl, rif, train⟩

/-! ### OWN_TELEGRAM_RETURN (R124, R126 to R129) -/

/-- The earliest entry with a sequence is the one found, and the list without it is the rest. -/
theorem find_removeFirst {before after : List Outstanding} {e : Outstanding} {q : Seq} (same : e.sequence = q)
    (earlier : ∀ x ∈ before, x.sequence ≠ q) :
    (before ++ e :: after).find? (fun x => x.sequence = q) = some e ∧
      removeFirst (fun x => x.sequence = q) (before ++ e :: after) = before ++ after := by
  induction before with
  | nil => simp [removeFirst, same]
  | cons x l ih =>
    obtain ⟨found, removed⟩ := ih fun y hy => earlier y (by simp [hy])
    have other : x.sequence ≠ q := earlier x (by simp)
    simp only [List.cons_append, List.find?_cons, removeFirst, other, decide_false, Bool.false_eq_true, if_false]
    exact ⟨found, by rw [removed]⟩

/-- A matched return that changes the health of no ring, or takes a DOWN ring UP. -/
theorem matchedReturn_eq {p : Port} {s : State} :
    ((s.port p).health = .up ∨ (s.port p).returnRun < 2 → matchedReturn p s = s.onPort p RingPort.matched) ∧
    ((s.port p).health = .down → 2 ≤ (s.port p).returnRun →
      matchedReturn p s =
        surveyTest ((s.onPort p RingPort.matched).clearFault (ringFault (s.port (otherPort p)).health))) := by
  have health : (s.port p).matched.health = if 2 ≤ (s.port p).returnRun then .up else (s.port p).health := by
    have third : satSucc 3 (s.port p).returnRun = 3 ↔ 2 ≤ (s.port p).returnRun := by simp only [satSucc]; omega
    simp only [RingPort.matched, third]
  refine ⟨fun keeps => healthChanged_same ?_, fun down third => ?_⟩
  · rw [port_onPort_same, health]
    rcases keeps with up | few
    · rw [up, ite_self]
    · exact if_neg (by omega)
  · rw [matchedReturn, down]
    unfold healthChanged
    rw [port_onPort_same, health, if_pos third, port_onPort_otherPort]

/-- The port after a matched return: the entry gone, the delay measured, the runs counted. -/
def RingPort.answered (r : RingPort) (e : Outstanding) (age hops : Nat) (stamp : StationTime) : RingPort :=
  (r.returned e age hops stamp).matched

theorem answered_eq {r : RingPort} {e : Outstanding} {before after : List Outstanding}
    (removed : removeFirst (fun x => x.sequence = e.sequence) r.outstanding = before ++ after) (age hops : Nat)
    (stamp : StationTime) :
    r.answered e age hops stamp = { r with
      outstanding := before ++ after, hopDelay := (r.answered e age hops stamp).hopDelay
      returnRun := min 3 (r.returnRun + 1), missRun := 0
      health := if 2 ≤ r.returnRun then .up else r.health } := by
  have third : satSucc 3 r.returnRun = 3 ↔ 2 ≤ r.returnRun := by simp only [satSucc]; omega
  simp only [RingPort.answered, RingPort.matched, RingPort.returned, removed, third]
  rfl

/-- The delay of a matched return, as an integer (R126, R127). -/
theorem answered_hopDelay (r : RingPort) (e : Outstanding) (age hops : Nat) (stamp : StationTime) :
    ((r.answered e age hops stamp).hopDelay : Int) =
      if age = 65535 then (r.hopDelay : Int)
      else max 0 (min 2000 ((r.hopDelay : Int) +
        (Int.fdiv ((stamp - e.departure).toInt - ((age : Int) - (e.initialAge : Int))) ((hops + 1 : Nat) : Int) -
          (r.hopDelay : Int)).tdiv 4)) := by
  have delay : (r.answered e age hops stamp).hopDelay =
      if age = 65535 then r.hopDelay else hopDelayAfter r.hopDelay (measuredDelay e age hops stamp) := rfl
  rw [delay]
  split
  · rfl
  · rw [hopDelayAfter, measuredDelay, clampInt, Int.toNat_of_nonneg (by omega), Int.fdiv_eq_ediv_of_nonneg _ (by omega)]
    rfl

/-- Settles O36: a return matched against its entry, or against none. -/
theorem matchedReturnMeasuresItsRing : Obligations.MatchedReturnMeasuresItsRing := by
  intro p q age hops stamp s ageHigh hopsHigh
  refine ⟨fun before after e outstanding same earlier => ?_, fun unmatched => ?_⟩
  · obtain ⟨found, removed⟩ := find_removeFirst (after := after) same earlier
    subst same
    set c : Instr := .ownTelegramReturn p e.sequence age hops stamp with command
    set g : RingPort → RingPort := fun r => r.answered e age hops stamp with answer
    have exec_eq : exec c s = .next (matchedReturn p ((s.taken c).onPort p fun r => r.returned e age hops stamp)) := by
      show Host.Outcome.next (ownReturn p e.sequence age hops stamp (s.taken c)) = _
      unfold ownReturn
      rw [show ((s.taken c).port p).outstanding.find? (fun x => x.sequence = e.sequence) = some e by
        rw [← outstanding] at found; exact found]
    have port : g (s.port p) = { s.port p with
        outstanding := before ++ after, hopDelay := (g (s.port p)).hopDelay
        returnRun := min 3 ((s.port p).returnRun + 1), missRun := 0
        health := if 2 ≤ (s.port p).returnRun then .up else (s.port p).health } :=
      answered_eq (by rw [outstanding, removed]) age hops stamp
    have delay := answered_hopDelay (s.port p) e age hops stamp
    have same : ((s.taken c).onPort p fun r => r.returned e age hops stamp).onPort p RingPort.matched =
        (s.taken c).onPort p g := onPort_onPort _ _ _ _
    have returned : ((s.taken c).onPort p fun r => r.returned e age hops stamp).port p =
        (s.port p).returned e age hops stamp := port_onPort_same _ _ _
    obtain ⟨keeps, rises⟩ := matchedReturn_eq (p := p)
      (s := (s.taken c).onPort p fun r => r.returned e age hops stamp)
    rw [returned, same] at keeps rises
    have fault : ringFault (s.port (otherPort p)).health =
        if (s.port (otherPort p)).health = .up then .ringDegraded else .ringLost := by
      cases (s.port (otherPort p)).health <;> rfl
    obtain ⟨k, shape, kept, cleared⟩ : ∃ k,
        matchedReturn p ((s.taken c).onPort p fun r => r.returned e age hops stamp) =
          { (s.taken c).onPort p g with stc := k } ∧
        ((s.port p).health = .up ∨ (s.port p).returnRun < 2 → k = s.stc) ∧
        ((s.port p).health = .down → 2 ≤ (s.port p).returnRun →
          let cleared := s.stc.onFault
            (if (s.port (otherPort p)).health = .up then .ringDegraded else .ringLost) fun f =>
              { f with active := false }
          k =
            if s.stc.station = .survey ∧ s.lmon.redundancy = .exhausted then
              { cleared with station := .tripped, tripLine := true, readyLine := false }
            else if s.stc.station = .survey ∧ s.lmon.unknowns = 0 ∧ s.aru.lock = .locked then
              { cleared with station := .blocked, tripLine := false, readyLine := true }
            else cleared) := by
      by_cases rise : (s.port p).health = .down ∧ 2 ≤ (s.port p).returnRun
      · obtain ⟨down, third⟩ := rise
        have up : (((s.taken c).onPort p g).port p).health = .up := by
          rw [port_onPort_same, show g ((s.taken c).port p) = _ from port]
          exact if_pos third
        have tested := rises down third
        rw [port_onPort_otherPort, surveyTest_of_ringUp (by exact aRingUp_of_up up), show
          ringFault ((s.taken c).port (otherPort p)).health = _ from fault] at tested
        exact ⟨_, tested, fun h => by rcases h with h | h <;> [(rw [down] at h; cases h); omega], fun _ _ => rfl⟩
      · have keep : (s.port p).health = .up ∨ (s.port p).returnRun < 2 := by
          cases health : (s.port p).health with
          | up => exact .inl rfl
          | down => exact .inr (not_le.1 fun third => rise ⟨health, third⟩)
        exact ⟨s.stc, keeps keep, fun _ => rfl, fun down third => absurd ⟨down, third⟩ rise⟩
    have ports (k : Stc) :
        ({ (s.taken c).onPort p g with stc := k } : State).port p = g (s.port p) ∧
        ({ (s.taken c).onPort p g with stc := k } : State).port (otherPort p) = s.port (otherPort p) :=
      ⟨port_onPort_same (s.taken c) p g, port_onPort_otherPort (s.taken c) p g⟩
    obtain ⟨own, other⟩ := ports k
    refine ⟨_, exec_eq.trans (congrArg _ shape), rfl, by simp, other, ?_, kept, cleared, ?_⟩
    · rw [own]; exact port
    · rw [own]; exact delay
  · have none : (s.port p).outstanding.find? (fun x => x.sequence = q) = none := by
      rw [List.find?_eq_none]; simpa using unmatched
    show Host.Outcome.next (ownReturn p q age hops stamp (s.taken _)) = _
    unfold ownReturn
    rw [show ((s.taken (.ownTelegramReturn p q age hops stamp)).port p).outstanding.find?
      (fun x => x.sequence = q) = Option.none from none]
    rfl

end Sys2Proof.Machine
end

section
/-! PROOFS. The first crossing and the lost acquisition (chapter 3), the course of a train (chapter 1), the advance list
under a request (chapter 9), and the firing of a reference event (chapter 4). -/

namespace Sys2Proof.Machine

/-! ### Acquisition begun and timed out (R48, R50, R172) -/

/-- The entry to FREE with its SURVEY test. -/
theorem enterFree_eq (s : State) : enterFree s = s.surveyed s.aru.toFree := surveyTest_withAru s _

/-- Settles O16: the entry to ACQUIRING and the return to FREE. -/
theorem acquisitionBeginsAndTimesOut : Obligations.AcquisitionBeginsAndTimesOut := by
  intro s t
  refine ⟨fun free qualifies => ?_, fun acquiring previous due => ?_⟩
  · have begun : takeCrossing t (s.onAru Aru.edgeTaken) = s.surveyed (s.aru.edgeTaken.firstCrossing t) := by
      rw [← surveyTest_withAru]
      unfold takeCrossing
      rw [show (s.onAru Aru.edgeTaken).aru.lock = .free from free]
      rfl
    refine ⟨_, (exec_qualifiedCrossing_of_qualifies qualifies).trans (congrArg _ begun), ?_, ?_⟩
    · rw [surveyed_aru]; rfl
    · rw [surveyed_aru]
  · have ended : s.aru.acquisitionOver s.now = true :=
      (acquisitionOver_iff s).2 ⟨acquiring, t, previous, by simp [Reached, due]⟩
    have e : exec .acquisitionTimeout s = .next (s.surveyed s.aru.toFree) := by
      rw [← enterFree_eq]
      exact congrArg Host.Outcome.next (if_pos ended)
    refine ⟨_, e, ?_, ?_⟩
    · rw [surveyed_aru]; rfl
    · rw [surveyed_aru]

/-! ### The course of a train (R4, R6, R7, R13) -/

theorem firingOutput_main {s : State} {r : Train} (train : s.lca.train = some r) (main : r.phase = .main) (i : Nat) :
    s.firingOutput i = s.live i := by
  simp [State.firingOutput, trainLit, train, main]

theorem firingOutput_pulsed {s : State} {r : Train} (train : s.lca.train = some r) (pulsed : r.phase ≠ .main) (i : Nat) :
    s.firingOutput i = (s.live i && decide ((s.now - r.origin).toInt % 500 < 20)) := by
  cases phase : r.phase with
  | main => exact absurd phase pulsed
  | refresh => simp only [State.firingOutput, trainLit, train, phase, sdiff]; rfl
  | continuous => simp only [State.firingOutput, trainLit, train, phase, sdiff]; rfl

/-- Settles O28: the end of the main pulse, the conduction limit, and the light in every phase. -/
theorem trainMovesOnAndEnds : Obligations.TrainMovesOnAndEnds := by
  intro s r train
  refine ⟨firingOutput_main train, fun main due => ?_, fun xref kind => ?_, fun pulsed _ => firingOutput_pulsed train pulsed⟩
  · have ended : mainEndDue s.now s.lca.train = true :=
      (mainEndDue_iff s).2 ⟨r, train, main, by simp [Reached, due]⟩
    have moved : trainMainEnd s.now s.lca.train =
        some { r with phase := if r.kind = .bypass then .continuous else .refresh } := by
      rw [trainMainEnd, if_pos ended, train]
      cases kind : r.kind <;> simp [phaseAfterMain, kind]
    refine ⟨_, rfl, rfl, moved, fun i => ?_⟩
    have pulsed : (if r.kind = .bypass then TrainPhase.continuous else .refresh) ≠ .main := by split <;> decide
    rw [firingOutput_pulsed (s := s.onTrain (trainMainEnd s.now)) moved (by exact pulsed)]
    simp only [due, onTrain_now]
    rw [show (r.origin - r.origin) = 0 from BitVec.sub_self _]
    exact Bool.and_true _
  · have ended : trainLimit s.now s.lca.train = none := by simp [trainLimit, train, kind]
    have e : exec .conductionLimit s = .next { s with lca := { s.lca with train := none } } := by
      rw [← ended]; rfl
    exact ⟨_, e, rfl, fun i => Bool.and_false _⟩

/-! ### The advance list under a request (R164, R166) -/

theorem appliedAdvance_le_iff (l : List Advance) (n : Nat) :
    appliedAdvance l ≤ n ↔ ∀ x ∈ l, x.magnitude ≤ n := by
  have from_ (m : Nat) : l.foldl (fun m e => max m e.magnitude) m ≤ n ↔ m ≤ n ∧ ∀ x ∈ l, x.magnitude ≤ n := by
    induction l generalizing m with
    | nil => simp
    | cons x l ih =>
      rw [List.foldl_cons, ih]
      simp only [Nat.max_le, List.mem_cons, forall_eq_or_imp, and_assoc]
  rw [appliedAdvance, from_]
  simp

theorem le_appliedAdvance {l : List Advance} {x : Advance} (h : x ∈ l) : x.magnitude ≤ appliedAdvance l :=
  (appliedAdvance_le_iff l _).1 le_rfl x h

theorem appliedAdvance_mem {l : List Advance} (h : l ≠ []) : ∃ x ∈ l, x.magnitude = appliedAdvance l := by
  by_contra none
  have below : ∀ x ∈ l, x.magnitude < appliedAdvance l := fun x hx =>
    lt_of_le_of_ne (le_appliedAdvance hx) fun e => none ⟨x, hx, e⟩
  obtain ⟨x, hx⟩ := List.exists_mem_of_ne_nil l h
  have positive := below x hx
  have smaller : appliedAdvance l ≤ appliedAdvance l - 1 :=
    (appliedAdvance_le_iff l _).2 fun y hy => by have := below y hy; omega
  omega

/-- The order of displacement, by magnitude, hold, kind and source (R166). -/
theorem displacedBefore_iff (x y : Advance) :
    displacedBefore x y = true ↔
      x.magnitude < y.magnitude ∨ (x.magnitude = y.magnitude ∧
        (x.hold < y.hold ∨ (x.hold = y.hold ∧
          ((x.kind = .margin ∧ y.kind = .cfail) ∨ (x.kind = y.kind ∧ x.source < y.source))))) := by
  unfold displacedBefore
  by_cases magnitude : x.magnitude = y.magnitude
  · by_cases hold : x.hold = y.hold
    · cases x.kind <;> cases y.kind <;> simp [magnitude, hold]
    · simp [magnitude, hold]
  · simp [magnitude]

theorem displacedBefore_asymm {x y : Advance} (h : displacedBefore x y = true) : displacedBefore y x = false := by
  rw [← Bool.not_eq_true, displacedBefore_iff]
  rw [displacedBefore_iff] at h
  cases kindX : x.kind <;> cases kindY : y.kind <;> simp only [kindX, kindY] at h ⊢ <;> simp at h ⊢ <;> omega

theorem smallestAdvance_mem {l : List Advance} {x : Advance} (h : smallestAdvance l = some x) : x ∈ l := by
  induction l generalizing x with
  | nil => cases h
  | cons y l ih =>
    unfold smallestAdvance at h
    cases rest : smallestAdvance l with
    | none => simp only [rest, Option.some.injEq] at h; simp [h]
    | some z =>
      simp only [rest] at h
      split at h
      · cases h; simp
      · cases h; exact List.mem_cons_of_mem _ (ih rest)

theorem smallestAdvance_isSome {l : List Advance} (h : l ≠ []) : ∃ x, smallestAdvance l = some x := by
  cases l with
  | nil => exact absurd rfl h
  | cons y l =>
    unfold smallestAdvance
    cases smallestAdvance l with
    | none => exact ⟨_, rfl⟩
    | some z => simp only; split <;> exact ⟨_, rfl⟩

/-- The entry that leaves first is the one found. -/
theorem smallestAdvance_eq {before after : List Advance} {x : Advance}
    (least : ∀ y ∈ before ++ after, displacedBefore x y = true) :
    smallestAdvance (before ++ x :: after) = some x := by
  induction before with
  | nil =>
    unfold smallestAdvance
    cases rest : smallestAdvance after with
    | none => simp [rest]
    | some z => simp [rest, least z (by simpa using smallestAdvance_mem rest)]
  | cons y l ih =>
    have found := ih fun z hz => least z (by simp only [List.cons_append, List.mem_cons]; exact .inr hz)
    have later : displacedBefore y x = false := displacedBefore_asymm (least y (by simp))
    simp [smallestAdvance, found, later]

/-- A request without an entry of its own: entered while there is room, or in the place of the smallest entry. -/
theorem enterRequest_new {l : List Advance} {r : Advance} (new : ∀ x ∈ l, x.source ≠ r.source) :
    (l.length < 4 → enterRequest l r = l ++ [r]) ∧
    (4 ≤ l.length → ∀ y, smallestAdvance l = some y →
      enterRequest l r = if y.magnitude < r.magnitude then l.erase y ++ [r] else l) := by
  have notAny : (l.any fun x => x.source = r.source) = false := by simpa using new
  unfold enterRequest
  rw [notAny]
  refine ⟨fun room => ?_, fun full y smallest => ?_⟩
  · simp [room]
  · simp [Nat.not_lt.2 full, smallest]

/-- The list with the entry of the request's own source renewed. -/
theorem enterRequest_own {before after : List Advance} {x r : Advance}
    (sources : ((before ++ x :: after).map fun y => y.source).Nodup) (own : x.source = r.source) :
    enterRequest (before ++ x :: after) r =
      before ++ { source := r.source, kind := r.kind, magnitude := max x.magnitude r.magnitude, hold := r.hold } ::
        after := by
  have any : ((before ++ x :: after).any fun y => y.source = r.source) = true := by simp [own]
  rw [List.map_append, List.map_cons, List.nodup_append, List.nodup_cons] at sources
  obtain ⟨-, ⟨later, -⟩, earlier⟩ := sources
  have keep (l : List Advance) (h : ∀ y ∈ l, y.source ≠ r.source) :
      (l.map fun y => if y.source = r.source then y.renewed r else y) = l := by
    conv_rhs => rw [← List.map_id l]
    exact List.map_congr_left fun y hy => if_neg (h y hy)
  rw [enterRequest, if_pos any, List.map_append, List.map_cons, if_pos own, Advance.renewed, own, keep before, keep after]
  · exact fun y hy same => later (List.mem_map.2 ⟨y, hy, same.trans own.symm⟩)
  · exact fun y hy same => earlier y.source (List.mem_map.2 ⟨y, hy, rfl⟩) x.source (by simp) (same.trans own.symm)

/-- A request lowers no entry's share of the applied advance, and has its own. -/
theorem enterRequest_dominates {l : List Advance} (range : AdvancesInRange l) (r : Advance) :
    (∀ x ∈ l, x.magnitude ≤ appliedAdvance (enterRequest l r)) ∧
      r.magnitude ≤ appliedAdvance (enterRequest l r) := by
  by_cases own : ∃ x ∈ l, x.source = r.source
  · obtain ⟨x, hx, same⟩ := own
    obtain ⟨before, after, rfl⟩ := List.append_of_mem hx
    rw [enterRequest_own range.sources same]
    generalize isEntry : ({ source := r.source, kind := r.kind, magnitude := max x.magnitude r.magnitude
                            hold := r.hold } : Advance) = entry
    have renewed : max x.magnitude r.magnitude ≤ appliedAdvance (before ++ entry :: after) := by
      rw [show max x.magnitude r.magnitude = entry.magnitude by rw [← isEntry]]
      exact le_appliedAdvance (by simp)
    refine ⟨fun y hy => ?_, (Nat.le_max_right _ _).trans renewed⟩
    rcases List.mem_append.1 hy with h | h
    · exact le_appliedAdvance (List.mem_append_left _ h)
    rcases List.mem_cons.1 h with rfl | h
    · exact (Nat.le_max_left _ _).trans renewed
    · exact le_appliedAdvance (List.mem_append_right _ (.tail _ h))
  · have new : ∀ x ∈ l, x.source ≠ r.source := fun x hx same => own ⟨x, hx, same⟩
    obtain ⟨room, full⟩ := enterRequest_new new
    by_cases few : l.length < 4
    · rw [room few]
      exact ⟨fun x hx => le_appliedAdvance (by simp [hx]), le_appliedAdvance (by simp)⟩
    · obtain ⟨y, smallest⟩ := smallestAdvance_isSome (l := l) (by rintro rfl; simp at few)
      rw [full (by omega) y smallest]
      split
      · rename_i larger
        have asked : r.magnitude ≤ appliedAdvance (l.erase y ++ [r]) := le_appliedAdvance (by simp)
        refine ⟨fun x hx => ?_, asked⟩
        by_cases same : x = y
        · subst same; omega
        · exact le_appliedAdvance (List.mem_append_left _ ((List.mem_erase_of_ne same).2 hx))
      · rename_i small
        exact ⟨fun x hx => le_appliedAdvance hx, (not_lt.1 small).trans (le_appliedAdvance (smallestAdvance_mem smallest))⟩

/-- Settles O31: renewal, entry, displacement and refusal of a request. -/
theorem requestsNeverLowerTheAdvance : Obligations.RequestsNeverLowerTheAdvance := by
  intro l r range low high hold
  dsimp only
  have after := enterRequest_inRange range low high hold
  obtain ⟨entries, asked⟩ := enterRequest_dominates range r
  have bounded {k : List Advance} (h : AdvancesInRange k) : appliedAdvance k ≤ 3000 :=
    (appliedAdvance_le_iff k _).2 fun x hx => (h.magnitude x hx).2
  refine ⟨after, (appliedAdvance_le_iff l _).2 entries, asked, fun full => ?_, fun x => le_appliedAdvance, bounded range,
    fun empty => by rw [empty]; rfl, appliedAdvance_mem, fun before x rest split own => ?_,
    fun new room => (enterRequest_new new).1 room, fun before x rest new full split least => ?_⟩
  · have := bounded after
    omega
  · subst split
    exact enterRequest_own range.sources own
  · have smallest : smallestAdvance l = some x := by
      rw [split]
      exact smallestAdvance_eq fun y hy => (displacedBefore_iff x y).2 (least y hy)
    have absent : x ∉ before := fun hx => by
      have := displacedBefore_asymm ((displacedBefore_iff x x).2 (least x (by simp [hx])))
      rw [(displacedBefore_iff x x).2 (least x (by simp [hx]))] at this
      cases this
    have erased : l.erase x = before ++ rest := by
      rw [split, List.erase_append_right _ absent, List.erase_cons_head]
    rw [(enterRequest_new new).2 (by omega) x smallest, erased]

/-- A count of ticks below half the range of station time is its own signed difference (R1). -/
theorem toInt_ofNat_of_lt {n : Nat} (h : n < 2147483648) : (BitVec.ofNat 32 n).toInt = n := by
  have small : (BitVec.ofNat 32 n).toNat = n := by rw [BitVec.toNat_ofNat]; omega
  rw [BitVec.toInt_eq_toNat_of_lt (by omega), small]

/-! ### The firing of a reference event (R63 to R70) -/

/-- The applied angle with settings and angles in range: no clamp of stage 3 acts. -/
theorem computedAngle_eq {s : State} (settings : SettingsInRange s.stc) (low : 500 ≤ s.fcu.alphaReq)
    (high : s.fcu.alphaReq ≤ 16500) (overlap : s.cru.muLast ≤ 6000) :
    computedAngle s =
        min (max 500 (s.fcu.alphaReq - appliedAdvance s.cru.advances)) (18000 - s.cru.muLast - s.stc.gammaMin) ∧
      500 ≤ computedAngle s ∧ computedAngle s ≤ 16500 := by
  simp only [SettingsInRange] at settings
  simp only [computedAngle, appliedAngle, advancedAngle, clamp]
  omega

theorem fcuReference_running {s : State} (e : ReferenceEvent) (running : s.stc.station = .firing ∨ s.inHold = true) :
    fcuReference e s =
      { s with fcu := { s.fcu with schedule := some (computedSchedule e s), lastAlpha := some (computedAngle s) } } :=
  if_pos ((firingOrHold_iff s).2 running)

/-- The unguarded schedule of a reference event with no timed FIRE of the predecessor. -/
theorem computedSchedule_unguarded {s : State} (e : ReferenceEvent)
    (untimed : ∀ x, s.cru.predecessor = some x → x.instant = none) :
    computedSchedule e s =
      { firing := after e.zRef (ticks e.period (computedAngle s))
        unguarded := after e.zRef (ticks e.period (computedAngle s))
        step := ticks e.period 2000, cap := ticks e.period 1500, provisional := true } := by
  have absent : predecessorInstant s = none := by
    unfold predecessorInstant
    cases record : s.cru.predecessor with
    | none => rfl
    | some x => exact untimed x record
  simp only [computedSchedule, absent]

/-- Settles O25: the firing counted from the reference zero. -/
theorem firingIsScheduledFromTheReferenceZero : Obligations.FiringIsScheduledFromTheReferenceZero := by
  intro e s periodLow periodHigh settings low high overlap running untimed
  dsimp only
  obtain ⟨angle, angleLow, angleHigh⟩ := computedAngle_eq settings low high overlap
  rw [fcuReference_running e running, computedSchedule_unguarded e untimed, ← angle]
  refine ⟨rfl, angleLow, angleHigh, ?_⟩
  have least : 500 * 153800 ≤ computedAngle s * e.period := Nat.mul_le_mul angleLow periodLow
  have most : computedAngle s * e.period ≤ 16500 * e.period := Nat.mul_le_mul_right _ angleHigh
  have offset : (e.zRef + BitVec.ofNat 32 (computedAngle s * e.period / 36000) - e.zRef).toInt =
      (computedAngle s * e.period / 36000 : Nat) := by
    rw [BitVec.add_comm, BitVec.add_sub_cancel]
    exact toInt_ofNat_of_lt (by omega)
  rw [offset]
  omega

/-- The signed difference as the two halves of the range of station time give it (R1). -/
theorem toInt_eq (x : StationTime) :
    x.toInt = if x.toNat < 2147483648 then (x.toNat : Int) else x.toNat - 4294967296 := by
  rw [BitVec.toInt_eq_toNat_cond]
  have := x.isLt
  split <;> split <;> omega

theorem atOrAfter_self_add (f x : StationTime) : atOrAfter f (f + x) = true ↔ -2147483648 < x.toInt ∧ x.toInt ≤ 0 := by
  have difference : f - (f + x) = -x := by ring
  rw [atOrAfter_iff, difference, toInt_eq, toInt_eq, BitVec.toNat_neg]
  have := x.isLt
  split <;> split <;> omega

theorem atOrAfter_add_add (f x : StationTime) {c : Nat} (h : c < 2147483648) :
    atOrAfter (f + x) (f + BitVec.ofNat 32 c) = true ↔ (c : Int) ≤ x.toInt ∨ x.toInt < (c : Int) - 2147483648 := by
  have difference : f + x - (f + BitVec.ofNat 32 c) = x - BitVec.ofNat 32 c := by ring
  have small : (BitVec.ofNat 32 c).toNat = c := by rw [BitVec.toNat_ofNat]; omega
  rw [atOrAfter_iff, difference, toInt_eq, toInt_eq, BitVec.toNat_sub, small]
  have := x.isLt
  split <;> split <;> omega

/-- The guarded instant for a predecessor's instant `q` with its spacing, by its signed distance from the unguarded one:
the instant farthest behind counts as ahead (R68 to R70). -/
theorem guarded_eq (f q : StationTime) {c : Nat} (positive : 0 < c) (h : c < 2147483648) :
    earlier (later f q) (f + BitVec.ofNat 32 c) =
      if -2147483648 < (q - f).toInt ∧ (q - f).toInt ≤ 0 then f
      else if 0 < (q - f).toInt ∧ (q - f).toInt ≤ c then q
      else f + BitVec.ofNat 32 c := by
  have split : q = f + (q - f) := by rw [BitVec.add_comm, BitVec.sub_add_cancel]
  generalize q - f = x at split
  subst split
  have capInt := toInt_ofNat_of_lt h
  have range := BitVec.toInt_lt (x := x)
  have range' := BitVec.le_toInt (x := x)
  unfold later earlier
  simp only [atOrAfter_self_add]
  by_cases behind : -2147483648 < x.toInt ∧ x.toInt ≤ 0
  · rw [if_pos behind, if_pos behind, if_neg]
    rw [atOrAfter_self_add]
    omega
  · rw [if_neg behind, if_neg behind]
    simp only [atOrAfter_add_add _ _ h]
    by_cases beyond : (c : Int) ≤ x.toInt ∨ x.toInt < (c : Int) - 2147483648
    · rw [if_pos beyond]
      split
      · have exact_ : x = BitVec.ofNat 32 c := BitVec.eq_of_toInt_eq (by omega)
        rw [exact_]
      · rfl
    · rw [if_neg beyond, if_pos (by omega)]

/-- Settles O24: the spacing guard of a timed predecessor. -/
theorem spacingGuardHoldsTheFiringBehindItsPredecessor :
    Obligations.SpacingGuardHoldsTheFiringBehindItsPredecessor := by
  intro e s p x periodLow periodHigh record instant
  have guard : predecessorInstant s = some p := by simp [predecessorInstant, record, instant]
  have schedule : computedSchedule e s =
      { firing := guarded (after e.zRef (ticks e.period (computedAngle s))) p (ticks e.period 2000) (ticks e.period 1500)
        unguarded := after e.zRef (ticks e.period (computedAngle s))
        step := ticks e.period 2000, cap := ticks e.period 1500, provisional := false } := by
    simp only [computedSchedule, guard]
  rw [schedule]
  generalize isZero : after e.zRef (ticks e.period (computedAngle s)) = f at schedule ⊢
  have cap : ticks e.period 1500 = 1500 * e.period / 36000 := rfl
  have capInt := toInt_ofNat_of_lt (n := ticks e.period 1500) (by omega)
  have firing := guarded_eq f (p + BitVec.ofNat 32 (ticks e.period 2000)) (c := ticks e.period 1500) (by omega) (by omega)
  have guarded : guarded f p (ticks e.period 2000) (ticks e.period 1500) = _ := firing
  have farthest := BitVec.le_toInt (x := p + BitVec.ofNat 32 (ticks e.period 2000) - f)
  dsimp only
  rw [guarded]
  refine ⟨rfl, rfl, rfl, ?_, ?_, ⟨fun above behind => if_pos ⟨above, behind⟩, fun ahead within => ?_, fun beyond => ?_⟩,
    fun running settings low high overlap => ?_⟩
  · split
    · simp
    split
    · omega
    · rw [show f + BitVec.ofNat 32 (ticks e.period 1500) - f = BitVec.ofNat 32 (ticks e.period 1500) by ring]
      omega
  · split
    · simp
    split
    · omega
    · rw [show f + BitVec.ofNat 32 (ticks e.period 1500) - f = BitVec.ofNat 32 (ticks e.period 1500) by ring]
      omega
  · rw [if_neg (by omega), if_pos ⟨ahead, within⟩]
  · rw [if_neg (by omega), if_neg (by omega)]
  · obtain ⟨angle, angleLow, angleHigh⟩ := computedAngle_eq settings low high overlap
    rw [← angle, fcuReference_running e running, schedule, guarded]
    exact ⟨isZero.symm, angleLow, angleHigh, rfl⟩

/-! ### The ends of record, list and hold (R179, R182, R188) -/

theorem removeFirst_append {α : Type} {q : α → Bool} {before after : List α} {e : α} (least : ∀ x ∈ before, q x = false)
    (here : q e = true) : removeFirst q (before ++ e :: after) = before ++ after := by
  induction before with
  | nil => simp [removeFirst, here]
  | cons x l ih =>
    simp only [List.cons_append, removeFirst, least x (by simp), Bool.false_eq_true, if_false]
    rw [ih fun y hy => least y (by simp [hy])]

/-- Settles O54: the three ends at their instants. -/
theorem recordListAndHoldEndAtTheirInstants : Obligations.RecordListAndHoldEndAtTheirInstants := by
  intro s
  refine ⟨fun r record open_ due => ?_, fun before e after active list due earlier => ?_, fun tripped => ?_,
    fun running counted => ?_⟩
  · have settles : settleDue s = true := (settleDue_iff s).2 ⟨r, record, open_, by simp [Reached, due]⟩
    have e : exec .settleDeadline s = .next (settleRecord s) := congrArg Host.Outcome.next (if_pos settles)
    rw [e]
    simp only [settleRecord, State.onStc, record, Option.map_some]
  · have expires : escalationDue s = true := (escalationDue_iff s).2 ⟨active, e, by simp [list], by simp [Reached, due]⟩
    have run : exec .escalationEntryExpiry s = .next (expireEscalation s) := congrArg Host.Outcome.next (if_pos expires)
    have removed : removeFirst (fun e => reached s.now e.expiry) s.stc.escalation = before ++ after := by
      rw [list]
      refine removeFirst_append (fun x hx => ?_) (by simp [due])
      rw [← Bool.not_eq_true, reached_iff]
      exact not_le.2 (earlier x hx)
    rw [run]
    simp only [expireEscalation, State.onStc, removed]
  · have none : ¬escalationDue s = true := fun h => ((escalationDue_iff s).1 h).1 tripped
    exact congrArg Host.Outcome.next (if_neg none)
  · have ends : holdOver s = true := (holdOver_iff s).2 ⟨running, counted.ge⟩
    have e : exec .isolationHoldEnd s = .next (cancelSchedule (stopHold s)) := congrArg Host.Outcome.next (if_pos ends)
    refine ⟨fun unmarked => ?_, fun marked => ?_⟩
    · rw [e, cancelSchedule_eq (by exact unmarked)]
      rfl
    · rw [e, cancelSchedule_mark (by exact marked)]
      rfl

end Sys2Proof.Machine
end

section
/-! PROOFS. Telegrams on the rings (chapters 5 and 6): the check code, a telegram read back, and the arrival of a copy. -/

namespace Sys2Proof.Machine

/-! ### The check code (R107) -/

theorem crcByte_eq (c : BitVec 16) (b : Byte) :
    crcByte c b = [7, 6, 5, 4, 3, 2, 1, 0].foldl
      (fun (c : BitVec 16) (k : Nat) => if b.getLsbD k ≠ c.getLsbD 15 then (c <<< 1) ^^^ 0x8005#16 else c <<< 1) c := by
  have bitStep (c : BitVec 16) (k : Nat) : crcBit c (b.getLsbD k) =
      if b.getLsbD k ≠ c.getLsbD 15 then (c <<< 1) ^^^ 0x8005#16 else c <<< 1 := by
    simp only [crcBit, BitVec.msb_eq_getLsbD_last, bne_iff_ne]
  simp only [crcByte, byteBits, List.foldl_map, bitStep]

theorem checkBytes_eq (bytes : List Byte) :
    checkBytes bytes = [(checkCode bytes).extractLsb' 8 8, (checkCode bytes).extractLsb' 0 8] := by
  have upper : BitVec.ofNat 8 ((checkCode bytes).toNat / 256) = (checkCode bytes).extractLsb' 8 8 := by
    apply BitVec.eq_of_toNat_eq
    simp [BitVec.extractLsb'_toNat, Nat.shiftRight_eq_div_pow]
  have lower : BitVec.ofNat 8 (checkCode bytes).toNat = (checkCode bytes).extractLsb' 0 8 := by
    apply BitVec.eq_of_toNat_eq
    simp [BitVec.extractLsb'_toNat]
  rw [checkBytes, twoBytes, upper, lower]

/-! ### A telegram read back (R85, R86, R102, R105) -/

/-- A telegram within the field widths of R105. -/
structure InWidths (x : Telegram) : Prop where
  kind : x.kind < 16
  originLow : 1 ≤ x.origin
  originHigh : x.origin ≤ 14
  hops : x.hops < 16
  age : x.age < 65536
  payload : x.payload.length ≤ 17

theorem length_checkBytes (bytes : List Byte) : (checkBytes bytes).length = 2 := rfl

theorem length_encodeTelegram (p : Port) (x : Telegram) : (encodeTelegram p x).length = x.payload.length + 8 := by
  simp [encodeTelegram, headerAndPayload, twoBytes, length_checkBytes]

theorem checkPasses_encodeTelegram (p : Port) {x : Telegram} (h : InWidths x) :
    checkPasses (encodeTelegram p x) = true := by
  have length := length_encodeTelegram p x
  have header : (headerAndPayload p x).length = (encodeTelegram p x).length - 2 := by
    simp [encodeTelegram, length_checkBytes]
  have := h.payload
  refine (checkPasses_iff _).2 ⟨by omega, by omega, ?_⟩
  rw [← header, encodeTelegram, List.take_left, List.drop_left]

/-- The flags and hops byte of a telegram read back. -/
theorem flags_read (timed ring : Bool) {hops : Nat} (h : hops < 16) :
    let b := BitVec.ofNat 8 (bit 128 timed + bit 64 ring + hops % 16)
    b.getLsbD 7 = timed ∧ b.getLsbD 6 = ring ∧ b.toNat % 16 = hops := by
  cases timed <;> cases ring <;>
    simp only [bit, BitVec.getLsbD_ofNat, Nat.testBit_eq_decide_div_mod_eq, BitVec.toNat_ofNat] <;>
    simp <;> omega

theorem readRun_encodeTelegram (p : Port) {x : Telegram} (h : InWidths x) :
    readRun (encodeTelegram p x) =
      some { telegram := x, ring := decide (p = .b), length := x.payload.length } := by
  obtain ⟨kind, low, high, hops, age, length⟩ := h
  obtain ⟨timed, ring, hopsRead⟩ := flags_read x.timed (ringFlag p) hops
  have kindRead : (BitVec.ofNat 8 (x.kind * 16 + x.origin)).toNat / 16 = x.kind := by
    rw [BitVec.toNat_ofNat]; omega
  have originRead : (BitVec.ofNat 8 (x.kind * 16 + x.origin)).toNat % 16 = x.origin := by
    rw [BitVec.toNat_ofNat]; omega
  have ageRead : fromTwo (BitVec.ofNat 8 (x.age / 256)) (BitVec.ofNat 8 x.age) = x.age := by
    simp only [fromTwo, BitVec.toNat_ofNat]; omega
  have lengthRead : (BitVec.ofNat 8 x.payload.length).toNat = x.payload.length := by
    rw [BitVec.toNat_ofNat]; omega
  have payloadRead (check : List Byte) (two : check.length = 2) :
      (x.payload ++ check).take ((x.payload ++ check).length - 2) = x.payload := by
    rw [List.length_append, two, Nat.add_sub_cancel, List.take_left]
  have flag : ringFlag p = decide (p = .b) := by cases p <;> rfl
  have bytes : encodeTelegram p x =
      BitVec.ofNat 8 (x.kind * 16 + x.origin) :: x.sequence ::
        BitVec.ofNat 8 (bit 128 x.timed + bit 64 (ringFlag p) + x.hops % 16) :: BitVec.ofNat 8 (x.age / 256) ::
          BitVec.ofNat 8 x.age :: BitVec.ofNat 8 x.payload.length :: (x.payload ++ checkBytes (headerAndPayload p x)) := rfl
  rw [bytes, readRun, kindRead, originRead, timed, ring, hopsRead, ageRead, lengthRead, payloadRead _ (length_checkBytes _), flag]

/-- A telegram passes the format step on the port it was sent on (R86). -/
theorem formatPasses_encodeTelegram {p : Port} {x : Telegram} (h : InWidths x) {r : ReadRun}
    (run : readRun (encodeTelegram p x) = some r) : formatPasses p (encodeTelegram p x).length r = true := by
  rw [readRun_encodeTelegram p h] at run
  cases run
  obtain ⟨-, low, high, -, -, payload⟩ := h
  rw [formatPasses_iff, length_encodeTelegram]
  exact ⟨by dsimp only; omega, by dsimp only; omega, payload, rfl, by cases p <;> rfl⟩

/-- Settles O33: the check code bit by bit, and a telegram encoded and read. -/
theorem departingTelegramIsReadBackWhole : Obligations.DepartingTelegramIsReadBackWhole := by
  refine ⟨rfl, fun bytes b => ⟨?_, checkBytes_eq bytes⟩, by decide +kernel, fun p x kind low high hops age payload => ?_⟩
  · rw [← crcByte_eq, checkCode, checkCode, List.foldl_append]
    rfl
  · have widths : InWidths x := ⟨kind, low, high, hops, age, payload⟩
    have read := readRun_encodeTelegram p widths
    have length := length_encodeTelegram p x
    refine ⟨length, checkPasses_encodeTelegram p widths, read, fun r run => ⟨formatPasses_encodeTelegram widths run, ?_⟩⟩
    rw [read] at run
    cases run
    cases p <;> simp [formatPasses, otherPort, ringFlag]

/-! ### The arrival of a copy (R83 to R89) -/

/-- A telegram within the field widths that arrives on its own ring is routed. -/
theorem exec_arrival_encoded {p : Port} {x : Telegram} (h : InWidths x) (s : State) :
    exec (.telegramArrival p (encodeTelegram p x)) s =
      .next (routeCopy p x (s.now - BitVec.ofNat 32 (2 * (encodeTelegram p x).length)) s) := by
  have read := readRun_encodeTelegram p h
  show Host.Outcome.next (arrive p _ s) = _
  unfold arrive
  rw [if_pos (checkPasses_encodeTelegram p h), read]
  simp only [formatPasses_encodeTelegram h read, if_true]
  rfl

theorem isOwn_iff {s : State} {q : Nat} (h : 1 ≤ q) :
    s.isOwn q = true ↔ q = s.straps.pos ∧ s.straps.pos ≤ 12 := by
  simp only [State.isOwn, isFiringPosition, Bool.and_eq_true, decide_eq_true_eq]
  omega

/-- A copy forwarded, or dropped at a full buffer (R89). -/
theorem forward_eq (r : RingPort) (x : Telegram) (stamp : StationTime) :
    r.forward x stamp =
      if r.forwarding.length < 4 then
        { r with forwarding := r.forwarding ++ [{ telegram := { x with hops := x.hops + 1 }, stamp := stamp }] }
      else { r with counts := { r.counts with overflow := min 255 (r.counts.overflow + 1) } } := rfl

/-- Settles O34: an own telegram, an orphan, and any other in INERT. -/
theorem ownTelegramsReturnOrphansEndInertForwards : Obligations.OwnTelegramsReturnOrphansEndInertForwards := by
  intro p x s kind low high hops age payload
  have e := exec_arrival_encoded (p := p) ⟨kind, low, high, hops, age, payload⟩ s
  dsimp only
  generalize encodeTelegram p x = run at e ⊢
  generalize s.now - BitVec.ofNat 32 (2 * run.length) = stamp at e ⊢
  simp only [← isOwn_iff (s := s) low]
  refine ⟨fun active own => ?_, fun passing orphan => ?_, fun inert live => ?_⟩
  · rw [e, routeCopy, if_pos ⟨active, own⟩]
    rfl
  · rw [e, routeCopy, if_neg fun h => passing.elim h.1 fun other => other h.2, if_pos orphan]
    rfl
  · rw [e, routeCopy, if_neg fun h => h.1 inert, if_neg (by omega)]
    simp only [if_pos inert, forward_eq]

/-! ### The window and the delivery (R90 to R92) -/

/-- The judgement of a copy against the window of its origin. -/
theorem judgeSequence_eq (w : SeenWindow) (q : Seq) :
    ((((q - w.highest).toNat = 0 ∨ 241 ≤ (q - w.highest).toNat) ∧ q ∈ w.seen) → judgeSequence (some w) q = .duplicate) ∧
    (128 ≤ (q - w.highest).toNat ∧ (q - w.highest).toNat ≤ 240 → judgeSequence (some w) q = .stale) ∧
    (1 ≤ (q - w.highest).toNat ∧ (q - w.highest).toNat ≤ 127 →
      judgeSequence (some w) q =
        .accepted { highest := q, seen := q :: w.seen.filter fun x => (q - x).toNat ≤ 15 }) ∧
    (241 ≤ (q - w.highest).toNat ∧ q ∉ w.seen →
      judgeSequence (some w) q = .accepted { highest := w.highest, seen := q :: w.seen }) := by
  unfold judgeSequence
  dsimp only
  refine ⟨fun ⟨place, seen⟩ => ?_, fun stale => ?_, fun newer => ?_, fun ⟨older, unseen⟩ => ?_⟩
  · by_cases same : (q - w.highest).toNat = 0
    · rw [if_pos same]
    · rw [if_neg same, if_neg (by omega), if_neg (by omega), if_pos (by simpa using seen)]
  · rw [if_neg (by omega), if_neg (by omega), if_pos (by omega)]
  · rw [if_neg (by omega), if_pos (by omega)]
  · rw [if_neg (by omega), if_neg (by omega), if_neg (by omega), if_neg (by simpa using unseen)]

/-- A payload of the length of its kind, byte by byte. -/
theorem payload_bytes (l : List Byte) :
    (l.length = 2 → ∃ a b, l = [a, b]) ∧
    (l.length = 5 → ∃ a b c d e, l = [a, b, c, d, e]) ∧
    (l.length = 6 → ∃ a b c d e f, l = [a, b, c, d, e, f]) ∧
    (l.length = 7 → ∃ a b c d e f g, l = [a, b, c, d, e, f, g]) := by
  refine ⟨fun h => ?_, fun h => ?_, fun h => ?_, fun h => ?_⟩
  · match l, h with
    | [a, b], _ => exact ⟨a, b, rfl⟩
  · match l, h with
    | [a, b, c, d, e], _ => exact ⟨a, b, c, d, e, rfl⟩
  · match l, h with
    | [a, b, c, d, e, f], _ => exact ⟨a, b, c, d, e, f, rfl⟩
  · match l, h with
    | [a, b, c, d, e, f, g], _ => exact ⟨a, b, c, d, e, f, g, rfl⟩

theorem fromTwo_eq (hi lo : Byte) : fromTwo hi lo = 256 * hi.toNat + lo.toNat := by
  rw [fromTwo, Nat.mul_comm]

theorem getLsbD_top (b : Byte) : b.getLsbD 7 = decide (128 ≤ b.toNat) := by
  rw [← BitVec.msb_eq_decide (x := b), BitVec.msb_eq_getLsbD_last]

theorem getLsbD_low (b : Byte) : b.getLsbD 0 = decide (b.toNat % 2 = 1) := by
  rw [BitVec.getLsbD, Nat.testBit_zero]

/-- The command byte of an ORDER: a code of the table, or HOLD (R110). -/
theorem orderCommand_eq (n : Nat) (o : Order) :
    orderCommand n o = match n with | 1 => .deblock o | 2 => .block o | 3 => .bypassBlock o | 4 => .clear o | _ => .hold o := by
  split
  · rfl
  · rfl
  · rfl
  · rfl
  · rename_i deblock block bypassBlock clear
    rw [orderCommand, if_neg deblock, if_neg block, if_neg bypassBlock, if_neg clear]

/-- The command that a telegram stands for, read from its payload (R92, R105, R110 to R116). -/
theorem deliveredCommand_eq (x : Telegram) (instant : Option StationTime) :
    deliveredCommand x instant = telegramCommand x instant := by
  obtain ⟨kind, origin, sequence, timed, hops, age, payload⟩ := x
  obtain ⟨two, five, six, seven⟩ := payload_bytes payload
  unfold telegramCommand
  dsimp only
  split
  · rename_i h
    obtain ⟨rfl, length⟩ := h
    obtain ⟨a, b, c, d, e, f, rfl⟩ := six length
    simp only [deliveredCommand, orderCommand_eq, fromTwo_eq, getLsbD_top]
    rfl
  split
  · rename_i h
    obtain ⟨rfl, length⟩ := h
    obtain ⟨a, b, c, d, e, rfl⟩ := five length
    simp only [deliveredCommand, fromTwo_eq, getLsbD_low]
    rfl
  split
  · rename_i h
    obtain ⟨rfl, length⟩ := h
    match payload, length with
    | [_, _, _, _, _, _, _, _, _, _, _, _], _ => rfl
  split
  · rename_i h
    obtain ⟨rfl, length⟩ := h
    obtain ⟨a, b, rfl⟩ := two length
    simp only [deliveredCommand, fromTwo_eq]
    rfl
  split
  · rename_i h
    obtain ⟨rfl, length⟩ := h
    obtain ⟨a, b, rfl⟩ := two length
    rfl
  split
  · rename_i h
    obtain ⟨rfl, length⟩ := h
    obtain ⟨a, b, c, d, e, rfl⟩ := five length
    simp only [deliveredCommand, fromTwo_eq]
    rfl
  split
  · rename_i h
    obtain ⟨rfl, length⟩ := h
    obtain ⟨a, b, c, d, e, f, g, rfl⟩ := seven length
    simp only [deliveredCommand, fromTwo_eq]
    rfl
  split
  · rename_i h
    obtain ⟨rfl, length⟩ := h
    obtain ⟨a, b, rfl⟩ := two length
    rfl
  split
  · rename_i h
    obtain ⟨rfl, length⟩ := h
    match payload, length with
    | [_, _, _, _, _, _, _, _, _, _, _, _, _, _, _, _, _], _ => rfl
  · unfold deliveredCommand
    split <;> simp_all

/-- The translated instant of a timed copy whose age is not lost (R131, R132). -/
theorem translatedInstant_eq {x : Telegram} (age : x.age < 65536) (stamp : StationTime) (hopDelay : Nat) :
    translatedInstant x stamp hopDelay =
      if x.timed = true ∧ x.age < 65535 then
        some (stamp - BitVec.ofNat 32 x.age - BitVec.ofNat 32 ((x.hops + 1) * hopDelay))
      else none := by
  have lost : x.age ≠ 65535 ↔ x.age < 65535 := by omega
  simp only [translatedInstant, Bool.and_eq_true, decide_eq_true_eq, lost]
  rfl

/-- The window of an origin after an accepted copy (R90, R91). -/
theorem judgeSequence_accepted {window : Option SeenWindow} {q : Seq} :
    (match window with
      | none => True
      | some w =>
        (1 ≤ (q - w.highest).toNat ∧ (q - w.highest).toNat ≤ 127) ∨
          (241 ≤ (q - w.highest).toNat ∧ q ∉ w.seen)) →
    ∃ v, judgeSequence window q = .accepted v ∧
      match window with
      | none => v = { highest := q, seen := [q] }
      | some w =>
        (v.highest = if (q - w.highest).toNat ≤ 127 then q else w.highest) ∧
          ∀ y, y ∈ v.seen ↔ y = q ∨ (y ∈ w.seen ∧ ((q - w.highest).toNat ≤ 127 → (q - y).toNat ≤ 15)) := by
  intro accepts
  cases window with
  | none => exact ⟨_, rfl, rfl⟩
  | some w =>
    obtain ⟨-, -, newer, older⟩ := judgeSequence_eq w q
    rcases accepts with h | h
    · refine ⟨_, newer h, (if_pos h.2).symm, fun y => ?_⟩
      simp only [List.mem_cons, List.mem_filter, decide_eq_true_eq, h.2, true_implies]
    · have far : ¬(q - w.highest).toNat ≤ 127 := by omega
      refine ⟨_, older h, (if_neg far).symm, fun y => ?_⟩
      simp only [List.mem_cons, far, false_implies, and_true]

/-- The peer table after a change of one position's record. -/
theorem onPeer_onPeer (c : Cru) (q : Nat) (f g : Peer → Peer) :
    (c.onPeer q f).onPeer q g = c.onPeer q fun p => g (f p) := by
  simp [Cru.onPeer, Cru.peer]

/-- A copy forwarded, with its hops raised, or dropped and counted. -/
def State.forwarded (s : State) (p : Port) (x : Telegram) (stamp : StationTime) : State :=
  s.onPort p fun r => r.forward x stamp

theorem forward_hopDelay (r : RingPort) (x : Telegram) (stamp : StationTime) :
    (r.forward x stamp).hopDelay = r.hopDelay := by
  unfold RingPort.forward; split <;> rfl

theorem forwarded_hopDelay (s : State) (p : Port) (x : Telegram) (stamp : StationTime) :
    ((s.forwarded p x stamp).port p).hopDelay = (s.port p).hopDelay := by
  rw [State.forwarded, port_onPort_same, forward_hopDelay]

/-- An accepted copy: delivered as the command it makes, or counted. -/
theorem windowStep_accepted {p : Port} {x : Telegram} {stamp : StationTime} {u : State} {v : SeenWindow}
    (age : x.age < 65536) (accepted : judgeSequence (u.cru.peer x.origin).window x.sequence = .accepted v) :
    windowStep p x stamp u =
      match telegramCommand x
        (if x.timed = true ∧ x.age < 65535 then
          some (stamp - BitVec.ofNat 32 x.age - BitVec.ofNat 32 ((x.hops + 1) * (u.port p).hopDelay))
        else none) with
      | some c =>
        { u with
          cru := u.cru.onPeer x.origin fun r =>
            { r with
              window := some v, presence := .present
              deadline := some (u.now + BitVec.ofNat 32 (3 * u.aru.period)) }
          handed := u.handed ++ [c] }
      | none =>
        { (u.onPort p fun r =>
            { r with counts := { r.counts with undeliverable := min 255 (r.counts.undeliverable + 1) } }) with
          cru := u.cru.onPeer x.origin fun r => { r with window := some v } } := by
  unfold windowStep
  rw [accepted]
  simp only [deliverCopy]
  rw [deliveredCommand_eq, translatedInstant_eq age, show ((u.onCru fun c => c.onPeer x.origin fun r =>
    { r with window := some v }).port p).hopDelay = (u.port p).hopDelay from rfl]
  cases telegramCommand x _ with
  | none => rfl
  | some c =>
    simp only [heard, State.handOn, State.onCru, onPeer_onPeer]
    rfl

/-- Settles O35: a copy of another station judged by the window of its origin, and delivered. -/
theorem windowDecidesWhichCopyIsDelivered : Obligations.WindowDecidesWhichCopyIsDelivered := by
  intro p x s kind low high hops age payload active other
  have e := exec_arrival_encoded (p := p) ⟨kind, low, high, by omega, age, payload⟩ s
  dsimp only
  generalize encodeTelegram p x = run at e ⊢
  generalize s.now - BitVec.ofNat 32 (2 * run.length) = stamp at e ⊢
  have routed : routeCopy p x stamp s = windowStep p x stamp (s.forwarded p x stamp) := by
    rw [routeCopy, if_neg, if_neg (by omega)]
    · simp only [if_neg active]
      rfl
    · rw [isOwn_iff low]; omega
  rw [routed] at e
  refine ⟨_, e, fun w window _ => ?_, fun w window => ?_, fun accepts => ?_⟩
  · intro duplicate
    unfold windowStep
    rw [show ((s.forwarded p x stamp).cru.peer x.origin).window = some w from window,
      (judgeSequence_eq w x.sequence).1 duplicate]
    rfl
  · intro stale
    unfold windowStep
    rw [show ((s.forwarded p x stamp).cru.peer x.origin).window = some w from window,
      (judgeSequence_eq w x.sequence).2.1 stale]
    rfl
  · obtain ⟨v, accepted, seen⟩ := judgeSequence_accepted accepts
    rw [windowStep_accepted (u := s.forwarded p x stamp) age accepted, forwarded_hopDelay]
    generalize isCommand : telegramCommand x _ = command
    cases command with
    | none =>
      have here := onPeer_peer_same s.cru x.origin fun r => { r with window := some v }
      refine ⟨⟨v, congrArg Peer.window here, seen⟩, fun q low' high' other' => ?_, rfl, ?_⟩
      · exact onPeer_peer_other s.cru _ low high low' high' other'.symm
      · exact here.trans (congrArg (fun w => { s.cru.peer x.origin with window := w })
          (congrArg Peer.window here).symm)
    | some c =>
      have here := onPeer_peer_same s.cru x.origin fun r =>
        { r with
          window := some v, presence := .present
          deadline := some (s.now + BitVec.ofNat 32 (3 * s.aru.period)) }
      refine ⟨⟨v, congrArg Peer.window here, seen⟩, fun q low' high' other' => ?_, rfl, ?_⟩
      · exact onPeer_peer_other s.cru _ low high low' high' other'.symm
      · exact here.trans (congrArg
          (fun w =>
            { s.cru.peer x.origin with
              window := w, presence := .present
              deadline := some (s.now + BitVec.ofNat 32 (3 * s.aru.period)) })
          (congrArg Peer.window here).symm)

end Sys2Proof.Machine
end

section
/-! PROOFS. A cycle mark said once: the one tally at most that raises its event, the records after it, and the
judgement of each record (O13, O14). -/

namespace Sys2Proof.Machine

/-! ### The tally that raises its event (R37) -/

/-- An armed tally that holds `q` members at least. -/
abbrev Tally.full (y : Tally) (q : Nat) : Prop := y.armed = true ∧ q ≤ y.members.length

theorem quorum_pos (n : Nat) : 0 < quorum n := by unfold quorum; omega

theorem pfQuorum_pos (n : Nat) : 0 < pfQuorum n := by unfold pfQuorum; omega

theorem markFv_of_empty {m : Lmon} (h : m.fv.members = []) : m.markFv = (m, []) := by
  have : ¬m.fv.full (quorum m.counted) := fun ⟨_, k⟩ => by
    have := quorum_pos m.counted
    rw [h, List.length_nil] at k; omega
  unfold Lmon.markFv; rw [if_neg this]

theorem markPf_of_empty {m : Lmon} {n : Nat} (h : m.pf.members = []) : m.markPf n = (m, []) := by
  have : ¬(m.pf.armed = true ∧ pfQuorum m.counted ≤ m.pf.members.length ∧ m.phase = .recovery) := fun ⟨_, k, _⟩ => by
    have := pfQuorum_pos m.counted
    rw [h, List.length_nil] at k; omega
  unfold Lmon.markPf; rw [if_neg this]

theorem markPf_of_phase {m : Lmon} {n : Nat} (h : m.phase ≠ .recovery) : m.markPf n = (m, []) := by
  unfold Lmon.markPf; rw [if_neg fun k => h k.2.2]

/-- The tallies at a mark: one event at most, RV before FV before PF. -/
theorem markTallies_eq (m : Lmon) (n : Nat) :
    m.markTallies n =
      if m.adjusted.rv.full (quorum m.counted) then
        (m.adjusted.atXt (latestStamp m.adjusted.rv.members),
          [.xt (latestStamp m.adjusted.rv.members) (phaseAfterXt m.phase)])
      else if m.adjusted.fv.full (quorum m.counted) then
        (m.adjusted.atFv (latestStamp m.adjusted.fv.members), [.fv (latestStamp m.adjusted.fv.members) m.phase])
      else if m.adjusted.pf.full (pfQuorum m.counted) ∧ m.phase = .recovery then
        (m.adjusted.atPfq n (latestStamp m.adjusted.pf.members), [.pfq (latestStamp m.adjusted.pf.members)])
      else (m.adjusted, []) := by
  unfold Lmon.markTallies
  by_cases rv : m.adjusted.rv.full (quorum m.counted)
  · have first : m.adjusted.markRv = (m.adjusted.atXt (latestStamp m.adjusted.rv.members),
        [.xt (latestStamp m.adjusted.rv.members) (phaseAfterXt m.phase)]) := if_pos rv
    rw [if_pos rv, first]
    simp only
    rw [markFv_of_empty rfl, markPf_of_empty rfl]
    rfl
  · have first : m.adjusted.markRv = (m.adjusted, []) := if_neg rv
    rw [if_neg rv, first]
    simp only
    by_cases fv : m.adjusted.fv.full (quorum m.counted)
    · have second : m.adjusted.markFv = (m.adjusted.atFv (latestStamp m.adjusted.fv.members),
          [.fv (latestStamp m.adjusted.fv.members) m.phase]) := if_pos fv
      rw [if_pos fv, second]
      simp only
      rw [markPf_of_phase (by simp [Lmon.atFv])]
      rfl
    · have second : m.adjusted.markFv = (m.adjusted, []) := if_neg fv
      rw [if_neg fv, second]
      simp only
      by_cases pf : m.adjusted.pf.full (pfQuorum m.counted) ∧ m.phase = .recovery
      · rw [if_pos pf]
        unfold Lmon.markPf
        rw [if_pos ⟨pf.1.1, pf.1.2, pf.2⟩]
        rfl
      · rw [if_neg pf]
        unfold Lmon.markPf
        rw [if_neg fun k => pf ⟨⟨k.1, k.2.1⟩, k.2.2⟩]
        rfl

/-! ### The records after a mark -/

/-- The events of a mark change no more of a record than its last indication (R32). -/
theorem marked_level (m : Lmon) (straps : Straps) (own : Bool) (now : StationTime) (i : Fin 80) :
    ∃ last, (m.marked straps own now).1.levels.get i =
      { (m.judged straps).levels.get i with lastIndication := last } := by
  have resumed : ∀ x : Lmon, (x.resumed own now).levels = x.levels := fun x => by
    unfold Lmon.resumed; split <;> rfl
  unfold Lmon.marked
  simp only [resumed, markTallies_eq]
  split
  · exact ⟨_, rfl⟩
  split
  · exact ⟨_, rfl⟩
  split
  · simp only [Lmon.atPfq, get_mapFinIdx]
    split
    · unfold Level.restarted
      split
      · exact ⟨_, rfl⟩
      · exact ⟨_, rfl⟩
    · exact ⟨_, rfl⟩
  · exact ⟨_, rfl⟩

/-- A record judged at a mark, its cycle flags cleared. -/
theorem judged_level (m : Lmon) (straps : Straps) (i : Fin 80) :
    (m.judged straps).levels.get i =
      if i.val < straps.nlev then ((m.judgedLevels straps.nlev).get i).cleared
      else (m.judgedLevels straps.nlev).get i := by
  simp only [Lmon.judged, get_mapFinIdx]

theorem judgedLevels_quiet {m : Lmon} {n : Nat} (xt : m.quorumXt = false) (fv : m.quorumFv = false) :
    m.judgedLevels n = m.levels := by
  simp [Lmon.judgedLevels, Lmon.quiet, xt, fv]

theorem judgedLevels_live {m : Lmon} {n : Nat} {i : Fin 80} (noisy : m.quorumXt = true ∨ m.quorumFv = true)
    (live : i.val < n) : (m.judgedLevels n).get i = (m.levels.get i).judged m.cycleFlags := by
  have : m.quiet = false := by rcases noisy with h | h <;> simp [Lmon.quiet, h]
  simp [Lmon.judgedLevels, this, get_mapFinIdx, live]

theorem cycleMark_level (own : Bool) (s : State) (i : Fin 80) :
    ∃ last, (cycleMark own s).level i = { (s.lmon.judged s.straps).levels.get i with lastIndication := last } := by
  rw [State.level, cycleMark_lmon]
  exact marked_level _ _ _ _ _

/-- Settles O14: a quiet cycle is not judged, and its flags are cleared. -/
theorem quietCycleJudgesNoLevel : Obligations.QuietCycleJudgesNoLevel := by
  intro own s i xt fv
  obtain ⟨last, e⟩ := cycleMark_level own s i
  rw [judged_level, judgedLevels_quiet xt fv] at e
  dsimp only
  rw [e]
  by_cases live : i.val < s.straps.nlev
  · rw [if_pos live]
    exact ⟨rfl, rfl, rfl, rfl, rfl, fun _ => ⟨rfl, rfl, rfl, rfl, rfl⟩⟩
  · rw [if_neg live]
    exact ⟨rfl, rfl, rfl, rfl, rfl, fun h => absurd h live⟩

/-! ### The judgement of a record (R39 to R42) -/

theorem judged_of_live {l : Level} {c : CycleFlags} (h : l.state ≠ .failed) :
    l.judged c = { l.scored c with state := (l.scored c).nextState } := if_neg h

/-- The points of a record, penalty by penalty. -/
theorem penalties_eq (l : Level) (c : CycleFlags) :
    l.penalties c =
      { pf := if l.pfSeen = true ∧ c.cf = false then 6 else 0
        miss := if (c.quorumFv = true ∧ l.fvSeen = false) ∨ (c.quorumXt = true ∧ l.rvSeen = false) then 4 else 0
        malformed := 2 * l.malformed, alternation := 2 * l.alternation } := by
  simp [Level.penalties]

theorem scored_state (l : Level) (c : CycleFlags) : (l.scored c).state = l.state := by
  unfold Level.scored
  simp only
  split
  · rfl
  · split <;> rfl

theorem scored_score (l : Level) (c : CycleFlags) :
    (l.scored c).score =
      if 0 < (l.penalties c).total then min 31 (l.score + (l.penalties c).total)
      else if l.fvSeen = true ∧ l.rvSeen = true then l.score - 1 else l.score := by
  unfold Level.scored
  simp only [Bool.and_eq_true]
  split
  · rfl
  · split <;> rfl

theorem scored_streak (l : Level) (c : CycleFlags) :
    (l.scored c).streak =
      if 0 < (l.penalties c).total then 0
      else if l.fvSeen = true ∧ l.rvSeen = true then min 3 (l.streak + 1) else l.streak := by
  unfold Level.scored
  simp only [Bool.and_eq_true]
  split
  · rfl
  · split <;> rfl

/-- A protective penalty is an anomaly of its own, so its count rises with it. -/
theorem scored_pfCount (l : Level) (c : CycleFlags) :
    (l.scored c).pfCount = if 0 < (l.penalties c).pf then min 15 (l.pfCount + 1) else l.pfCount := by
  unfold Level.scored
  simp only
  split
  · rfl
  · next none =>
    have : ¬0 < (l.penalties c).pf := by simp only [Penalties.total] at none; omega
    rw [if_neg this]
    split <;> rfl

theorem scored_lastAnomaly (l : Level) (c : CycleFlags) :
    (l.scored c).lastAnomaly =
      if (l.penalties c).total = 0 then l.lastAnomaly else (l.penalties c).largest := by
  unfold Level.scored
  simp only
  split
  · next some => exact (if_neg (show ¬(l.penalties c).total = 0 by omega)).symm
  · next none =>
    have : (l.penalties c).total = 0 := by omega
    rw [if_pos this]
    split <;> rfl

/-- The state table reads the state before the scoring. -/
theorem scored_nextState (l : Level) (c : CycleFlags) :
    (l.scored c).nextState =
      if 16 ≤ (l.scored c).score then .failed
      else if 4 ≤ (l.scored c).score then .suspect
      else if l.state = .suspect ∧ (l.scored c).score = 0 then .healthy
      else if l.state = .unknown ∧ (l.scored c).streak = 3 then .healthy
      else l.state := by
  rw [Level.nextState, scored_state]

/-- The fallback instant, with the mark not taken and nothing scheduled. -/
theorem exec_fallback {s : State} (taken : s.lmon.markTaken = false) (fallback : s.lmon.fallback = some s.now)
    (unscheduled : s.fcu.schedule = none) : exec .cycleMarkFallback s = .next (cycleMark false s) := by
  have due : fallbackDue s = true := (fallbackDue_iff s).mpr ⟨taken, unscheduled, s.now, fallback, by simp [Reached]⟩
  show execCycleMarkFallback s = _
  unfold execCycleMarkFallback
  rw [if_pos due]

/-- Settles O13: the penalties of a cycle that is not quiet, and the judgement they lead to. -/
theorem cycleMarkScoresAndJudgesEachLevel : Obligations.CycleMarkScoresAndJudgesEachLevel := by
  refine ⟨fun s => exec_fallback, fun own s i live noisy => ?_⟩
  obtain ⟨last, e⟩ := cycleMark_level own s i
  rw [judged_level, if_pos live, judgedLevels_live noisy live] at e
  dsimp only
  rw [e]
  by_cases failed : (s.level i).state = .failed
  · rw [if_pos failed]
    have same : (s.lmon.levels.get i).judged s.lmon.cycleFlags = s.lmon.levels.get i := judged_failed _ failed
    rw [same]
    exact ⟨failed, rfl, rfl, rfl, rfl⟩
  · rw [if_neg failed]
    have judged : (s.lmon.levels.get i).judged s.lmon.cycleFlags =
        { (s.level i).scored s.lmon.cycleFlags with state := ((s.level i).scored s.lmon.cycleFlags).nextState } :=
      judged_of_live failed
    have anomaly := scored_lastAnomaly (s.level i) s.lmon.cycleFlags
    rw [penalties_eq] at anomaly
    rw [judged]
    refine ⟨(scored_score _ _).trans ?_, (scored_streak _ _).trans ?_, (scored_pfCount _ _).trans ?_,
      anomaly.trans ?_, scored_nextState _ _⟩
    · rw [penalties_eq]; rfl
    · rw [penalties_eq]; rfl
    · rw [penalties_eq]; rfl
    · simp only [Penalties.largest, Nat.mul_le_mul_left_iff (show 0 < 2 by omega)]
      rfl

end Sys2Proof.Machine
end

section
/-! PROOFS. BLOCK by the station state, with its cancellation (O44), and an occurrence of a fault by its mode
(O55). -/

namespace Sys2Proof.Machine

/-! ### A command executed under a new key -/

/-- An ORDER of the active source under a new key is executed. -/
theorem exec_newOrder {s : State} {o : Order} {mk : Order → Instr} {k : Command} (ho : ActiveOrder o)
    (hi : s.stc.station ≠ .inert) (new : s.cru.lastExecuted ≠ some { source := o.origin, number := o.number })
    (run : exec (mk o) s = onPosition o.origin (delivered (mk o) o.origin (cruOrder k o) s)) :
    exec (mk o) s = .next (stcCommand k (s.orderTaken o (mk o))) := by
  rw [run, exec_activeOrder ho hi, if_neg new]

/-! ### BLOCK (R173, R175, R182) -/

/-- BLOCK in FIRING, where the cancellation takes no mark and where it takes one. -/
theorem stcBlock_firing {u : State} (h : u.stc.station = .firing) :
    stcBlock u = cancelSchedule (u.enter .blocked) := by
  unfold stcBlock; rw [h]; rfl

theorem stcBlock_bypass {u : State} (h : u.stc.station = .bypass) :
    stcBlock u = (emptyRecord (lcaExit u)).enter .blocked := by
  unfold stcBlock; rw [h]

theorem stcBlock_tripped {u : State} (h : u.stc.station = .tripped) :
    stcBlock u =
      if u.stc.holdRunning = true then cancelSchedule (stopHold (emptyRecord (lcaExit u)))
      else emptyRecord (lcaExit u) := by
  unfold stcBlock; rw [h]

theorem stcBlock_elsewhere {u : State}
    (h : u.stc.station = .start ∨ u.stc.station = .survey ∨ u.stc.station = .blocked) : stcBlock u = u := by
  unfold stcBlock; rcases h with h | h | h <;> rw [h]

/-- A bypass ended: the record empty and a bypass train gone. -/
theorem emptyRecord_lcaExit (u : State) :
    emptyRecord (lcaExit u) =
      { u with
        stc := { u.stc with record := none }
        lca := { u.lca with train := afterExit u.lca.train } } := by
  rw [← trainExit_eq]
  rfl

/-- Settles O44: BLOCK stops by the station state. -/
theorem blockStopsByTheStationState : Obligations.BlockStopsByTheStationState := by
  intro o s active new
  have run : s.stc.station ≠ .inert → exec (.block o) s = .next (stcBlock (s.orderTaken o (.block o))) :=
    fun hi => exec_newOrder (mk := .block) active hi new rfl
  dsimp only
  refine ⟨fun firing => ⟨fun free => ?_, fun takes => ?_⟩, fun bypass => ?_, fun tripped => ⟨fun free => ?_, ?_⟩,
    fun idle => ?_⟩
  · rw [run (by simp [firing]), stcBlock_firing (by simpa using firing), cancelSchedule_eq]
    · rfl
    · exact free
  · rw [run (by simp [firing]), stcBlock_firing (by simpa using firing), cancelSchedule_mark]
    · rfl
    · exact takes
  · rw [run (by simp [bypass]), stcBlock_bypass (by simpa using bypass), emptyRecord_lcaExit]
    rfl
  · rw [run (by simp [tripped]), stcBlock_tripped (by simpa using tripped), emptyRecord_lcaExit, orderTaken_holdRunning]
    cases hold : s.stc.holdRunning with
    | true =>
      have free := free.resolve_right (by simp [hold])
      rw [if_pos rfl, if_pos rfl, stopHold, cancelSchedule_eq]
      · rfl
      · exact free
    | false =>
      have idle : (s.orderTaken o (.block o)).stc.holdRunning = false := by simpa using hold
      rw [if_neg (by simp), if_neg (by simp), ← idle]
  · intro takes hold
    rw [run (by simp [tripped]), stcBlock_tripped (by simpa using tripped), emptyRecord_lcaExit, orderTaken_holdRunning,
      if_pos hold, if_pos hold, stopHold, cancelSchedule_mark]
    · rfl
    · exact takes
  · rw [run (by rcases idle with h | h | h <;> simp [h]), stcBlock_elsewhere (by simpa using idle)]

end Sys2Proof.Machine
end

section
/-! PROOFS. What each act of a cycle mark changes, and a mark outside FIRING; an occurrence of a fault by its mode
(O55). -/

namespace Sys2Proof.Machine

/-! ### The acts of a mark (R36) -/

theorem originate_frame (k : OwnKind) (p : List Byte) (e : Option StationTime) (s : State) :
    originate k p e s = { s with rif := (originate k p e s).rif } := by
  rcases originate_cases k p e s with h | h <;> rw [h]; rfl

/-- The mark at the Coordination Unit originates in the four states in service that do not fire. -/
theorem cruMark_eq (s : State) :
    cruMark s =
      if s.stc.station = .survey ∨ s.stc.station = .blocked ∨ s.stc.station = .bypass ∨ s.stc.station = .tripped then
        { s with rif := s.rif.originated .health (healthBytes s) none }
      else s := by
  have health (h1 : s.stc.station ≠ .start) (h2 : s.stc.station ≠ .inert) :
      originateHealth none s = { s with rif := s.rif.originated .health (healthBytes s) none } :=
    originateHealth_active h1 h2 none
  cases h : s.stc.station <;> simp only [cruMark, h]
  case start => rfl
  case inert => rfl
  case firing => rfl
  all_goals exact health (by simp [h]) (by simp [h])

theorem cruMark_frame (s : State) : cruMark s = { s with rif := (cruMark s).rif } := by
  rw [cruMark_eq]; split <;> rfl

theorem surveyTest_frame (s : State) : surveyTest s = { s with stc := (surveyTest s).stc } := by
  unfold surveyTest
  split
  · split
    · rfl
    · split <;> rfl
  · rfl

theorem cruXt_frame (r : StationTime) (phase : ValvePhase) (s : State) :
    ∃ cru rif, cruXt r phase s = { s with cru := cru, rif := rif } := by
  unfold cruXt
  split
  · simp only
    split
    · rw [originateHealth, originate_frame]
      exact ⟨_, _, rfl⟩
    · exact ⟨_, _, rfl⟩
  · exact ⟨_, _, rfl⟩

/-- A failure whose fault is still on its way changes the Coordination Unit and the queues alone. -/
theorem detectFailure_frame (cause : Nat) (r : StationTime) (s : State) :
    ∃ cru rif, detectFailure onItsWay cause r s = { s with cru := cru, rif := rif } := by
  have told : ∃ cru rif, requestCfail s.straps.pos (enterAndTell cause r s) = { s with cru := cru, rif := rif } := by
    unfold enterAndTell
    rw [originate_frame]
    exact ⟨_, _, rfl⟩
  obtain ⟨cru, rif, told⟩ := told
  unfold detectFailure
  simp only [told]
  split
  · exact ⟨_, _, rfl⟩
  · unfold repetitionTest
    split <;> exact ⟨_, _, rfl⟩

/-- A valve event of a mark changes the train, the Coordination Unit and the queues alone. -/
theorem handEvent_frame (e : ValveEvent) (s : State) :
    ∃ train cru rif, handEvent onItsWay e s = { s with lca := { s.lca with train := train }, cru := cru, rif := rif } := by
  cases e with
  | xt r phase =>
    obtain ⟨cru, rif, h⟩ := cruXt_frame r phase (lcaXt r s)
    exact ⟨_, _, _, h⟩
  | fv r phase =>
    obtain ⟨cru, rif, h⟩ := cruFv_frame r phase s
    exact ⟨_, _, _, h⟩
  | pfq r =>
    obtain ⟨cru, rif, h⟩ := detectFailure_frame 2 r (s.onCru fun c => { c with gammaStart := none })
    exact ⟨_, _, _, h⟩

theorem handEvent_stc (e : ValveEvent) (s : State) : (handEvent onItsWay e s).stc = s.stc := by
  obtain ⟨_, _, _, h⟩ := handEvent_frame e s
  rw [h]

theorem handEvent_fcu (e : ValveEvent) (s : State) : (handEvent onItsWay e s).fcu = s.fcu := by
  obtain ⟨_, _, _, h⟩ := handEvent_frame e s
  rw [h]

/-- A fault taken outside FIRING changes the Station Controller alone. -/
theorem takeFaultWith_outside {s : State} (cancel : State → State) (f : FaultCode) (h : s.stc.station ≠ .firing) :
    takeFaultWith cancel f s =
      { s with
        stc :=
          if (s.stc.fault f).mode = .trip ∧
              (s.stc.station = .survey ∨ s.stc.station = .blocked ∨ s.stc.station = .bypass) then
            (s.stc.onFault f FaultRecord.occurred).enter .tripped
          else s.stc.onFault f FaultRecord.occurred } := by
  have tripped := trip_outside_firing (s := s.recordFault f) cancel f h
  have still : ¬(s.recordFault f).stc.station = .firing := h
  cases mode : (s.stc.fault f).mode <;> simp only [takeFaultWith, mode]
  case trip =>
    rw [tripped]
    simp only [true_and]
    rfl
  case block => rw [if_neg still]; rfl
  all_goals rfl

/-! ### A mark outside FIRING -/

/-- A station that is not FIRING, the Station Controller being `c` but for its state, its lines and its faults, and
the Firing Computation Unit being `d`. -/
structure OutsideFiring (c : Stc) (d : Fcu) (t : State) : Prop where
  station : t.stc.station ≠ .firing
  stc : t.stc =
    { c with
      station := t.stc.station, tripLine := t.stc.tripLine, readyLine := t.stc.readyLine, faults := t.stc.faults }
  fcu : t.fcu = d

theorem OutsideFiring.refl {s : State} (h : s.stc.station ≠ .firing) : OutsideFiring s.stc s.fcu s := ⟨h, rfl, rfl⟩

theorem OutsideFiring.congr {c : Stc} {d : Fcu} {s t : State} (k : OutsideFiring c d s) (stc : t.stc = s.stc)
    (fcu : t.fcu = s.fcu) : OutsideFiring c d t :=
  ⟨stc ▸ k.station, stc ▸ k.stc, fcu.trans k.fcu⟩

/-- A station state entered, or an entry in the fault table. -/
theorem OutsideFiring.entered {c : Stc} {d : Fcu} {s : State} (k : OutsideFiring c d s) {x : Station}
    (hx : x ≠ .firing) : OutsideFiring c d (s.enter x) :=
  ⟨hx, by
    show { s.stc with station := x, tripLine := tripHigh x, readyLine := readyHigh x } = _
    rw [k.stc]
    rfl, k.fcu⟩

theorem OutsideFiring.recorded {c : Stc} {d : Fcu} {s : State} (k : OutsideFiring c d s) (f : FaultCode)
    (g : FaultRecord → FaultRecord) : OutsideFiring c d (s.onStc fun c => c.onFault f g) :=
  ⟨k.station, by
    show { s.stc with faults := (s.stc.onFault f g).faults } = _
    rw [k.stc]
    rfl, k.fcu⟩

theorem OutsideFiring.faultTaken {c : Stc} {d : Fcu} {s : State} (k : OutsideFiring c d s)
    (cancel : State → State) (f : FaultCode) : OutsideFiring c d (takeFaultWith cancel f s) := by
  rw [takeFaultWith_outside cancel f k.station]
  split
  · exact (k.recorded f FaultRecord.occurred).entered (x := .tripped) (by decide)
  · exact k.recorded f FaultRecord.occurred

theorem OutsideFiring.surveyed {c : Stc} {d : Fcu} {s : State} (k : OutsideFiring c d s) :
    OutsideFiring c d (surveyTest s) := by
  unfold surveyTest
  split
  · split
    · exact k.entered (by decide)
    · split
      · exact k.entered (by decide)
      · exact k
  · exact k

/-- A mark outside FIRING leaves the record, the hold, the settings, the escalation list and the schedule. -/
theorem OutsideFiring.marked {c : Stc} {d : Fcu} {s : State} (k : OutsideFiring c d s) (own : Bool) :
    OutsideFiring c d (cycleMark own s) :=
  cycleMark_keeps (P := OutsideFiring c d) own s (k.congr rfl rfl)
    (fun e t k => k.congr (handEvent_stc e t) (handEvent_fcu e t))
    (fun t k => by rw [cruMark_frame]; exact k.congr rfl rfl)
    (fun f _ k => k.faultTaken discardSchedule f) fun _ k => k.surveyed

theorem cycleMark_tripped {s : State} (own : Bool) (h : s.stc.station = .tripped) :
    (cycleMark own s).stc.station = .tripped := by
  have follow := (cycleMark_moves own s).follow
  rw [h] at follow
  simpa [mayMove] using follow

theorem tripped_lines {s t : State} (moves : Moves s t) (lines : StatusLinesFollow s) (h : t.stc.station = .tripped) :
    t.stc.tripLine = true ∧ t.stc.readyLine = false := by
  obtain ⟨trip, ready⟩ := moves.linesFollow lines
  rw [h] at trip ready
  exact ⟨trip.mpr rfl, by simpa using ready⟩

/-! ### The trip from FIRING (R181) -/

/-- The station tripped from FIRING by a fault: its own BYPASS originated and adopted, TRIPPED entered; the hold or the
cancellation follows. -/
def State.trippedBy (s : State) (f : FaultCode) : State :=
  (adoptAtTrip (ownBypass s (f.code.val + 1)) (originateBypass (ownBypass s (f.code.val + 1)) s)).enter .tripped

theorem trip_in_firing {s : State} (cancel : State → State) (f : FaultCode) (h : s.stc.station = .firing) :
    trip cancel f s = if f = .ringLost then startHold (s.trippedBy f) else cancel (s.trippedBy f) := by
  unfold trip; rw [h]; rfl

/-- With no bypass adopted before, the trip enters its record, and touches the train and the Coordination Unit by the
membership. -/
theorem trippedBy_eq {s : State} {f : FaultCode} (firing : s.stc.station = .firing) (empty : s.stc.record = none) :
    s.trippedBy f =
      { s with
        lca := { s.lca with train := (s.trippedBy f).lca.train }
        cru := { s.cru with watch := (s.trippedBy f).cru.watch }
        rif := s.rif.originated .bypass
          (bypassPayload (ownBypass s 0).fn (ownBypass s 0).star (ownBypass s 0).delta (f.code.val + 1)) none
        stc := { s.stc with
          station := .tripped, tripLine := true, readyLine := false
          record := some
            { star := (ownBypass s 0).star, delta := (ownBypass s 0).delta, fn := (ownBypass s 0).fn
              origin := s.straps.pos, adopted := s.now, deadline := s.now + BitVec.ofNat 32 s.aru.period
              settled := false } } } := by
  unfold State.trippedBy
  rw [originateBypass, originate_in_firing firing, adoptAtTrip_first (by exact empty), adoptRecord_first (by exact empty)]
  split <;> rfl

theorem trippedBy_station (s : State) (f : FaultCode) : (s.trippedBy f).stc.station = .tripped := rfl

/-! ### An occurrence of a fault (R186, R188) -/

theorem takeFault_mode (s : State) (f : FaultCode) :
    takeFault f s =
      match (s.stc.fault f).mode with
      | .trip => trip cancelSchedule f (s.recordFault f)
      | .block =>
        if s.stc.station = .firing then blockByFault cancelSchedule f (s.recordFault f) else s.recordFault f
      | .report => s.recordFault f
      | .ignore => s.recordFault f := rfl

/-! ### The cancellation (R34, R75) -/

theorem cancels_or_marks (s : State) : CancelsWithoutMark s ∨ CancelTakesMark s := by
  unfold CancelsWithoutMark CancelTakesMark
  by_cases scheduled : s.fcu.schedule = none
  · exact .inl (.inl scheduled)
  by_cases taken : s.lmon.markTaken = true
  · exact .inl (.inr (.inl taken))
  by_cases before : ∀ M, s.lmon.fallback = some M → (s.now - M).toInt < 0
  · exact .inl (.inr (.inr before))
  · push Not at before
    exact .inr ⟨Option.isSome_iff_ne_none.mpr scheduled, by simpa using taken, before⟩

/-- A cancellation outside FIRING leaves nothing scheduled, and no more of the Station Controller than a mark changes. -/
theorem cancelSchedule_outside {s : State} (h : s.stc.station ≠ .firing) :
    OutsideFiring s.stc { s.fcu with schedule := none } (cancelSchedule s) := by
  rcases cancels_or_marks s with free | takes
  · rw [cancelSchedule_eq free]
    exact ⟨h, rfl, rfl⟩
  · rw [cancelSchedule_mark takes]
    exact (OutsideFiring.refl (s := { s with fcu := { s.fcu with schedule := none } }) h).marked false

theorem cancelSchedule_moves_tripped {s : State} (h : s.stc.station = .tripped) :
    (cancelSchedule s).stc.station = .tripped := by
  have follow := (cancelSchedule_moves s).follow
  rw [h] at follow
  simpa [mayMove] using follow

theorem cancelSchedule_lmon {s : State} (h : CancelTakesMark s) :
    (cancelSchedule s).lmon = (s.lmon.marked s.straps false s.now).1 := by
  rw [cancelSchedule_mark h, cycleMark_lmon]

/-- A trip from FIRING by any fault but RING_LOST: TRIPPED with its own record, nothing scheduled. -/
theorem trip_cancels {s : State} {f : FaultCode} (firing : s.stc.station = .firing) (empty : s.stc.record = none)
    (other : f ≠ .ringLost) :
    (trip cancelSchedule f s).stc.station = .tripped ∧ (trip cancelSchedule f s).stc.tripLine = true ∧
      (trip cancelSchedule f s).stc.readyLine = false ∧
      OutsideFiring (s.trippedBy f).stc { s.fcu with schedule := none } (trip cancelSchedule f s) ∧
      (CancelsWithoutMark s →
        trip cancelSchedule f s = { s.trippedBy f with fcu := { s.fcu with schedule := none } }) ∧
      (CancelTakesMark s → (trip cancelSchedule f s).lmon = (s.lmon.marked s.straps false s.now).1) := by
  rw [trip_in_firing _ _ firing, if_neg other]
  have frame := trippedBy_eq (f := f) firing empty
  have fcu : (s.trippedBy f).fcu = s.fcu := by rw [frame]
  have free : CancelsWithoutMark (s.trippedBy f) ↔ CancelsWithoutMark s := by rw [frame]; rfl
  have takes : CancelTakesMark (s.trippedBy f) ↔ CancelTakesMark s := by rw [frame]; rfl
  have station := cancelSchedule_moves_tripped (trippedBy_station s f)
  have lines := tripped_lines (cancelSchedule_moves (s.trippedBy f)) (enter_linesFollow _ _) station
  refine ⟨station, lines.1, lines.2, ?_, fun h => ?_, fun h => ?_⟩
  · rw [← fcu]
    exact cancelSchedule_outside (by rw [trippedBy_station]; decide)
  · rw [cancelSchedule_eq (free.mpr h), fcu]
  · rw [cancelSchedule_lmon (takes.mpr h), frame]

theorem trippedBy_stc {s : State} {f : FaultCode} (firing : s.stc.station = .firing) (empty : s.stc.record = none) :
    (s.trippedBy f).stc =
      { s.stc with
        station := .tripped, tripLine := true, readyLine := false, record := (s.trippedBy f).stc.record } ∧
      (s.trippedBy f).stc.record.isSome = true := by
  rw [trippedBy_eq firing empty]
  exact ⟨rfl, rfl⟩

/-- Where the cancellation takes no mark a trip leaves the fault table. -/
theorem trip_faults {s : State} (f : FaultCode) (free : CancelsWithoutMark s)
    (empty : s.stc.record = none ∨ s.stc.station ≠ .firing) :
    (trip cancelSchedule f s).stc.faults = s.stc.faults := by
  by_cases firing : s.stc.station = .firing
  · have empty := empty.resolve_right (not_not_intro firing)
    have faults : (s.trippedBy f).stc.faults = s.stc.faults := by rw [(trippedBy_stc firing empty).1]
    by_cases lost : f = .ringLost
    · rw [trip_in_firing _ _ firing, if_pos lost]
      exact faults
    · obtain ⟨-, -, -, -, unmarked, -⟩ := trip_cancels firing empty lost
      rw [unmarked free]
      exact faults
  · rw [trip_outside_firing _ _ firing]
    dsimp only
    split <;> rfl

theorem blockByFault_faults {s : State} (f : FaultCode) (free : CancelsWithoutMark s)
    (empty : s.stc.record = none ∨ s.stc.station ≠ .firing) :
    (blockByFault cancelSchedule f s).stc.faults = s.stc.faults := by
  unfold blockByFault
  dsimp only
  split
  · exact trip_faults (s := s.escalate) f free empty
  · unfold blockFromFiring
    rw [cancelSchedule_eq]
    · rfl
    · exact free

/-- The escalation list turns an occurrence into a trip by its oldest and its newest entry (R188). -/
theorem escalates_iff (list : List EscalationEntry) (period : Nat) :
    escalates list period = true ↔
      ∃ x y z, list = [x, y, z] ∧ 0 ≤ (z.stamp - x.stamp).toInt ∧
        (z.stamp - x.stamp).toInt ≤ ((1000 * period : Nat) : Int) := by
  constructor
  · intro h
    match list, h with
    | [x, y, z], h =>
      simp only [escalates, Bool.and_eq_true, decide_eq_true_eq] at h
      exact ⟨x, y, z, rfl, h⟩
  · rintro ⟨x, y, z, rfl, h⟩
    simp only [escalates, Bool.and_eq_true, decide_eq_true_eq]
    exact h

/-- A fault in mode BLOCK in FIRING: nothing stays scheduled, and the escalation list decides between BLOCKED and a
trip. -/
theorem blockByFault_eq {s : State} {f : FaultCode} (firing : s.stc.station = .firing)
    (empty : s.stc.record = none) (other : f ≠ .ringLost) :
    (blockByFault cancelSchedule f s).stc.escalation = s.escalate.stc.escalation ∧
      (blockByFault cancelSchedule f s).fcu.schedule = none ∧
      (escalates s.escalate.stc.escalation s.aru.period = true →
        (blockByFault cancelSchedule f s).stc.station = .tripped ∧
          (blockByFault cancelSchedule f s).stc.record.isSome = true ∧
          (CancelTakesMark s → (blockByFault cancelSchedule f s).lmon = (s.lmon.marked s.straps false s.now).1)) ∧
      (¬escalates s.escalate.stc.escalation s.aru.period = true →
        blockByFault cancelSchedule f s = cancelSchedule (s.escalate.enter .blocked)) := by
  have split : blockByFault cancelSchedule f s =
      if escalates s.escalate.stc.escalation s.aru.period = true then trip cancelSchedule f s.escalate
      else cancelSchedule (s.escalate.enter .blocked) := rfl
  rw [split]
  by_cases escalated : escalates s.escalate.stc.escalation s.aru.period = true
  · rw [if_pos escalated]
    obtain ⟨station, -, -, outside, -, marked⟩ := trip_cancels (s := s.escalate) (f := f) firing empty other
    obtain ⟨stc, record⟩ := trippedBy_stc (s := s.escalate) (f := f) firing empty
    refine ⟨?_, by rw [outside.fcu], fun _ => ⟨station, ?_, marked⟩, fun h => absurd escalated h⟩
    · rw [outside.stc, stc]
    · rw [outside.stc]; exact record
  · rw [if_neg escalated]
    have outside := cancelSchedule_outside (s := s.escalate.enter .blocked) (by simp)
    exact ⟨by rw [outside.stc]; rfl, by rw [outside.fcu], fun h => absurd h escalated, fun _ => rfl⟩

theorem recordFault_eq (s : State) (f : FaultCode) :
    s.recordFault f =
      { s with
        stc := s.stc.onFault f fun x =>
          { x with count := min 127 (x.count + 1), active := x.active || decide (x.mode ≠ .ignore) } } := rfl

theorem recordFault_fault (s : State) (f : FaultCode) :
    (s.recordFault f).stc.fault f =
      { s.stc.fault f with
        count := min 127 ((s.stc.fault f).count + 1)
        active := (s.stc.fault f).active || decide ((s.stc.fault f).mode ≠ .ignore) } :=
  onFault_fault_same _ _ _

/-- Settles O55: an occurrence of a fault acts by its mode and the station state. -/
theorem faultActsByItsModeInForce : Obligations.FaultActsByItsModeInForce := by
  intro f s range empty
  dsimp only
  rw [← recordFault_eq, ← recordFault_fault]
  refine ⟨fun free => ?_, fun still => ?_, fun block firing => ?_, fun trips outside => ?_, fun trips firing => ?_⟩
  · have faults : (takeFault f s).stc.faults = (s.recordFault f).stc.faults := by
      rw [takeFault_mode]
      cases mode : (s.stc.fault f).mode with
      | trip => exact trip_faults f free empty
      | block =>
        dsimp only
        split
        · exact blockByFault_faults f free empty
        · rfl
      | report => rfl
      | ignore => rfl
    unfold Stc.fault
    rw [faults]
  · rw [takeFault_mode]
    rcases still with mode | mode | ⟨mode, idle⟩ | ⟨mode, idle⟩ <;> rw [mode]
    · exact if_neg idle
    · dsimp only
      unfold trip
      rcases idle with idle | idle | idle <;> rw [show (s.recordFault f).stc.station = _ from idle]
  · have other : f ≠ .ringLost := by
      rintro rfl
      have := (range .ringLost).1
      rw [block] at this
      exact absurd this (by decide)
    have empty := empty.resolve_right (not_not_intro firing)
    obtain ⟨list, schedule, escalated, blocked⟩ :=
      blockByFault_eq (s := s.recordFault f) (f := f) firing empty other
    rw [takeFault_mode, block]
    dsimp only
    rw [if_pos firing]
    refine ⟨list, schedule, fun h => ?_, fun h => ?_⟩
    · obtain ⟨station, record, marked⟩ := escalated ((escalates_iff _ _).mpr h)
      refine ⟨station, record, fun takes => ?_⟩
      rw [marked takes, cycleMark_lmon]
      rfl
    · rw [blocked fun k => h ((escalates_iff _ _).mp k)]
      refine ⟨fun free => ?_, fun takes => ?_⟩
      · rw [cancelSchedule_eq]
        · rfl
        · exact free
      · rw [cancelSchedule_mark]
        · rfl
        · exact takes
  · rw [takeFault_mode, trips]
    dsimp only
    rw [trip_outside_firing]
    · rw [if_pos (by exact outside)]; rfl
    · show s.stc.station ≠ .firing
      rcases outside with h | h | h <;> rw [h] <;> decide
  · have empty := empty.resolve_right (not_not_intro firing)
    have frame := trippedBy_eq (s := s.recordFault f) (f := f) firing empty
    obtain ⟨stc, record⟩ := trippedBy_stc (s := s.recordFault f) (f := f) firing empty
    rw [takeFault_mode, trips]
    dsimp only
    by_cases lost : f = .ringLost
    · rw [trip_in_firing (s := s.recordFault f) _ _ firing, if_pos lost, if_pos lost]
      refine ⟨rfl, rfl, rfl, record, by simp [startHold, lost], ?_, fun _ => ?_, fun h => absurd lost h⟩
      · rw [startHold, onStc_fcu, frame]; rfl
      · rw [startHold, onStc_lmon, onStc_rif, frame]; exact ⟨rfl, rfl⟩
    · rw [if_neg lost]
      obtain ⟨station, tripLine, readyLine, outside, unmarked, marked⟩ :=
        trip_cancels (s := s.recordFault f) (f := f) firing empty lost
      refine ⟨station, tripLine, readyLine, ?_, ?_, ?_, fun h => ?_, fun _ takes => ?_⟩
      · rw [outside.stc]; exact record
      · rw [outside.stc, stc]; simp [lost]
      · rw [outside.fcu]
      · rw [unmarked (h.resolve_left lost), frame]
        exact ⟨rfl, rfl⟩
      · rw [marked takes, cycleMark_lmon]; rfl

end Sys2Proof.Machine
end

section
/-! PROOFS. A BYPASS judged and adopted, with the cancellation and the mark it may take (O51), and the BYPASS a station
originates itself (O45). -/

namespace Sys2Proof.Machine

/-! ### One act among others -/

/-- A list of changes, one of which makes `Q` of `P`, with the rest keeping what stands. -/
theorem inTurn_through {P Q : State → Prop} {fs gs : List (State → State)} {g : State → State} {s : State}
    (perm : fs.Perm (g :: gs)) (h0 : P s) (keep : ∀ f ∈ gs, ∀ t, P t → P (f t)) (make : ∀ t, P t → Q (g t))
    (stay : ∀ f ∈ gs, ∀ t, Q t → Q (f t)) : Q (inTurn fs s) := by
  obtain ⟨before, after, rfl⟩ := List.append_of_mem (perm.mem_iff.mpr List.mem_cons_self)
  have rest : (before ++ after).Perm gs := (List.perm_middle.symm.trans perm).cons_inv
  have first : P (inTurn before s) :=
    inTurn_keeps h0 fun f hf => keep f (rest.mem_iff.mp (List.mem_append_left _ hf))
  have last : Q (inTurn after (g (inTurn before s))) :=
    inTurn_keeps (make _ first) fun f hf => stay f (rest.mem_iff.mp (List.mem_append_right _ hf))
  simpa [inTurn, List.foldl_append] using last

theorem inAnyOrder_through {P Q : State → Prop} {fs : List (State → State)} {g : State → State} {s : State}
    (h0 : P s.drawn) (keep : ∀ f ∈ fs, ∀ t, P t → P (f t)) (make : ∀ t, P t → Q (g t))
    (stay : ∀ f ∈ fs, ∀ t, Q t → Q (f t)) : Q (inAnyOrder (fs ++ [g]) s) :=
  inTurn_through ((shuffle_perm _ _).trans (List.perm_append_singleton g fs)) h0 keep make stay

/-! ### What an adoption hands on (R13, R14, R159, R180) -/

theorem trainCeasing_eq (period : Nat) (now : StationTime) (train : Option Train) :
    trainCeasing period now train =
      train.map fun r =>
        if r.kind = .bypass then
          { r with
            phase := if r.phase = .main then .main else .refresh
            kind := .normal (now + BitVec.ofNat 32 (15000 * period / 36000)) now }
        else r := by
  rcases train with _ | ⟨phase, start, origin, kind⟩
  · rfl
  · cases kind with
    | normal _ _ => rfl
    | bypass => cases phase <;> rfl

/-- The membership acts one after the other. -/
theorem membershipActs_inTurn (was is : Bool) (s : State) :
    inTurn (membershipActs was is) s =
      { s with
        lca := { s.lca with
          train :=
            if is = true then some (memberTrain s.now s.lca.train)
            else if was = true then trainCeasing s.aru.period s.now s.lca.train else s.lca.train }
        cru := if is = true ∧ was = false then { s.cru with watch := none } else s.cru } := by
  cases was <;> cases is <;> simp only [membershipActs, ← trainAdoption_eq_memberTrain] <;> rfl

/-- The membership acts commute, so that their order makes no difference. -/
theorem membershipActs_anyOrder (was is : Bool) (s : State) :
    inAnyOrder (membershipActs was is) s = inTurn (membershipActs was is) s.drawn := by
  refine inAnyOrder_commuting (P := fun _ => True) (fun _ _ _ _ => trivial) (fun f hf g hg t _ => ?_) s trivial
  cases was <;> cases is <;> simp only [membershipActs, List.mem_cons, List.not_mem_nil, or_false] at hf hg
  · rcases hf with rfl | rfl <;> rcases hg with rfl | rfl <;> rfl
  · rw [hf, hg]
  · rw [hf, hg]

/-- A membership act changes the train and the overdue watch alone. -/
theorem membershipActs_frame {was is : Bool} {f : State → State} (hf : f ∈ membershipActs was is) (t : State) :
    ∃ train watch, f t = { t with lca := { t.lca with train := train }, cru := { t.cru with watch := watch } } := by
  cases was <;> cases is <;> simp only [membershipActs, List.mem_cons, List.not_mem_nil, or_false] at hf
  · rcases hf with rfl | rfl <;> exact ⟨_, _, rfl⟩
  · subst hf; exact ⟨_, _, rfl⟩
  · subst hf; exact ⟨_, _, rfl⟩

/-! ### The adoption (R177, R178) -/

/-- The state in which an adoption hands on: the record entered and the station state taken. -/
def State.bypassed (s : State) (b : BypassOrder) : State := (s.adoptRecord b).enter (stationAdopted s.stc.station)

/-- An adoption that cancels nothing. -/
theorem adoptBypass_elsewhere {s : State} (b : BypassOrder) (cancel : State → State) (h : s.stc.station ≠ .firing) :
    adoptBypass cancel b s =
      inTurn (membershipActs s.isMember (s.bypassed b).isMember) (s.bypassed b).drawn := by
  rw [← membershipActs_anyOrder]
  simp only [adoptBypass, if_neg h, List.append_nil]
  rfl

/-- An adoption in FIRING whose cancellation takes no mark. -/
theorem adoptBypass_firing {s : State} (b : BypassOrder) (h : s.stc.station = .firing) (free : CancelsWithoutMark s) :
    adoptBypass cancelSchedule b s =
      discardSchedule (inTurn (membershipActs s.isMember (s.bypassed b).isMember) (s.bypassed b).drawn) := by
  have acts := adoption_acts s.isMember (s.bypassed b).isMember true (s.bypassed b) free
  have same : adoptBypass cancelSchedule b s =
      inAnyOrder (membershipActs s.isMember (s.bypassed b).isMember ++ if true then [cancelSchedule] else [])
        (s.bypassed b) := by
    simp only [adoptBypass, if_pos h]; rfl
  rw [same, acts]
  simp only [if_true, inTurn, List.foldl_append, List.foldl_cons, List.foldl_nil]

/-- An adoption that takes no mark, said whole. -/
theorem adoptBypass_eq {s : State} (b : BypassOrder) (h : s.stc.station ≠ .firing ∨ CancelsWithoutMark s) :
    adoptBypass cancelSchedule b s =
      { s with
        lca := { s.lca with
          train :=
            if (s.bypassed b).isMember = true then some (memberTrain s.now s.lca.train)
            else if s.isMember = true then trainCeasing s.aru.period s.now s.lca.train else s.lca.train }
        cru :=
          if (s.bypassed b).isMember = true ∧ s.isMember = false then { s.cru with watch := none } else s.cru
        fcu := if s.stc.station = .firing then { s.fcu with schedule := none } else s.fcu
        stc := (s.bypassed b).stc
        freeCount := s.freeCount + 1 } := by
  by_cases firing : s.stc.station = .firing
  · rw [adoptBypass_firing b firing (h.resolve_left (not_not_intro firing)), membershipActs_inTurn, if_pos firing]
    rfl
  · rw [adoptBypass_elsewhere b cancelSchedule firing, membershipActs_inTurn, if_neg firing]
    rfl

/-- An adoption in FIRING whose cancellation takes the mark, whatever order its receivers act in. -/
theorem adoptBypass_marks {s : State} (b : BypassOrder) (h : s.stc.station = .firing) (takes : CancelTakesMark s) :
    (adoptBypass cancelSchedule b s).fcu = { s.fcu with schedule := none } ∧
      (adoptBypass cancelSchedule b s).lmon = (s.lmon.marked s.straps false s.now).1 ∧
      (adoptBypass cancelSchedule b s).stc.record = (s.bypassed b).stc.record := by
  have same : adoptBypass cancelSchedule b s =
      inAnyOrder (membershipActs s.isMember (s.bypassed b).isMember ++ [cancelSchedule]) (s.bypassed b) := by
    simp only [adoptBypass, if_pos h]; rfl
  have station : (s.bypassed b).stc.station ≠ .firing := by
    show stationAdopted s.stc.station ≠ .firing
    rw [h]; decide
  rw [same]
  refine inAnyOrder_through
    (P := fun t => t.stc = (s.bypassed b).stc ∧ t.fcu = s.fcu ∧ t.lmon = s.lmon ∧ t.straps = s.straps ∧ t.now = s.now)
    (Q := fun t => t.fcu = { s.fcu with schedule := none } ∧ t.lmon = (s.lmon.marked s.straps false s.now).1 ∧
      t.stc.record = (s.bypassed b).stc.record)
    ⟨rfl, rfl, rfl, rfl, rfl⟩ (fun f hf t k => ?_) (fun t k => ?_) (fun f hf t k => ?_)
  · obtain ⟨train, watch, e⟩ := membershipActs_frame hf t
    rw [e]
    exact k
  · obtain ⟨stc, fcu, lmon, straps, now⟩ := k
    have takes : CancelTakesMark t := by
      unfold CancelTakesMark
      rw [fcu, lmon, now]
      exact takes
    have outside := cancelSchedule_outside (s := t) (by rw [stc]; exact station)
    refine ⟨?_, ?_, ?_⟩
    · rw [outside.fcu, fcu]
    · rw [cancelSchedule_lmon takes, lmon, straps, now]
    · rw [outside.stc, stc]
  · obtain ⟨train, watch, e⟩ := membershipActs_frame hf t
    rw [e]
    exact k

/-! ### The judgement (R114, R178, R179) -/

theorem legsValid_iff (b : BypassOrder) :
    legsValid b = true ↔ 1 ≤ b.star ∧ b.star ≤ 3 ∧ 1 ≤ b.delta ∧ b.delta ≤ 3 := by
  simp [legsValid, and_assoc]

theorem keyLater_iff (b : BypassOrder) (r : BlockRecord) :
    keyLater b r = true ↔
      (1 ≤ (b.fn - r.fn).toNat ∧ (b.fn - r.fn).toNat ≤ 32767) ∨ (b.fn = r.fn ∧ b.origin < r.origin) := by
  simp [keyLater, seriallyLater]

/-- A BYPASS with its legs in range, in a state that adopts. -/
theorem takeBypass_judged {s : State} {b : BypassOrder} (cancel : State → State) (legs : legsValid b = true)
    (h1 : s.stc.station ≠ .start) (h2 : s.stc.station ≠ .inert) (h3 : s.stc.station ≠ .survey) :
    takeBypass cancel b s =
      match judgeBypass s.stc.record b with
      | .adopted => adoptBypass cancel b s
      | .conflict => s.recordFault .bypassConflict
      | .unchanged => s := by
  unfold takeBypass
  exact (if_neg (by simp [legs])).trans ((if_neg (by simp [h1, h2, h3])).trans rfl)

theorem takeBypass_heard {s : State} {b : BypassOrder} (cancel : State → State)
    (h : ¬legsValid b = true ∨ s.stc.station = .start ∨ s.stc.station = .survey) : takeBypass cancel b s = s := by
  unfold takeBypass
  by_cases legs : legsValid b = true
  · have idle := h.resolve_left (not_not_intro legs)
    rw [if_neg (by simp [legs]), if_pos (by rcases idle with h | h <;> simp [h])]
  · rw [if_pos (by simpa using legs)]

theorem judgeBypass_adopted {record : Option BlockRecord} {b : BypassOrder}
    (h : ∀ r, record = some r → r.settled = false ∧ keyLater b r = true) : judgeBypass record b = .adopted := by
  cases record with
  | none => rfl
  | some r =>
    obtain ⟨open_, later⟩ := h r rfl
    simp [judgeBypass, open_, later]

/-- The record and the station state of an adoption, and the status lines with them. -/
theorem bypassed_stc {s : State} (b : BypassOrder) (h1 : s.stc.station ≠ .start) (h2 : s.stc.station ≠ .inert)
    (h3 : s.stc.station ≠ .survey) :
    (s.bypassed b).stc =
      { s.stc with
        station := if s.stc.station = .tripped then .tripped else .bypass
        tripLine := decide (s.stc.station = .tripped), readyLine := decide (s.stc.station ≠ .tripped)
        record :=
          match s.stc.record with
          | some r => some { r with star := b.star, delta := b.delta, fn := b.fn, origin := b.origin }
          | none => some
            { star := b.star, delta := b.delta, fn := b.fn, origin := b.origin, adopted := s.now
              deadline := s.now + BitVec.ofNat 32 s.aru.period, settled := false } } := by
  have record : recordAdopted s.stc.record b s.now s.aru.period =
      match s.stc.record with
      | some r => { r with star := b.star, delta := b.delta, fn := b.fn, origin := b.origin }
      | none =>
        { star := b.star, delta := b.delta, fn := b.fn, origin := b.origin, adopted := s.now
          deadline := s.now + BitVec.ofNat 32 s.aru.period, settled := false } := by
    cases s.stc.record <;> rfl
  show Stc.enter { s.stc with record := some (recordAdopted s.stc.record b s.now s.aru.period) }
    (stationAdopted s.stc.station) = _
  rw [record]
  cases hs : s.stc.station
  case start => exact absurd hs h1
  case inert => exact absurd hs h2
  case survey => exact absurd hs h3
  all_goals cases s.stc.record <;> rfl

/-- Settles O51: a BYPASS is adopted by its key until the record is settled. -/
theorem bypassIsAdoptedByItsKeyUntilSettled : Obligations.BypassIsAdoptedByItsKeyUntilSettled := by
  intro b s active low high other consistent
  have run : exec (.bypass b) s = .next (takeBypass cancelSchedule b (s.hearing b.origin (.bypass b))) := by
    show onPosition b.origin (delivered _ _ _ _) = _
    rw [onPosition_next low high, delivered_eq active other]
  dsimp only
  rw [run]
  simp only [← legsValid_iff, ← keyLater_iff]
  refine ⟨fun idle => ?_, fun r legs h1 h3 record => ?_, fun legs h1 h3 open_ => ?_⟩
  · have idle : ¬legsValid b = true ∨ s.stc.station = .start ∨ s.stc.station = .survey := idle
    rw [takeBypass_heard]
    exact idle
  · rw [takeBypass_judged (s := s.hearing b.origin (.bypass b)) cancelSchedule legs h1 active h3,
      show (s.hearing b.origin (.bypass b)).stc.record = some r from record]
    refine ⟨fun unsettled early => ?_, fun settled star delta => ?_, fun settled legs mode => ?_⟩
    · simp [judgeBypass, unsettled, early]
    · simp [judgeBypass, settled, star, delta]
    · have conflict : judgeBypass (some r) b = .conflict := by
        have : ¬(b.star = r.star ∧ b.delta = r.delta) := fun h => legs.elim (absurd h.1) (absurd h.2)
        simp [judgeBypass, settled, this]
      rw [conflict]
      dsimp only
      rw [← takeFault_recorded, takeFault_report]
      · exact mode
      · exact .inl mode
  · rw [takeBypass_judged (s := s.hearing b.origin (.bypass b)) cancelSchedule legs h1 active h3,
      show (s.hearing b.origin (.bypass b)).stc.record = s.stc.record from rfl, judgeBypass_adopted open_]
    dsimp only
    refine ⟨fun firing takes => ?_, fun free => ?_⟩
    · obtain ⟨fcu, lmon, record⟩ := adoptBypass_marks (s := s.hearing b.origin (.bypass b)) b firing takes
      refine ⟨_, rfl, by rw [fcu], by rw [lmon, cycleMark_lmon]; rfl, ?_⟩
      have empty : s.stc.record = none := by
        cases h : s.stc.record with
        | none => rfl
        | some r => rcases consistent.record (by simp [h]) with k | k <;> rw [firing] at k <;> cases k
      rw [record, bypassed_stc (s := s.hearing b.origin (.bypass b)) b h1 active h3, show (s.hearing b.origin (.bypass b)).stc.record = none from empty]
      rfl
    · have unscheduled : s.stc.station ≠ .firing → s.stc.station ≠ .tripped → s.fcu.schedule = none :=
        fun h k => by
          rw [← Option.not_isSome_iff_eq_none]
          exact fun some => (consistent.schedule some).elim h fun t => k t.1
      rw [adoptBypass_eq (s := s.hearing b.origin (.bypass b)) b free, trainCeasing_eq]
      refine ⟨_, rfl, rfl, bypassed_stc b h1 active h3, ?_, rfl, rfl, rfl⟩
      show (if s.stc.station = .firing then { s.fcu with schedule := none } else s.fcu) =
        if s.stc.station = .tripped then s.fcu else { s.fcu with schedule := none }
      by_cases firing : s.stc.station = .firing
      · rw [if_pos firing, if_neg (by rw [firing]; decide)]
      · by_cases tripped : s.stc.station = .tripped
        · rw [if_neg firing, if_pos tripped]
        · rw [if_neg firing, if_neg tripped, ← unscheduled firing tripped]

/-! ### The legs that fired last (R176) -/

theorem legIndex_range (q : Nat) : 1 ≤ legIndex q ∧ legIndex q ≤ 3 := by
  unfold legIndex; split <;> omega

theorem seriallyLater_iff (f g : FiringNumber) :
    seriallyLater f g = true ↔ 1 ≤ (f - g).toNat ∧ (f - g).toNat ≤ 32767 := by simp [seriallyLater]

/-- Of two firing numbers one at most is serially later. -/
theorem not_later_of_later {f g : FiringNumber} (h : f = g ∨ (1 ≤ (f - g).toNat ∧ (f - g).toNat ≤ 32767)) :
    ¬(1 ≤ (g - f).toNat ∧ (g - f).toNat ≤ 32767) := by
  rcases h with rfl | h
  · simp
  · bv_omega

/-- The scan of the model is the scan of the statement. -/
theorem latestFiring_eq (s : State) (positions : List Nat) : latestFiring s positions = s.scan none positions := by
  suffices general : ∀ best, positions.foldl (fun best q =>
      match s.fireRecord q, best with
      | none, _ => best
      | some f, none => some (q, f)
      | some f, some (r, g) => if seriallyLater f g then some (q, f) else some (r, g)) best =
      s.scan best positions from general none
  induction positions with
  | nil => intro best; cases best <;> rfl
  | cons q rest ih =>
    intro best
    rw [List.foldl_cons, ih]
    rcases best with _ | ⟨r, g⟩
    · cases h : s.fireRecord q <;> simp [State.scan, h]
    · cases h : s.fireRecord q <;> simp [State.scan, h, seriallyLater_iff]

/-- A candidate that none of the rest follows serially stays. -/
theorem scan_stays {s : State} {q : Nat} {f : FiringNumber} {rest : List Nat}
    (h : ∀ r ∈ rest, ∀ g, s.fireRecord r = some g → ¬(1 ≤ (g - f).toNat ∧ (g - f).toNat ≤ 32767)) :
    s.scan (some (q, f)) rest = some (q, f) := by
  induction rest with
  | nil => rfl
  | cons x rest ih =>
    have stays := ih fun r hr => h r (List.mem_cons_of_mem _ hr)
    cases record : s.fireRecord x with
    | none => simpa only [State.scan, record] using stays
    | some g => simpa only [State.scan, record, if_neg (h x List.mem_cons_self g record)] using stays

/-- A scan over positions without a valid number names none. -/
theorem scan_none {s : State} {positions : List Nat} (h : ∀ q ∈ positions, s.fireRecord q = none) :
    s.scan none positions = none := by
  induction positions with
  | nil => rfl
  | cons q rest ih =>
    simp only [State.scan, h q List.mem_cons_self, Option.map_none]
    exact ih fun r hr => h r (List.mem_cons_of_mem _ hr)

/-- A number that no other precedes serially is the one that the scan ends with, at its own position or at one with the
same number. -/
theorem scan_dominant {s : State} {q : Nat} {f : FiringNumber} (own : s.fireRecord q = some f) :
    ∀ (positions : List Nat) (best : Option (Nat × FiringNumber)), q ∈ positions →
      (∀ r ∈ positions, ∀ g, r ≠ q → s.fireRecord r = some g →
        f = g ∨ (1 ≤ (f - g).toNat ∧ (f - g).toNat ≤ 32767)) →
      (∀ r g, best = some (r, g) → f = g ∨ (1 ≤ (f - g).toNat ∧ (f - g).toNat ≤ 32767)) →
      ∃ r, s.scan best positions = some (r, f) ∧
        (best = some (r, f) ∨ (r ∈ positions ∧ s.fireRecord r = some f)) := by
  intro positions
  induction positions with
  | nil => intro _ mem; cases mem
  | cons x rest ih =>
    intro best mem above first
    have behind : ∀ r ∈ rest, ∀ g, s.fireRecord r = some g → ¬(1 ≤ (g - f).toNat ∧ (g - f).toNat ≤ 32767) := by
      intro r hr g record
      by_cases same : r = q
      · rw [same, own] at record
        exact not_later_of_later (.inl (by simpa using record))
      · exact not_later_of_later (above r (List.mem_cons_of_mem _ hr) g same record)
    by_cases here : x = q
    · subst here
      rcases best with _ | ⟨r, g⟩
      · refine ⟨x, ?_, .inr ⟨List.mem_cons_self, own⟩⟩
        simpa only [State.scan, own, Option.map_some] using scan_stays behind
      · by_cases later : 1 ≤ (f - g).toNat ∧ (f - g).toNat ≤ 32767
        · refine ⟨x, ?_, .inr ⟨List.mem_cons_self, own⟩⟩
          simpa only [State.scan, own, if_pos later] using scan_stays behind
        · obtain rfl := (first r g rfl).resolve_right later
          refine ⟨r, ?_, .inl rfl⟩
          simpa only [State.scan, own, if_neg later] using scan_stays behind
    · have rest_mem : q ∈ rest := (List.mem_cons.mp mem).resolve_left fun h => here h.symm
      have step (next : Option (Nat × FiringNumber)) (taken : s.scan best (x :: rest) = s.scan next rest)
          (from_ : ∀ r g, next = some (r, g) → best = some (r, g) ∨ (r = x ∧ s.fireRecord x = some g)) :
          ∃ r, s.scan best (x :: rest) = some (r, f) ∧
            (best = some (r, f) ∨ (r ∈ x :: rest ∧ s.fireRecord r = some f)) := by
        obtain ⟨r, ends, source⟩ := ih next rest_mem (fun r hr => above r (List.mem_cons_of_mem _ hr)) fun r g h => by
          rcases from_ r g h with old | ⟨rfl, record⟩
          · exact first r g old
          · exact above r List.mem_cons_self g here record
        refine ⟨r, taken.trans ends, ?_⟩
        rcases source with h | ⟨hr, record⟩
        · rcases from_ r f h with old | ⟨rfl, record⟩
          · exact .inl old
          · exact .inr ⟨List.mem_cons_self, record⟩
        · exact .inr ⟨List.mem_cons_of_mem _ hr, record⟩
      rcases best with _ | ⟨r, g⟩
      · refine step _ rfl fun r g h => .inr ?_
        obtain ⟨g', record, e⟩ := Option.map_eq_some_iff.mp h
        cases e
        exact ⟨rfl, record⟩
      · cases record : s.fireRecord x with
        | none =>
          refine step (some (r, g)) (by simp only [State.scan, record]) fun _ _ h => .inl h
        | some k =>
          by_cases later : 1 ≤ (k - g).toNat ∧ (k - g).toNat ≤ 32767
          · refine step (some (x, k)) (by simp only [State.scan, record, if_pos later]) fun _ _ h => .inr ?_
            cases h
            exact ⟨rfl, record⟩
          · exact step (some (r, g)) (by simp only [State.scan, record, if_neg later]) fun _ _ h => .inl h

theorem referenceFn_eq (s : State) :
    referenceFn s = ((s.scan none [1, 2, 3, 4, 5, 6, 7, 8, 9, 10, 11, 12]).map fun x => x.2).getD 0 := by
  unfold referenceFn
  rw [latestFiring_eq]
  cases s.scan none _ <;> rfl

theorem chosenLeg_eq (s : State) (positions : List Nat) :
    chosenLeg s positions = ((s.scan none positions).map fun x => legIndex x.1).getD 1 := by
  unfold chosenLeg
  rw [latestFiring_eq]
  cases s.scan none _ <;> rfl

theorem chosenLeg_range (s : State) (positions : List Nat) :
    1 ≤ chosenLeg s positions ∧ chosenLeg s positions ≤ 3 := by
  rw [chosenLeg_eq]
  cases s.scan none positions with
  | none => decide
  | some x => exact legIndex_range x.1

/-- The leg of a bridge is that of the position whose number follows every other one. -/
theorem chosenLeg_spec (s : State) (positions : List Nat) :
    ((∀ q ∈ positions, s.fireRecord q = none) → chosenLeg s positions = 1) ∧
      ∀ q ∈ positions, ∀ f, s.fireRecord q = some f →
        (∀ r ∈ positions, ∀ g, r ≠ q → s.fireRecord r = some g → 1 ≤ (f - g).toNat ∧ (f - g).toNat ≤ 32767) →
        chosenLeg s positions = legIndex q := by
  refine ⟨fun h => by rw [chosenLeg_eq, scan_none h]; rfl, fun q hq f own above => ?_⟩
  obtain ⟨r, ends, source⟩ := scan_dominant own positions none hq (fun r hr g h k => .inr (above r hr g h k))
    (fun _ _ h => by cases h)
  obtain ⟨hr, record⟩ := source.resolve_left (fun h => by cases h)
  have same : r = q := by
    by_contra other
    have := above r hr f other record
    simp at this
  rw [chosenLeg_eq, ends, same]
  rfl

/-! ### BYPASS_BLOCK (R173, R176) -/

theorem onPeer_fire (c : Cru) (q : Nat) {f : Peer → Peer} (keeps : ∀ p, (f p).fire = p.fire) (r : Nat) :
    ((c.onPeer q f).peer r).fire = (c.peer r).fire := by
  simp only [Cru.onPeer, Cru.peer, get_set]
  split
  · next same => rw [keeps, same]
  · rfl

/-- Hearing a control station changes no fire record, so the BYPASS is the one named before it. -/
theorem ownBypass_orderTaken (s : State) (o : Order) (c : Instr) (cause : Nat) :
    ownBypass (s.orderTaken o c) cause = ownBypass s cause := by
  have records : (s.orderTaken o c).fireRecord = s.fireRecord := by
    funext q
    unfold State.fireRecord
    exact congrArg _ (onPeer_fire s.cru o.origin (f := fun p =>
      { p with presence := .present, deadline := some (s.now + BitVec.ofNat 32 (3 * s.aru.period)) }) (fun _ => rfl) q)
  have scan : ∀ positions, latestFiring (s.orderTaken o c) positions = latestFiring s positions := fun positions => by
    unfold latestFiring; rw [records]
  unfold ownBypass referenceFn chosenLeg
  rw [scan, scan, scan]
  rfl

theorem ownBypass_legs (s : State) (cause : Nat) : legsValid (ownBypass s cause) = true :=
  (legsValid_iff _).mpr
    ⟨(chosenLeg_range s _).1, (chosenLeg_range s _).2, (chosenLeg_range s _).1, (chosenLeg_range s _).2⟩

/-- BYPASS_BLOCK in FIRING with an empty record: the own BYPASS originated and adopted. -/
theorem stcBypassBlock_firing {u : State} (firing : u.stc.station = .firing) (empty : u.stc.record = none) :
    stcBypassBlock u =
      adoptBypass cancelSchedule (ownBypass u 0)
        { u with
          rif := u.rif.originated .bypass
            (bypassPayload (ownBypass u 0).fn (ownBypass u 0).star (ownBypass u 0).delta 0) none } := by
  unfold stcBypassBlock
  rw [if_pos firing, originateBypass, originate_in_firing firing,
    takeBypass_judged cancelSchedule (ownBypass_legs u 0) (by simp [firing]) (by simp [firing]) (by simp [firing])]
  simp only [empty, judgeBypass]
  rfl

/-- A first adoption in FIRING that takes no mark. -/
theorem adoptBypass_first {s : State} (b : BypassOrder) (firing : s.stc.station = .firing)
    (empty : s.stc.record = none) (free : CancelsWithoutMark s) :
    ∃ member, (adoptBypass cancelSchedule b s).isMember = member ∧
      adoptBypass cancelSchedule b s =
        { s with
          lca := { s.lca with
            train := if member = true then some (memberTrain s.now s.lca.train) else s.lca.train }
          cru := if member = true then { s.cru with watch := none } else s.cru
          fcu := { s.fcu with schedule := none }
          stc := { s.stc with
            station := .bypass, tripLine := false, readyLine := true
            record := some
              { star := b.star, delta := b.delta, fn := b.fn, origin := b.origin, adopted := s.now
                deadline := s.now + BitVec.ofNat 32 s.aru.period, settled := false } }
          freeCount := s.freeCount + 1 } := by
  have stc := bypassed_stc (s := s) b (by simp [firing]) (by simp [firing]) (by simp [firing])
  rw [firing, empty] at stc
  have outsider := notMember empty
  refine ⟨(s.bypassed b).isMember, ?_, ?_⟩
  · rw [adoptBypass_eq b (.inr free)]; rfl
  · rw [adoptBypass_eq b (.inr free), stc, outsider, if_pos firing]
    simp only [and_true, Bool.false_eq_true, if_false]
    rfl

/-- Settles O45: BYPASS_BLOCK in FIRING adopts the bypass of the legs that fired last. -/
theorem bypassBlockNamesTheLegsThatFiredLast : Obligations.BypassBlockNamesTheLegsThatFiredLast := by
  intro o s active started new
  have run : exec (.bypassBlock o) s = .next (stcBypassBlock (s.orderTaken o (.bypassBlock o))) :=
    exec_newOrder (mk := .bypassBlock) active started new rfl
  dsimp only
  rw [run]
  refine ⟨fun firing empty free => ?_, fun firing empty takes => ?_, fun idle => ?_, ?_, fun parity two => ?_⟩
  · rw [stcBypassBlock_firing (by simpa using firing) (by simpa using empty), ownBypass_orderTaken]
    obtain ⟨member, isMember, e⟩ := adoptBypass_first (s := { s.orderTaken o (.bypassBlock o) with
      rif := (s.orderTaken o (.bypassBlock o)).rif.originated .bypass
        (bypassPayload (ownBypass s 0).fn (ownBypass s 0).star (ownBypass s 0).delta 0) none }) (ownBypass s 0)
      (by simpa using firing) (by simpa using empty) free
    refine ⟨_, rfl, by rw [e], by rw [e], by rw [e]; rfl, by rw [e]; rfl, ?_⟩
    rw [isMember, e]
    cases member with
    | true => exact ⟨rfl, rfl⟩
    | false => exact ⟨rfl, rfl⟩
  · rw [stcBypassBlock_firing (by simpa using firing) (by simpa using empty), ownBypass_orderTaken]
    obtain ⟨fcu, lmon, record⟩ := adoptBypass_marks (s := { s.orderTaken o (.bypassBlock o) with
      rif := (s.orderTaken o (.bypassBlock o)).rif.originated .bypass
        (bypassPayload (ownBypass s 0).fn (ownBypass s 0).star (ownBypass s 0).delta 0) none }) (ownBypass s 0)
      (by simpa using firing) takes
    refine ⟨_, rfl, by rw [fcu], by rw [lmon, cycleMark_lmon], ?_⟩
    rw [record]
    have none : (s.orderTaken o (.bypassBlock o)).stc.record = none := by simpa using empty
    simp only [State.bypassed, State.adoptRecord, State.enter, State.onStc, Stc.enter, none]
    rfl
  · unfold stcBypassBlock
    rw [if_neg (by simpa using idle)]
  · refine ⟨referenceFn_eq s, chosenLeg_eq s _, chosenLeg_eq s _, fun none => ?_, fun q hq f own above => ?_⟩
    · exact (referenceFn_eq s).trans (by rw [scan_none none]; rfl)
    · obtain ⟨r, ends, -⟩ := scan_dominant own _ none hq above (fun _ _ h => by cases h)
      exact (referenceFn_eq s).trans (by rw [ends]; rfl)
  · have legs : (parity = 0 ∧ [1, 3, 5, 7, 9, 11].map (fun q => q + parity) = [1, 3, 5, 7, 9, 11]) ∨
        (parity = 1 ∧ [1, 3, 5, 7, 9, 11].map (fun q => q + parity) = [2, 4, 6, 8, 10, 12]) := by
      interval_cases parity
      · exact .inl ⟨rfl, rfl⟩
      · exact .inr ⟨rfl, rfl⟩
    rcases legs with ⟨zero, bridge⟩ | ⟨one, bridge⟩
    · rw [bridge, if_pos zero]
      exact ⟨chosenLeg_range s _, chosenLeg_spec s _⟩
    · rw [bridge, if_neg (by omega)]
      exact ⟨chosenLeg_range s _, chosenLeg_spec s _⟩

end Sys2Proof.Machine
end

section
/-! PROOFS. The layer of the cycle mark: the Level Monitor's own part of it by the tally that raises its event, its acts
in their free order, and what each act leaves of the fault table, the rings and the status lines (R36, R37, R191). -/

namespace Sys2Proof.Machine

/-! ### The Level Monitor's own part -/

/-- The events of a mark change the phase, the tallies, the cycle record and the last indications; the counts and the
redundancy state are those of the judgement. -/
theorem marked_frame (m : Lmon) (straps : Straps) (own : Bool) (now : StationTime) :
    (m.marked straps own now).1 =
      { m.judged straps with
        levels := (m.marked straps own now).1.levels
        phase := (m.marked straps own now).1.phase
        rv := (m.marked straps own now).1.rv
        fv := (m.marked straps own now).1.fv
        pf := (m.marked straps own now).1.pf
        quorumXt := (m.marked straps own now).1.quorumXt
        quorumFv := (m.marked straps own now).1.quorumFv
        cfCycle := (m.marked straps own now).1.cfCycle } := by
  have resumed (x : Lmon) : ∃ rv, x.resumed own now = { x with rv := rv } := by
    unfold Lmon.resumed; split <;> exact ⟨_, rfl⟩
  unfold Lmon.marked
  simp only [markTallies_eq]
  split
  · obtain ⟨rv, h⟩ := resumed ((m.judged straps).adjusted.atXt (latestStamp (m.judged straps).adjusted.rv.members))
    rw [h]; rfl
  split
  · obtain ⟨rv, h⟩ := resumed ((m.judged straps).adjusted.atFv (latestStamp (m.judged straps).adjusted.fv.members))
    rw [h]; rfl
  split
  · obtain ⟨rv, h⟩ := resumed ((m.judged straps).adjusted.atPfq straps.nlev
      (latestStamp (m.judged straps).adjusted.pf.members))
    rw [h]; rfl
  · obtain ⟨rv, h⟩ := resumed (m.judged straps).adjusted
    rw [h]; rfl

/-- The state of a record after a mark is that of the judgement. -/
theorem marked_state (m : Lmon) (straps : Straps) (own : Bool) (now : StationTime) (i : Fin 80) :
    ((m.marked straps own now).1.levels.get i).state = ((m.judgedLevels straps.nlev).get i).state := by
  obtain ⟨last, h⟩ := marked_level m straps own now i
  rw [h]
  exact cleared_get_state _ _ _

theorem marked_countIn (m : Lmon) (straps : Straps) (own : Bool) (now : StationTime) (st : LevelState) :
    countIn (m.marked straps own now).1.levels straps.nlev st = countIn (m.judgedLevels straps.nlev) straps.nlev st := by
  unfold countIn
  simp only [marked_state]

theorem judged_state (m : Lmon) (straps : Straps) (i : Fin 80) :
    ((m.judged straps).levels.get i).state = ((m.judgedLevels straps.nlev).get i).state := cleared_get_state _ _ _

/-- A tally at a mark reads the states of the records alone. -/
theorem atMark_congr (y : Tally) {v w : Vector Level 80} (h : ∀ i, (v.get i).state = (w.get i).state) :
    y.atMark v = y.atMark w := by
  unfold Tally.atMark
  simp only [h]

/-- A tally without the levels that are failed after the mark. -/
theorem atMark_judged (y : Tally) (m : Lmon) (straps : Straps) (own : Bool) (now : StationTime) :
    y.atMark (m.judged straps).levels = y.atMark (m.marked straps own now).1.levels :=
  atMark_congr y fun i => (judged_state m straps i).trans (marked_state m straps own now i).symm

/-- The mark of a tally RV at its quorum. -/
theorem marked_of_rv {m : Lmon} {straps : Straps} {own : Bool} {now : StationTime}
    (rv : (m.judged straps).adjusted.rv.full (quorum (m.judged straps).counted)) :
    m.marked straps own now =
      ((m.judged straps).adjusted.atXt (latestStamp (m.judged straps).adjusted.rv.members),
        [.xt (latestStamp (m.judged straps).adjusted.rv.members) (phaseAfterXt m.phase)]) := by
  have unresumed : ∀ x : Lmon, x.phase ≠ .forward → x.resumed own now = x := fun x h => by
    unfold Lmon.resumed; rw [if_neg (by simp [h])]
  have after : phaseAfterXt m.phase ≠ .forward := by cases m.phase <;> decide
  unfold Lmon.marked
  simp only [markTallies_eq, if_pos rv]
  rw [unresumed _ after]
  rfl

theorem marked_of_fv {m : Lmon} {straps : Straps} {own : Bool} {now : StationTime}
    (rv : ¬(m.judged straps).adjusted.rv.full (quorum (m.judged straps).counted))
    (fv : (m.judged straps).adjusted.fv.full (quorum (m.judged straps).counted)) :
    m.marked straps own now =
      (((m.judged straps).adjusted.atFv (latestStamp (m.judged straps).adjusted.fv.members)).resumed own now,
        [.fv (latestStamp (m.judged straps).adjusted.fv.members) m.phase]) := by
  unfold Lmon.marked
  simp only [markTallies_eq, if_neg rv, if_pos fv]
  rfl

theorem marked_of_pf {m : Lmon} {straps : Straps} {own : Bool} {now : StationTime}
    (rv : ¬(m.judged straps).adjusted.rv.full (quorum (m.judged straps).counted))
    (fv : ¬(m.judged straps).adjusted.fv.full (quorum (m.judged straps).counted))
    (pf : (m.judged straps).adjusted.pf.full (pfQuorum (m.judged straps).counted)) (phase : m.phase = .recovery) :
    m.marked straps own now =
      ((m.judged straps).adjusted.atPfq straps.nlev (latestStamp (m.judged straps).adjusted.pf.members),
        [.pfq (latestStamp (m.judged straps).adjusted.pf.members)]) := by
  unfold Lmon.marked
  simp only [markTallies_eq, if_neg rv, if_neg fv]
  rw [if_pos ⟨pf, phase⟩]
  unfold Lmon.resumed
  rw [if_neg (by simp [Lmon.atPfq])]

theorem marked_of_none {m : Lmon} {straps : Straps} {own : Bool} {now : StationTime}
    (rv : ¬(m.judged straps).adjusted.rv.full (quorum (m.judged straps).counted))
    (fv : ¬(m.judged straps).adjusted.fv.full (quorum (m.judged straps).counted))
    (pf : ¬((m.judged straps).adjusted.pf.full (pfQuorum (m.judged straps).counted) ∧ m.phase = .recovery)) :
    m.marked straps own now = ((m.judged straps).adjusted.resumed own now, []) := by
  unfold Lmon.marked
  simp only [markTallies_eq, if_neg rv, if_neg fv]
  rw [if_neg (by exact pf)]

/-! ### The acts of a mark in their free order -/

/-- What a mark is made of: the Level Monitor's own part, then its acts in some order. -/
theorem cycleMark_acts (own : Bool) (s : State) :
    ∃ fs, cycleMark own s = inTurn fs (s.onLmon fun _ => (s.lmon.marked s.straps own s.now).1).drawn.drawn ∧
      fs.Perm ((s.lmon.marked s.straps own s.now).2.map (handEvent onItsWay) ++
        (cruMark :: (failureFault (s.lmon.marked s.straps own s.now).2 s).map takeFaultInMark) ++
        ((enteredFault s.lmon.redundancy (s.lmon.judged s.straps).redundancy).toList.map takeFaultInMark ++
          [surveyTest])) :=
  ⟨_, rfl, (interleave_perm _ _ _).trans
    (((shuffle_perm _ _).append_left _).append_right _)⟩

/-- A merge of two lists with one member in the second. -/
theorem interleave_one {α : Type} (seed : Nat) (x c : α) :
    interleave seed [x] [c] = [x, c] ∨ interleave seed [x] [c] = [c, x] := by
  have : seed % 2 = 0 ∨ seed % 2 = 1 := by omega
  rcases this with h | h <;> simp [interleave, h]

theorem interleave_two {α : Type} (seed : Nat) (x y c : α) :
    interleave seed [x, y] [c] = [x, y, c] ∨ interleave seed [x, y] [c] = [x, c, y] ∨
      interleave seed [x, y] [c] = [c, x, y] := by
  have : seed % 3 = 0 ∨ seed % 3 = 1 ∨ seed % 3 = 2 := by omega
  rcases this with h | h | h <;> simp [interleave, h]

/-- The state in which the acts of a mark begin. -/
def State.marking (s : State) (own : Bool) : State :=
  { s with lmon := (s.lmon.marked s.straps own s.now).1, freeCount := s.freeCount + 2 }

/-- A mark that raises no event and keeps the redundancy state: its HEALTH and the SURVEY test. -/
theorem cycleMark_of_none {own : Bool} {s : State} (none : (s.lmon.marked s.straps own s.now).2 = [])
    (same : (s.lmon.judged s.straps).redundancy = s.lmon.redundancy) :
    cycleMark own s = surveyTest (cruMark (s.marking own)) ∨
      cycleMark own s = cruMark (surveyTest (s.marking own)) := by
  unfold cycleMark inTwoStreams
  simp only [none, same, enteredFault, failureFault, shuffle, List.map_nil, List.any_nil, Bool.false_and,
    Bool.false_eq_true, if_false, if_true, Option.toList_none, List.nil_append]
  rcases interleave_one (Config.freeOrder
    (s.onLmon fun _ => (s.lmon.marked s.straps own s.now).1).drawn.freeCount) cruMark surveyTest with h | h <;> rw [h]
  · exact .inl rfl
  · exact .inr rfl

/-- A mark that raises one event, no commutation failure, and keeps the redundancy state. -/
theorem cycleMark_of_event {own : Bool} {s : State} {e : ValveEvent}
    (event : (s.lmon.marked s.straps own s.now).2 = [e]) (plain : e.isFailure = false)
    (same : (s.lmon.judged s.straps).redundancy = s.lmon.redundancy) :
    cycleMark own s = surveyTest (cruMark (handEvent onItsWay e (s.marking own))) ∨
      cycleMark own s = cruMark (surveyTest (handEvent onItsWay e (s.marking own))) ∨
      cycleMark own s = cruMark (handEvent onItsWay e (surveyTest (s.marking own))) := by
  unfold cycleMark inTwoStreams
  simp only [event, same, plain, enteredFault, failureFault, shuffle, List.map_cons, List.map_nil, List.any_cons,
    List.any_nil, Bool.or_false, Bool.false_and, Bool.false_eq_true, if_false, if_true, Option.toList_none,
    List.nil_append, List.cons_append]
  rcases interleave_two (Config.freeOrder
    (s.onLmon fun _ => (s.lmon.marked s.straps own s.now).1).drawn.freeCount) (handEvent onItsWay e) cruMark
    surveyTest with h | h | h <;> rw [h]
  · exact .inl rfl
  · exact .inr (.inl rfl)
  · exact .inr (.inr rfl)

/-! ### Moves, and what they leave -/

/-- A move leaves the health of the rings. -/
theorem Moves.ringHealth {s t : State} (h : Moves s t) :
    t.rif.portA.health = s.rif.portA.health ∧ t.rif.portB.health = s.rif.portB.health := by
  refine h.keeps (P := fun u => u.rif.portA.health = s.rif.portA.health ∧ u.rif.portB.health = s.rif.portB.health)
    (fun a b move k => ?_) ⟨rfl, rfl⟩
  cases move with
  | originate kind p e =>
    rcases originate_cases kind p e a with h | h <;> rw [h]
    · exact k
    · obtain ⟨l, r⟩ := originated_health a.rif kind p e
      exact ⟨l.trans k.1, r.trans k.2⟩
  | train => exact k
  | lmon => exact k
  | fcu => exact k
  | cru => exact k
  | stc => exact k
  | drawn => exact k

/-- A station that moves on has its status lines by the state it has come to (R183). -/
theorem Moves.movedLines {s t : State} (h : Moves s t) (moved : t.stc.station ≠ s.stc.station) :
    t.stc.tripLine = tripHigh t.stc.station ∧ t.stc.readyLine = readyHigh t.stc.station := by
  refine (h.keeps (P := fun u => u.stc.station = s.stc.station ∨
    (u.stc.tripLine = tripHigh u.stc.station ∧ u.stc.readyLine = readyHigh u.stc.station))
    (fun a b move k => ?_) (.inl rfl)).resolve_left moved
  cases move with
  | stc f hk =>
    rcases hk.lines with lines | ⟨station, trip, ready⟩
    · exact .inr lines
    · rcases k with k | ⟨kt, kr⟩
      · exact .inl (station.trans k)
      · refine .inr ⟨?_, ?_⟩
        · show (f a.stc).tripLine = tripHigh (f a.stc).station
          rw [trip, station, kt]
        · show (f a.stc).readyLine = readyHigh (f a.stc).station
          rw [ready, station, kr]
  | originate kind p e => simpa using k
  | train => exact k
  | lmon => exact k
  | fcu => exact k
  | cru => exact k
  | drawn => exact k

theorem Moves.started {s t : State} (h : Moves s t) (h1 : s.stc.station ≠ .start) (h2 : s.stc.station ≠ .inert) :
    t.stc.station ≠ .start ∧ t.stc.station ≠ .inert := by
  have follow := h.follow
  constructor <;> intro k <;> rw [k] at follow <;> cases e : s.stc.station <;> rw [e] at follow h1 h2 <;>
    simp [mayMove] at follow h1 h2

theorem Moves.tripped {s t : State} (h : Moves s t) (k : s.stc.station = .tripped) : t.stc.station = .tripped := by
  have follow := h.follow
  rw [k] at follow
  simpa [mayMove] using follow

/-! ### A fault taken in a mark -/

theorem membershipActs_stc (was is : Bool) (s : State) : (inTurn (membershipActs was is) s).stc = s.stc := by
  rw [membershipActs_inTurn]

/-- The adoption at a trip enters no fault but BYPASS_CONFLICT. -/
theorem adoptAtTrip_fault (b : BypassOrder) (s : State) {g : FaultCode} (h : g ≠ .bypassConflict) :
    (adoptAtTrip b s).stc.fault g = s.stc.fault g := by
  unfold adoptAtTrip
  split
  · rw [membershipActs_stc]; rfl
  · exact onFault_fault_other _ _ h.symm
  · rfl

/-- A trip enters no fault but BYPASS_CONFLICT, where its cancellation enters none. -/
theorem trip_fault {cancel : State → State} (f : FaultCode) (s : State) {g : FaultCode} (h : g ≠ .bypassConflict)
    (hc : ∀ t, (cancel t).stc.fault g = t.stc.fault g) : (trip cancel f s).stc.fault g = s.stc.fault g := by
  by_cases firing : s.stc.station = .firing
  · have tripped : (s.trippedBy f).stc.fault g = s.stc.fault g := by
      unfold State.trippedBy
      exact (adoptAtTrip_fault _ _ h).trans (congrArg (fun c => Stc.fault c g) (originate_stc _ _ _ _))
    rw [trip_in_firing _ _ firing]
    split
    · exact tripped
    · exact (hc _).trans tripped
  · rw [trip_outside_firing _ _ firing]
    dsimp only
    split <;> rfl

theorem takeFaultWith_fault {cancel : State → State} (f : FaultCode) (s : State) {g : FaultCode}
    (h : g ≠ .bypassConflict) (hc : ∀ t, (cancel t).stc.fault g = t.stc.fault g) :
    (takeFaultWith cancel f s).stc.fault g = (s.recordFault f).stc.fault g := by
  unfold takeFaultWith
  dsimp only
  split
  · exact trip_fault f _ h hc
  · split
    · unfold blockByFault
      dsimp only
      split
      · exact trip_fault f _ h hc
      · exact hc _
    · rfl
  · rfl
  · rfl

/-- What a fault taken in a mark leaves of the fault table. -/
theorem takeFaultInMark_fault (f : FaultCode) (s : State) {g : FaultCode} (h : g ≠ .bypassConflict) :
    (takeFaultInMark f s).stc.fault g =
      if f = g then FaultRecord.occurred (s.stc.fault g) else s.stc.fault g := by
  rw [takeFaultInMark, takeFaultWith_fault (cancel := discardSchedule) f s h fun _ => rfl]
  split
  · next same => rw [← same]; exact onFault_fault_same _ _ _
  · next other => exact onFault_fault_other _ _ other

/-- An occurrence in every mode but IGNORE. -/
theorem occurred_eq {r : FaultRecord} (h : r.mode ≠ .ignore) :
    r.occurred = { r with active := true, count := min 127 (r.count + 1) } := by
  simp [FaultRecord.occurred, h, satSucc]

/-- A trip leaves the Coordination Unit but for the overdue watch, where its cancellation does. -/
theorem takeFaultInMark_cru (f : FaultCode) (s : State) :
    ∃ watch, (takeFaultInMark f s).cru = { s.cru with watch := watch } := by
  have adopted (b : BypassOrder) (u : State) : ∃ watch, (adoptAtTrip b u).cru = { u.cru with watch := watch } := by
    unfold adoptAtTrip
    split
    · rw [membershipActs_inTurn]
      dsimp only
      split <;> exact ⟨_, rfl⟩
    · exact ⟨_, rfl⟩
    · exact ⟨_, rfl⟩
  have tripped (u : State) : ∃ watch, (trip discardSchedule f u).cru = { u.cru with watch := watch } := by
    by_cases firing : u.stc.station = .firing
    · obtain ⟨watch, h⟩ := adopted (ownBypass u (f.code.val + 1)) (originateBypass (ownBypass u (f.code.val + 1)) u)
      refine ⟨watch, ?_⟩
      rw [trip_in_firing _ _ firing]
      split <;> exact h.trans (by rw [originateBypass, originate_cru])
    · rw [trip_outside_firing _ _ firing]
      exact ⟨_, rfl⟩
  unfold takeFaultInMark takeFaultWith
  dsimp only
  split
  · exact tripped _
  · split
    · unfold blockByFault
      dsimp only
      split
      · exact tripped _
      · exact ⟨_, rfl⟩
    · exact ⟨_, rfl⟩
  · exact ⟨_, rfl⟩
  · exact ⟨_, rfl⟩

/-- A fault in mode TRIP takes every station in service to TRIPPED. -/
theorem takeFaultInMark_trips {f : FaultCode} {s : State} (mode : (s.stc.fault f).mode = .trip)
    (h1 : s.stc.station ≠ .start) (h2 : s.stc.station ≠ .inert) : (takeFaultInMark f s).stc.station = .tripped := by
  have trips : takeFaultInMark f s = trip discardSchedule f (s.recordFault f) := by
    rw [takeFaultInMark, takeFaultWith, mode]
  rw [trips]
  by_cases firing : s.stc.station = .firing
  · rw [trip_in_firing (s := s.recordFault f) _ _ firing]
    split <;> rfl
  · rw [trip_outside_firing (s := s.recordFault f) _ _ firing]
    cases e : s.stc.station
    case start => exact absurd e h1
    case inert => exact absurd e h2
    case firing => exact absurd e firing
    all_goals simp [State.recordFault, e]

theorem takeFaultInMark_report {f : FaultCode} {s : State} (mode : (s.stc.fault f).mode = .report) :
    takeFaultInMark f s = s.recordFault f := by
  rw [takeFaultInMark, takeFaultWith, mode]

/-! ### The fault of the redundancy state -/

theorem failureFault_eq (events : List ValveEvent) (s : State) {f : FaultCode} (h : f ∈ failureFault events s) :
    f = .commutationFailureRepeated ∧ events.any ValveEvent.isFailure = true := by
  unfold failureFault at h
  split at h
  · next both =>
    simp only [Bool.and_eq_true] at both
    exact ⟨by simpa using h, both.1⟩
  · cases h

theorem enteredFault_eq_some (was is : Redundancy) (f : FaultCode) :
    enteredFault was is = some f ↔
      was ≠ is ∧ ((f = .redundancyLow ∧ is = .last) ∨ (f = .redundancyExhausted ∧ is = .exhausted)) := by
  unfold enteredFault
  split
  · next same => simp [same]
  · next other => cases is <;> simp [redundancyFault, other, eq_comm]

/-- The acts of a mark, one by one. -/
theorem cycleMark_cases {own : Bool} {s : State} {act : State → State}
    (h : act ∈ (s.lmon.marked s.straps own s.now).2.map (handEvent onItsWay) ++
      (cruMark :: (failureFault (s.lmon.marked s.straps own s.now).2 s).map takeFaultInMark) ++
      ((enteredFault s.lmon.redundancy (s.lmon.judged s.straps).redundancy).toList.map takeFaultInMark ++
        [surveyTest])) :
    (∃ e ∈ (s.lmon.marked s.straps own s.now).2, act = handEvent onItsWay e) ∨ act = cruMark ∨
      (act = takeFaultInMark .commutationFailureRepeated ∧
        (s.lmon.marked s.straps own s.now).2.any ValveEvent.isFailure = true) ∨
      (∃ f, enteredFault s.lmon.redundancy (s.lmon.judged s.straps).redundancy = some f ∧ act = takeFaultInMark f) ∨
      act = surveyTest := by
  simp only [List.mem_append, List.mem_map, List.mem_cons, List.not_mem_nil, or_false] at h
  rcases h with (⟨e, he, rfl⟩ | rfl | ⟨f, hf, rfl⟩) | ⟨f, hf, rfl⟩ | rfl
  · exact .inl ⟨e, he, rfl⟩
  · exact .inr (.inl rfl)
  · obtain ⟨rfl, failure⟩ := failureFault_eq _ _ hf
    exact .inr (.inr (.inl ⟨rfl, failure⟩))
  · exact .inr (.inr (.inr (.inl ⟨f, by simpa using hf, rfl⟩)))
  · exact .inr (.inr (.inr (.inr rfl)))

end Sys2Proof.Machine
end

section
/-! PROOFS. The cycle mark at the fallback instant, with nothing scheduled (O12). -/

namespace Sys2Proof.Machine

/-! ### The latest stamp (R37) -/

theorem later_of_dominant {L x : StationTime} (h : 0 ≤ (L - x).toInt) : later L x = L ∧ later x L = L := by
  unfold later
  simp only [atOrAfter_iff]
  refine ⟨if_pos h, ?_⟩
  split
  · next back =>
    have := toInt_eq (L - x)
    have := toInt_eq (x - L)
    bv_omega
  · rfl

/-- The stamp that no other member's follows is the latest. -/
theorem latestStamp_eq {members : List TallyMember} {L : StationTime} (mem : ∃ m ∈ members, m.stamp = L)
    (last : ∀ m ∈ members, 0 ≤ (L - m.stamp).toInt) : latestStamp members = L := by
  have isMember : ∀ ms : List TallyMember, ms ≠ [] → ∃ m ∈ ms, latestStamp ms = m.stamp := by
    intro ms
    induction ms with
    | nil => intro h; exact absurd rfl h
    | cons a rest ih =>
      intro _
      cases rest with
      | nil => exact ⟨a, List.mem_cons_self, rfl⟩
      | cons b rest =>
        obtain ⟨m, hm, e⟩ := ih (by simp)
        show ∃ m ∈ a :: b :: rest, later a.stamp (latestStamp (b :: rest)) = m.stamp
        unfold later
        split
        · exact ⟨a, List.mem_cons_self, rfl⟩
        · exact ⟨m, List.mem_cons_of_mem _ hm, e⟩
  induction members with
  | nil => obtain ⟨m, hm, -⟩ := mem; cases hm
  | cons a rest ih =>
    cases rest with
    | nil =>
      obtain ⟨m, hm, e⟩ := mem
      rw [List.mem_singleton.mp hm] at e
      exact e
    | cons b rest =>
      show later a.stamp (latestStamp (b :: rest)) = L
      have behind : ∀ m ∈ b :: rest, 0 ≤ (L - m.stamp).toInt := fun m hm => last m (List.mem_cons_of_mem _ hm)
      obtain ⟨m, hm, e⟩ := mem
      rcases List.mem_cons.mp hm with rfl | hm
      · obtain ⟨x, hx, ex⟩ := isMember (b :: rest) (by simp)
        rw [ex, e]
        exact (later_of_dominant (behind x hx)).1
      · rw [ih ⟨m, hm, e⟩ behind]
        exact (later_of_dominant (last a List.mem_cons_self)).2

/-! ### One act of a mark among the others -/

/-- The acts of a mark that are not the fault of the redundancy state. -/
def OtherAct (s : State) (own : Bool) (act : State → State) : Prop :=
  (∃ e ∈ (s.lmon.marked s.straps own s.now).2, act = handEvent onItsWay e) ∨ act = cruMark ∨
    (act = takeFaultInMark .commutationFailureRepeated ∧
      (s.lmon.marked s.straps own s.now).2.any ValveEvent.isFailure = true) ∨
    act = surveyTest

theorem OtherAct.moves {s : State} {own : Bool} {act : State → State} (h : OtherAct s own act) : OnlyMoves act := by
  rcases h with ⟨e, -, rfl⟩ | rfl | ⟨rfl, -⟩ | rfl
  · exact handEvent_moves (fun _ => Moves.refl) e
  · exact cruMark_moves
  · exact takeFaultInMark_moves _
  · exact surveyTest_moves

/-- A mark that enters a redundancy state with a fault. -/
theorem cycleMark_entered {own : Bool} {s : State} {g : FaultCode}
    (entered : enteredFault s.lmon.redundancy (s.lmon.judged s.straps).redundancy = some g) :
    ∃ fs rest, cycleMark own s = inTurn fs (s.marking own) ∧ fs.Perm (takeFaultInMark g :: rest) ∧
      ∀ act ∈ rest, OtherAct s own act := by
  obtain ⟨fs, run, perm⟩ := cycleMark_acts own s
  rw [entered] at perm
  simp only [Option.toList_some, List.map_cons, List.map_nil, List.cons_append, List.nil_append] at perm
  refine ⟨fs, _, run, perm.trans List.perm_middle, fun act hact => ?_⟩
  simp only [List.mem_append, List.mem_map, List.mem_cons, List.not_mem_nil, or_false] at hact
  rcases hact with (⟨e, he, rfl⟩ | rfl | ⟨f, hf, rfl⟩) | rfl
  · exact .inl ⟨e, he, rfl⟩
  · exact .inr (.inl rfl)
  · obtain ⟨rfl, failure⟩ := failureFault_eq _ _ hf
    exact .inr (.inr (.inl ⟨rfl, failure⟩))
  · exact .inr (.inr (.inr rfl))

/-- A mark that enters no redundancy state with a fault. -/
theorem cycleMark_unentered {own : Bool} {s : State}
    (unentered : enteredFault s.lmon.redundancy (s.lmon.judged s.straps).redundancy = none) :
    ∃ fs, cycleMark own s = inTurn fs (s.marking own) ∧ surveyTest ∈ fs ∧ ∀ act ∈ fs, OtherAct s own act := by
  obtain ⟨fs, run, perm⟩ := cycleMark_acts own s
  rw [unentered] at perm
  refine ⟨fs, run, perm.mem_iff.mpr (by simp), fun act hact => ?_⟩
  rw [← unentered] at perm
  rcases cycleMark_cases (perm.mem_iff.mp hact) with h | h | h | ⟨f, hf, -⟩ | h
  · exact .inl h
  · exact .inr (.inl h)
  · exact .inr (.inr (.inl h))
  · rw [unentered] at hf; cases hf
  · exact .inr (.inr (.inr h))

/-- The acts of a mark, the SURVEY test among them. -/
theorem cycleMark_all (own : Bool) (s : State) :
    ∃ fs, cycleMark own s = inTurn fs (s.marking own) ∧ surveyTest ∈ fs ∧
      ∀ act ∈ fs, OtherAct s own act ∨
        ∃ f, enteredFault s.lmon.redundancy (s.lmon.judged s.straps).redundancy = some f ∧
          act = takeFaultInMark f := by
  obtain ⟨fs, run, perm⟩ := cycleMark_acts own s
  refine ⟨fs, run, perm.mem_iff.mpr (by simp), fun act hact => ?_⟩
  rcases cycleMark_cases (perm.mem_iff.mp hact) with h | h | h | h | h
  · exact .inl (.inl h)
  · exact .inl (.inr (.inl h))
  · exact .inl (.inr (.inr (.inl h)))
  · exact .inr h
  · exact .inl (.inr (.inr (.inr h)))

theorem OtherAct.markView {s : State} {own : Bool} {act : State → State} (h : OtherAct s own act) :
    KeepsMarkView act := by
  rcases h with ⟨e, -, rfl⟩ | rfl | ⟨rfl, -⟩ | rfl
  · exact handEvent_markView (fun _ _ => rfl) e
  · exact cruMark_markView
  · exact takeFaultInMark_markView _
  · exact surveyTest_markView

/-! ### The fault of the redundancy state -/

theorem OtherAct.fault {s : State} {own : Bool} {act : State → State} (h : OtherAct s own act) {g : FaultCode}
    (h1 : g ≠ .bypassConflict) (h2 : g ≠ .commutationFailureRepeated) (t : State) :
    (act t).stc.fault g = t.stc.fault g := by
  rcases h with ⟨e, -, rfl⟩ | rfl | ⟨rfl, -⟩ | rfl
  · rw [handEvent_stc]
  · rw [cruMark_frame]
  · rw [takeFaultInMark_fault _ t h1, if_neg h2.symm]
  · unfold surveyTest
    split
    · split
      · rfl
      · split <;> rfl
    · rfl

/-- A mark enters a fault that is neither the station's own conflict nor a repeated failure where it enters the
redundancy state of it, once, and not otherwise. -/
theorem cycleMark_fault (own : Bool) (s : State) {g : FaultCode} (h1 : g ≠ .bypassConflict)
    (h2 : g ≠ .commutationFailureRepeated) :
    (cycleMark own s).stc.fault g =
      if enteredFault s.lmon.redundancy (s.lmon.judged s.straps).redundancy = some g then
        FaultRecord.occurred (s.stc.fault g)
      else s.stc.fault g := by
  cases entered : enteredFault s.lmon.redundancy (s.lmon.judged s.straps).redundancy with
  | none =>
    obtain ⟨fs, run, -, acts⟩ := cycleMark_unentered (own := own) entered
    rw [run, if_neg (by simp)]
    exact inTurn_keeps (P := fun t => t.stc.fault g = s.stc.fault g) rfl
      fun act hact t k => ((acts act hact).fault h1 h2 t).trans k
  | some f =>
    obtain ⟨fs, rest, run, perm, acts⟩ := cycleMark_entered (own := own) entered
    rw [run]
    exact inTurn_through (P := fun t => t.stc.fault g = s.stc.fault g)
      (Q := fun t => t.stc.fault g =
        if some f = some g then FaultRecord.occurred (s.stc.fault g) else s.stc.fault g)
      perm rfl (fun act hact t k => ((acts act hact).fault h1 h2 t).trans k)
      (fun t k => by rw [takeFaultInMark_fault f t h1, k]; simp)
      (fun act hact t k => ((acts act hact).fault h1 h2 t).trans k)

theorem marking_moves (own : Bool) (s : State) : Moves s (s.marking own) :=
  ((Move.lmon s _ (marked_keeps _ _ _ _)).one.then (Move.drawn _).one).then (Move.drawn _).one

/-- A mark that enters EXHAUSTED trips a station in service. -/
theorem cycleMark_exhausts {own : Bool} {s : State}
    (entered : enteredFault s.lmon.redundancy (s.lmon.judged s.straps).redundancy = some .redundancyExhausted)
    (mode : (s.stc.fault .redundancyExhausted).mode = .trip) (h1 : s.stc.station ≠ .start)
    (h2 : s.stc.station ≠ .inert) : (cycleMark own s).stc.station = .tripped := by
  obtain ⟨fs, rest, run, perm, acts⟩ := cycleMark_entered (own := own) entered
  rw [run]
  exact inTurn_through
    (P := fun t => t.stc.fault .redundancyExhausted = s.stc.fault .redundancyExhausted ∧ Moves s t)
    (Q := fun t => t.stc.station = .tripped) perm ⟨rfl, marking_moves own s⟩
    (fun act hact t k => ⟨((acts act hact).fault (by decide) (by decide) t).trans k.1,
      k.2.then ((acts act hact).moves t)⟩)
    (fun t k => takeFaultInMark_trips (k.1 ▸ mode) (k.2.started h1 h2).1 (k.2.started h1 h2).2)
    (fun act hact t k => ((acts act hact).moves t).tripped k)

/-! ### The SURVEY test of a mark (R172) -/

/-- The station state of a SURVEY test at a mark. -/
def State.surveyedNext (s : State) : Station :=
  if (s.lmon.judged s.straps).redundancy = .exhausted then .tripped
  else if (s.lmon.judged s.straps).unknowns = 0 ∧ s.aru.lock = .locked ∧
      (s.rif.portA.health = .up ∨ s.rif.portB.health = .up) then .blocked
  else .survey

/-- A move leaves every fault's mode. -/
theorem Moves.modes {s t : State} (h : Moves s t) (f : FaultCode) : (t.stc.fault f).mode = (s.stc.fault f).mode := by
  refine h.keeps (P := fun u => (u.stc.fault f).mode = (s.stc.fault f).mode) (fun a b move k => ?_) rfl
  cases move with
  | stc g hk => exact (hk.modes f).trans k
  | originate kind p e => rw [originate_stc]; exact k
  | train => exact k
  | lmon => exact k
  | fcu => exact k
  | cru => exact k
  | drawn => exact k

/-- The SURVEY test within a mark of a station in SURVEY. -/
theorem surveyTest_marking {s t : State} {own : Bool} (moves : Moves s t)
    (lmon : t.lmon = (s.lmon.marked s.straps own s.now).1)
    (station : t.stc.station = .survey ∨ t.stc.station = s.surveyedNext) :
    (surveyTest t).stc.station = s.surveyedNext := by
  by_cases survey : t.stc.station = .survey
  · obtain ⟨-, -, aru, -⟩ := moves.sameFrame
    obtain ⟨a, b⟩ := moves.ringHealth
    have up : t.aRingUp = true ↔ s.rif.portA.health = .up ∨ s.rif.portB.health = .up := by
      simp [State.aRingUp, a, b]
    have counts := marked_frame s.lmon s.straps own s.now
    have redundancy : t.lmon.redundancy = (s.lmon.judged s.straps).redundancy := by rw [lmon, counts]
    have unknowns : t.lmon.unknowns = (s.lmon.judged s.straps).unknowns := by rw [lmon, counts]
    unfold surveyTest State.surveyedNext
    rw [if_pos survey, redundancy, unknowns, aru]
    simp only [up]
    split
    · rfl
    · split
      · rfl
      · exact survey
  · rw [surveyTest_elsewhere survey]
    exact station.resolve_left survey

/-- Within a mark of a station in SURVEY: its test not made, or made. -/
structure InSurveyMark (s : State) (own : Bool) (t : State) : Prop where
  moves : Moves s t
  view : t.markView = (s.marking own).markView
  station : t.stc.station = .survey ∨ t.stc.station = s.surveyedNext

theorem InSurveyMark.tested {s : State} {own : Bool} {t : State} (k : InSurveyMark s own t) :
    (surveyTest t).stc.station = s.surveyedNext :=
  surveyTest_marking k.moves (congrArg Prod.fst k.view) k.station

/-- A station in SURVEY makes its test at the mark, where the mark raises no failure. -/
theorem cycleMark_survey {own : Bool} {s : State} (survey : s.stc.station = .survey)
    (unfailed : (s.lmon.marked s.straps own s.now).2.any ValveEvent.isFailure = false)
    (low : (s.stc.fault .redundancyLow).mode = .report) (exhausted : (s.stc.fault .redundancyExhausted).mode = .trip) :
    (cycleMark own s).stc.station = s.surveyedNext := by
  obtain ⟨fs, run, test, acts⟩ := cycleMark_all own s
  have act_keeps (act : State → State) (hact : act ∈ fs) (t : State) (k : InSurveyMark s own t) :
      InSurveyMark s own (act t) ∧ (t.stc.station = s.surveyedNext → (act t).stc.station = s.surveyedNext) := by
    obtain ⟨moves, view, station⟩ := k
    have same (h : (act t).stc.station = t.stc.station) :
        ((act t).stc.station = .survey ∨ (act t).stc.station = s.surveyedNext) ∧
          (t.stc.station = s.surveyedNext → (act t).stc.station = s.surveyedNext) := by
      rw [h]; exact ⟨station, id⟩
    rcases acts act hact with other | ⟨f, entered, rfl⟩
    · have result : ((act t).stc.station = .survey ∨ (act t).stc.station = s.surveyedNext) ∧
          (t.stc.station = s.surveyedNext → (act t).stc.station = s.surveyedNext) := by
        rcases other with ⟨e, -, rfl⟩ | rfl | ⟨-, failure⟩ | rfl
        · exact same (by rw [handEvent_stc])
        · exact same (by rw [cruMark_frame])
        · rw [unfailed] at failure; cases failure
        · have next := InSurveyMark.tested ⟨moves, view, station⟩
          exact ⟨.inr next, fun _ => next⟩
      exact ⟨⟨moves.then (other.moves t), (other.markView t).trans view, result.1⟩, result.2⟩
    · have result : ((takeFaultInMark f t).stc.station = .survey ∨
            (takeFaultInMark f t).stc.station = s.surveyedNext) ∧
          (t.stc.station = s.surveyedNext → (takeFaultInMark f t).stc.station = s.surveyedNext) := by
        obtain ⟨-, ⟨rfl, -⟩ | ⟨rfl, isExhausted⟩⟩ := (enteredFault_eq_some _ _ _).mp entered
        · exact same (by rw [takeFaultInMark_report ((moves.modes _).trans low)]; rfl)
        · obtain ⟨h1, h2⟩ := moves.started (by rw [survey]; decide) (by rw [survey]; decide)
          have tripped := takeFaultInMark_trips ((moves.modes _).trans exhausted) h1 h2
          have next : s.surveyedNext = .tripped := by unfold State.surveyedNext; rw [if_pos isExhausted]
          rw [next]
          exact ⟨.inr tripped, fun _ => tripped⟩
      exact ⟨⟨moves.then (takeFaultInMark_moves f t), (takeFaultInMark_markView f t).trans view, result.1⟩, result.2⟩
  rw [run]
  exact inTurn_reaches (P := InSurveyMark s own) (Q := fun t => t.stc.station = s.surveyedNext) test
    ⟨marking_moves own s, rfl, .inl survey⟩ (fun act hact t k => (act_keeps act hact t k).1) (fun t k => k.tested)
    (fun act hact t k q => (act_keeps act hact t k).2 q)

/-! ### The events of a mark at their receivers -/

theorem historyEntered_mem_self (h : List FiringNumber) (fn : FiringNumber) : fn ∈ historyEntered h fn := by
  unfold historyEntered
  split
  · next old => simpa using old
  · split <;> simp

/-- A commutation failure at the Coordination Unit: the measurement dropped, the firing number in the history or the
history emptied. -/
theorem handEvent_pfq (r : StationTime) (u : State) :
    (handEvent onItsWay (.pfq r) u).cru.gammaStart = none ∧
      (u.cru.ownFn ∈ (handEvent onItsWay (.pfq r) u).cru.cfHistory ∨
        (handEvent onItsWay (.pfq r) u).cru.cfHistory = []) := by
  have told : (requestCfail u.straps.pos (enterAndTell 2 r (u.onCru fun c => { c with gammaStart := none }))).cru =
      { u.cru with
        gammaStart := none, cfHistory := historyEntered u.cru.cfHistory u.cru.ownFn
        advances := enterRequest u.cru.advances
          { source := u.straps.pos, kind := .cfail, magnitude := 3000, hold := 20 } } := by
    unfold enterAndTell
    rw [originate_frame]
    rfl
  show (cruPfq onItsWay r u).cru.gammaStart = none ∧ (_ ∈ (cruPfq onItsWay r u).cru.cfHistory ∨
    (cruPfq onItsWay r u).cru.cfHistory = [])
  unfold cruPfq detectFailure
  dsimp only
  split
  · exact ⟨(congrArg Cru.gammaStart told).trans rfl,
      .inl ((congrArg Cru.cfHistory told).symm ▸ historyEntered_mem_self _ _)⟩
  · unfold repetitionTest
    split
    · exact ⟨(congrArg Cru.gammaStart told).trans rfl, .inr rfl⟩
    · exact ⟨(congrArg Cru.gammaStart told).trans rfl,
        .inl ((congrArg Cru.cfHistory told).symm ▸ historyEntered_mem_self _ _)⟩

/-- The Coordination Unit of a mark that raises a failure, whatever its faults and its trip. -/
theorem cycleMark_pfq {own : Bool} {s : State} {L : StationTime}
    (event : (s.lmon.marked s.straps own s.now).2 = [.pfq L]) :
    (cycleMark own s).cru.gammaStart = none ∧
      (s.cru.ownFn ∈ (cycleMark own s).cru.cfHistory ∨ (cycleMark own s).cru.cfHistory = []) := by
  obtain ⟨fs, run, perm⟩ := cycleMark_acts own s
  rw [event] at perm
  rw [run]
  have leaves (f : FaultCode) (t : State) : (takeFaultInMark f t).cru.gammaStart = t.cru.gammaStart ∧
      (takeFaultInMark f t).cru.cfHistory = t.cru.cfHistory ∧ (takeFaultInMark f t).cru.ownFn = t.cru.ownFn := by
    obtain ⟨watch, h⟩ := takeFaultInMark_cru f t
    rw [h]
    exact ⟨rfl, rfl, rfl⟩
  have rest (act : State → State)
      (is : act = cruMark ∨ (∃ f, act = takeFaultInMark f) ∨ act = surveyTest) (t : State) :
      (act t).cru.gammaStart = t.cru.gammaStart ∧ (act t).cru.cfHistory = t.cru.cfHistory ∧
        (act t).cru.ownFn = t.cru.ownFn := by
    rcases is with rfl | ⟨f, rfl⟩ | rfl
    · rw [cruMark_frame]; exact ⟨rfl, rfl, rfl⟩
    · exact leaves f t
    · rw [surveyTest_frame]; exact ⟨rfl, rfl, rfl⟩
  have kinds (act : State → State) (h : act ∈ [] ++ (cruMark :: (failureFault [.pfq L] s).map takeFaultInMark) ++
      ((enteredFault s.lmon.redundancy (s.lmon.judged s.straps).redundancy).toList.map takeFaultInMark ++
        [surveyTest])) :
      act = cruMark ∨ (∃ f, act = takeFaultInMark f) ∨ act = surveyTest := by
    simp only [List.mem_append, List.mem_map, List.mem_cons, List.not_mem_nil, or_false, false_or] at h
    rcases h with (rfl | ⟨f, -, rfl⟩) | ⟨f, -, rfl⟩ | rfl
    · exact .inl rfl
    · exact .inr (.inl ⟨f, rfl⟩)
    · exact .inr (.inl ⟨f, rfl⟩)
    · exact .inr (.inr rfl)
  refine inTurn_through (P := fun t => t.cru.ownFn = s.cru.ownFn)
    (Q := fun t => t.cru.gammaStart = none ∧ (s.cru.ownFn ∈ t.cru.cfHistory ∨ t.cru.cfHistory = []))
    (g := handEvent onItsWay (.pfq L)) perm rfl (fun act hact t k => ((rest act (kinds act hact) t).2.2).trans k)
    (fun t k => ?_) (fun act hact t k => ?_)
  · rw [← k]; exact handEvent_pfq L t
  · obtain ⟨gamma, history, -⟩ := rest act (kinds act hact) t
    rw [gamma, history]; exact k

/-- The reading of a HEALTH does not change with the queues. -/
theorem healthBytes_originated {s t : State} (lmon : t.lmon = s.lmon) (aru : t.aru = s.aru) (cru : t.cru = s.cru)
    (stc : t.stc = s.stc) (a : t.rif.portA.health = s.rif.portA.health)
    (b : t.rif.portB.health = s.rif.portB.health) : healthBytes t = healthBytes s := by
  simp only [healthBytes, lmon, aru, cru, stc, a, b]

/-- An XT at its two receivers (R12, R155, R159, R190). -/
theorem handEvent_xt (L : StationTime) (phase : ValvePhase) (u : State) :
    handEvent onItsWay (.xt L phase) u =
      { u with
        lca := { u.lca with train := trainAfterXt L u.lca.train }
        cru := if phase = .recovery then u.cruAfterXt L else u.cru
        rif :=
          if phase = .recovery ∧ u.stc.station = .firing then
            u.rif.originated .health (healthBytes { u with cru := u.cruAfterXt L }) (some L)
          else u.rif } := by
  have lca : lcaXt L u = { u with lca := { u.lca with train := trainAfterXt L u.lca.train } } := by
    rw [← trainXt_eq]; rfl
  show cruXt L phase (lcaXt L u) = _
  rw [lca]
  by_cases recovery : phase = .recovery
  · rw [recovery, cruXt_recovery]
    by_cases firing : u.stc.station = .firing
    · rw [if_pos (by exact firing), originateHealth_active (by simp [firing]) (by simp [firing])]
      simp only [firing, and_self, if_true]
      rfl
    · rw [if_neg (by exact firing)]
      simp only [firing, and_false, if_true, if_false]
      rfl
  · unfold cruXt
    simp only [recovery, false_and, if_false]

/-- A SURVEY test leaves the state, or takes a station in SURVEY to TRIPPED or BLOCKED. -/
theorem surveyTest_cases (u : State) :
    surveyTest u = u ∨ u.stc.station = .survey ∧ (surveyTest u = u.enter .tripped ∨ surveyTest u = u.enter .blocked) := by
  by_cases survey : u.stc.station = .survey
  · unfold surveyTest
    rw [if_pos survey]
    split
    · exact .inr ⟨survey, .inl rfl⟩
    · split
      · exact .inr ⟨survey, .inr rfl⟩
      · exact .inl rfl
  · exact .inl (surveyTest_elsewhere survey)

/-- A SURVEY test leaves what an XT reads, but in the hold. -/
theorem cruAfterXt_surveyTest {u : State} (L : StationTime) (h : u.stc.holdRunning = false ∨ u.stc.station = .tripped) :
    (surveyTest u).cruAfterXt L = u.cruAfterXt L := by
  by_cases survey : u.stc.station = .survey
  · have hold := h.resolve_right (by rw [survey]; decide)
    have before : ¬(u.stc.station = .firing ∨ u.inHold = true) := by simp [State.inHold, survey]
    have after : ¬((surveyTest u).stc.station = .firing ∨ (surveyTest u).inHold = true) := by
      rcases surveyTest_cases u with h | ⟨-, h | h⟩ <;> rw [h]
      · exact before
      · simp [State.inHold, hold]
      · simp [State.inHold]
    have cru : (surveyTest u).cru = u.cru := by rw [surveyTest_frame]
    unfold State.cruAfterXt
    rw [if_neg before, if_neg after, cru]
  · rw [surveyTest_elsewhere survey]

/-- An XT that a mark raises, where the mark keeps the redundancy state. -/
theorem cycleMark_xt {s : State} {L : StationTime} {phase : ValvePhase}
    (event : (s.lmon.marked s.straps false s.now).2 = [.xt L phase])
    (same : (s.lmon.judged s.straps).redundancy = s.lmon.redundancy) :
    (cycleMark false s).lca.train = trainAfterXt L s.lca.train ∧
      (s.stc.holdRunning = false ∨ s.stc.station = .tripped →
        (cycleMark false s).cru = if phase = .recovery then s.cruAfterXt L else s.cru) ∧
      (s.stc.station = .firing →
        (cycleMark false s).rif =
          if phase = .recovery then s.rif.originated .health (healthBytes (cycleMark false s)) (some L) else s.rif) := by
  have orders := cycleMark_of_event event rfl same
  have mark (u : State) : (cruMark u).lca = u.lca ∧ (cruMark u).cru = u.cru := by
    rw [cruMark_frame]; exact ⟨rfl, rfl⟩
  have test (u : State) : (surveyTest u).lca = u.lca ∧ (surveyTest u).cru = u.cru := by
    rw [surveyTest_frame]; exact ⟨rfl, rfl⟩
  refine ⟨?_, fun hold => ?_, fun firing => ?_⟩
  · rcases orders with h | h | h <;> rw [h]
    · rw [(test _).1, (mark _).1, handEvent_xt]; rfl
    · rw [(mark _).1, (test _).1, handEvent_xt]; rfl
    · rw [(mark _).1, handEvent_xt, (test _).1]; rfl
  · rcases orders with h | h | h <;> rw [h]
    · rw [(test _).2, (mark _).2, handEvent_xt]; rfl
    · rw [(mark _).2, (test _).2, handEvent_xt]; rfl
    · rw [(mark _).2, handEvent_xt]
      dsimp only
      rw [cruAfterXt_surveyTest L (by exact hold), (test _).2]
      rfl
  · have run : cycleMark false s = handEvent onItsWay (.xt L phase) (s.marking false) := by
      have still : (handEvent onItsWay (.xt L phase) (s.marking false)).stc.station = .firing := by
        rw [handEvent_stc]; exact firing
      have marked : cruMark (handEvent onItsWay (.xt L phase) (s.marking false)) =
          handEvent onItsWay (.xt L phase) (s.marking false) := by
        rw [cruMark_eq, if_neg (by simp [still])]
      have idle : surveyTest (s.marking false) = s.marking false :=
        surveyTest_elsewhere (by show s.stc.station ≠ .survey; simp [firing])
      rcases orders with h | h | h <;> rw [h]
      · rw [marked, surveyTest_elsewhere (by simp [still])]
      · rw [surveyTest_elsewhere (by simp [still]), marked]
      · rw [idle, marked]
    by_cases recovery : phase = .recovery
    · have bytes : healthBytes (cycleMark false s) =
          healthBytes { s.marking false with cru := (s.marking false).cruAfterXt L } := by
        rw [run, handEvent_xt]
        simp only [recovery, if_true, true_and]
        rw [if_pos (by exact firing)]
        exact healthBytes_withRif { s.marking false with cru := (s.marking false).cruAfterXt L } _ _ _
      rw [if_pos recovery, bytes, run, handEvent_xt]
      simp only [recovery, true_and]
      rw [if_pos (by exact firing)]
      rfl
    · rw [if_neg recovery, run, handEvent_xt]
      simp only [recovery, false_and, if_false]
      rfl

/-- An FV event in RECOVERY that ends a measurement at or after its start, with any alarm. -/
theorem handEvent_fv {u : State} {L g : StationTime} (start : u.cru.gammaStart = some g)
    (after : 0 ≤ (L - g).toInt) :
    (handEvent onItsWay (.fv L .recovery) u).cru.gammaStart = none ∧
      (handEvent onItsWay (.fv L .recovery) u).cru.gammaLast =
        min 36000 ((L - g).toInt.toNat * 36000 / u.aru.period) := by
  have alarm (γ : Nat) (x : State) : (marginAlarm γ L x).cru.gammaStart = x.cru.gammaStart ∧
      (marginAlarm γ L x).cru.gammaLast = x.cru.gammaLast := by
    unfold marginAlarm
    split
    · unfold requestMargin
      rw [originate_frame]
      split <;> exact ⟨rfl, rfl⟩
    · exact ⟨rfl, rfl⟩
  show (cruFv L .recovery u).cru.gammaStart = none ∧ (cruFv L .recovery u).cru.gammaLast = _
  rw [(cruFv_cases u L).1 g start after]
  exact alarm _ _

theorem cycleMark_fv {s : State} {L g : StationTime}
    (event : (s.lmon.marked s.straps false s.now).2 = [.fv L .recovery])
    (same : (s.lmon.judged s.straps).redundancy = s.lmon.redundancy) (start : s.cru.gammaStart = some g)
    (after : 0 ≤ (L - g).toInt) :
    (cycleMark false s).cru.gammaStart = none ∧
      (cycleMark false s).cru.gammaLast = min 36000 ((L - g).toInt.toNat * 36000 / s.aru.period) := by
  have mark (u : State) : (cruMark u).cru = u.cru := by rw [cruMark_frame]
  have test (u : State) : (surveyTest u).cru = u.cru ∧ (surveyTest u).aru = u.aru := by
    rw [surveyTest_frame]; exact ⟨rfl, rfl⟩
  rcases cycleMark_of_event event rfl same with h | h | h <;> rw [h]
  · rw [(test _).1, mark]
    exact handEvent_fv (u := s.marking false) start after
  · rw [mark, (test _).1]
    exact handEvent_fv (u := s.marking false) start after
  · rw [mark]
    have := handEvent_fv (u := surveyTest (s.marking false)) ((congrArg Cru.gammaStart (test _).1).trans start) after
    rwa [(test _).2] at this

/-- A mark that raises no event and keeps the redundancy state: one HEALTH at a station in service that does not fire,
and the SURVEY test. -/
theorem cycleMark_eventless {s : State} {own : Bool} (none : (s.lmon.marked s.straps own s.now).2 = [])
    (same : (s.lmon.judged s.straps).redundancy = s.lmon.redundancy) :
    cycleMark own s =
        { s with
          lmon := (cycleMark own s).lmon, rif := (cycleMark own s).rif, stc := (cycleMark own s).stc
          freeCount := s.freeCount + 2 } ∧
      (s.stc.station ≠ .survey →
        (cycleMark own s).stc = s.stc ∧
          (cycleMark own s).rif =
            if s.stc.station = .blocked ∨ s.stc.station = .bypass ∨ s.stc.station = .tripped then
              s.rif.originated .health (healthBytes (cycleMark own s)) Option.none
            else s.rif) ∧
      (s.stc.station = .survey →
        (cycleMark own s).rif = s.rif.originated .health (healthBytes (cycleMark own s)) Option.none ∨
          (cycleMark own s).rif =
            s.rif.originated .health (healthBytes { cycleMark own s with stc := s.stc }) Option.none) := by
  have orders := cycleMark_of_none none same
  refine ⟨?_, fun away => ?_, fun survey => ?_⟩
  · rcases orders with h | h <;> rw [h, surveyTest_frame, cruMark_frame] <;> rfl
  · have idle : surveyTest (s.marking own) = s.marking own := surveyTest_elsewhere (by exact away)
    have idle' : surveyTest (cruMark (s.marking own)) = cruMark (s.marking own) :=
      surveyTest_elsewhere (by rw [cruMark_frame]; exact away)
    have run : cycleMark own s = cruMark (s.marking own) := by
      rcases orders with h | h
      · rw [h, idle']
      · rw [h, idle]
    rw [run]
    refine ⟨by rw [cruMark_frame]; rfl, ?_⟩
    rw [cruMark_eq]
    by_cases serves : s.stc.station = .blocked ∨ s.stc.station = .bypass ∨ s.stc.station = .tripped
    · rw [if_pos (by exact .inr serves), if_pos serves]
      exact congrArg (fun b => s.rif.originated .health b Option.none)
        (healthBytes_withRif (s.marking own) .health _ _).symm
    · rw [if_neg (by rintro (h | h); exacts [away h, serves h]), if_neg serves]
      rfl
  · rcases orders with h | h <;> rw [h]
    · right
      rw [surveyTest_frame, cruMark_eq, if_pos (by exact .inl survey)]
      exact congrArg (fun b => s.rif.originated .health b Option.none)
        (healthBytes_withRif (s.marking own) .health _ _).symm
    · left
      have serves : (surveyTest (s.marking own)).stc.station = .survey ∨
          (surveyTest (s.marking own)).stc.station = .blocked ∨ (surveyTest (s.marking own)).stc.station = .bypass ∨
          (surveyTest (s.marking own)).stc.station = .tripped := by
        rcases surveyTest_cases (s.marking own) with h | ⟨-, h | h⟩ <;> rw [h]
        · exact .inl survey
        · simp
        · simp
      rw [cruMark_eq, if_pos serves]
      have rif : (surveyTest (s.marking own)).rif = s.rif := by rw [surveyTest_frame]; rfl
      have bytes := healthBytes_withRif (surveyTest (s.marking own)) .health
        (healthBytes (surveyTest (s.marking own))) Option.none
      rw [bytes]
      rw [rif]

end Sys2Proof.Machine
end

section
/-! PROOFS. The cycle mark at the fallback instant (O12). -/

namespace Sys2Proof.Machine

/-- A tally at the mark as the levels after the mark give it. -/
theorem atMark_cycleMark (own : Bool) (s : State) (y : Tally) :
    (if y.armed = true then
      { y with members := y.members.filter fun m => ((cycleMark own s).level m.level).state ≠ .failed } else y) =
      y.atMark (s.lmon.judged s.straps).levels := by
  rw [atMark_judged y s.lmon s.straps own s.now, ← cycleMark_lmon]
  rfl

/-- The counts after a mark are those of the records after it. -/
theorem cycleMark_counts (own : Bool) (s : State) :
    (cycleMark own s).lmon.failed = recordsIn (cycleMark own s) .failed ∧
      (cycleMark own s).lmon.suspects = recordsIn (cycleMark own s) .suspect ∧
      (cycleMark own s).lmon.unknowns = recordsIn (cycleMark own s) .unknown := by
  simp only [recordsIn_eq, cycleMark_lmon, cycleMark_straps, marked_countIn]
  rw [marked_frame]
  exact ⟨rfl, rfl, rfl⟩

theorem cycleMark_redundancy (own : Bool) (s : State) :
    (cycleMark own s).lmon.redundancy = (s.lmon.judged s.straps).redundancy := by
  rw [cycleMark_lmon, marked_frame]

/-- A mark whose PF tally is not at its quorum in RECOVERY raises no failure. -/
theorem marked_unfailed {m : Lmon} {straps : Straps} {own : Bool} {now : StationTime}
    (h : (m.judged straps).adjusted.pf.full (pfQuorum (m.judged straps).counted) → m.phase ≠ .recovery) :
    (m.marked straps own now).2.any ValveEvent.isFailure = false := by
  by_cases rv : (m.judged straps).adjusted.rv.full (quorum (m.judged straps).counted)
  · rw [marked_of_rv rv]; rfl
  by_cases fv : (m.judged straps).adjusted.fv.full (quorum (m.judged straps).counted)
  · rw [marked_of_fv rv fv]; rfl
  · rw [marked_of_none rv fv fun k => h k.1 k.2]; rfl

/-- Settles O12: the mark at the fallback instant, with nothing scheduled. -/
theorem fallbackInstantTakesTheCycleMark : Obligations.FallbackInstantTakesTheCycleMark := by
  intro s taken fallback unscheduled
  have redundancy := cycleMark_redundancy false s
  have counted : (cycleMark false s).lmon.counted = (s.lmon.judged s.straps).counted := by
    rw [cycleMark_lmon, marked_frame]
  have view := cycleMark_markView false s
  simp only [State.markView, Prod.mk.injEq] at view
  obtain ⟨lmon, now, straps, aru, channels, pending, handed, -⟩ := view
  obtain ⟨failed, suspects, unknowns⟩ := cycleMark_counts false s
  refine ⟨cycleMark false s, exec_fallback taken fallback unscheduled, by simp, cycleMark_schedule _ unscheduled,
    fun i live => ?_, failed, suspects, unknowns, ?_, ?_, now, straps, aru, channels, pending, handed, ?_⟩
  · obtain ⟨last, e⟩ := cycleMark_level false s i
    rw [e, judged_level, if_pos live]
    exact ⟨rfl, rfl, rfl, rfl, rfl⟩
  · rw [cycleMark_lmon, marked_frame]; rfl
  · rw [cycleMark_lmon, marked_frame]; rfl
  intro left full half quarter
  have leftEq : ∀ y, left y = y.atMark (s.lmon.judged s.straps).levels := atMark_cycleMark false s
  have fullEq : ∀ y q, full y q ↔ (y.atMark (s.lmon.judged s.straps).levels).full q := fun y q => by
    show (y.armed = true ∧ q ≤ (left y).members.length) ↔ _
    rw [leftEq, Tally.full, atMark_armed]
  have halfEq : half = quorum (s.lmon.judged s.straps).counted := by
    show (cycleMark false s).lmon.counted / 2 + 1 = _
    rw [counted]; rfl
  have quarterEq : quarter = pfQuorum (s.lmon.judged s.straps).counted := by
    show (cycleMark false s).lmon.counted / 4 + 1 = _
    rw [counted]; rfl
  clear_value full half quarter
  subst halfEq quarterEq
  have plain (h : s.lmon.phase ≠ .recovery ∨
      ¬full s.lmon.pf (pfQuorum (s.lmon.judged s.straps).counted)) :
      (s.lmon.marked s.straps false s.now).2.any ValveEvent.isFailure = false :=
    marked_unfailed fun pf phase => h.elim (absurd phase) fun short => short ((fullEq _ _).mpr pf)
  refine ⟨?_, ?_⟩
  · intro entered counted low exhausted lowMode exhaustedMode
    have entersLow : enteredFault s.lmon.redundancy (s.lmon.judged s.straps).redundancy = some .redundancyLow ↔
        entered .last := by
      rw [enteredFault_eq_some, ← redundancy]
      simp only [reduceCtorEq, true_and, false_and, or_false]
      exact ⟨fun h => ⟨h.2 ▸ h.1, h.2⟩, fun h => ⟨h.2.symm ▸ h.1, h.2⟩⟩
    have entersExhausted : enteredFault s.lmon.redundancy (s.lmon.judged s.straps).redundancy =
        some .redundancyExhausted ↔ entered .exhausted := by
      rw [enteredFault_eq_some, ← redundancy]
      simp only [reduceCtorEq, true_and, false_and, false_or]
      exact ⟨fun h => ⟨h.2 ▸ h.1, h.2⟩, fun h => ⟨h.2.symm ▸ h.1, h.2⟩⟩
    refine ⟨?_, ?_, fun enters h1 h2 => ?_, fun survey unfailed => ?_⟩
    · rw [cycleMark_fault false s (by decide) (by decide)]
      simp only [entersLow]
      rw [occurred_eq (by rw [lowMode]; decide)]
    · rw [cycleMark_fault false s (by decide) (by decide)]
      simp only [entersExhausted]
      rw [occurred_eq (by rw [exhaustedMode]; decide)]
    · have tripped := cycleMark_exhausts (own := false) (entersExhausted.mpr enters) exhaustedMode h1 h2
      refine ⟨tripped, fun moved => ?_⟩
      have lines := (cycleMark_moves false s).movedLines (by rw [tripped]; exact moved.symm)
      rw [tripped] at lines
      exact lines
    · have next := cycleMark_survey (own := false) survey (plain unfailed) lowMode exhaustedMode
      have nextEq : s.surveyedNext =
          if (cycleMark false s).lmon.redundancy = .exhausted then Station.tripped
          else if (cycleMark false s).lmon.unknowns = 0 ∧ s.aru.lock = .locked ∧
              (s.rif.portA.health = .up ∨ s.rif.portB.health = .up) then .blocked
          else .survey := by
        unfold State.surveyedNext
        rw [redundancy, cycleMark_lmon, marked_frame]
      intro target
      have target_eq : s.surveyedNext = target := nextEq
      clear_value target
      rw [← target_eq]
      refine ⟨next, fun moved => ?_⟩
      have lines := (cycleMark_moves false s).movedLines (by rw [next, survey]; exact moved)
      rw [next] at lines
      refine ⟨lines.1, lines.2.trans ?_⟩
      have range : s.surveyedNext = .tripped ∨ s.surveyedNext = .blocked ∨ s.surveyedNext = .survey := by
        unfold State.surveyedNext
        split
        · exact .inl rfl
        · split
          · exact .inr (.inl rfl)
          · exact .inr (.inr rfl)
      rcases range with h | h | h <;> rw [h] <;> rfl
  · intro latest from_ off judged same
    have latestEq : ∀ y L, latest y L → latestStamp (y.atMark (s.lmon.judged s.straps).levels).members = L :=
      fun y L h => latestStamp_eq (leftEq y ▸ h.1) (leftEq y ▸ h.2)
    have offEq : ∀ y, off y = { y.atMark (s.lmon.judged s.straps).levels with armed := false } := fun y => by
      show { left y with armed := false } = _
      rw [leftEq]
    have judgedEq : judged = { s.lmon.judged s.straps with levels := (cycleMark false s).lmon.levels } := by
      have counts := marked_frame s.lmon s.straps false s.now
      rw [← cycleMark_lmon] at counts
      show { s.lmon with
        levels := (cycleMark false s).lmon.levels, failed := (cycleMark false s).lmon.failed
        suspects := (cycleMark false s).lmon.suspects, unknowns := (cycleMark false s).lmon.unknowns
        counted := (cycleMark false s).lmon.counted, redundancy := (cycleMark false s).lmon.redundancy
        markTaken := true, quorumXt := false, quorumFv := false, cfCycle := false } = _
      rw [counts]
      rfl
    have sameEq (h : same) : (s.lmon.judged s.straps).redundancy = s.lmon.redundancy := redundancy.symm.trans h
    clear_value latest off judged left
    subst judgedEq
    refine ⟨fun L rv last phase => ?_, fun L fv last idle phase => ?_, fun L pf last idle short phase => ?_,
      fun rv fv pf => ?_⟩
    · have e := marked_of_rv (own := false) (now := s.now) ((fullEq _ _).mp rv)
      have stamp := latestEq _ _ last
      have event : (s.lmon.marked s.straps false s.now).2 = [.xt L (phaseAfterXt s.lmon.phase)] := by
        rw [e, ← stamp]; rfl
      refine ⟨?_, fun h => ?_⟩
      · rw [cycleMark_lmon, e, offEq, ← stamp]
        rcases phase with phase | phase
        · rw [if_pos phase]
          simp only [Lmon.atXt, Lmon.adjusted, phaseAfterXt, show (s.lmon.judged s.straps).phase = _ from phase]
          rfl
        · rw [if_neg (by rw [phase]; decide)]
          simp only [Lmon.atXt, Lmon.adjusted, phaseAfterXt, show (s.lmon.judged s.straps).phase = _ from phase]
          rfl
      · obtain ⟨train, cru, rif⟩ := cycleMark_xt event (sameEq h)
        have recovers : phaseAfterXt s.lmon.phase = .recovery ↔ s.lmon.phase = .conducting := by
          rcases phase with phase | phase <;> rw [phase] <;> decide
        simp only [recovers] at cru rif
        exact ⟨train, cru, rif⟩
    · have idle' : ¬(s.lmon.judged s.straps).adjusted.rv.full (quorum (s.lmon.judged s.straps).counted) := by
        rintro ⟨armed, -⟩
        rw [show (s.lmon.judged s.straps).adjusted.rv.armed = s.lmon.rv.armed from atMark_armed _ _, idle] at armed
        cases armed
      have e := marked_of_fv (own := false) (now := s.now) idle' ((fullEq _ _).mp fv)
      have stamp := latestEq _ _ last
      have event : (s.lmon.marked s.straps false s.now).2 = [.fv L s.lmon.phase] := by rw [e, ← stamp]; rfl
      refine ⟨?_, fun h g recovery start after => ?_⟩
      · have unarmed : (s.lmon.rv.atMark (s.lmon.judged s.straps).levels).armed = false := by
          rw [atMark_armed, idle]
        rw [cycleMark_lmon, e, offEq, leftEq, ← stamp]
        rcases phase with phase | phase
        · have resumed : ((s.lmon.judged s.straps).adjusted.atFv
              (latestStamp (s.lmon.judged s.straps).adjusted.fv.members)).resumed false s.now =
              { (s.lmon.judged s.straps).adjusted.atFv
                  (latestStamp (s.lmon.judged s.straps).adjusted.fv.members) with rv := from_ s.now } := by
            have rv : ((s.lmon.judged s.straps).adjusted.atFv
                (latestStamp (s.lmon.judged s.straps).adjusted.fv.members)).rv =
                s.lmon.rv.atMark (s.lmon.judged s.straps).levels :=
              if_neg (by rw [show (s.lmon.judged s.straps).adjusted.phase = _ from phase]; decide)
            unfold Lmon.resumed
            rw [if_pos ⟨rfl, rfl, by rw [rv, unarmed]; rfl⟩]
            rfl
          rw [resumed, if_neg (by rw [phase]; decide)]
          rfl
        · have rv : ((s.lmon.judged s.straps).adjusted.atFv
              (latestStamp (s.lmon.judged s.straps).adjusted.fv.members)).rv =
              from_ (latestStamp (s.lmon.judged s.straps).adjusted.fv.members) := if_pos phase
          have resumed : ((s.lmon.judged s.straps).adjusted.atFv
              (latestStamp (s.lmon.judged s.straps).adjusted.fv.members)).resumed false s.now =
              { (s.lmon.judged s.straps).adjusted.atFv
                  (latestStamp (s.lmon.judged s.straps).adjusted.fv.members) with
                rv := from_ (latestStamp (s.lmon.judged s.straps).adjusted.fv.members) } := by
            unfold Lmon.resumed
            rw [if_neg (by rw [rv]; rintro ⟨-, -, h⟩; cases h), ← rv]
          rw [resumed, if_pos phase]
          rfl
      · rw [recovery] at event
        exact cycleMark_fv event (sameEq h) start after
    · have idle' : ¬(s.lmon.judged s.straps).adjusted.rv.full (quorum (s.lmon.judged s.straps).counted) := by
        rintro ⟨armed, -⟩
        rw [show (s.lmon.judged s.straps).adjusted.rv.armed = s.lmon.rv.armed from atMark_armed _ _, idle] at armed
        cases armed
      have e := marked_of_pf (own := false) (now := s.now) idle' (fun k => short ((fullEq _ _).mpr k))
        ((fullEq _ _).mp pf) phase
      have stamp := latestEq _ _ last
      have event : (s.lmon.marked s.straps false s.now).2 = [.pfq L] := by rw [e, ← stamp]; rfl
      obtain ⟨gamma, history⟩ := cycleMark_pfq event
      refine ⟨?_, fun i live unfailed => ?_, gamma, history⟩
      · have cleared : (s.lmon.fv.atMark (s.lmon.judged s.straps).levels).clearDisarm =
            { s.lmon.fv with armed := false, members := [] } := by
          unfold Tally.atMark
          split <;> rfl
        rw [cycleMark_lmon, e, offEq, ← stamp, ← cleared]
        rfl
      · have level : (cycleMark false s).level i = ((s.lmon.judged s.straps).levels.get i).restarted := by
          rw [State.level, cycleMark_lmon, e]
          simp only [Lmon.atPfq, get_mapFinIdx, if_pos live]
          rfl
        rw [level] at unfailed ⊢
        rw [restarted_state] at unfailed
        unfold Level.restarted
        rw [if_neg unfailed]
    · have e := marked_of_none (own := false) (now := s.now) (fun k => rv ((fullEq _ _).mpr k))
        (fun k => fv ((fullEq _ _).mpr k)) (fun k => pf.elim (fun h => h ((fullEq _ _).mpr k.1)) (absurd k.2))
      refine ⟨?_, fun h => ?_⟩
      · rw [cycleMark_lmon, e, leftEq, leftEq, leftEq]
        unfold Lmon.resumed
        by_cases resumes : s.lmon.phase = .forward ∧ s.lmon.rv.armed = false
        · rw [if_pos resumes, if_pos]
          · rfl
          · refine ⟨rfl, resumes.1, ?_⟩
            rw [show (s.lmon.judged s.straps).adjusted.rv.armed = s.lmon.rv.armed from atMark_armed _ _, resumes.2]
            rfl
        · rw [if_neg resumes, if_neg]
          · rfl
          · rintro ⟨-, forward, unarmed⟩
            rw [show (s.lmon.judged s.straps).adjusted.rv.armed = s.lmon.rv.armed from atMark_armed _ _] at unarmed
            exact resumes ⟨forward, by simpa using unarmed⟩
      · exact cycleMark_eventless (by rw [e]) (sameEq h)

end Sys2Proof.Machine
end

section
/-! PROOFS. The own firing instant: what its three receivers make of it, in any order (O26, O27). -/

namespace Sys2Proof.Machine

/-! ### Cancellations that agree -/

/-- A fault taken reads its cancellation at states with the schedule it stands at alone. -/
theorem takeFaultWith_congr {cancel cancel' : State → State} (f : FaultCode) {s : State}
    (h : ∀ u, u.fcu = s.fcu → cancel u = cancel' u) : takeFaultWith cancel f s = takeFaultWith cancel' f s := by
  have tripped (u : State) (k : u.fcu = s.fcu) : trip cancel f u = trip cancel' f u := by
    by_cases firing : u.stc.station = .firing
    · have fcu : (u.trippedBy f).fcu = s.fcu := by
        have adopted (b : BypassOrder) (v : State) : (adoptAtTrip b v).fcu = v.fcu := by
          unfold adoptAtTrip
          split
          · rw [membershipActs_inTurn]; rfl
          · rfl
          · rfl
        exact ((adopted _ _).trans (originate_fcu _ _ _ _)).trans k
      rw [trip_in_firing _ _ firing, trip_in_firing _ _ firing]
      split
      · rfl
      · exact h _ fcu
    · rw [trip_outside_firing _ _ firing, trip_outside_firing _ _ firing]
  unfold takeFaultWith
  dsimp only
  split
  · exact tripped _ rfl
  · split
    · unfold blockByFault
      dsimp only
      split
      · exact tripped _ rfl
      · exact h _ rfl
    · rfl
  · rfl
  · rfl

/-- With nothing scheduled a fault cancels nothing, so that it is taken as within a mark. -/
theorem takeFault_unscheduled {f : FaultCode} {s : State} (h : s.fcu.schedule = none) :
    takeFault f s = takeFaultInMark f s :=
  takeFaultWith_congr f fun u k => by
    have none : u.fcu.schedule = none := by rw [k, h]
    rw [cancelSchedule_eq (.inl none)]
    rfl

theorem takeFaultInMark_fcu {f : FaultCode} {s : State} (h : s.fcu.schedule = none) :
    (takeFaultInMark f s).fcu = s.fcu := by
  have discards (u : State) (k : u.fcu = s.fcu) : discardSchedule u = u := by
    show { u with fcu := { u.fcu with schedule := none } } = u
    have none : u.fcu.schedule = none := by rw [k, h]
    rw [← none]
  have same : takeFaultInMark f s = takeFaultWith id f s := takeFaultWith_congr f discards
  have adopted (b : BypassOrder) (v : State) : (adoptAtTrip b v).fcu = v.fcu := by
    unfold adoptAtTrip
    split
    · rw [membershipActs_inTurn]; rfl
    · rfl
    · rfl
  have tripped (u : State) : (trip id f u).fcu = u.fcu := by
    by_cases firing : u.stc.station = .firing
    · rw [trip_in_firing _ _ firing]
      split <;> exact (adopted _ _).trans (originate_fcu _ _ _ _)
    · rw [trip_outside_firing _ _ firing]
  rw [same]
  unfold takeFaultWith
  dsimp only
  split
  · exact tripped _
  · split
    · unfold blockByFault
      dsimp only
      split
      · exact tripped _
      · rfl
    · rfl
  · rfl
  · rfl

/-- A mark with nothing scheduled leaves the Firing Computation Unit. -/
theorem cycleMark_fcu {own : Bool} {s : State} (h : s.fcu.schedule = none) : (cycleMark own s).fcu = s.fcu :=
  cycleMark_keeps (P := fun t => t.fcu = s.fcu) own s rfl (fun e t k => (handEvent_fcu e t).trans k)
    (fun t k => by rw [cruMark_frame]; exact k) (fun f t k => (takeFaultInMark_fcu (by rw [k, h])).trans k)
    (fun t k => by rw [surveyTest_frame]; exact k)

/-! ### What a mark leaves of the firing sequence -/

/-- What the firing sequence of chapter 8 reads and writes of the Coordination Unit. -/
def Cru.firingView (c : Cru) : Option Predecessor × Nat × Bool × Bool × FiringNumber × Bool :=
  (c.predecessor, c.missCount, c.inversionMark, c.firedSince, c.ownFn, c.ownFnValid)

theorem handEvent_firingView (e : ValveEvent) (u : State) :
    (handEvent onItsWay e u).cru.firingView = u.cru.firingView := by
  cases e with
  | xt L phase =>
    rw [handEvent_xt]
    dsimp only
    split <;> rfl
  | fv L phase =>
    have alarm (γ : Nat) (x : State) : (marginAlarm γ L x).cru.firingView = x.cru.firingView := by
      unfold marginAlarm
      split
      · unfold requestMargin
        rw [originate_frame]
        split <;> rfl
      · rfl
    show (cruFv L phase u).cru.firingView = _
    unfold cruFv
    split
    · rfl
    · split
      · split
        · rfl
        · exact (alarm _ _).trans rfl
      · rfl
  | pfq L =>
    show (cruPfq onItsWay L u).cru.firingView = _
    unfold cruPfq detectFailure enterAndTell
    dsimp only
    rw [originate_frame]
    split
    · rfl
    · unfold repetitionTest
      split <;> rfl

theorem takeFaultInMark_firingView (f : FaultCode) (u : State) :
    (takeFaultInMark f u).cru.firingView = u.cru.firingView := by
  obtain ⟨watch, h⟩ := takeFaultInMark_cru f u
  rw [h]
  rfl

theorem cycleMark_firingView (own : Bool) (s : State) : (cycleMark own s).cru.firingView = s.cru.firingView :=
  cycleMark_keeps (P := fun t => t.cru.firingView = s.cru.firingView) own s rfl
    (fun e t k => (handEvent_firingView e t).trans k) (fun t k => by rw [cruMark_frame]; exact k)
    (fun f t k => (takeFaultInMark_firingView f t).trans k) (fun t k => by rw [surveyTest_frame]; exact k)

/-! ### The receivers of a firing -/

theorem lmonFiring_eq (f : StationTime) (s : State) :
    lmonFiring f s =
      { (if s.lmon.markTaken then s else cycleMark true s) with lmon := (s.lmonMarked true).fired f } := by
  unfold lmonFiring State.lmonMarked
  cases s.lmon.markTaken <;> rfl

theorem lmonFiring_fcu {f : StationTime} {s : State} (h : s.fcu.schedule = none) : (lmonFiring f s).fcu = s.fcu := by
  rw [lmonFiring_eq]
  dsimp only
  split
  · rfl
  · exact cycleMark_fcu h

theorem lmonFiring_firingView (f : StationTime) (s : State) :
    (lmonFiring f s).cru.firingView = s.cru.firingView := by
  rw [lmonFiring_eq]
  dsimp only
  split
  · rfl
  · exact cycleMark_firingView true s

theorem lmonFiring_fault (f : StationTime) (s : State) {g : FaultCode} (h1 : g ≠ .bypassConflict)
    (h2 : g ≠ .commutationFailureRepeated) (h3 : g ≠ .redundancyLow) (h4 : g ≠ .redundancyExhausted) :
    (lmonFiring f s).stc.fault g = s.stc.fault g := by
  rw [lmonFiring_eq]
  dsimp only
  split
  · rfl
  · rw [cycleMark_fault true s h1 h2, if_neg]
    intro h
    obtain ⟨-, ⟨rfl, -⟩ | ⟨rfl, -⟩⟩ := (enteredFault_eq_some _ _ _).mp h
    · exact h3 rfl
    · exact h4 rfl

theorem interleave_three {α : Type} (seed : Nat) (x y z c : α) :
    interleave seed [x, y, z] [c] = [x, y, z, c] ∨ interleave seed [x, y, z] [c] = [x, y, c, z] ∨
      interleave seed [x, y, z] [c] = [x, c, y, z] ∨ interleave seed [x, y, z] [c] = [c, x, y, z] := by
  have : seed % 4 = 0 ∨ seed % 4 = 1 ∨ seed % 4 = 2 ∨ seed % 4 = 3 := by omega
  rcases this with h | h | h | h <;> simp [interleave, h]

/-- The Coordination Unit's part of a firing before its steps: the record consumed, the watch set. -/
def State.firingBegun (s : State) (f : StationTime) : State := (watchFiring f s).onCru Cru.consumed

/-- The steps of R152 one after the other. -/
def State.firingSteps (s : State) (f : StationTime) (u : State) : State :=
  originateFire f s.cru (judgeFiring (cleanFiring s.cru) (assignFn (nextFn s.cru) u))

/-- The Coordination Unit's part of a firing: the steps of R152, with PEER_SILENT, where it is raised, somewhere among
them. -/
theorem cruFiring_orders (f : StationTime) (s : State) :
    (raisesSilent s.cru = false ∧ cruFiring f s = s.firingSteps f (s.firingBegun f)) ∨
      (raisesSilent s.cru = true ∧
        ∃ before after : State → State,
          cruFiring f s = after (takeFault .peerSilent (before (s.firingBegun f).drawn)) ∧
          (before = id ∧ after = s.firingSteps f ∨
            before = assignFn (nextFn s.cru) ∧
              after = (fun u => originateFire f s.cru (judgeFiring (cleanFiring s.cru) u)) ∨
            before = (fun u => judgeFiring (cleanFiring s.cru) (assignFn (nextFn s.cru) u)) ∧
              after = originateFire f s.cru ∨
            before = s.firingSteps f ∧ after = id)) := by
  cases silent : raisesSilent s.cru with
  | false =>
    left
    refine ⟨rfl, ?_⟩
    unfold cruFiring
    simp only [silent]
    rfl
  | true =>
    right
    refine ⟨rfl, ?_⟩
    unfold cruFiring inTwoStreams
    simp only [silent, if_true]
    rcases interleave_three (Config.freeOrder ((watchFiring f s).onCru Cru.consumed).freeCount)
      (assignFn (nextFn s.cru)) (judgeFiring (cleanFiring s.cru)) (originateFire f s.cru)
      (takeFault .peerSilent) with h | h | h | h <;> rw [h]
    · exact ⟨_, _, rfl, .inr (.inr (.inr ⟨rfl, rfl⟩))⟩
    · exact ⟨_, _, rfl, .inr (.inr (.inl ⟨rfl, rfl⟩))⟩
    · exact ⟨_, _, rfl, .inr (.inl ⟨rfl, rfl⟩)⟩
    · exact ⟨_, _, rfl, .inl ⟨rfl, rfl⟩⟩

theorem clearSequence_frame (s : State) : clearSequence s = { s with stc := (clearSequence s).stc } := rfl

theorem judgeFiring_frame (clean : Bool) (s : State) :
    judgeFiring clean s =
      { s with
        cru := { s.cru with inversionMark := false }
        stc := if clean = true then (clearSequence s).stc else s.stc } := by
  cases clean <;> rfl

theorem originateFire_frame (f : StationTime) (c : Cru) (s : State) :
    originateFire f c s = { s with rif := (originateFire f c s).rif } := originate_frame _ _ _ _

/-- A firing that raises PEER_SILENT is not clean. -/
theorem unclean_of_silent {c : Cru} (h : raisesSilent c = true) : cleanFiring c = false := by
  unfold raisesSilent at h
  unfold cleanFiring
  cases hp : c.predecessor with
  | none => rfl
  | some r => simp [hp] at h

/-- A step of R152 but the judgement of a clean firing: no more than the number, the flags and the queues. -/
structure FiringStep (g : State → State) : Prop where
  fcu : ∀ u, (g u).fcu = u.fcu
  lmon : ∀ u, (g u).lmon = u.lmon
  stc : ∀ u, (g u).stc = u.stc

theorem FiringStep.comp {g h : State → State} (a : FiringStep g) (b : FiringStep h) : FiringStep fun u => g (h u) :=
  ⟨fun u => (a.fcu _).trans (b.fcu u), fun u => (a.lmon _).trans (b.lmon u), fun u => (a.stc _).trans (b.stc u)⟩

theorem assignFn_step (n : FiringNumber) : FiringStep (assignFn n) := ⟨fun _ => rfl, fun _ => rfl, fun _ => rfl⟩

theorem judgeFiring_step : FiringStep (judgeFiring false) := ⟨fun _ => rfl, fun _ => rfl, fun _ => rfl⟩

theorem originateFire_step (f : StationTime) (c : Cru) : FiringStep (originateFire f c) :=
  ⟨fun u => originate_fcu _ _ _ u, fun u => originate_lmon _ _ _ u, fun u => originate_stc _ _ _ u⟩

theorem firingSteps_step {s : State} (f : StationTime) (unclean : cleanFiring s.cru = false) :
    FiringStep (s.firingSteps f) := by
  unfold State.firingSteps
  rw [unclean]
  exact (originateFire_step f s.cru).comp (judgeFiring_step.comp (assignFn_step _))

/-- Of the four orders, each half made of steps. -/
theorem firing_orders_steps {s : State} {f : StationTime} {before after : State → State}
    (unclean : cleanFiring s.cru = false)
    (orders : before = id ∧ after = s.firingSteps f ∨
      before = assignFn (nextFn s.cru) ∧ after = (fun u => originateFire f s.cru (judgeFiring (cleanFiring s.cru) u)) ∨
      before = (fun u => judgeFiring (cleanFiring s.cru) (assignFn (nextFn s.cru) u)) ∧ after = originateFire f s.cru ∨
      before = s.firingSteps f ∧ after = id) : FiringStep before ∧ FiringStep after := by
  have idle : FiringStep id := ⟨fun _ => rfl, fun _ => rfl, fun _ => rfl⟩
  rw [unclean] at orders
  rcases orders with ⟨rfl, rfl⟩ | ⟨rfl, rfl⟩ | ⟨rfl, rfl⟩ | ⟨rfl, rfl⟩
  · exact ⟨idle, firingSteps_step f unclean⟩
  · exact ⟨assignFn_step _, (originateFire_step f s.cru).comp judgeFiring_step⟩
  · exact ⟨judgeFiring_step.comp (assignFn_step _), originateFire_step f s.cru⟩
  · exact ⟨firingSteps_step f unclean, idle⟩

/-- The Coordination Unit's part of a firing leaves the Level Monitor and the schedule, with nothing scheduled. -/
theorem cruFiring_leaves {f : StationTime} {s : State} (h : s.fcu.schedule = none) :
    (cruFiring f s).fcu = s.fcu ∧ (cruFiring f s).lmon = s.lmon := by
  rcases cruFiring_orders f s with ⟨-, run⟩ | ⟨silent, before, after, run, orders⟩
  · rw [run]
    unfold State.firingSteps
    rw [(originateFire_step f s.cru).fcu, (originateFire_step f s.cru).lmon, judgeFiring_frame]
    exact ⟨rfl, rfl⟩
  · obtain ⟨b, a⟩ := firing_orders_steps (unclean_of_silent silent) orders
    have unscheduled : (before (s.firingBegun f).drawn).fcu.schedule = none := by rw [b.fcu]; exact h
    have lmon : (takeFaultInMark .peerSilent (before (s.firingBegun f).drawn)).lmon = _ :=
      congrArg Prod.fst (takeFaultInMark_markView .peerSilent (before (s.firingBegun f).drawn))
    rw [run, a.fcu, a.lmon, takeFault_unscheduled unscheduled, takeFaultInMark_fcu unscheduled, b.fcu]
    exact ⟨rfl, lmon.trans (b.lmon _)⟩

/-- The firing counts PEER_SILENT where it raises it, and not otherwise. -/
theorem cruFiring_silent {f : StationTime} {s : State} (h : s.fcu.schedule = none) :
    ((cruFiring f s).stc.fault .peerSilent).count =
      if raisesSilent s.cru = true then min 127 ((s.stc.fault .peerSilent).count + 1)
      else (s.stc.fault .peerSilent).count := by
  rcases cruFiring_orders f s with ⟨loud, run⟩ | ⟨silent, before, after, run, orders⟩
  · rw [run, if_neg (by simp [loud])]
    unfold State.firingSteps
    rw [(originateFire_step f s.cru).stc, judgeFiring_frame]
    dsimp only
    split
    · simp only [clearSequence, clearFault_stc, onFault_fault_same]
      rw [onFault_fault_other _ _ (by decide), onFault_fault_other _ _ (by decide)]
      rfl
    · rfl
  · obtain ⟨b, a⟩ := firing_orders_steps (unclean_of_silent silent) orders
    have unscheduled : (before (s.firingBegun f).drawn).fcu.schedule = none := by rw [b.fcu]; exact h
    rw [run, if_pos silent, a.stc, takeFault_unscheduled unscheduled, takeFaultInMark_fault _ _ (by decide), if_pos rfl,
      b.stc]
    rfl

/-- The firing sequence after a firing (R147, R149, R150). -/
theorem cruFiring_firingView {f : StationTime} {s : State} (h : s.fcu.schedule = none) :
    (cruFiring f s).cru.firingView = (none, missesAfter s.cru, false, true, nextFn s.cru, true) := by
  have fire (u : State) : (originateFire f s.cru u).cru = u.cru := originate_cru _ _ _ _
  have judge (clean : Bool) (u : State) : (judgeFiring clean u).cru = { u.cru with inversionMark := false } := by
    rw [judgeFiring_frame]
  have steps (u : State) : (s.firingSteps f u).cru =
      { u.cru with ownFn := nextFn s.cru, ownFnValid := true, firedSince := true, inversionMark := false } := by
    unfold State.firingSteps
    rw [fire, judge]
    rfl
  rcases cruFiring_orders f s with ⟨-, run⟩ | ⟨silent, before, after, run, orders⟩
  · rw [run, steps]; rfl
  · have silenced (u : State) (k : u.fcu.schedule = none) : (takeFault .peerSilent u).cru.firingView =
        u.cru.firingView := by
      rw [takeFault_unscheduled k, takeFaultInMark_firingView]
    have unscheduled : (before (s.firingBegun f).drawn).fcu.schedule = none := by
      rw [(firing_orders_steps (unclean_of_silent silent) orders).1.fcu]; exact h
    have view := silenced _ unscheduled
    rw [run]
    rcases orders with ⟨rfl, rfl⟩ | ⟨rfl, rfl⟩ | ⟨rfl, rfl⟩ | ⟨rfl, rfl⟩
    · rw [steps]
      simp only [Cru.firingView, Prod.mk.injEq] at view ⊢
      obtain ⟨record, misses, -⟩ := view
      exact ⟨record, misses, trivial⟩
    · rw [fire, judge]
      simp only [Cru.firingView, Prod.mk.injEq] at view ⊢
      obtain ⟨record, misses, -, fired, fn, valid⟩ := view
      exact ⟨record, misses, trivial, fired, fn, valid⟩
    · rw [fire]
      exact view.trans (by dsimp only; rw [judge]; rfl)
    · exact view.trans (by rw [steps]; rfl)

theorem reachedSchedule_of_now {s : State} {c : Schedule} (scheduled : s.fcu.schedule = some c)
    (due : s.now = c.firing) : exec .firingInstant s = .next (fireAt c.firing s) := by
  have reached : reachedSchedule s = some c := by
    unfold reachedSchedule
    rw [scheduled]
    simp [due]
  show execFiringInstant s = _
  unfold execFiringInstant
  rw [reached]

/-- The state in which the receivers of a firing begin. -/
def State.fired (s : State) (f : StationTime) : State :=
  { s with fcu := { s.fcu with schedule := none, previous := some f } }

theorem fireAt_receivers (f : StationTime) (s : State) :
    fireAt f s = inAnyOrder [lcaFiring, lmonFiring f, cruFiring f] (s.fired f) := rfl

/-- Each receiver of a firing leaves the Firing Computation Unit, with nothing scheduled. -/
theorem firingReceivers_fcu {f : StationTime} {act : State → State}
    (h : act ∈ [lcaFiring, lmonFiring f, cruFiring f]) {t : State} (k : t.fcu.schedule = none) :
    (act t).fcu = t.fcu := by
  simp only [List.mem_cons, List.not_mem_nil, or_false] at h
  rcases h with rfl | rfl | rfl
  · rfl
  · exact lmonFiring_fcu k
  · exact (cruFiring_leaves k).1

theorem firingReceivers_moves {f : StationTime} {act : State → State}
    (h : act ∈ [lcaFiring, lmonFiring f, cruFiring f]) : OnlyMoves act := by
  simp only [List.mem_cons, List.not_mem_nil, or_false] at h
  rcases h with rfl | rfl | rfl
  · exact fun t => (Move.train t _).one
  · exact lmonFiring_moves f
  · exact cruFiring_moves f

/-- The Level Monitor after a firing: fired from the cycle with its mark taken (R29, R34). -/
theorem fireAt_lmon (f : StationTime) (s : State) : (fireAt f s).lmon = (s.lmonMarked true).fired f := by
  rw [fireAt_receivers]
  have base : (s.fired f).lmonMarked true = s.lmonMarked true := by
    simp only [State.lmonMarked, cycleMark_lmon]; rfl
  refine (inTurn_through (P := fun t => t.lmon = s.lmon ∧ t.fcu.schedule = none ∧ Moves (s.fired f) t)
    (Q := fun t => t.lmon = (s.lmonMarked true).fired f ∧ t.fcu.schedule = none)
    (gs := [lcaFiring, cruFiring f]) (g := lmonFiring f) (s := (s.fired f).drawn) ((shuffle_perm _ _).trans (List.Perm.swap _ _ _))
    ⟨rfl, rfl, (Move.drawn _).one⟩ (fun act hact t k => ?_) (fun t k => ?_) (fun act hact t k => ?_)).1
  · obtain ⟨lmon, schedule, moves⟩ := k
    simp only [List.mem_cons, List.not_mem_nil, or_false] at hact
    rcases hact with rfl | rfl
    · exact ⟨lmon, schedule, moves.then (Move.train t _).one⟩
    · exact ⟨(cruFiring_leaves schedule).2.trans lmon, by rw [(cruFiring_leaves schedule).1]; exact schedule,
        moves.then (cruFiring_moves f t)⟩
  · obtain ⟨lmon, schedule, moves⟩ := k
    obtain ⟨now, straps, -⟩ := moves.sameFrame
    have marked : t.lmonMarked true = s.lmonMarked true := by
      rw [← base]
      simp only [State.lmonMarked, cycleMark_lmon, lmon, now, straps]
      rfl
    refine ⟨?_, by rw [lmonFiring_fcu schedule]; exact schedule⟩
    rw [lmonFiring_eq, marked]
  · obtain ⟨lmon, schedule⟩ := k
    simp only [List.mem_cons, List.not_mem_nil, or_false] at hact
    rcases hact with rfl | rfl
    · exact ⟨lmon, schedule⟩
    · exact ⟨(cruFiring_leaves schedule).2.trans lmon, by rw [(cruFiring_leaves schedule).1]; exact schedule⟩

/-- The Firing Computation Unit after a firing (R78). -/
theorem fireAt_fcu (f : StationTime) (s : State) :
    (fireAt f s).fcu = { s.fcu with schedule := none, previous := some f } := by
  rw [fireAt_receivers]
  refine inAnyOrder_keeps (P := fun t => t.fcu = { s.fcu with schedule := none, previous := some f }) rfl
    fun act hact t k => ?_
  rw [firingReceivers_fcu hact (by rw [k])]
  exact k

/-- The firing sequence after a firing, and the count of PEER_SILENT. -/
theorem fireAt_sequence (f : StationTime) (s : State) :
    (fireAt f s).cru.firingView = (none, missesAfter s.cru, false, true, nextFn s.cru, true) ∧
      ((fireAt f s).stc.fault .peerSilent).count =
        if raisesSilent s.cru = true then min 127 ((s.stc.fault .peerSilent).count + 1)
        else (s.stc.fault .peerSilent).count := by
  rw [fireAt_receivers]
  have others (act : State → State) (h : act ∈ [lcaFiring, lmonFiring f]) (t : State) (k : t.fcu.schedule = none) :
      (act t).cru.firingView = t.cru.firingView ∧ (act t).stc.fault .peerSilent = t.stc.fault .peerSilent ∧
        (act t).fcu.schedule = none := by
    simp only [List.mem_cons, List.not_mem_nil, or_false] at h
    rcases h with rfl | rfl
    · exact ⟨rfl, rfl, k⟩
    · exact ⟨lmonFiring_firingView f t, lmonFiring_fault f t (by decide) (by decide) (by decide) (by decide),
        by rw [lmonFiring_fcu k]; exact k⟩
  have reads {c d : Cru} (h : c.firingView = d.firingView) :
      missesAfter c = missesAfter d ∧ nextFn c = nextFn d ∧ raisesSilent c = raisesSilent d := by
    simp only [Cru.firingView, Prod.mk.injEq] at h
    obtain ⟨record, misses, -, -, fn, -⟩ := h
    simp only [missesAfter, nextFn, raisesSilent, record, misses, fn, and_self]
  obtain ⟨view, count, -⟩ := inTurn_through
    (P := fun t => t.cru.firingView = s.cru.firingView ∧ t.stc.fault .peerSilent = s.stc.fault .peerSilent ∧
      t.fcu.schedule = none)
    (Q := fun t => t.cru.firingView = (none, missesAfter s.cru, false, true, nextFn s.cru, true) ∧
      (t.stc.fault .peerSilent).count =
        (if raisesSilent s.cru = true then min 127 ((s.stc.fault .peerSilent).count + 1)
        else (s.stc.fault .peerSilent).count) ∧ t.fcu.schedule = none)
    (gs := [lcaFiring, lmonFiring f]) (g := cruFiring f) (s := (s.fired f).drawn)
    ((shuffle_perm (Config.freeOrder (s.fired f).freeCount) [lcaFiring, lmonFiring f, cruFiring f]).trans
      (List.perm_append_singleton (cruFiring f) [lcaFiring, lmonFiring f]))
    ⟨rfl, rfl, rfl⟩
    (fun act hact t k => by
      obtain ⟨view, fault, schedule⟩ := k
      obtain ⟨a, b, c⟩ := others act hact t schedule
      exact ⟨a.trans view, b.trans fault, c⟩)
    (fun t k => by
      obtain ⟨view, fault, schedule⟩ := k
      obtain ⟨misses, fn, silent⟩ := reads view
      rw [cruFiring_firingView schedule, cruFiring_silent schedule, misses, fn, silent, fault,
        (cruFiring_leaves schedule).1]
      exact ⟨rfl, rfl, schedule⟩)
    (fun act hact t k => by
      obtain ⟨view, count, schedule⟩ := k
      obtain ⟨a, b, c⟩ := others act hact t schedule
      exact ⟨a.trans view, by rw [b]; exact count, c⟩)
  exact ⟨view, count⟩

theorem raisesSilent_iff (c : Cru) : raisesSilent c = true ↔ c.predecessor = none ∧ c.missCount = 2 := by
  simp [raisesSilent]

/-- Settles O26: the own firing instant, in any order of its three receivers. -/
theorem firingInstantIsMade : Obligations.FiringInstantIsMade := by
  intro s c scheduled due
  obtain ⟨view, count⟩ := fireAt_sequence c.firing s
  simp only [Cru.firingView, Prod.mk.injEq] at view
  obtain ⟨record, misses, inversion, fired, fn, valid⟩ := view
  obtain ⟨now, straps, aru, pending, handed, channels⟩ := (fireAt_moves c.firing s).sameFrame
  have marked : (s.lmonMarked true).markTaken = true := by
    unfold State.lmonMarked
    split
    · assumption
    · simp
  refine ⟨_, reachedSchedule_of_now scheduled due, fireAt_fcu _ _, ?_, ?_, ?_, ?_, ?_, record, inversion, fired, valid,
    fn, misses, ?_, now, straps, aru, channels, pending, handed⟩
  · rw [fireAt_lmon]; rfl
  · rw [fireAt_lmon]; rfl
  · rw [fireAt_lmon]; rfl
  · rw [fireAt_lmon]; rfl
  · rw [fireAt_lmon]; exact marked
  · rw [count]
    simp only [raisesSilent_iff]

end Sys2Proof.Machine
end

section
/-! PROOFS. The own firing of a station in FIRING, with its cycle mark pending, said whole (O27). -/

namespace Sys2Proof.Machine

/-! ### A mark that raises no event -/

/-- No tally is at its quorum, so the mark raises nothing and the tallies lose the failed levels alone. -/
theorem marked_of_noEvent {own : Bool} {s : State} (h : s.MarkRaisesNoEvent own) :
    s.lmon.marked s.straps own s.now = ((s.lmon.judged s.straps).adjusted.resumed own s.now, []) := by
  unfold State.MarkRaisesNoEvent at h
  have counted : (cycleMark own s).lmon.counted = (s.lmon.judged s.straps).counted := by
    rw [cycleMark_lmon, marked_frame]
  obtain ⟨rv, fv, pf⟩ := h
  have below (y : Tally) (q : Nat) (k : y.armed = true →
      (y.members.filter fun x => ((cycleMark own s).lmon.levels.get x.level).state ≠ .failed).length < q) :
      ¬(y.atMark (s.lmon.judged s.straps).levels).full q := by
    rintro ⟨armed, full⟩
    rw [atMark_armed] at armed
    rw [atMark_judged y s.lmon s.straps own s.now, ← cycleMark_lmon] at full
    unfold Tally.atMark at full
    rw [if_pos armed] at full
    exact absurd full (not_le.mpr (k armed))
  rw [counted] at rv fv pf
  exact marked_of_none (below s.lmon.rv _ rv) (below s.lmon.fv _ fv) fun k =>
    below s.lmon.pf _ (fun armed => pf armed k.2) k.1

/-- In FIRING a mark that raises no event and does not enter EXHAUSTED enters LAST in the fault table, if it does, and
does no more. -/
theorem cycleMark_in_firing {own : Bool} {s : State} (firing : s.stc.station = .firing)
    (none : (s.lmon.marked s.straps own s.now).2 = []) (spare : (s.lmon.judged s.straps).redundancy ≠ .exhausted)
    (low : (s.stc.fault .redundancyLow).mode = .report) :
    cycleMark own s =
      { s with
        lmon := (s.lmon.marked s.straps own s.now).1
        stc :=
          if s.lmon.redundancy ≠ .last ∧ (s.lmon.judged s.straps).redundancy = .last then
            s.stc.onFault .redundancyLow FaultRecord.occurred
          else s.stc
        freeCount := s.freeCount + 2 } := by
  have idle (act : State → State) (is : OtherAct s own act) (t : State) (k : t.stc.station = .firing) : act t = t := by
    rcases is with ⟨e, he, -⟩ | rfl | ⟨-, failure⟩ | rfl
    · rw [none] at he; cases he
    · rw [cruMark_eq, if_neg (by simp [k])]
    · rw [none] at failure; cases failure
    · exact surveyTest_elsewhere (by simp [k])
  by_cases entersLow : s.lmon.redundancy ≠ .last ∧ (s.lmon.judged s.straps).redundancy = .last
  · have entered : enteredFault s.lmon.redundancy (s.lmon.judged s.straps).redundancy = some .redundancyLow :=
      (enteredFault_eq_some _ _ _).mpr ⟨entersLow.2.symm ▸ entersLow.1, .inl ⟨rfl, entersLow.2⟩⟩
    obtain ⟨fs, rest, run, perm, acts⟩ := cycleMark_entered (own := own) entered
    rw [run, if_pos entersLow]
    refine inTurn_through (P := fun t => t = s.marking own)
      (Q := fun t => t = (s.marking own).recordFault .redundancyLow) perm rfl (fun act hact t k => ?_) (fun t k => ?_)
      (fun act hact t k => ?_)
    · exact (idle act (acts act hact) t (by rw [k]; exact firing)).trans k
    · rw [k]; exact takeFaultInMark_report low
    · exact (idle act (acts act hact) t (by rw [k]; exact firing)).trans k
  · have unentered : enteredFault s.lmon.redundancy (s.lmon.judged s.straps).redundancy = Option.none := by
      cases h : enteredFault s.lmon.redundancy (s.lmon.judged s.straps).redundancy with
      | none => rfl
      | some f =>
        obtain ⟨other, ⟨-, last⟩ | ⟨-, exhausted⟩⟩ := (enteredFault_eq_some _ _ _).mp h
        · exact absurd ⟨last ▸ other, last⟩ entersLow
        · exact absurd exhausted spare
    obtain ⟨fs, run, -, acts⟩ := cycleMark_unentered (own := own) unentered
    rw [run, if_neg entersLow]
    exact inTurn_keeps (P := fun t => t = s.marking own) rfl fun act hact t k =>
      (idle act (acts act hact) t (by rw [k]; exact firing)).trans k

/-! ### The three receivers in FIRING -/

theorem trainFiring_eq (period : Nat) (now : StationTime) (train : Option Train) :
    trainFiring period now train = some
      { phase := .main, start := now, origin := now + 100
        kind :=
          if ∃ r, train = some r ∧ r.kind = .bypass then .bypass
          else .normal (now + BitVec.ofNat 32 (15000 * period / 36000)) now } := by
  rcases train with _ | ⟨phase, start, origin, kind⟩
  · simp only [trainFiring, reduceCtorEq, false_and, exists_false, if_false]; rfl
  · cases kind with
    | normal l x => simp [trainFiring, rebased, normalFrom, mainFrom]; exact ⟨rfl, rfl⟩
    | bypass => simp [trainFiring, rebased, mainFrom]; rfl

/-- The own FIRE in FIRING. -/
theorem originateFire_in_firing {f : StationTime} {c : Cru} {u : State} (firing : u.stc.station = .firing) :
    originateFire f c u =
      { u with
        rif := u.rif.originated .fire (firePayload (nextFn c) (u.fcu.lastAlpha.getD 0) (carriesStart c)) (some f) } :=
  originate_in_firing firing _ _ _

/-- The steps of R152 in FIRING. -/
theorem firingSteps_in_firing {s u : State} {f : StationTime} (firing : u.stc.station = .firing) :
    s.firingSteps f u =
      { u with
        cru := { u.cru with
          ownFn := nextFn s.cru, ownFnValid := true, firedSince := true, inversionMark := false }
        rif := u.rif.originated .fire
          (firePayload (nextFn s.cru) (u.fcu.lastAlpha.getD 0) (carriesStart s.cru)) (some f)
        stc := if cleanFiring s.cru = true then (clearSequence u).stc else u.stc } := by
  have clear : (clearSequence (assignFn (nextFn s.cru) u)).stc = (clearSequence u).stc := rfl
  have station : (judgeFiring (cleanFiring s.cru) (assignFn (nextFn s.cru) u)).stc.station = .firing := by
    rw [judgeFiring_frame]
    dsimp only
    split <;> exact firing
  unfold State.firingSteps
  rw [originateFire_in_firing station, judgeFiring_frame, clear]
  rfl

/-- An entry in the fault table and the steps of a firing that is not clean, in either order. -/
theorem recordFault_firingSteps {s u : State} {f : StationTime} {g : FaultCode} (firing : u.stc.station = .firing)
    (unclean : cleanFiring s.cru = false) :
    (s.firingSteps f u).recordFault g = s.firingSteps f (u.recordFault g) := by
  rw [firingSteps_in_firing firing, firingSteps_in_firing (u := u.recordFault g) firing]
  simp only [unclean, Bool.false_eq_true, if_false]
  rfl

/-- PEER_SILENT in mode REPORT among the steps of a firing comes to the same wherever it stands. -/
theorem cruFiring_reports {f : StationTime} {u : State} (firing : u.stc.station = .firing)
    (report : (u.stc.fault .peerSilent).mode = .report) (silent : raisesSilent u.cru = true) :
    cruFiring f u = u.firingSteps f ((u.firingBegun f).drawn.recordFault .peerSilent) := by
  rcases cruFiring_orders f u with ⟨loud, -⟩ | ⟨-, before, after, run, orders⟩
  · rw [silent] at loud; cases loud
  have unclean := unclean_of_silent silent
  have recorded (v : State) (h : v.stc = u.stc) : takeFault .peerSilent v = v.recordFault .peerSilent :=
    takeFault_recorded (.inl (by rw [h]; exact report))
  have same := (firing_orders_steps unclean orders).1.stc (u.firingBegun f).drawn
  rw [run, recorded _ same]
  rcases orders with ⟨rfl, rfl⟩ | ⟨rfl, rfl⟩ | ⟨rfl, rfl⟩ | ⟨rfl, rfl⟩
  · rfl
  · rfl
  · rw [unclean, State.firingSteps, unclean]
    rfl
  · exact recordFault_firingSteps (u := (u.firingBegun f).drawn) firing unclean

/-- The Coordination Unit's part of a firing in FIRING, with PEER_SILENT in mode REPORT (R152). -/
theorem cruFiring_in_firing {f : StationTime} {u : State} (firing : u.stc.station = .firing)
    (report : (u.stc.fault .peerSilent).mode = .report) :
    ∃ drawn, cruFiring f u =
      { u with
        cru := { u.cru with
          predecessor := none, missCount := missesAfter u.cru, inversionMark := false, firedSince := true
          ownFn := nextFn u.cru, ownFnValid := true, gammaStart := none
          watch :=
            if u.isMember then u.cru.watch
            else some { deadline := after f (ticks u.aru.period 18000), firing := f } }
        rif := u.rif.originated .fire
          (firePayload (nextFn u.cru) (u.fcu.lastAlpha.getD 0) (carriesStart u.cru)) (some f)
        stc :=
          if cleanFiring u.cru = true then (clearSequence u).stc
          else if raisesSilent u.cru = true then u.stc.onFault .peerSilent FaultRecord.occurred
          else u.stc
        freeCount := drawn } := by
  cases silent : raisesSilent u.cru with
  | false =>
    have run := (cruFiring_orders f u).resolve_right fun h => by rw [silent] at h; cases h.1
    refine ⟨u.freeCount, ?_⟩
    rw [run.2, firingSteps_in_firing (u := u.firingBegun f) firing, if_neg (show ¬false = true by decide)]
    rfl
  | true =>
    refine ⟨u.freeCount + 1, ?_⟩
    rw [cruFiring_reports firing report silent,
      firingSteps_in_firing (u := (u.firingBegun f).drawn.recordFault .peerSilent) firing, unclean_of_silent silent]
    simp only [Bool.false_eq_true, if_false, if_true]
    rfl

/-! ### The firing assembled -/

/-- What stands at each point of a firing in FIRING: the Station Controller but for its faults, their modes, and the
cycle either as it was or with its mark taken. -/
structure FiringPlain (s t : State) : Prop where
  stc : t.stc = { s.stc with faults := t.stc.faults }
  low : (t.stc.fault .redundancyLow).mode = .report
  silent : (t.stc.fault .peerSilent).mode = .report
  cycle : t.lmon = s.lmon ∨ t.lmon.markTaken = true
  frame : t.now = s.now ∧ t.straps = s.straps ∧ t.aru = s.aru ∧ t.lca.channels = s.lca.channels ∧
    t.pending = s.pending ∧ t.handed = s.handed ∧ t.fcu = s.fcu

/-- What a firing enters in the fault table at the Level Monitor. -/
def State.entersLow (s : State) : Prop :=
  s.lmon.markTaken = false ∧ s.lmon.redundancy ≠ .last ∧ (s.lmon.judged s.straps).redundancy = .last

/-- The mark of a firing in FIRING raises no event and does not enter EXHAUSTED. -/
def State.firesPlainly (s : State) : Prop :=
  s.lmon.markTaken = true ∨
    ((s.lmon.marked s.straps true s.now).2 = [] ∧ (s.lmon.judged s.straps).redundancy ≠ .exhausted)

/-- The Level Monitor's part of a firing at a point of it: the Level Monitor fired, and the fault of LAST where this mark
enters it. -/
theorem lmonFiring_plain {s t : State} {f : StationTime} (firing : s.stc.station = .firing) (plain : s.firesPlainly)
    (k : FiringPlain s t) :
    ∃ drawn faults, lmonFiring f t =
        { t with
          lmon := (t.lmonMarked true).fired f, stc := { t.stc with faults := faults }, freeCount := drawn } ∧
      (∀ g, g ≠ .redundancyLow → ((lmonFiring f t).stc.fault g = t.stc.fault g)) ∧
      (t.lmon = s.lmon →
        ((s.entersLow →
          (lmonFiring f t).stc.fault .redundancyLow = FaultRecord.occurred (t.stc.fault .redundancyLow)) ∧
        (¬s.entersLow → (lmonFiring f t).stc.fault .redundancyLow = t.stc.fault .redundancyLow))) := by
  rw [lmonFiring_eq]
  by_cases taken : t.lmon.markTaken = true
  · rw [if_pos taken]
    refine ⟨t.freeCount, t.stc.faults, rfl, fun _ _ => rfl, fun same => ⟨fun enters => ?_, fun _ => rfl⟩⟩
    unfold State.entersLow at enters
    rw [← same, taken] at enters
    cases enters.1
  · have same := k.cycle.resolve_right taken
    obtain ⟨now, straps, -⟩ := k.frame
    obtain ⟨none, spare⟩ := plain.resolve_left (same ▸ taken)
    have run := cycleMark_in_firing (own := true) (s := t) (by rw [k.stc]; exact firing)
      (by rw [same, straps, now]; exact none) (by rw [same, straps]; exact spare) k.low
    have enters : (t.lmon.redundancy ≠ .last ∧ (t.lmon.judged t.straps).redundancy = .last) ↔ s.entersLow := by
      unfold State.entersLow
      rw [same, straps]
      exact ⟨fun h => ⟨by rw [← same]; simpa using taken, h⟩, fun h => h.2⟩
    rw [if_neg taken]
    by_cases last : s.entersLow
    · rw [if_pos (enters.mpr last)] at run
      rw [run]
      exact ⟨_, _, rfl, fun g other => onFault_fault_other _ _ other.symm,
        fun _ => ⟨fun _ => onFault_fault_same _ _ _, fun h => absurd last h⟩⟩
    · rw [if_neg fun h => last (enters.mp h)] at run
      rw [run]
      exact ⟨_, t.stc.faults, rfl, fun _ _ => rfl, fun _ => ⟨fun h => absurd h last, fun _ => rfl⟩⟩

/-- The fault table after the Coordination Unit's part of a firing. -/
def Stc.firingFaults (c : Stc) (clean silent : Bool) (g : FaultCode) : FaultRecord :=
  if clean = true ∧ (g = .sequenceInversion ∨ g = .sequenceSlip ∨ g = .peerSilent) then
    { c.fault g with active := false }
  else if silent = true ∧ g = .peerSilent then FaultRecord.occurred (c.fault g)
  else c.fault g

theorem clearSequence_fault (s : State) (g : FaultCode) :
    (clearSequence s).stc.fault g =
      if g = .sequenceInversion ∨ g = .sequenceSlip ∨ g = .peerSilent then { s.stc.fault g with active := false }
      else s.stc.fault g := by
  simp only [clearSequence, clearFault_stc]
  by_cases silent : g = .peerSilent
  · subst silent
    rw [onFault_fault_same, onFault_fault_other _ _ (by decide), onFault_fault_other _ _ (by decide), if_pos (by simp)]
  · rw [onFault_fault_other _ _ (Ne.symm silent)]
    by_cases slip : g = .sequenceSlip
    · subst slip
      rw [onFault_fault_same, onFault_fault_other _ _ (by decide), if_pos (by simp)]
    · rw [onFault_fault_other _ _ (Ne.symm slip)]
      by_cases inversion : g = .sequenceInversion
      · subst inversion
        rw [onFault_fault_same, if_pos (by simp)]
      · rw [onFault_fault_other _ _ (Ne.symm inversion), if_neg (by simp [silent, slip, inversion])]

/-- The Coordination Unit's part of a firing changes no more of the Station Controller than those faults. -/
theorem firingStc (u : State) :
    ∃ faults, (if cleanFiring u.cru = true then (clearSequence u).stc
        else if raisesSilent u.cru = true then u.stc.onFault .peerSilent FaultRecord.occurred else u.stc) =
      { u.stc with faults := faults } ∧
      ∀ g, Stc.fault { u.stc with faults := faults } g =
        u.stc.firingFaults (cleanFiring u.cru) (raisesSilent u.cru) g := by
  unfold Stc.firingFaults
  cases clean : cleanFiring u.cru with
  | true =>
    refine ⟨(clearSequence u).stc.faults, rfl, fun g => ?_⟩
    simp only [true_and]
    have unsilent : raisesSilent u.cru ≠ true := fun h => by rw [unclean_of_silent h] at clean; cases clean
    refine (clearSequence_fault u g).trans ?_
    simp only [unsilent, Bool.false_eq_true, false_and, if_false]
  | false =>
    cases silent : raisesSilent u.cru with
    | true =>
      refine ⟨(u.stc.onFault .peerSilent FaultRecord.occurred).faults, rfl, fun g => ?_⟩
      simp only [Bool.false_eq_true, false_and, if_false, true_and]
      show (u.stc.onFault .peerSilent FaultRecord.occurred).fault g = _
      by_cases same : g = .peerSilent
      · rw [if_pos same, same, onFault_fault_same]
      · rw [if_neg same, onFault_fault_other _ _ (Ne.symm same)]
    | false =>
      refine ⟨u.stc.faults, rfl, fun g => ?_⟩
      simp only [Bool.false_eq_true, false_and, if_false]

/-- A fault keeps its mode at a firing. -/
theorem firingFaults_mode (c : Stc) (clean silent : Bool) (g : FaultCode) :
    (c.firingFaults clean silent g).mode = (c.fault g).mode := by
  unfold Stc.firingFaults
  split
  · rfl
  · split <;> rfl

/-- LAST is entered in the fault table at the Level Monitor's part alone. -/
theorem firingFaults_low (c : Stc) (clean silent : Bool) :
    c.firingFaults clean silent .redundancyLow = c.fault .redundancyLow := by
  unfold Stc.firingFaults
  simp only [reduceCtorEq, or_self, and_false, if_false]

/-- The three receivers at a point of a firing in FIRING: each leaves the point plain, and what the others make. -/
theorem firingReceivers_plain {s t : State} {f : StationTime} (firing : s.stc.station = .firing)
    (plain : s.firesPlainly) (k : FiringPlain s t) :
    (FiringPlain s (lcaFiring t) ∧
      lcaFiring t = { t with lca := { t.lca with train := trainFiring t.aru.period t.now t.lca.train } }) ∧
    (FiringPlain s (lmonFiring f t) ∧ (lmonFiring f t).lca = t.lca ∧ (lmonFiring f t).cru = t.cru ∧
      (lmonFiring f t).rif = t.rif) ∧
    (FiringPlain s (cruFiring f t) ∧ (cruFiring f t).lca = t.lca ∧ (cruFiring f t).lmon = t.lmon ∧
      ∀ g, (cruFiring f t).stc.fault g =
        t.stc.firingFaults (cleanFiring t.cru) (raisesSilent t.cru) g) := by
  obtain ⟨stc, low, silent, cycle, frame⟩ := k
  have station : t.stc.station = .firing := by rw [stc]; exact firing
  refine ⟨⟨⟨stc, low, silent, cycle, frame⟩, rfl⟩, ?_, ?_⟩
  · obtain ⟨drawn, faults, run, others, -⟩ := lmonFiring_plain (f := f) firing plain ⟨stc, low, silent, cycle, frame⟩
    have lowMode : ((lmonFiring f t).stc.fault .redundancyLow).mode = .report := by
      rw [(lmonFiring_moves f t).modes]; exact low
    have silentMode : ((lmonFiring f t).stc.fault .peerSilent).mode = .report := by
      rw [others _ (by decide)]; exact silent
    have taken : (lmonFiring f t).lmon.markTaken = true := by
      rw [lmonFiring_eq]
      show (t.lmonMarked true).markTaken = true
      unfold State.lmonMarked
      split
      · assumption
      · simp
    refine ⟨⟨?_, lowMode, silentMode, .inr taken, ?_⟩, ?_, ?_, ?_⟩
    · rw [run, stc]
    · rw [run]; exact frame
    · rw [run]
    · rw [run]
    · rw [run]
  · obtain ⟨drawn, run⟩ := cruFiring_in_firing (f := f) station silent
    obtain ⟨faults, same, pointwise⟩ := firingStc t
    rw [same] at run
    have fault (g : FaultCode) : (cruFiring f t).stc.fault g =
        t.stc.firingFaults (cleanFiring t.cru) (raisesSilent t.cru) g := by
      rw [run]; exact pointwise g
    refine ⟨⟨?_, ?_, ?_, ?_, ?_⟩, ?_, ?_, fault⟩
    · rw [run, stc]
    · rw [fault, firingFaults_mode]; exact low
    · rw [fault, firingFaults_mode]; exact silent
    · rw [run]; exact cycle
    · rw [run]; exact frame
    · rw [run]
    · rw [run]

/-- The Coordination Unit after its part of a firing in FIRING. -/
def State.cruFired (s : State) (f : StationTime) : Cru :=
  { s.cru with
    predecessor := none, missCount := missesAfter s.cru, inversionMark := false, firedSince := true
    ownFn := nextFn s.cru, ownFnValid := true, gammaStart := none
    watch :=
      if s.isMember then s.cru.watch else some { deadline := after f (ticks s.aru.period 18000), firing := f } }

/-- The queues after the own FIRE. -/
def State.rifFired (s : State) (f : StationTime) : Rif :=
  s.rif.originated .fire (firePayload (nextFn s.cru) (s.fcu.lastAlpha.getD 0) (carriesStart s.cru)) (some f)

theorem firing_plain {s : State} {f : StationTime} (firing : s.stc.station = .firing) (plain : s.firesPlainly)
    (low : (s.stc.fault .redundancyLow).mode = .report) (silent : (s.stc.fault .peerSilent).mode = .report) :
    FiringPlain (s.fired f) (fireAt f s) ∧ (fireAt f s).lca.train = trainFiring s.aru.period s.now s.lca.train ∧
      (fireAt f s).cru = s.cruFired f ∧ (fireAt f s).rif = s.rifFired f ∧
      (∀ g, g ≠ .redundancyLow →
        (fireAt f s).stc.fault g = s.stc.firingFaults (cleanFiring s.cru) (raisesSilent s.cru) g) ∧
      (s.entersLow → (fireAt f s).stc.fault .redundancyLow = FaultRecord.occurred (s.stc.fault .redundancyLow)) ∧
      (¬s.entersLow → (fireAt f s).stc.fault .redundancyLow = s.stc.fault .redundancyLow) := by
  have begun : FiringPlain (s.fired f) (s.fired f).drawn :=
    ⟨rfl, low, silent, .inl rfl, rfl, rfl, rfl, rfl, rfl, rfl, rfl⟩
  have receivers (t : State) (k : FiringPlain (s.fired f) t) :=
    firingReceivers_plain (s := s.fired f) (f := f) firing plain k
  rw [fireAt_receivers]
  obtain ⟨kept, train⟩ := inTurn_through
    (P := fun t => FiringPlain (s.fired f) t ∧ t.lca = s.lca)
    (Q := fun t => FiringPlain (s.fired f) t ∧ t.lca.train = trainFiring s.aru.period s.now s.lca.train)
    (gs := [lmonFiring f, cruFiring f]) (g := lcaFiring) (s := (s.fired f).drawn)
    (shuffle_perm (Config.freeOrder (s.fired f).freeCount) [lcaFiring, lmonFiring f, cruFiring f]) ⟨begun, rfl⟩
    (fun act hact t ⟨k, lca⟩ => by
      obtain ⟨-, ⟨lmonPlain, lmonLca, -⟩, cruPlain, cruLca, -⟩ := receivers t k
      rcases List.mem_pair.mp hact with rfl | rfl
      · exact ⟨lmonPlain, lmonLca.trans lca⟩
      · exact ⟨cruPlain, cruLca.trans lca⟩)
    (fun t ⟨k, lca⟩ => by
      obtain ⟨⟨lcaPlain, run⟩, -⟩ := receivers t k
      obtain ⟨now, -, aru, -⟩ := k.frame
      refine ⟨lcaPlain, ?_⟩
      rw [run, lca, now, aru]
      rfl)
    (fun act hact t ⟨k, lca⟩ => by
      obtain ⟨-, ⟨lmonPlain, lmonLca, -⟩, cruPlain, cruLca, -⟩ := receivers t k
      rcases List.mem_pair.mp hact with rfl | rfl
      · exact ⟨lmonPlain, by rw [lmonLca]; exact lca⟩
      · exact ⟨cruPlain, by rw [cruLca]; exact lca⟩)
  obtain ⟨-, cru, rif, faults⟩ := inTurn_through
    (P := fun t => FiringPlain (s.fired f) t ∧ t.cru = s.cru ∧ t.rif = s.rif ∧
      ∀ g, g ≠ .redundancyLow → t.stc.fault g = s.stc.fault g)
    (Q := fun t => FiringPlain (s.fired f) t ∧ t.cru = s.cruFired f ∧ t.rif = s.rifFired f ∧
      ∀ g, g ≠ .redundancyLow → t.stc.fault g = s.stc.firingFaults (cleanFiring s.cru) (raisesSilent s.cru) g)
    (gs := [lcaFiring, lmonFiring f]) (g := cruFiring f) (s := (s.fired f).drawn)
    ((shuffle_perm (Config.freeOrder (s.fired f).freeCount) [lcaFiring, lmonFiring f, cruFiring f]).trans
      (List.perm_append_singleton (cruFiring f) [lcaFiring, lmonFiring f]))
    ⟨begun, rfl, rfl, fun _ _ => rfl⟩
    (fun act hact t ⟨k, cru, rif, faults⟩ => by
      obtain ⟨⟨lcaPlain, -⟩, ⟨lmonPlain, -, lmonCru, lmonRif⟩, -⟩ := receivers t k
      obtain ⟨-, -, -, others, -⟩ := lmonFiring_plain (s := s.fired f) (f := f) firing plain k
      rcases List.mem_pair.mp hact with rfl | rfl
      · exact ⟨lcaPlain, cru, rif, faults⟩
      · exact ⟨lmonPlain, lmonCru.trans cru, lmonRif.trans rif, fun g h => (others g h).trans (faults g h)⟩)
    (fun t ⟨k, cru, rif, faults⟩ => by
      obtain ⟨-, -, cruPlain, -, -, fault⟩ := receivers t k
      obtain ⟨drawn, run⟩ := cruFiring_in_firing (f := f) (u := t) (by rw [k.stc]; exact firing) k.silent
      obtain ⟨-, straps, aru, -, -, -, fcu⟩ := k.frame
      have member : t.isMember = s.isMember := by rw [isMember_eq, isMember_eq, k.stc, straps]; rfl
      refine ⟨cruPlain, ?_, ?_, fun g h => ?_⟩
      · rw [run]
        unfold State.cruFired
        rw [cru, aru, member]
        rfl
      · rw [run, cru, rif, fcu]
        rfl
      · rw [fault, cru]
        unfold Stc.firingFaults
        rw [faults g h])
    (fun act hact t ⟨k, cru, rif, faults⟩ => by
      obtain ⟨⟨lcaPlain, -⟩, ⟨lmonPlain, -, lmonCru, lmonRif⟩, -⟩ := receivers t k
      obtain ⟨-, -, -, others, -⟩ := lmonFiring_plain (s := s.fired f) (f := f) firing plain k
      rcases List.mem_pair.mp hact with rfl | rfl
      · exact ⟨lcaPlain, cru, rif, faults⟩
      · exact ⟨lmonPlain, lmonCru.trans cru, lmonRif.trans rif, fun g h => (others g h).trans (faults g h)⟩)
  obtain ⟨-, enters, stays⟩ := inTurn_through
    (P := fun t => FiringPlain (s.fired f) t ∧ t.lmon = s.lmon ∧
      t.stc.fault .redundancyLow = s.stc.fault .redundancyLow)
    (Q := fun t => FiringPlain (s.fired f) t ∧
      (s.entersLow → t.stc.fault .redundancyLow = FaultRecord.occurred (s.stc.fault .redundancyLow)) ∧
      (¬s.entersLow → t.stc.fault .redundancyLow = s.stc.fault .redundancyLow))
    (gs := [lcaFiring, cruFiring f]) (g := lmonFiring f) (s := (s.fired f).drawn)
    ((shuffle_perm (Config.freeOrder (s.fired f).freeCount) [lcaFiring, lmonFiring f, cruFiring f]).trans
      (List.Perm.swap _ _ _)) ⟨begun, rfl, rfl⟩
    (fun act hact t ⟨k, lmon, low⟩ => by
      obtain ⟨⟨lcaPlain, -⟩, -, cruPlain, -, cruLmon, fault⟩ := receivers t k
      rcases List.mem_pair.mp hact with rfl | rfl
      · exact ⟨lcaPlain, lmon, low⟩
      · exact ⟨cruPlain, cruLmon.trans lmon, (fault _).trans ((firingFaults_low _ _ _).trans low)⟩)
    (fun t ⟨k, lmon, low⟩ => by
      obtain ⟨-, ⟨lmonPlain, -⟩, -⟩ := receivers t k
      obtain ⟨-, -, -, -, counts⟩ := lmonFiring_plain (s := s.fired f) (f := f) firing plain k
      obtain ⟨enters, stays⟩ := counts lmon
      rw [low] at enters stays
      exact ⟨lmonPlain, enters, stays⟩)
    (fun act hact t ⟨k, enters, stays⟩ => by
      obtain ⟨⟨lcaPlain, -⟩, -, cruPlain, -, -, fault⟩ := receivers t k
      have same : (cruFiring f t).stc.fault .redundancyLow = t.stc.fault .redundancyLow := by
        rw [fault, firingFaults_low]
      rcases List.mem_pair.mp hact with rfl | rfl
      · exact ⟨lcaPlain, enters, stays⟩
      · exact ⟨cruPlain, fun h => same.trans (enters h), fun h => same.trans (stays h)⟩)
  exact ⟨kept, train, cru, rif, faults, enters, stays⟩

/-- A plain firing changes the train, the Level Monitor, the Coordination Unit, the queues and the faults alone. -/
theorem FiringPlain.eq {s t : State} (k : FiringPlain s t) :
    t = { s with
      lca := { s.lca with train := t.lca.train }, lmon := t.lmon, cru := t.cru, rif := t.rif
      stc := { s.stc with faults := t.stc.faults }, freeCount := t.freeCount } := by
  obtain ⟨stc, -, -, -, now, straps, aru, channels, pending, handed, fcu⟩ := k
  have lca : t.lca = { s.lca with train := t.lca.train } := by
    show t.lca = { train := t.lca.train, channels := s.lca.channels }
    rw [← channels]
  rw [← stc, ← lca, ← now, ← straps, ← aru, ← pending, ← handed, ← fcu]

theorem firePayload_eq (c : Cru) (fn : FiringNumber) (α : Nat) :
    firePayload fn α (carriesStart c) =
      wordBytes fn.toNat ++ wordBytes α ++ [if c.firedSince = false ∧ c.bridgeHeard = false then 1 else 0] := by
  unfold firePayload carriesStart
  cases c.firedSince <;> cases c.bridgeHeard <;> rfl

theorem cleanFiring_iff (c : Cru) :
    cleanFiring c = true ↔ c.inversionMark = false ∧ c.predecessor.any (fun x => !x.replaced) = true := by
  unfold cleanFiring
  cases c.predecessor with
  | none => simp
  | some r => simp [and_comm]

/-- The Level Monitor with the mark of a firing taken, where it raises no event. -/
theorem lmonMarked_pending {s : State} (pending : s.lmon.markTaken = false) (quiet : s.MarkRaisesNoEvent true) :
    s.lmonMarked true = (s.lmon.judged s.straps).adjusted := by
  unfold State.lmonMarked
  rw [if_neg (by simp [pending]), cycleMark_lmon, marked_of_noEvent quiet]
  unfold Lmon.resumed
  rw [if_neg (by simp)]

/-- Settles O27: the own firing of a station in FIRING, with its cycle mark pending. -/
theorem firingLightsTheValveAndTellsTheGroup : Obligations.FiringLightsTheValveAndTellsTheGroup := by
  intro s c α scheduled due angle firing m eventless low silent
  have taken_or : s.lmon.markTaken = true ∨ s.lmon.markTaken = false := by cases s.lmon.markTaken <;> simp
  have mEq (pending : s.lmon.markTaken = false) :
      s.MarkRaisesNoEvent true ∧ m = (s.lmon.judged s.straps).adjusted ∧ m.redundancy ≠ .exhausted := by
    obtain ⟨quiet, spare⟩ := eventless.resolve_left (by simp [pending])
    exact ⟨quiet, lmonMarked_pending pending quiet, spare⟩
  have plain : s.firesPlainly := by
    rcases taken_or with taken | pending
    · exact .inl taken
    · obtain ⟨quiet, is, spare⟩ := mEq pending
      rw [is] at spare
      exact .inr ⟨by rw [marked_of_noEvent quiet], spare⟩
  have entersLow : s.entersLow ↔ s.lmon.redundancy ≠ .last ∧ m.redundancy = .last := by
    unfold State.entersLow
    rcases taken_or with taken | pending
    · have is : m = s.lmon := if_pos taken
      rw [is, taken]
      exact ⟨fun h => absurd h.1 (by decide), fun h => absurd h.2 h.1⟩
    · rw [(mEq pending).2.1]
      exact ⟨fun h => h.2, fun h => ⟨pending, h⟩⟩
  obtain ⟨kept, train, cru, rif, faults, enters, stays⟩ := firing_plain (f := c.firing) firing plain low silent
  have lmon := fireAt_lmon c.firing s
  dsimp only
  refine ⟨_, reachedSchedule_of_now scheduled due, kept.eq, train.trans (trainFiring_eq _ _ _), ?_,
    fun pending => ⟨?_, fun i => ?_⟩, ?_, ?_, fun g => ?_⟩
  · have cleared : m.fv.clearDisarm = { s.lmon.fv with armed := false, members := [] } := by
      rcases taken_or with taken | pending
      · have is : m = s.lmon := if_pos taken
        rw [is]; rfl
      · rw [(mEq pending).2.1]
        show (s.lmon.fv.atMark (s.lmon.judged s.straps).levels).clearDisarm = _
        unfold Tally.atMark
        split <;> rfl
    rw [lmon, ← cleared]
    rfl
  · have levels : (fireAt c.firing s).lmon.levels = (s.lmon.marked s.straps true s.now).1.levels := by
      rw [lmon, lmonMarked_pending pending (mEq pending).1, marked_of_noEvent (mEq pending).1]
      show _ = ((s.lmon.judged s.straps).adjusted.resumed true s.now).levels
      unfold Lmon.resumed
      rw [if_neg (by simp)]
      rfl
    have records (st : LevelState) : recordsIn (fireAt c.firing s) st =
        countIn (s.lmon.judgedLevels s.straps.nlev) s.straps.nlev st := by
      rw [recordsIn_eq, levels, (fireAt_moves c.firing s).sameFrame.2.1, marked_countIn]
    have pf : (if s.lmon.pf.armed = true then
        { s.lmon.pf with
          members := s.lmon.pf.members.filter fun x => ((fireAt c.firing s).level x.level).state ≠ .failed }
        else s.lmon.pf) = s.lmon.pf.atMark (s.lmon.judged s.straps).levels := by
      rw [atMark_judged _ s.lmon s.straps true s.now, ← levels]
      rfl
    rw [records, records, records, pf, (mEq pending).2.1]
    rfl
  · show (fireAt c.firing s).lmon.levels.get i = (cycleMark true s).lmon.levels.get i
    rw [lmon]
    show (s.lmonMarked true).levels.get i = _
    unfold State.lmonMarked
    rw [if_neg (by simp [pending])]
  · rw [cru]; rfl
  · rw [rif, State.rifFired, firePayload_eq, angle]; rfl
  · by_cases isLow : g = .redundancyLow
    · subst isLow
      simp only [reduceCtorEq, or_self, and_false, if_false, or_false, and_true]
      by_cases last : s.entersLow
      · rw [enters last, if_pos (entersLow.mp last), occurred_eq (by rw [low]; decide)]
      · rw [stays last, if_neg fun h => last (entersLow.mpr h)]
    · rw [faults g isLow]
      unfold Stc.firingFaults
      simp only [cleanFiring_iff, raisesSilent_iff, isLow, and_false, false_or]
      by_cases clean : (s.cru.inversionMark = false ∧ s.cru.predecessor.any (fun x => !x.replaced) = true) ∧
          (g = .sequenceInversion ∨ g = .sequenceSlip ∨ g = .peerSilent)
      · rw [if_pos clean, if_pos clean]
      · rw [if_neg clean, if_neg clean]
        by_cases counts : (s.cru.predecessor = none ∧ s.cru.missCount = 2) ∧ g = .peerSilent
        · rw [if_pos counts, if_pos counts, occurred_eq (by rw [counts.2, silent]; decide)]
        · rw [if_neg counts, if_neg counts]

end Sys2Proof.Machine
end

section
/-! PROOFS. A repeated commutation failure, overdue or protective, and its trip (O30). -/

namespace Sys2Proof.Machine

/-! ### The overdue watch and the fault of a repeated failure within a mark -/

theorem adoptAtTrip_cru (b : BypassOrder) (s : State) :
    (adoptAtTrip b s).cru = s.cru ∨ (adoptAtTrip b s).cru = { s.cru with watch := none } := by
  unfold adoptAtTrip
  split
  · rw [membershipActs_inTurn]
    dsimp only
    split
    · exact .inr rfl
    · exact .inl rfl
  · exact .inl rfl
  · exact .inl rfl

theorem trippedBy_cru (s : State) (f : FaultCode) :
    (s.trippedBy f).cru = s.cru ∨ (s.trippedBy f).cru = { s.cru with watch := none } := by
  have adopted := adoptAtTrip_cru (ownBypass s (f.code.val + 1)) (originateBypass (ownBypass s (f.code.val + 1)) s)
  rw [show (originateBypass (ownBypass s (f.code.val + 1)) s).cru = s.cru from originate_cru _ _ _ _] at adopted
  exact adopted

theorem trippedBy_markView (s : State) (f : FaultCode) : (s.trippedBy f).markView = s.markView :=
  (adoptAtTrip_markView _ _).trans (markView_originate _ _ _ s)

theorem trippedBy_fcu (s : State) (f : FaultCode) : (s.trippedBy f).fcu = s.fcu := by
  unfold State.trippedBy
  show (adoptAtTrip _ _).fcu = _
  unfold adoptAtTrip
  have originated : (originateBypass (ownBypass s (f.code.val + 1)) s).fcu = s.fcu := originate_fcu _ _ _ _
  split
  · rw [membershipActs_inTurn]; exact originated
  · exact originated
  · exact originated

theorem trippedBy_fault (s : State) (f : FaultCode) {g : FaultCode} (h : g ≠ .bypassConflict) :
    (s.trippedBy f).stc.fault g = s.stc.fault g :=
  (adoptAtTrip_fault _ _ h).trans (congrArg (fun c => Stc.fault c g) (originate_stc _ _ _ _))

/-- A fault taken in a mark begins no overdue watch. -/
theorem takeFaultInMark_unwatched {f : FaultCode} {s : State} (h : s.cru.watch = none) :
    (takeFaultInMark f s).cru.watch = none := by
  have tripped (u : State) (k : u.cru.watch = none) : (trip discardSchedule f u).cru.watch = none := by
    by_cases firing : u.stc.station = .firing
    · have watch : (u.trippedBy f).cru.watch = none := by
        rcases trippedBy_cru u f with e | e <;> rw [e]
        exact k
      rw [trip_in_firing _ _ firing]
      split <;> exact watch
    · rw [trip_outside_firing _ _ firing]
      exact k
  unfold takeFaultInMark takeFaultWith
  dsimp only
  split
  · exact tripped _ h
  · split
    · unfold blockByFault
      dsimp only
      split
      · exact tripped _ h
      · exact h
    · exact h
  · exact h
  · exact h

theorem handEvent_unwatched {e : ValveEvent} {u : State} (h : u.cru.watch = none) :
    (handEvent onItsWay e u).cru.watch = none := by
  cases e with
  | xt L phase =>
    rw [handEvent_xt]
    dsimp only
    split
    · simp only [State.cruAfterXt, h]
    · exact h
  | fv L phase =>
    have alarm (γ : Nat) (x : State) : (marginAlarm γ L x).cru.watch = x.cru.watch := by
      unfold marginAlarm
      split
      · unfold requestMargin
        rw [originate_frame]
        split <;> rfl
      · rfl
    show (cruFv L phase u).cru.watch = none
    unfold cruFv
    split
    · exact h
    · split
      · split
        · exact h
        · exact (alarm _ _).trans h
      · exact h
  | pfq L =>
    show (cruPfq onItsWay L u).cru.watch = none
    unfold cruPfq detectFailure enterAndTell
    dsimp only
    rw [originate_frame]
    split
    · exact h
    · unfold repetitionTest
      split <;> exact h

theorem cycleMark_unwatched {own : Bool} {s : State} (h : s.cru.watch = none) : (cycleMark own s).cru.watch = none :=
  cycleMark_keeps (P := fun t => t.cru.watch = none) own s h (fun _ _ k => handEvent_unwatched k)
    (fun t k => by rw [cruMark_frame]; exact k) (fun _ _ k => takeFaultInMark_unwatched k)
    (fun t k => by rw [surveyTest_frame]; exact k)

/-- A mark of a station whose history holds its firing number raises no repeated failure. -/
theorem cycleMark_unrepeated {own : Bool} {s : State} (h : s.cru.ownFn ∈ s.cru.cfHistory) :
    (cycleMark own s).stc.fault .commutationFailureRepeated = s.stc.fault .commutationFailureRepeated := by
  have single : failureFault (s.lmon.marked s.straps own s.now).2 s = [] := by
    have : s.failureRepeats = false := by simp [State.failureRepeats, h]
    simp [failureFault, this]
  obtain ⟨fs, run, perm⟩ := cycleMark_acts own s
  rw [single] at perm
  rw [run]
  refine inTurn_keeps
    (P := fun t => t.stc.fault .commutationFailureRepeated = s.stc.fault .commutationFailureRepeated) rfl
    fun act hact t k => ?_
  have hact := perm.mem_iff.mp hact
  simp only [List.map_nil, List.mem_append, List.mem_map, List.mem_cons, List.not_mem_nil, or_false] at hact
  rcases hact with (⟨e, -, rfl⟩ | rfl) | ⟨f, hf, rfl⟩ | rfl
  · rw [handEvent_stc]; exact k
  · rw [cruMark_frame]; exact k
  · have other : f ≠ .commutationFailureRepeated := by
      rintro rfl
      obtain ⟨-, ⟨h, -⟩ | ⟨h, -⟩⟩ := (enteredFault_eq_some _ _ _).mp (Option.mem_toList.mp hf) <;> cases h
    rw [takeFaultInMark_fault f t (by decide), if_neg other]; exact k
  · rcases surveyTest_cases t with h | ⟨-, h | h⟩ <;> rw [h] <;> exact k

/-- A cancellation with the firing number in the history. -/
theorem cancelSchedule_unrepeated {s : State} (h : s.cru.ownFn ∈ s.cru.cfHistory) :
    (cancelSchedule s).stc.fault .commutationFailureRepeated = s.stc.fault .commutationFailureRepeated := by
  rcases cancels_or_marks s with free | takes
  · rw [cancelSchedule_eq free]
  · rw [cancelSchedule_mark takes]
    exact cycleMark_unrepeated h

theorem cancelSchedule_unwatched {s : State} (h : s.cru.watch = none) : (cancelSchedule s).cru.watch = none := by
  rcases cancels_or_marks s with free | takes
  · rw [cancelSchedule_eq free]; exact h
  · rw [cancelSchedule_mark takes]; exact cycleMark_unwatched h

/-! ### The detection of a repeated failure (R162, R163) -/

/-- The state in which the repeated failure is raised: its firing number in the history, its CFAIL originated and its
advance asked for. -/
def State.repeating (s : State) (history : List FiringNumber) (cause : Nat) (r : StationTime) : State :=
  { s with
    cru := { s.cru with
      cfHistory := history
      advances :=
        enterRequest s.cru.advances { source := s.straps.pos, kind := .cfail, magnitude := 3000, hold := 20 } }
    rif := s.rif.originated .cfail [BitVec.ofNat 8 cause, 4] (some r) }

/-- The failure whose new number makes a history of four within 600. -/
theorem detectFailure_repeated {s : State} {cause : Nat} {r : StationTime} {a b c : FiringNumber}
    (history : s.cru.cfHistory = [a, b, c] ∨ ∃ z, s.cru.cfHistory = [z, a, b, c])
    (fresh : s.cru.ownFn ∉ s.cru.cfHistory) (within : (s.cru.ownFn - a).toNat ≤ 600)
    (h1 : s.stc.station ≠ .start) (h2 : s.stc.station ≠ .inert) :
    detectFailure takeFault cause r s =
      (takeFault .commutationFailureRepeated (s.repeating [a, b, c, s.cru.ownFn] cause r)).onCru
        fun c => { c with cfHistory := [] } := by
  have entered : historyEntered s.cru.cfHistory s.cru.ownFn = [a, b, c, s.cru.ownFn] := by
    rw [historyEntered_eq (by rcases history with h | ⟨z, h⟩ <;> simp [h]), if_neg fresh]
    rcases history with h | ⟨z, h⟩ <;> rw [h] <;> rfl
  have told : requestCfail s.straps.pos (enterAndTell cause r s) = s.repeating [a, b, c, s.cru.ownFn] cause r := by
    unfold enterAndTell
    dsimp only [State.onCru]
    rw [entered, originate_active (by exact h1) (by exact h2)]
    rfl
  unfold detectFailure
  dsimp only
  rw [told, if_neg (by simpa using fresh)]
  unfold repetitionTest
  rw [if_pos]
  show repeated [a, b, c, s.cru.ownFn] = true
  simpa [repeated] using within

/-- A repeated failure outside FIRING, in mode TRIP: the Station Controller alone. -/
theorem repeatedTrip_outside {v : State} (mode : (v.stc.fault .commutationFailureRepeated).mode = .trip)
    (h1 : v.stc.station ≠ .start) (h2 : v.stc.station ≠ .inert) (away : v.stc.station ≠ .firing) :
    takeFault .commutationFailureRepeated v =
        { v with stc := (takeFault .commutationFailureRepeated v).stc } ∧
      (takeFault .commutationFailureRepeated v).stc.station = .tripped ∧
      (takeFault .commutationFailureRepeated v).stc.fault .commutationFailureRepeated =
        FaultRecord.occurred (v.stc.fault .commutationFailureRepeated) := by
  have run := takeFaultWith_outside cancelSchedule .commutationFailureRepeated away
  change takeFault .commutationFailureRepeated v = _ at run
  rw [run]
  refine ⟨rfl, ?_, ?_⟩
  · dsimp only
    split
    · rfl
    · next stays =>
      have stays := fun k => stays ⟨mode, k⟩
      cases e : v.stc.station <;> simp_all
  · dsimp only
    split <;> exact onFault_fault_same _ _ _

/-- A repeated failure in FIRING, in mode TRIP. -/
theorem repeatedTrip_firing {v : State} (mode : (v.stc.fault .commutationFailureRepeated).mode = .trip)
    (firing : v.stc.station = .firing) :
    takeFault .commutationFailureRepeated v =
      cancelSchedule ((v.recordFault .commutationFailureRepeated).trippedBy .commutationFailureRepeated) := by
  rw [takeFault_trips mode, trip_in_firing (s := v.recordFault _) _ _ firing, if_neg (by decide)]

theorem repeatedTrip {v : State} (mode : (v.stc.fault .commutationFailureRepeated).mode = .trip)
    (h1 : v.stc.station ≠ .start) (h2 : v.stc.station ≠ .inert) (held : v.cru.ownFn ∈ v.cru.cfHistory) :
    (takeFault .commutationFailureRepeated v).stc.station = .tripped ∧
      (takeFault .commutationFailureRepeated v).stc.fault .commutationFailureRepeated =
        FaultRecord.occurred (v.stc.fault .commutationFailureRepeated) ∧
      (v.cru.watch = none → (takeFault .commutationFailureRepeated v).cru.watch = none) ∧
      (v.stc.station ≠ .firing →
        (takeFault .commutationFailureRepeated v).rif = v.rif ∧
          (takeFault .commutationFailureRepeated v).fcu = v.fcu) ∧
      (v.stc.station = .firing → (takeFault .commutationFailureRepeated v).fcu.schedule = none) ∧
      (v.stc.station ≠ .firing ∨ CancelsWithoutMark v →
        (takeFault .commutationFailureRepeated v).lmon = v.lmon ∧
          ((takeFault .commutationFailureRepeated v).cru = v.cru ∨
            (takeFault .commutationFailureRepeated v).cru = { v.cru with watch := none })) ∧
      (v.stc.station = .firing → v.stc.record = none → CancelsWithoutMark v →
        (takeFault .commutationFailureRepeated v).rif =
          v.rif.originated .bypass
            (bypassPayload (ownBypass v 0).fn (ownBypass v 0).star (ownBypass v 0).delta 4) none) := by
  by_cases firing : v.stc.station = .firing
  · have run := repeatedTrip_firing mode firing
    obtain ⟨x, tripped⟩ : ∃ x, x = (v.recordFault .commutationFailureRepeated).trippedBy .commutationFailureRepeated :=
      ⟨_, rfl⟩
    rw [← tripped] at run
    have cru : x.cru = v.cru ∨ x.cru = { v.cru with watch := none } := tripped ▸ trippedBy_cru (v.recordFault _) _
    have heldX : x.cru.ownFn ∈ x.cru.cfHistory := by rcases cru with h | h <;> rw [h] <;> exact held
    have view : x.markView = v.markView := tripped ▸ trippedBy_markView (v.recordFault _) _
    have fcu : x.fcu = v.fcu := tripped ▸ trippedBy_fcu (v.recordFault _) _
    simp only [State.markView, Prod.mk.injEq] at view
    obtain ⟨lmon, now, -⟩ := view
    have free (h : CancelsWithoutMark v) : CancelsWithoutMark x := by
      unfold CancelsWithoutMark
      rw [fcu, lmon, now]
      exact h
    refine ⟨?_, ?_, fun none => ?_, fun away => absurd firing away, fun _ => ?_, fun h => ?_, fun _ empty h => ?_⟩
    · rw [run]; exact cancelSchedule_moves_tripped (tripped ▸ trippedBy_station _ _)
    · rw [run, cancelSchedule_unrepeated heldX, tripped, trippedBy_fault _ _ (by decide)]
      exact onFault_fault_same _ _ _
    · rw [run]
      refine cancelSchedule_unwatched ?_
      rcases cru with e | e
      · exact (congrArg Cru.watch e).trans none
      · exact congrArg Cru.watch e
    · rw [run]; exact cancelSchedule_none _
    · rw [run, cancelSchedule_eq (free (h.resolve_left (not_not_intro firing)))]
      exact ⟨lmon, cru⟩
    · rw [run, cancelSchedule_eq (free h)]
      show x.rif = _
      rw [tripped, show State.rif _ = _ from congrArg State.rif (trippedBy_eq (s := v.recordFault _) firing empty)]
      rfl
  · obtain ⟨frame, station, fault⟩ := repeatedTrip_outside mode h1 h2 firing
    refine ⟨station, fault, fun none => ?_, fun _ => ?_, fun h => absurd h firing, fun _ => ?_, fun h => absurd h firing⟩
    · rw [frame]; exact none
    · rw [frame]; exact ⟨rfl, rfl⟩
    · rw [frame]; exact ⟨rfl, .inl rfl⟩

/-- What the detection of a repeated failure comes to in the modes that R185 allows it. -/
theorem repetition {u : State} {cause : Nat} {r : StationTime} {a b c : FiringNumber}
    (history : u.cru.cfHistory = [a, b, c] ∨ ∃ z, u.cru.cfHistory = [z, a, b, c])
    (fresh : u.cru.ownFn ∉ u.cru.cfHistory) (within : (u.cru.ownFn - a).toNat ≤ 600)
    (h1 : u.stc.station ≠ .start) (h2 : u.stc.station ≠ .inert)
    (mode : (u.stc.fault .commutationFailureRepeated).mode = .trip ∨
      (u.stc.fault .commutationFailureRepeated).mode = .report) :
    ∃ t, detectFailure takeFault cause r u = t ∧ Moves u t ∧ t.cru.cfHistory = [] ∧
      t.stc.fault .commutationFailureRepeated =
        { u.stc.fault .commutationFailureRepeated with
          active := true, count := min 127 ((u.stc.fault .commutationFailureRepeated).count + 1) } ∧
      (u.cru.watch = none → t.cru.watch = none) ∧
      ((u.stc.fault .commutationFailureRepeated).mode = .report →
        t = { u with
          rif := u.rif.originated .cfail [BitVec.ofNat 8 cause, 4] (some r)
          stc := u.stc.onFault .commutationFailureRepeated fun f =>
            { f with active := true, count := min 127 (f.count + 1) }
          cru := { u.cru with
            cfHistory := []
            advances :=
              enterRequest u.cru.advances { source := u.straps.pos, kind := .cfail, magnitude := 3000, hold := 20 } } }) ∧
      ((u.stc.fault .commutationFailureRepeated).mode = .trip →
        t.stc.station = .tripped ∧
        (u.stc.station ≠ .tripped → t.stc.tripLine = true ∧ t.stc.readyLine = false) ∧
        (u.stc.station ≠ .firing →
          t.rif = u.rif.originated .cfail [BitVec.ofNat 8 cause, 4] (some r) ∧ t.fcu = u.fcu ∧
            t.cru.advances =
              enterRequest u.cru.advances { source := u.straps.pos, kind := .cfail, magnitude := 3000, hold := 20 }) ∧
        (u.stc.station = .firing → t.fcu.schedule = none) ∧
        (u.stc.station = .firing → u.stc.record = none → CancelsWithoutMark u →
          t.cru.advances =
              enterRequest u.cru.advances { source := u.straps.pos, kind := .cfail, magnitude := 3000, hold := 20 } ∧
            t.rif = (u.rif.originated .cfail [BitVec.ofNat 8 cause, 4] (some r)).originated .bypass
              (wordBytes (ownBypass u 4).fn.toNat ++
                [BitVec.ofNat 8 (ownBypass u 4).star, BitVec.ofNat 8 (ownBypass u 4).delta, 4]) none)) ∧
      ((u.stc.fault .commutationFailureRepeated).mode = .report ∨ u.stc.station ≠ .firing ∨ CancelsWithoutMark u →
        t.lmon = u.lmon ∧ t.cru.gammaStart = u.cru.gammaStart ∧
          t.cru.advances =
            enterRequest u.cru.advances
              { source := u.straps.pos, kind := .cfail, magnitude := 3000, hold := 20 }) := by
  have moves : Moves u (detectFailure takeFault cause r u) := detectFailure_moves takeFault_moves cause r u
  have run := detectFailure_repeated (cause := cause) (r := r) history fresh within h1 h2
  refine ⟨_, rfl, moves, ?_⟩
  rw [run] at moves ⊢
  have held : (u.repeating [a, b, c, u.cru.ownFn] cause r).cru.ownFn ∈
      (u.repeating [a, b, c, u.cru.ownFn] cause r).cru.cfHistory := by simp [State.repeating]
  have counted : FaultRecord.occurred (u.stc.fault .commutationFailureRepeated) =
      { u.stc.fault .commutationFailureRepeated with
        active := true, count := min 127 ((u.stc.fault .commutationFailureRepeated).count + 1) } :=
    occurred_eq (by rcases mode with h | h <;> rw [h] <;> decide)
  rcases mode with trip | report
  · obtain ⟨station, fault, watch, outside, schedule, unmarked, bypass⟩ :=
      repeatedTrip (v := u.repeating [a, b, c, u.cru.ownFn] cause r) trip h1 h2 held
    have kept (h : u.stc.station ≠ .firing ∨ CancelsWithoutMark u) :
        (takeFault .commutationFailureRepeated (u.repeating [a, b, c, u.cru.ownFn] cause r)).lmon = u.lmon ∧
          (takeFault .commutationFailureRepeated (u.repeating [a, b, c, u.cru.ownFn] cause r)).cru.gammaStart =
            u.cru.gammaStart ∧
          (takeFault .commutationFailureRepeated (u.repeating [a, b, c, u.cru.ownFn] cause r)).cru.advances =
            enterRequest u.cru.advances { source := u.straps.pos, kind := .cfail, magnitude := 3000, hold := 20 } := by
      obtain ⟨lmon, e | e⟩ := unmarked h
      · exact ⟨lmon, (congrArg Cru.gammaStart e).trans rfl, (congrArg Cru.advances e).trans rfl⟩
      · exact ⟨lmon, (congrArg Cru.gammaStart e).trans rfl, (congrArg Cru.advances e).trans rfl⟩
    refine ⟨rfl, fault.trans counted, watch, fun h => ?_, fun _ => ⟨station, fun moved => ?_, fun away => ?_, schedule,
      fun firing empty free => ?_⟩, fun h => kept (h.resolve_left (by rw [trip]; decide))⟩
    · rw [trip] at h; cases h
    · have lines := moves.movedLines (fun same => moved (same.symm.trans station))
      rw [show ((takeFault .commutationFailureRepeated (u.repeating [a, b, c, u.cru.ownFn] cause r)).onCru fun c =>
        { c with cfHistory := [] }).stc.station = .tripped from station] at lines
      exact lines
    · exact ⟨(outside away).1, (outside away).2, (kept (.inl away)).2.2⟩
    · exact ⟨(kept (.inr free)).2.2, bypass firing empty free⟩
  · have recorded := takeFault_report (s := u.repeating [a, b, c, u.cru.ownFn] cause r) report
    rw [recorded]
    refine ⟨rfl, ?_, fun h => h, fun _ => rfl, fun h => ?_, fun _ => ⟨rfl, rfl, rfl⟩⟩
    · exact onFault_fault_same _ _ _
    · rw [report] at h; cases h

/-- Settles O30: a repeated failure, for both detections. -/
theorem fourFailuresInFiftyCyclesTrip : Obligations.FourFailuresInFiftyCyclesTrip := by
  intro s a b c history fresh within started active mode modes
  dsimp only
  refine ⟨fun w watch due => ?_, fun i r measuring low high alive phase armed since new full => ?_⟩
  · have overdue : overdueAt s = some w.deadline := by simp [overdueAt, watch, due]
    have e : exec .overdueDeadline s = .next (detectFailure takeFault 1 w.deadline (discardWatch s)) := by
      show Host.Outcome.next _ = _
      simp only [overdue]
    obtain ⟨t, run, moves, cleared, fault, unwatched, report, trip, unmarked⟩ :=
      repetition (u := discardWatch s) (cause := 1) (r := w.deadline) history fresh within started active modes
    obtain ⟨now, straps, aru, pending, handed, channels⟩ := moves.sameFrame
    refine ⟨t, e.trans (congrArg _ run), ⟨cleared, ?_, now, straps, aru, pending, handed, fun h => ?_, fun h => ?_⟩,
      unwatched rfl, channels, fun h => (unmarked h).1, fun h => ?_⟩
    · rw [onFault_fault_same]; exact fault
    · rw [report h]; rfl
    · exact trip h
    · rw [report h]; exact ⟨rfl, rfl⟩
  · have e := exec_indication_pfq measuring low high alive phase armed since new full
    rw [cruPfq] at e
    obtain ⟨t, run, moves, cleared, fault, -, report, trip, unmarked⟩ :=
      repetition (u := (s.refired i r).onCru fun c => { c with gammaStart := none }) (cause := 2) (r := r)
        history fresh within started active modes
    obtain ⟨now, straps, aru, pending, handed, channels⟩ := moves.sameFrame
    obtain ⟨fallen, others, train⟩ := fallen_becomes measuring
    have channel (j : Fin 80) : t.channel j = (s.fallen i).channel j := congrArg (fun c => c.get j) channels
    refine ⟨t, e.trans (congrArg _ run), ⟨cleared, ?_, now, straps, aru, pending, handed, fun h => ?_, fun h => ?_⟩,
      (channel i).trans fallen, fun j other => (channel j).trans (others j other), fun h => ?_, fun h => ?_⟩
    · rw [onFault_fault_same]; exact fault
    · rw [report h]; rfl
    · exact trip h
    · rw [report h]; exact ⟨rfl, rfl⟩
    · obtain ⟨lmon, start, -⟩ := unmarked h
      refine ⟨start, by rw [lmon]; exact refired_lmon s i r, fun j => ?_⟩
      exact (congrArg (fun m : Lmon => m.levels.get j) lmon).trans (refired_level s i r j)

end Sys2Proof.Machine
end

section
/-! PROOFS. What faults and cycle marks leave of the reference event's own state, and changes taken once each in a free
order (R58). -/

namespace Sys2Proof.Machine

/-! ### Changes taken once each, in any order -/

/-- A relation between the changes taken so far and the state holds after all of them, where each change, taken once,
keeps it. -/
theorem inTurn_once {ι : Type} {act : ι → State → State} {R : List ι → State → Prop} {fs : List (State → State)}
    {is : List ι} {s : State} (perm : fs.Perm (is.map act)) (nodup : is.Nodup) (h0 : R [] s)
    (taken : ∀ D i t, i ∈ is → i ∉ D → R D t → R (i :: D) (act i t)) :
    ∃ D, (∀ i, i ∈ D ↔ i ∈ is) ∧ R D (inTurn fs s) := by
  obtain ⟨js, rfl, order⟩ : Relation.Comp (fun (l : List (State → State)) k => l = k.map act) List.Perm fs is := by
    rw [List.eq_map_comp_perm]
    exact perm
  have run : ∀ (l D : List ι) (t : State), (∀ i ∈ l, i ∈ is) → (∀ i ∈ l, i ∉ D) → l.Nodup → R D t →
      R (l.reverse ++ D) (inTurn (l.map act) t) := by
    intro l
    induction l with
    | nil => exact fun D t _ _ _ h => h
    | cons i l ih =>
      intro D t hl new hn h
      obtain ⟨first, rest⟩ := List.nodup_cons.mp hn
      have next := ih (i :: D) (act i t) (fun j hj => hl j (List.mem_cons_of_mem _ hj))
        (fun j hj => by
          rintro (_ | ⟨_, old⟩)
          · exact first hj
          · exact new j (List.mem_cons_of_mem _ hj) old)
        rest (taken D i t (hl i List.mem_cons_self) (new i List.mem_cons_self) h)
      simpa [inTurn] using next
  refine ⟨js.reverse ++ [], fun i => by simp [order.mem_iff], ?_⟩
  exact run js [] s (fun i hi => order.mem_iff.mp hi) (by simp) (order.nodup_iff.mpr nodup) h0

/-! ### An occurrence of a fault (R186) -/

/-- What every occurrence of a fault leaves, before its cancellation. -/
structure Occurs (f : FaultCode) (s v : State) : Prop where
  view : v.markView = s.markView
  fcu : v.fcu = s.fcu
  cru : ∃ watch, v.cru = { s.cru with watch := watch }
  reference : v.stc.lastReference = s.stc.lastReference
  hold : f ≠ .ringLost → v.stc.holdRunning = s.stc.holdRunning ∧ v.stc.holdCount = s.stc.holdCount
  station : v.stc.station = s.stc.station ∨ v.stc.station = .blocked ∨ v.stc.station = .tripped

theorem Occurs.of_stc {f : FaultCode} {s : State} {c : Stc} (reference : c.lastReference = s.stc.lastReference)
    (hold : c.holdRunning = s.stc.holdRunning ∧ c.holdCount = s.stc.holdCount)
    (station : c.station = s.stc.station ∨ c.station = .blocked ∨ c.station = .tripped) :
    Occurs f s { s with stc := c } :=
  ⟨rfl, rfl, ⟨s.cru.watch, rfl⟩, reference, fun _ => hold, station⟩

theorem adoptAtTrip_hold (b : BypassOrder) (s : State) :
    (adoptAtTrip b s).stc.lastReference = s.stc.lastReference ∧ (adoptAtTrip b s).stc.holdRunning = s.stc.holdRunning ∧
      (adoptAtTrip b s).stc.holdCount = s.stc.holdCount := by
  unfold adoptAtTrip
  split
  · rw [membershipActs_stc]; exact ⟨rfl, rfl, rfl⟩
  · exact ⟨rfl, rfl, rfl⟩
  · exact ⟨rfl, rfl, rfl⟩

theorem trippedBy_hold (s : State) (f : FaultCode) :
    (s.trippedBy f).stc.lastReference = s.stc.lastReference ∧ (s.trippedBy f).stc.holdRunning = s.stc.holdRunning ∧
      (s.trippedBy f).stc.holdCount = s.stc.holdCount := by
  have adopted := adoptAtTrip_hold (ownBypass s (f.code.val + 1)) (originateBypass (ownBypass s (f.code.val + 1)) s)
  rw [show (originateBypass (ownBypass s (f.code.val + 1)) s).stc = s.stc from originate_stc _ _ _ _] at adopted
  exact adopted

theorem Occurs.tripped {f : FaultCode} {s u : State} (k : Occurs f s u) : Occurs f s (u.trippedBy f) := by
  obtain ⟨reference, running, count⟩ := trippedBy_hold u f
  refine ⟨(trippedBy_markView u f).trans k.view, (trippedBy_fcu u f).trans k.fcu, ?_, reference.trans k.reference,
    fun h => ⟨running.trans (k.hold h).1, count.trans (k.hold h).2⟩, .inr (.inr rfl)⟩
  obtain ⟨watch, cru⟩ := k.cru
  rcases trippedBy_cru u f with e | e
  · exact ⟨watch, e.trans cru⟩
  · exact ⟨none, by rw [e, cru]⟩

/-- A trip from FIRING cancels at a station TRIPPED, but for RING_LOST, which begins the hold. -/
theorem Occurs.trips {f : FaultCode} {s u : State} (cancel : State → State) (k : Occurs f s u)
    (firing : u.stc.station = .firing) :
    ∃ v, Occurs f s v ∧ v.stc.station = .tripped ∧
      (f = .ringLost ∧ trip cancel f u = v ∨ f ≠ .ringLost ∧ trip cancel f u = cancel v) := by
  rw [trip_in_firing cancel f firing]
  obtain ⟨view, fcu, cru, reference, -, station⟩ := k.tripped
  by_cases lost : f = .ringLost
  · refine ⟨startHold (u.trippedBy f), ⟨view, fcu, cru, reference, fun h => absurd lost h, station⟩, rfl,
      .inl ⟨lost, ?_⟩⟩
    rw [if_pos lost]
  · refine ⟨u.trippedBy f, k.tripped, rfl, .inr ⟨lost, ?_⟩⟩
    rw [if_neg lost]

theorem Occurs.recorded (f : FaultCode) (s : State) : Occurs f s (s.recordFault f) := .of_stc rfl ⟨rfl, rfl⟩ (.inl rfl)

/-- An occurrence of a fault either cancels the schedule at a station that it has stopped, or cancels nothing. -/
theorem takeFaultWith_cases (cancel : State → State) (f : FaultCode) (s : State) :
    ∃ v, Occurs f s v ∧
      (takeFaultWith cancel f s = v ∧ (s.stc.station = .firing → f ≠ .ringLost →
          (s.stc.fault f).mode = .report ∨ (s.stc.fault f).mode = .ignore) ∨
        s.stc.station = .firing ∧ takeFaultWith cancel f s = cancel v ∧
          (v.stc.station = .blocked ∨ v.stc.station = .tripped)) := by
  by_cases firing : s.stc.station = .firing
  · have trips (u : State) (k : Occurs f s u) (h : u.stc.station = .firing) :
        ∃ v, Occurs f s v ∧ (trip cancel f u = v ∧ (s.stc.station = .firing → f ≠ .ringLost →
            (s.stc.fault f).mode = .report ∨ (s.stc.fault f).mode = .ignore) ∨
          s.stc.station = .firing ∧ trip cancel f u = cancel v ∧
            (v.stc.station = .blocked ∨ v.stc.station = .tripped)) := by
      obtain ⟨v, occurs, tripped, ⟨lost, run⟩ | ⟨-, run⟩⟩ := k.trips cancel h
      · exact ⟨v, occurs, .inl ⟨run, fun _ other => absurd lost other⟩⟩
      · exact ⟨v, occurs, .inr ⟨firing, run, .inr tripped⟩⟩
    unfold takeFaultWith
    dsimp only
    cases mode : (s.stc.fault f).mode with
    | trip => simpa only [mode] using trips (s.recordFault f) (.recorded f s) firing
    | block =>
      dsimp only
      rw [if_pos (by exact firing)]
      unfold blockByFault
      dsimp only
      split
      · simpa only [mode] using trips ((s.recordFault f).escalate) (.of_stc rfl ⟨rfl, rfl⟩ (.inl rfl)) firing
      · exact ⟨((s.recordFault f).escalate).enter .blocked, .of_stc rfl ⟨rfl, rfl⟩ (.inr (.inl rfl)),
          .inr ⟨firing, rfl, .inl rfl⟩⟩
    | report => exact ⟨_, .recorded f s, .inl ⟨rfl, fun _ _ => .inl rfl⟩⟩
    | ignore => exact ⟨_, .recorded f s, .inl ⟨rfl, fun _ _ => .inr rfl⟩⟩
  · have run := takeFaultWith_outside cancel f firing
    rw [run]
    split
    · exact ⟨_, .of_stc (c := (s.stc.onFault f FaultRecord.occurred).enter .tripped) rfl ⟨rfl, rfl⟩ (.inr (.inr rfl)),
        .inl ⟨rfl, fun h => absurd h firing⟩⟩
    · exact ⟨_, .of_stc (c := s.stc.onFault f FaultRecord.occurred) rfl ⟨rfl, rfl⟩ (.inl rfl),
        .inl ⟨rfl, fun h => absurd h firing⟩⟩

/-! ### What a reference event counts (R143, R182, R188) -/

/-- The Coordination Unit's view of its orders: staleness, the stale flag, the signal of their loss, the source. -/
def Cru.orderView (c : Cru) : Nat × Bool × Bool × Option Nat := (c.staleness, c.stale, c.lostSignalled, c.activeSource)

/-- The state that a reference event alone counts, with the hold. -/
def State.eventView (s : State) : (Nat × Bool × Bool × Option Nat) × StationTime × Bool × Nat :=
  (s.cru.orderView, s.stc.lastReference, s.stc.holdRunning, s.stc.holdCount)

theorem Occurs.eventView {f : FaultCode} {s v : State} (k : Occurs f s v) (h : f ≠ .ringLost) :
    v.eventView = s.eventView := by
  obtain ⟨watch, cru⟩ := k.cru
  unfold State.eventView
  rw [cru, k.reference, (k.hold h).1, (k.hold h).2]
  rfl

theorem takeFaultWith_eventView {cancel : State → State} {f : FaultCode} (h : f ≠ .ringLost)
    (hc : ∀ v, (cancel v).eventView = v.eventView) (s : State) :
    (takeFaultWith cancel f s).eventView = s.eventView := by
  obtain ⟨v, occurs, ⟨run, -⟩ | ⟨-, run, -⟩⟩ := takeFaultWith_cases cancel f s <;> rw [run]
  · exact occurs.eventView h
  · exact (hc v).trans (occurs.eventView h)

theorem handEvent_orderView (e : ValveEvent) (u : State) :
    (handEvent onItsWay e u).cru.orderView = u.cru.orderView := by
  cases e with
  | xt L phase =>
    rw [handEvent_xt]
    dsimp only
    split <;> rfl
  | fv L phase =>
    have alarm (γ : Nat) (x : State) : (marginAlarm γ L x).cru.orderView = x.cru.orderView := by
      unfold marginAlarm
      split
      · unfold requestMargin
        rw [originate_frame]
        split <;> rfl
      · rfl
    show (cruFv L phase u).cru.orderView = _
    unfold cruFv
    split
    · rfl
    · split
      · split
        · rfl
        · exact (alarm _ _).trans rfl
      · rfl
  | pfq L =>
    show (cruPfq onItsWay L u).cru.orderView = _
    unfold cruPfq detectFailure enterAndTell
    dsimp only
    rw [originate_frame]
    split
    · rfl
    · unfold repetitionTest
      split <;> rfl

theorem handEvent_eventView (e : ValveEvent) (u : State) : (handEvent onItsWay e u).eventView = u.eventView := by
  unfold State.eventView
  rw [handEvent_stc, handEvent_orderView]

theorem surveyTest_eventView (u : State) : (surveyTest u).eventView = u.eventView := by
  rcases surveyTest_cases u with h | ⟨-, h | h⟩ <;> rw [h] <;> rfl

/-- A mark's own fault is none of a lost ring. -/
theorem OtherAct.eventView {s : State} {own : Bool} {act : State → State} (h : OtherAct s own act) (t : State) :
    (act t).eventView = t.eventView := by
  rcases h with ⟨e, -, rfl⟩ | rfl | ⟨rfl, -⟩ | rfl
  · exact handEvent_eventView e t
  · rw [cruMark_frame]; rfl
  · exact takeFaultWith_eventView (cancel := discardSchedule) (by decide) (fun _ => rfl) t
  · exact surveyTest_eventView t

theorem enteredFault_ne {was is : Redundancy} {f g : FaultCode} (h : enteredFault was is = some f)
    (h1 : g ≠ .redundancyLow) (h2 : g ≠ .redundancyExhausted) : f ≠ g := by
  rintro rfl
  obtain ⟨-, ⟨low, -⟩ | ⟨exhausted, -⟩⟩ := (enteredFault_eq_some _ _ _).mp h
  · exact h1 low
  · exact h2 exhausted

theorem cycleMark_eventView (own : Bool) (s : State) : (cycleMark own s).eventView = s.eventView := by
  obtain ⟨fs, run, -, acts⟩ := cycleMark_all own s
  rw [run]
  refine inTurn_keeps (P := fun t => t.eventView = s.eventView) rfl fun act hact t k => ?_
  rcases acts act hact with other | ⟨f, entered, rfl⟩
  · exact (other.eventView t).trans k
  · have other := enteredFault_ne (g := .ringLost) entered (by decide) (by decide)
    exact (takeFaultWith_eventView (cancel := discardSchedule) other (fun _ => rfl) t).trans k

theorem cancelSchedule_eventView (s : State) : (cancelSchedule s).eventView = s.eventView := by
  rcases cancels_or_marks s with free | takes
  · rw [cancelSchedule_eq free]; rfl
  · rw [cancelSchedule_mark takes, cycleMark_eventView]; rfl

theorem takeFault_eventView {f : FaultCode} (h : f ≠ .ringLost) (s : State) :
    (takeFault f s).eventView = s.eventView := takeFaultWith_eventView h cancelSchedule_eventView s

/-! ### Where marks and faults take the station -/

/-- The station has stayed where it was, or has been blocked or tripped. -/
def Stopped (x y : Station) : Prop := y = x ∨ y = .blocked ∨ y = .tripped

theorem Stopped.trans {x y z : Station} (h : Stopped x y) (k : Stopped y z) : Stopped x z := by
  rcases k with rfl | k
  · exact h
  · exact .inr k

theorem surveyTest_stopped (u : State) : Stopped u.stc.station (surveyTest u).stc.station := by
  rcases surveyTest_cases u with h | ⟨-, h | h⟩ <;> rw [h]
  · exact .inl rfl
  · exact .inr (.inr rfl)
  · exact .inr (.inl rfl)

theorem takeFaultWith_stopped {cancel : State → State} (hc : ∀ v, Stopped v.stc.station (cancel v).stc.station)
    (f : FaultCode) (s : State) : Stopped s.stc.station (takeFaultWith cancel f s).stc.station := by
  obtain ⟨v, occurs, ⟨run, -⟩ | ⟨-, run, -⟩⟩ := takeFaultWith_cases cancel f s <;> rw [run]
  · exact occurs.station
  · exact Stopped.trans occurs.station (hc v)

theorem cycleMark_stopped (own : Bool) (s : State) : Stopped s.stc.station (cycleMark own s).stc.station :=
  cycleMark_keeps (P := fun t => Stopped s.stc.station t.stc.station) own s (.inl rfl)
    (fun e t k => by rw [handEvent_stc]; exact k) (fun t k => by rw [cruMark_frame]; exact k)
    (fun f t k => k.trans (takeFaultWith_stopped (cancel := discardSchedule) (fun _ => .inl rfl) f t))
    (fun t k => k.trans (surveyTest_stopped t))

theorem cancelSchedule_stopped (s : State) : Stopped s.stc.station (cancelSchedule s).stc.station := by
  rcases cancels_or_marks s with free | takes
  · rw [cancelSchedule_eq free]; exact .inl rfl
  · rw [cancelSchedule_mark takes]
    exact cycleMark_stopped false { s with fcu := { s.fcu with schedule := none } }

theorem takeFault_stopped (f : FaultCode) (s : State) : Stopped s.stc.station (takeFault f s).stc.station :=
  takeFaultWith_stopped cancelSchedule_stopped f s

/-! ### The Level Monitor -/

/-- An occurrence of a fault leaves the Level Monitor, but for the cycle mark of its cancellation, which takes a cycle at
or after M alone. -/
theorem takeFault_lmon (f : FaultCode) (s : State) :
    (takeFault f s).lmon = s.lmon ∨
      s.stc.station = .firing ∧ s.lmon.markTaken = false ∧ (∃ M, s.lmon.fallback = some M ∧ 0 ≤ (s.now - M).toInt) ∧
        (takeFault f s).lmon = (s.lmon.marked s.straps false s.now).1 := by
  obtain ⟨v, occurs, cases⟩ := takeFaultWith_cases cancelSchedule f s
  have view := occurs.view
  simp only [State.markView, Prod.mk.injEq] at view
  obtain ⟨lmon, now, straps, -⟩ := view
  change (takeFault f s = v ∧ _) ∨ (_ ∧ takeFault f s = _ ∧ _) at cases
  rcases cases with ⟨run, -⟩ | ⟨firing, run, -⟩ <;> rw [run]
  · exact .inl lmon
  rcases cancels_or_marks v with free | takes
  · rw [cancelSchedule_eq free]
    exact .inl lmon
  · have marked := cancelSchedule_lmon takes
    obtain ⟨-, pending, past⟩ := takes
    rw [lmon, now] at past
    rw [lmon, straps, now] at marked
    exact .inr ⟨firing, by rw [← lmon]; exact pending, past, marked⟩

/-- A mark that raises no event leaves the Coordination Unit but for its overdue watch. -/
theorem cycleMark_cru {own : Bool} {s : State} (none : (s.lmon.marked s.straps own s.now).2 = []) :
    ∃ watch, (cycleMark own s).cru = { s.cru with watch := watch } := by
  obtain ⟨fs, run, -, acts⟩ := cycleMark_all own s
  rw [run]
  refine inTurn_keeps (P := fun t => ∃ watch, t.cru = { s.cru with watch := watch }) ⟨s.cru.watch, rfl⟩
    fun act hact t k => ?_
  obtain ⟨watch, cru⟩ := k
  have fault (f : FaultCode) : ∃ watch, (takeFaultInMark f t).cru = { s.cru with watch := watch } := by
    obtain ⟨watch', run⟩ := takeFaultInMark_cru f t
    exact ⟨watch', run.trans (by rw [cru])⟩
  rcases acts act hact with (⟨e, he, -⟩ | rfl | ⟨-, failure⟩ | rfl) | ⟨f, -, rfl⟩
  · rw [none] at he; cases he
  · rw [cruMark_frame]; exact ⟨watch, cru⟩
  · rw [none] at failure; cases failure
  · rw [surveyTest_frame]; exact ⟨watch, cru⟩
  · exact fault f

end Sys2Proof.Machine
end

section
/-! PROOFS. The reference event taken by its receivers in any order: what each leaves, and what staleness, the stamp of
the event and the cycle become (R34, R58, R143). -/

namespace Sys2Proof.Machine

/-! ### The receivers (R58) -/

/-- The receivers of a reference event, the SURVEY test of a changed lock state, and the two acts of the twelfth miss. -/
inductive Receiver where
  | fcu
  | lmon
  | cru
  | stc
  | test
  | free
  | lost

/-- What a receiver does. -/
def Receiver.act (e : ReferenceEvent) : Receiver → State → State
  | .fcu => fcuReference e
  | .lmon => lmonReference e.zRef
  | .cru => cruReference
  | .stc => stcReference
  | .test => surveyTest
  | .free => enterFree
  | .lost => takeFault .referenceLost

/-- The four blocks. -/
def Receiver.blocks : List Receiver := [.fcu, .lmon, .cru, .stc]

theorem referenceReceivers_eq (e : ReferenceEvent) : referenceReceivers e = Receiver.blocks.map (Receiver.act e) := rfl

/-- The advance list one reference event on (R167). -/
def decayedList (l : List Advance) : List Advance :=
  (l.map fun x => if 0 < x.hold then { x with hold := x.hold - 1 } else { x with magnitude := x.magnitude - 150 }).filter
    fun x => 0 < x.magnitude

/-- The Coordination Unit one reference event on, with the orders lost or not (R143, R167). -/
def Cru.referenced (c : Cru) (lost : Bool) : Cru :=
  { c with
    staleness := min 255 (c.staleness + 1), stale := c.stale || decide (5 ≤ c.staleness + 1)
    lostSignalled := c.lostSignalled || lost, advances := decayedList c.advances }

theorem ordersLost_eq (s : State) :
    ordersLost (s.onCru fun c => { c.staler with advances := decayAdvances c.advances }) = s.losesOrders := by
  have staleness : decide (50 ≤ satSucc 255 s.cru.staleness) = decide (49 ≤ s.cru.staleness) := by
    unfold satSucc
    rw [decide_eq_decide]
    omega
  show (decide (50 ≤ satSucc 255 s.cru.staleness) &&
    (decide (s.stc.station = .firing) || decide (s.stc.station = .bypass)) &&
    s.cru.activeSource.isSome && !s.cru.lostSignalled) = s.losesOrders
  rw [staleness, State.losesOrders, Bool.decide_or]

/-- The Coordination Unit's part of a reference event: it counts, the list decays, and lost orders raise ORDER_LOST
(R143, R167). -/
theorem cruReference_eq (s : State) :
    cruReference s =
      if s.losesOrders = true then takeFault .orderLost { s with cru := s.cru.referenced true }
      else { s with cru := s.cru.referenced false } := by
  have stale : (s.cru.stale || decide (5 ≤ satSucc 255 s.cru.staleness)) =
      (s.cru.stale || decide (5 ≤ s.cru.staleness + 1)) := by
    unfold satSucc
    congr 1
    rw [decide_eq_decide]
    omega
  have counted (lost : Bool) : { ({ s.cru.staler with advances := decayAdvances s.cru.advances } : Cru) with
      lostSignalled := s.cru.lostSignalled || lost } = s.cru.referenced lost := by
    unfold Cru.staler Cru.referenced
    rw [stale]
    rfl
  unfold cruReference
  dsimp only
  rw [ordersLost_eq]
  split
  · rw [← counted, Bool.or_true]
    rfl
  · rw [← counted, Bool.or_false]
    rfl

theorem fcuReference_frame (e : ReferenceEvent) (s : State) :
    fcuReference e s = { s with fcu := (fcuReference e s).fcu } := by
  unfold fcuReference
  split <;> rfl

/-- The Level Monitor's part of a reference event: the pending mark, then a new cycle (R34). -/
theorem lmonReference_eq (z : StationTime) (s : State) :
    lmonReference z s =
      { (if s.lmon.markTaken then s else cycleMark false s) with
        lmon := { s.lmonMarked false with
          markTaken := false, fallback := some (z + BitVec.ofNat 32 (9000 * s.aru.period / 36000)) } } := by
  unfold lmonReference State.lmonMarked
  cases s.lmon.markTaken <;> rfl

theorem lmonReference_eventView (z : StationTime) (s : State) : (lmonReference z s).eventView = s.eventView := by
  rw [lmonReference_eq]
  show State.eventView (if s.lmon.markTaken then s else cycleMark false s) = _
  split
  · rfl
  · exact cycleMark_eventView false s

theorem lmonReference_stopped (z : StationTime) (s : State) :
    Stopped s.stc.station (lmonReference z s).stc.station := by
  rw [lmonReference_eq]
  show Stopped s.stc.station (State.stc (if s.lmon.markTaken then s else cycleMark false s)).station
  split
  · exact .inl rfl
  · exact cycleMark_stopped false s

theorem lmonMarked_taken (s : State) (own : Bool) : (s.lmonMarked own).markTaken = true := by
  unfold State.lmonMarked
  split
  · assumption
  · rw [cycleMark_lmon, marked_frame]
    rfl

/-! ### What stands while the receivers take the event -/

/-- What stands at each point of a reference event begun in `b`, with the receivers in `D` done. -/
structure Underway (b : State) (D : List Receiver) (t : State) : Prop where
  now : t.now = b.now
  straps : t.straps = b.straps
  channels : t.lca.channels = b.lca.channels
  pending : t.pending = b.pending
  handed : t.handed = b.handed
  health : t.rif.portA.health = b.rif.portA.health ∧ t.rif.portB.health = b.rif.portB.health
  modes : ∀ f, (t.stc.fault f).mode = (b.stc.fault f).mode
  aru : (.free ∈ D → t.aru = b.aru.toFree) ∧ (.free ∉ D → t.aru = b.aru)
  stopped : Stopped b.stc.station t.stc.station
  hold : t.stc.holdRunning = b.stc.holdRunning
  counted : .cru ∈ D →
    t.cru.staleness = min 255 (b.cru.staleness + 1) ∧ t.cru.stale = (b.cru.stale || decide (5 ≤ b.cru.staleness + 1))
  uncounted : .cru ∉ D → t.cru.orderView = b.cru.orderView
  stamped : .stc ∈ D → t.stc.lastReference = b.now
  unstamped : .stc ∉ D → t.stc.holdCount = b.stc.holdCount

theorem Underway.begun (b : State) : Underway b [] b.drawn where
  now := rfl
  straps := rfl
  channels := rfl
  pending := rfl
  handed := rfl
  health := ⟨rfl, rfl⟩
  modes _ := rfl
  aru := ⟨fun h => absurd h List.not_mem_nil, fun _ => rfl⟩
  stopped := .inl rfl
  hold := rfl
  counted h := nomatch h
  uncounted _ := rfl
  stamped h := nomatch h
  unstamped _ := rfl

theorem Underway.period {b t : State} {D : List Receiver} (k : Underway b D t) : t.aru.period = b.aru.period := by
  obtain ⟨freed, same⟩ := k.aru
  by_cases h : .free ∈ D
  · rw [freed h]; rfl
  · rw [same h]

theorem mem_after {i j : Receiver} {D : List Receiver} (h : j ≠ i) : j ∈ i :: D ↔ j ∈ D := by simp [h]

/-- A change that moves only, and counts nothing of its own. -/
theorem Underway.moved {b t u : State} {D D' : List Receiver} (k : Underway b D t) (moves : Moves t u)
    (view : u.eventView = t.eventView) (stopped : Stopped t.stc.station u.stc.station)
    (cru : .cru ∈ D' ↔ .cru ∈ D) (stc : .stc ∈ D' ↔ .stc ∈ D) (free : .free ∈ D' ↔ .free ∈ D) : Underway b D' u := by
  obtain ⟨now, straps, aru, pending, handed, channels⟩ := moves.sameFrame
  obtain ⟨a, c⟩ := moves.ringHealth
  simp only [State.eventView, Prod.mk.injEq] at view
  obtain ⟨orders, reference, hold, count⟩ := view
  have orders' := orders
  simp only [Cru.orderView, Prod.mk.injEq] at orders'
  obtain ⟨staleness, stale, -⟩ := orders'
  refine ⟨now.trans k.now, straps.trans k.straps, channels.trans k.channels, pending.trans k.pending,
    handed.trans k.handed, ⟨a.trans k.health.1, c.trans k.health.2⟩, fun f => (moves.modes f).trans (k.modes f), ?_,
    k.stopped.trans stopped, hold.trans k.hold, ?_, ?_, ?_, ?_⟩
  · rw [free, aru]; exact k.aru
  · rw [cru, staleness, stale]; exact k.counted
  · rw [cru, orders]; exact k.uncounted
  · rw [stc, reference]; exact k.stamped
  · rw [stc, count]; exact k.unstamped

/-- The Coordination Unit's turn. -/
theorem cruReference_eventView (s : State) :
    (cruReference s).eventView =
      ((s.cru.referenced s.losesOrders).orderView, s.stc.lastReference, s.stc.holdRunning, s.stc.holdCount) := by
  rw [cruReference_eq]
  cases lost : s.losesOrders with
  | true =>
    rw [if_pos rfl, takeFault_eventView (by decide)]
    rfl
  | false =>
    rw [if_neg (by decide)]
    rfl

theorem cruReference_stopped (s : State) : Stopped s.stc.station (cruReference s).stc.station := by
  rw [cruReference_eq]
  split
  · exact takeFault_stopped .orderLost { s with cru := s.cru.referenced true }
  · exact .inl rfl

/-- Each receiver, taken once, keeps what stands. -/
theorem Underway.taken {e : ReferenceEvent} {b t : State} {D : List Receiver} (i : Receiver) (new : i ∉ D)
    (k : Underway b D t) : Underway b (i :: D) (i.act e t) := by
  cases i with
  | fcu =>
    refine k.moved (fcuReference_moves e t) ?_ (.inl ?_) (by simp) (by simp) (by simp)
    · show (fcuReference e t).eventView = _
      rw [fcuReference_frame]; rfl
    · show (fcuReference e t).stc.station = _
      rw [fcuReference_frame]
  | lmon =>
    exact k.moved (lmonReference_moves _ t) (lmonReference_eventView _ t) (lmonReference_stopped _ t) (by simp) (by simp)
      (by simp)
  | test =>
    exact k.moved (surveyTest_moves t) (surveyTest_eventView t) (surveyTest_stopped t) (by simp) (by simp) (by simp)
  | lost =>
    exact k.moved (takeFault_moves _ t) (takeFault_eventView (by decide) t) (takeFault_stopped _ t) (by simp) (by simp)
      (by simp)
  | stc =>
    have cru : Receiver.cru ∈ .stc :: D ↔ .cru ∈ D := mem_after (by simp)
    exact ⟨k.now, k.straps, k.channels, k.pending, k.handed, k.health, k.modes,
      by rw [mem_after (by simp)]; exact k.aru, k.stopped, k.hold, by rw [cru]; exact k.counted,
      by rw [cru]; exact k.uncounted, fun _ => k.now, fun h => absurd List.mem_cons_self h⟩
  | cru =>
    have moves : Moves t (cruReference t) := cruReference_moves t
    obtain ⟨now, straps, aru, pending, handed, channels⟩ := moves.sameFrame
    obtain ⟨a, c⟩ := moves.ringHealth
    have view := cruReference_eventView t
    simp only [State.eventView, Prod.mk.injEq] at view
    obtain ⟨orders, reference, hold, count⟩ := view
    have before := k.uncounted new
    simp only [Cru.orderView, Prod.mk.injEq, Cru.referenced] at orders before
    obtain ⟨staleness, stale, -⟩ := orders
    obtain ⟨staleness', stale', -⟩ := before
    rw [staleness'] at staleness
    rw [stale', staleness'] at stale
    have stc : Receiver.stc ∈ .cru :: D ↔ .stc ∈ D := mem_after (by simp)
    show Underway b (.cru :: D) (cruReference t)
    refine ⟨now.trans k.now, straps.trans k.straps, channels.trans k.channels, pending.trans k.pending,
      handed.trans k.handed, ⟨a.trans k.health.1, c.trans k.health.2⟩, fun f => (moves.modes f).trans (k.modes f), ?_,
      k.stopped.trans (cruReference_stopped t), hold.trans k.hold, fun _ => ⟨staleness, stale⟩,
      fun h => absurd List.mem_cons_self h, ?_, ?_⟩
    · rw [mem_after (by simp), aru]; exact k.aru
    · rw [stc, reference]; exact k.stamped
    · rw [stc, count]; exact k.unstamped
  | free =>
    have cru : Receiver.cru ∈ .free :: D ↔ .cru ∈ D := mem_after (by simp)
    have stc : Receiver.stc ∈ .free :: D ↔ .stc ∈ D := mem_after (by simp)
    have begun : Underway b (.free :: D) (t.onAru Aru.toFree) :=
      ⟨k.now, k.straps, k.channels, k.pending, k.handed, k.health, k.modes,
        ⟨fun _ => congrArg Aru.toFree (k.aru.2 new), fun h => absurd List.mem_cons_self h⟩, k.stopped, k.hold,
        by rw [cru]; exact k.counted, by rw [cru]; exact k.uncounted, by rw [stc]; exact k.stamped,
        by rw [stc]; exact k.unstamped⟩
    exact begun.moved (surveyTest_moves _) (surveyTest_eventView _) (surveyTest_stopped _) .rfl .rfl .rfl

/-! ### Lost orders -/

/-- Orders lost at a point of the event were lost when it began, and the station is where it was. -/
theorem Underway.losesOrders {b t : State} {D : List Receiver} (k : Underway b D t) (new : .cru ∉ D)
    (lost : t.losesOrders = true) : b.losesOrders = true ∧ t.stc.station = b.stc.station := by
  have orders := k.uncounted new
  simp only [Cru.orderView, Prod.mk.injEq] at orders
  obtain ⟨staleness, -, signalled, source⟩ := orders
  simp only [State.losesOrders, Bool.and_eq_true, decide_eq_true_eq] at lost ⊢
  obtain ⟨⟨⟨h1, station⟩, h2⟩, h3⟩ := lost
  have same : t.stc.station = b.stc.station := by
    rcases k.stopped with h | h | h
    · exact h
    · rw [h] at station; simp at station
    · rw [h] at station; simp at station
  rw [staleness] at h1
  rw [source] at h2
  rw [signalled] at h3
  rw [same] at station
  exact ⟨⟨⟨⟨h1, station⟩, h2⟩, h3⟩, same⟩

/-- ORDER_LOST, where it stops no firing, is entered in the fault table alone. -/
theorem Underway.orderLost_recorded {b t : State} {D : List Receiver} (k : Underway b D t) (new : .cru ∉ D)
    (plain : b.OrdersOrReport) (lost : t.losesOrders = true) (c : Cru) :
    takeFault .orderLost { t with cru := c } = State.recordFault { t with cru := c } .orderLost := by
  obtain ⟨before, same⟩ := k.losesOrders new lost
  have mode : (State.stc { t with cru := c }).fault .orderLost = t.stc.fault .orderLost := rfl
  rcases plain before with report | ⟨block, bypass⟩
  · exact takeFault_recorded (.inl (by rw [mode, k.modes]; exact report))
  · rw [takeFault_mode, mode, k.modes, block]
    exact if_neg (by rw [show (State.stc { t with cru := c }).station = b.stc.station from same, bypass]; decide)

/-! ### The cycle (R34) -/

/-- The Level Monitor with a new cycle open, from a reference zero on. -/
def State.lmonReferenced (b : State) (z : StationTime) : Lmon :=
  { b.lmonMarked false with
    markTaken := false, fallback := some (z + BitVec.ofNat 32 (9000 * b.aru.period / 36000)) }

/-- The Level Monitor at each point of a reference event: before its turn as it was, or with the mark that a cancellation
took; after it with the new cycle open. -/
structure CycleUnder (z : StationTime) (b : State) (D : List Receiver) (t : State) : Prop where
  old : .lmon ∉ D → t.lmon = b.lmon ∨ t.lmon = b.lmonMarked false
  new : .lmon ∈ D → t.lmon = b.lmonReferenced z

theorem lmonMarked_congr {s t : State} {own : Bool} (lmon : t.lmon = s.lmon) (straps : t.straps = s.straps)
    (now : t.now = s.now) : t.lmonMarked own = s.lmonMarked own := by
  unfold State.lmonMarked
  rw [cycleMark_lmon, cycleMark_lmon, lmon, straps, now]

/-- No cancellation of this reference event takes a mark of the new cycle: M is ahead, or nothing fires, or the one fault
of the event cancels nothing. -/
def KeepsNewCycle (z : StationTime) (b : State) (is : List Receiver) : Prop :=
  (b.now - (z + BitVec.ofNat 32 (9000 * b.aru.period / 36000))).toInt < 0 ∨ b.stc.station ≠ .firing ∨
    (b.OrdersOrReport ∧ .lost ∉ is)

/-- A fault of the event takes no mark but that of the old cycle. -/
theorem CycleUnder.fault {z : StationTime} {b t : State} {D D' : List Receiver} {f : FaultCode} (k : Underway b D t)
    (cycle : CycleUnder z b D t) (same : .lmon ∈ D' ↔ .lmon ∈ D) (c : Cru)
    (calm : (b.now - (z + BitVec.ofNat 32 (9000 * b.aru.period / 36000))).toInt < 0 ∨ b.stc.station ≠ .firing ∨
      takeFault f { t with cru := c } = State.recordFault { t with cru := c } f) :
    CycleUnder z b D' (takeFault f { t with cru := c }) := by
  have cases : (takeFault f { t with cru := c }).lmon = t.lmon ∨ t.stc.station = .firing ∧ t.lmon.markTaken = false ∧
      (∃ M, t.lmon.fallback = some M ∧ 0 ≤ (t.now - M).toInt) ∧
        (takeFault f { t with cru := c }).lmon = (t.lmon.marked t.straps false t.now).1 :=
    takeFault_lmon f { t with cru := c }
  refine ⟨fun h => ?_, fun h => ?_⟩
  · rw [same] at h
    rcases cases with kept | ⟨-, pending, -, marked⟩
    · rw [kept]; exact cycle.old h
    · right
      rcases cycle.old h with e | e
      · rw [marked, e, k.straps, k.now]
        unfold State.lmonMarked
        rw [if_neg (by rw [← e, pending]; decide), cycleMark_lmon]
      · rw [e, lmonMarked_taken] at pending; cases pending
  · rw [same] at h
    have opened := cycle.new h
    rcases cases with kept | ⟨firing, -, ⟨M, fallback, past⟩, -⟩
    · rw [kept]; exact opened
    · rcases calm with ahead | still | recorded
      · rw [opened] at fallback
        obtain rfl := Option.some.inj fallback
        rw [k.now] at past
        exact absurd past (by omega)
      · exact absurd (k.stopped.resolve_right (by rw [firing]; simp) ▸ firing) still
      · rw [recorded]; exact opened

theorem CycleUnder.begun (z : StationTime) (b : State) : CycleUnder z b [] b.drawn :=
  ⟨fun _ => .inl rfl, fun h => absurd h List.not_mem_nil⟩

theorem CycleUnder.kept {z : StationTime} {b t u : State} {D D' : List Receiver} (cycle : CycleUnder z b D t)
    (lmon : u.lmon = t.lmon) (same : .lmon ∈ D' ↔ .lmon ∈ D) : CycleUnder z b D' u := by
  refine ⟨?_, ?_⟩ <;> rw [lmon, same]
  exacts [cycle.old, cycle.new]

/-- Each receiver, taken once, keeps the cycle. -/
theorem CycleUnder.taken {e : ReferenceEvent} {b t : State} {D is : List Receiver} (calm : KeepsNewCycle e.zRef b is)
    (i : Receiver) (used : i ∈ is) (new : i ∉ D) (k : Underway b D t) (cycle : CycleUnder e.zRef b D t) :
    CycleUnder e.zRef b (i :: D) (i.act e t) := by
  cases i with
  | fcu =>
    refine cycle.kept ?_ (mem_after (by simp))
    show (fcuReference e t).lmon = _
    rw [fcuReference_frame]
  | lmon =>
    refine ⟨fun h => absurd List.mem_cons_self h, fun _ => ?_⟩
    show (lmonReference e.zRef t).lmon = _
    rw [lmonReference_eq]
    have marked : t.lmonMarked false = b.lmonMarked false := by
      rcases cycle.old new with same | same
      · exact lmonMarked_congr same k.straps k.now
      · unfold State.lmonMarked at same ⊢
        rw [if_pos (by rw [same]; exact lmonMarked_taken b false), same]
    dsimp only
    rw [marked, k.period]
    rfl
  | cru =>
    show CycleUnder e.zRef b _ (cruReference t)
    rw [cruReference_eq]
    split
    · rename_i lost
      refine cycle.fault k (mem_after (by simp)) _ ?_
      rcases calm with ahead | still | ⟨plain, -⟩
      · exact .inl ahead
      · exact .inr (.inl still)
      · exact .inr (.inr (k.orderLost_recorded new plain lost _))
    · exact cycle.kept rfl (mem_after (by simp))
  | stc => exact cycle.kept rfl (mem_after (by simp))
  | test =>
    refine cycle.kept ?_ (mem_after (by simp))
    show (surveyTest t).lmon = _
    rw [surveyTest_frame]
  | free =>
    refine cycle.kept ?_ (mem_after (by simp))
    show (surveyTest _).lmon = _
    rw [surveyTest_frame]
    rfl
  | lost =>
    refine cycle.fault (c := t.cru) k (mem_after (by simp)) ?_
    rcases calm with ahead | still | ⟨-, unused⟩
    · exact .inl ahead
    · exact .inr (.inl still)
    · exact absurd used unused

end Sys2Proof.Machine
end

section
/-! PROOFS. A reference event whose mark is plain, at a station outside SURVEY: lost orders, and the whole state it leaves
(R34, R63, R143, R167, R182). -/

namespace Sys2Proof.Machine

/-! ### A plain mark -/

/-- The pending mark of the old cycle, if there is one, raises no valve event and keeps the redundancy state. -/
def State.marksPlainly (b : State) : Prop :=
  b.lmon.markTaken = true ∨
    ((b.lmon.marked b.straps false b.now).2 = [] ∧ (b.lmon.judged b.straps).redundancy = b.lmon.redundancy)

/-- A SURVEY test reads the Station Controller, the redundancy state, the unknown records, the lock state and the rings
alone. -/
theorem surveyTest_congr {u v : State} (stc : u.stc = v.stc) (redundancy : u.lmon.redundancy = v.lmon.redundancy)
    (unknowns : u.lmon.unknowns = v.lmon.unknowns) (lock : u.aru.lock = v.aru.lock)
    (health : u.rif.portA.health = v.rif.portA.health ∧ u.rif.portB.health = v.rif.portB.health) :
    (surveyTest u).stc = (surveyTest v).stc := by
  have up : u.aRingUp = v.aRingUp := by
    unfold State.aRingUp
    rw [health.1, health.2]
  unfold surveyTest
  rw [stc, redundancy, unknowns, lock, up]
  split
  · split
    · exact congrArg (fun c => Stc.enter c .tripped) stc
    · split
      · exact congrArg (fun c => Stc.enter c .blocked) stc
      · exact stc
  · exact stc

/-- The SURVEY test of a plain mark. -/
theorem cycleMark_plain_survey {t : State} (none : (t.lmon.marked t.straps false t.now).2 = [])
    (spare : (t.lmon.judged t.straps).redundancy = t.lmon.redundancy) :
    (cycleMark false t).stc = (surveyTest { t with lmon := (cycleMark false t).lmon }).stc := by
  have cruMark_stc (u : State) : (cruMark u).stc = u.stc := by rw [cruMark_frame]
  rcases cycleMark_of_none none spare with h | h
  · have stc := congrArg State.stc h
    obtain ⟨a, c⟩ := (cruMark_moves (t.marking false)).ringHealth
    rw [stc, cycleMark_lmon]
    refine surveyTest_congr (cruMark_stc _) ?_ ?_ ?_ ⟨a, c⟩ <;> rw [cruMark_frame] <;> rfl
  · have stc := congrArg State.stc h
    rw [stc, cruMark_stc, cycleMark_lmon]
    exact surveyTest_congr rfl rfl rfl rfl ⟨rfl, rfl⟩

/-- What a plain mark at a reference event leaves, at a point where the cycle is the old one. -/
theorem lmonReference_plain {b t : State} {D : List Receiver} (z : StationTime) (k : Underway b D t)
    (same : t.lmon = b.lmon) (plain : b.marksPlainly) :
    ∃ r c n, lmonReference z t = { t with lmon := b.lmonReferenced z, rif := r, stc := c, freeCount := n } ∧
      (b.lmon.markTaken = true → r = t.rif ∧ c = t.stc) ∧
      (t.stc.station ≠ .survey →
        c = t.stc ∧
          (b.lmon.markTaken = false →
            r =
              if t.stc.station = .blocked ∨ t.stc.station = .bypass ∨ t.stc.station = .tripped then
                t.rif.originated .health (healthBytes { t with lmon := b.lmonMarked false }) none
              else t.rif)) ∧
      (t.stc.station = .survey → b.lmon.markTaken = false →
        c = (surveyTest { t with lmon := b.lmonMarked false }).stc ∧
          (r = t.rif.originated .health (healthBytes { t with lmon := b.lmonMarked false, stc := c }) none ∨
            r = t.rif.originated .health (healthBytes { t with lmon := b.lmonMarked false }) none)) := by
  have marked : t.lmonMarked false = b.lmonMarked false := lmonMarked_congr same k.straps k.now
  rw [lmonReference_eq, marked, k.period]
  rcases Bool.eq_false_or_eq_true b.lmon.markTaken with taken | pending
  · rw [if_pos (by rw [same]; exact taken)]
    exact ⟨_, _, _, rfl, fun _ => ⟨rfl, rfl⟩, fun _ => ⟨rfl, fun h => by rw [taken] at h; cases h⟩,
      fun _ h => by rw [taken] at h; cases h⟩
  · obtain ⟨none, spare⟩ := plain.resolve_left (by simp [pending])
    have none' : (t.lmon.marked t.straps false t.now).2 = [] := by rw [same, k.straps, k.now]; exact none
    have spare' : (t.lmon.judged t.straps).redundancy = t.lmon.redundancy := by rw [same, k.straps]; exact spare
    obtain ⟨frame, away, survey⟩ := cycleMark_eventless (own := false) none' spare'
    have lmon : (cycleMark false t).lmon = b.lmonMarked false := by
      rw [← marked]
      unfold State.lmonMarked
      rw [if_neg (by rw [same, pending]; decide)]
    have bytes (c : Stc) : healthBytes { cycleMark false t with stc := c } =
        healthBytes { t with lmon := b.lmonMarked false, stc := c } := by
      obtain ⟨a, c⟩ := (cycleMark_moves false t).ringHealth
      refine healthBytes_originated lmon ?_ ?_ rfl a c <;> rw [frame]
    rw [if_neg (by rw [same, pending]; decide)]
    refine ⟨(cycleMark false t).rif, (cycleMark false t).stc, (cycleMark false t).freeCount, by rw [frame]; rfl,
      fun h => absurd h (by simp [pending]), fun elsewhere => ⟨(away elsewhere).1, fun _ => ?_⟩, fun h _ => ⟨?_, ?_⟩⟩
    · rw [(away elsewhere).2, ← bytes t.stc, ← (away elsewhere).1]
    · rw [cycleMark_plain_survey none' spare', lmon]
    · rcases survey h with run | run
      · exact .inl (by rw [run, ← bytes])
      · exact .inr (run.trans (by rw [bytes]))

/-! ### Orders that are lost (R143) -/

/-- What an event that loses the orders keeps of ORDER_LOST. -/
structure LosingOrders (b : State) (D : List Receiver) (t : State) : Prop where
  before : .cru ∉ D →
    t.stc.station = b.stc.station ∧ t.stc.fault .orderLost = b.stc.fault .orderLost ∧ (.lmon ∉ D → t.lmon = b.lmon)
  after : .cru ∈ D →
    t.cru.lostSignalled = true ∧ t.stc.fault .orderLost = FaultRecord.occurred (b.stc.fault .orderLost) ∧
      ((b.stc.fault .orderLost).mode = .block → b.stc.station = .firing →
        (t.stc.station = .blocked ∨ t.stc.station = .tripped) ∧ (b.stc.holdRunning = false → t.fcu.schedule = none))

theorem cycleMark_orderLost (own : Bool) (s : State) :
    (cycleMark own s).stc.fault .orderLost = s.stc.fault .orderLost := by
  rw [cycleMark_fault own s (by decide) (by decide), if_neg]
  exact fun h => enteredFault_ne (g := .orderLost) h (by decide) (by decide) rfl

theorem cancelSchedule_orderLost (s : State) : (cancelSchedule s).stc.fault .orderLost = s.stc.fault .orderLost := by
  rcases cancels_or_marks s with free | takes
  · rw [cancelSchedule_eq free]
  · rw [cancelSchedule_mark takes, cycleMark_orderLost]

theorem Stopped.stays {x y : Station} (h : Stopped x y) (k : x = .blocked ∨ x = .tripped) :
    y = .blocked ∨ y = .tripped := by
  rcases h with rfl | h
  · exact k
  · exact h

/-- A fault in mode BLOCK ends the firing: the station is BLOCKED or TRIPPED, and nothing is scheduled (R186, R188). -/
theorem takeFault_endsFiring {f : FaultCode} {s : State} (other : f ≠ .ringLost) (firing : s.stc.station = .firing)
    (mode : (s.stc.fault f).mode = .block ∨ (s.stc.fault f).mode = .trip) :
    ((takeFault f s).stc.station = .blocked ∨ (takeFault f s).stc.station = .tripped) ∧
      (takeFault f s).fcu.schedule = none := by
  obtain ⟨v, -, cases⟩ := takeFaultWith_cases cancelSchedule f s
  change (takeFault f s = v ∧ _) ∨ (_ ∧ takeFault f s = _ ∧ _) at cases
  rcases cases with ⟨-, acts⟩ | ⟨-, run, stopped⟩
  · rcases mode with h | h <;> rcases acts firing other with k | k <;> rw [h] at k <;> cases k
  · rw [run]
    exact ⟨(cancelSchedule_stopped v).stays stopped, cancelSchedule_none v⟩

theorem Underway.losing {b t : State} {D : List Receiver} (k : Underway b D t) (new : .cru ∉ D)
    (lost : b.losesOrders = true) (station : t.stc.station = b.stc.station) : t.losesOrders = true := by
  have orders := k.uncounted new
  simp only [Cru.orderView, Prod.mk.injEq] at orders
  obtain ⟨staleness, -, signalled, source⟩ := orders
  unfold State.losesOrders at lost ⊢
  rw [staleness, station, source, signalled]
  exact lost

theorem losesOrders_station {s : State} (h : s.losesOrders = true) :
    s.stc.station = .firing ∨ s.stc.station = .bypass := by
  simp only [State.losesOrders, Bool.and_eq_true, decide_eq_true_eq] at h
  exact h.1.1.2

/-- With no hold a station that has been stopped makes no firing. -/
theorem fcuReference_idle {s : State} (e : ReferenceEvent) (away : s.stc.station ≠ .firing) (hold : s.inHold = false) :
    fcuReference e s = s := by
  refine if_neg fun running => ?_
  rcases (firingOrHold_iff s).mp running with h | h
  · exact away h
  · rw [hold] at h; cases h

theorem inHold_of_off {s : State} (h : s.stc.holdRunning = false) : s.inHold = false := by simp [State.inHold, h]

/-- Each block keeps it. -/
theorem LosingOrders.taken {e : ReferenceEvent} {b t : State} {D : List Receiver} (plain : b.marksPlainly)
    (lost : b.losesOrders = true) (i : Receiver) (free : i ≠ .free) (loss : i ≠ .lost) (new : i ∉ D)
    (k : Underway b D t) (l : LosingOrders b D t) : LosingOrders b (i :: D) (i.act e t) := by
  have away : b.stc.station ≠ .survey := by rcases losesOrders_station lost with h | h <;> rw [h] <;> decide
  cases i with
  | free => exact absurd rfl free
  | lost => exact absurd rfl loss
  | fcu =>
    show LosingOrders b _ (fcuReference e t)
    rw [fcuReference_frame]
    refine ⟨by simpa using l.before, fun h => ?_⟩
    obtain ⟨signalled, fault, block⟩ := l.after (by simpa using h)
    refine ⟨signalled, fault, fun mode firing => ?_⟩
    obtain ⟨stopped, unscheduled⟩ := block mode firing
    refine ⟨stopped, fun off => ?_⟩
    rw [fcuReference_idle e (by rcases stopped with h | h <;> rw [h] <;> decide) (inHold_of_off (k.hold.trans off))]
    exact unscheduled off
  | lmon =>
    show LosingOrders b _ (lmonReference e.zRef t)
    refine ⟨fun h => ?_, fun h => ?_⟩
    · obtain ⟨station, fault, lmon⟩ := l.before (by simpa using h)
      obtain ⟨r, c, n, run, -, elsewhere, -⟩ := lmonReference_plain e.zRef k (lmon new) plain
      rw [run, (elsewhere (by rw [station]; exact away)).1]
      exact ⟨station, fault, fun h => absurd List.mem_cons_self h⟩
    · obtain ⟨signalled, fault, block⟩ := l.after (by simpa using h)
      have view := lmonReference_eventView e.zRef t
      simp only [State.eventView, Cru.orderView, Prod.mk.injEq] at view
      obtain ⟨⟨-, -, same, -⟩, -⟩ := view
      refine ⟨same.trans signalled, ?_, fun mode firing => ?_⟩
      · rw [lmonReference_eq]
        dsimp only
        split
        · exact fault
        · rw [cycleMark_orderLost]; exact fault
      · obtain ⟨stopped, unscheduled⟩ := block mode firing
        refine ⟨(lmonReference_stopped _ t).stays stopped, fun off => ?_⟩
        rw [lmonReference_eq]
        dsimp only
        split
        · exact unscheduled off
        · have outside := (OutsideFiring.refl (s := t) (by rcases stopped with h | h <;> rw [h] <;> decide)).marked false
          rw [outside.fcu]
          exact unscheduled off
  | cru =>
    obtain ⟨station, fault, -⟩ := l.before new
    have run := cruReference_eq t
    rw [if_pos (k.losing new lost station)] at run
    refine ⟨fun h => absurd List.mem_cons_self h, fun _ => ?_⟩
    show (cruReference t).cru.lostSignalled = true ∧ _
    have view := cruReference_eventView t
    rw [k.losing new lost station] at view
    simp only [State.eventView, Cru.orderView, Prod.mk.injEq] at view
    obtain ⟨⟨-, -, signalled, -⟩, -⟩ := view
    refine ⟨signalled.trans (by simp [Cru.referenced]), ?_, fun mode firing => ?_⟩
    · show (cruReference t).stc.fault .orderLost = _
      rw [run, takeFault, takeFaultWith_fault .orderLost _ (by decide) cancelSchedule_orderLost, ← fault]
      exact onFault_fault_same _ _ _
    · have ends := takeFault_endsFiring (f := .orderLost) (s := { t with cru := t.cru.referenced true }) (by decide)
        (station.trans firing) (.inl ((congrArg FaultRecord.mode fault).trans mode))
      rw [← run] at ends
      exact ⟨ends.1, fun _ => ends.2⟩
  | stc =>
    refine ⟨fun h => ?_, fun h => l.after (by simpa using h)⟩
    obtain ⟨station, fault, lmon⟩ := l.before (by simpa using h)
    exact ⟨station, fault, by rw [mem_after (by simp)]; exact lmon⟩
  | test =>
    show LosingOrders b _ (surveyTest t)
    refine ⟨fun h => ?_, fun h => ?_⟩
    · obtain ⟨station, fault, lmon⟩ := l.before (by simpa using h)
      rw [surveyTest_elsewhere (by rw [station]; exact away)]
      exact ⟨station, fault, by simpa using lmon⟩
    · obtain ⟨signalled, fault, block⟩ := l.after (by simpa using h)
      have same : (surveyTest t).stc.fault .orderLost = t.stc.fault .orderLost := by
        rcases surveyTest_cases t with h | ⟨-, h | h⟩ <;> rw [h] <;> rfl
      refine ⟨by rw [surveyTest_frame]; exact signalled, same.trans fault, fun mode firing => ?_⟩
      obtain ⟨stopped, unscheduled⟩ := block mode firing
      exact ⟨(surveyTest_stopped t).stays stopped, fun off => by rw [surveyTest_frame]; exact unscheduled off⟩

end Sys2Proof.Machine
end

section
/-! PROOFS. The whole state that a reference event with a plain mark leaves at a station outside SURVEY (R34, R63, R143,
R167, R182, R190). -/

namespace Sys2Proof.Machine

/-! ### The firing of the event (R63, R79) -/

/-- The Firing Computation Unit that the event makes with an advance list. -/
def State.fcuMade (b : State) (e : ReferenceEvent) (l : List Advance) : Fcu :=
  (fcuReference e { b with cru := { b.cru with advances := l } }).fcu

theorem fcuReference_on {s : State} (e : ReferenceEvent) (running : s.firingOrHold = true) :
    fcuReference e s =
      { s with fcu := { s.fcu with schedule := some (computedSchedule e s), lastAlpha := some (computedAngle s) } } :=
  if_pos running

theorem fcuReference_off {s : State} (e : ReferenceEvent) (idle : ¬s.firingOrHold = true) : fcuReference e s = s :=
  if_neg idle

theorem fcuMade_idle {b : State} (e : ReferenceEvent) (l : List Advance) (idle : ¬b.firingOrHold = true) :
    b.fcuMade e l = b.fcu :=
  (congrArg State.fcu (fcuReference_off (s := { b with cru := { b.cru with advances := l } }) e idle)).trans rfl

theorem fcuMade_scheduled {b : State} (e : ReferenceEvent) (l : List Advance) (running : b.firingOrHold = true) :
    (b.fcuMade e l).schedule.isSome = true := by
  unfold State.fcuMade
  rw [fcuReference_on (s := { b with cru := { b.cru with advances := l } }) e running]
  rfl

theorem fcuMade_frame (b : State) (e : ReferenceEvent) (l : List Advance) :
    b.fcuMade e l =
      { b.fcu with schedule := (b.fcuMade e l).schedule, lastAlpha := (b.fcuMade e l).lastAlpha } := by
  by_cases running : b.firingOrHold = true
  · unfold State.fcuMade
    rw [fcuReference_on (s := { b with cru := { b.cru with advances := l } }) e running]
  · rw [fcuMade_idle e l running]

/-- A firing computed at a point of the event is the one of the event with the list of that point. -/
theorem fcuReference_made {b t : State} (e : ReferenceEvent) (running : t.firingOrHold = true)
    (before : b.firingOrHold = true) (fcu : t.fcu = b.fcu) (predecessor : t.cru.predecessor = b.cru.predecessor)
    (mu : t.cru.muLast = b.cru.muLast) (gamma : t.stc.gammaMin = b.stc.gammaMin) :
    (fcuReference e t).fcu = b.fcuMade e t.cru.advances := by
  have angle : computedAngle t = computedAngle { b with cru := { b.cru with advances := t.cru.advances } } := by
    unfold computedAngle
    rw [fcu, mu, gamma]
  have schedule :
      computedSchedule e t = computedSchedule e { b with cru := { b.cru with advances := t.cru.advances } } := by
    unfold computedSchedule predecessorInstant
    rw [angle, predecessor]
  unfold State.fcuMade
  rw [fcuReference_on e running, angle, schedule, fcu,
    fcuReference_on (s := { b with cru := { b.cru with advances := t.cru.advances } }) e before]

/-! ### The blocks' turns in a plain event -/

/-- An occurrence in the fault table, where there is one. -/
def Stc.recorded (c : Stc) (occurs : Bool) (f : FaultCode) : Stc :=
  if occurs = true then c.onFault f FaultRecord.occurred else c

/-- Two faults enter the table in either order. -/
theorem onFault_comm (c : Stc) {f g : FaultCode} (h : f ≠ g) (x y : FaultRecord → FaultRecord) :
    (c.onFault f x).onFault g y = (c.onFault g y).onFault f x := by
  have faults : ((c.onFault f x).onFault g y).faults = ((c.onFault g y).onFault f x).faults :=
    faultTable_ext_iff.2 fun k => by
      show ((c.onFault f x).onFault g y).fault k = ((c.onFault g y).onFault f x).fault k
      by_cases hg : k = g
      · subst hg
        rw [onFault_fault_same, onFault_fault_other _ _ h, onFault_fault_other _ _ h, onFault_fault_same]
      · by_cases hf : k = f
        · subst hf
          rw [onFault_fault_same, onFault_fault_other _ _ (Ne.symm h), onFault_fault_other _ _ (Ne.symm h),
            onFault_fault_same]
        · rw [onFault_fault_other _ _ (Ne.symm hg), onFault_fault_other _ _ (Ne.symm hf),
            onFault_fault_other _ _ (Ne.symm hf), onFault_fault_other _ _ (Ne.symm hg)]
  exact congrArg (fun v => { c with faults := v }) faults

/-- The Coordination Unit's turn, where ORDER_LOST stops nothing. -/
theorem cruReference_plain {b t : State} {D : List Receiver} (k : Underway b D t) (new : .cru ∉ D)
    (plain : b.OrdersOrReport) (station : t.stc.station = b.stc.station ∨ b.stc.station = .survey) (cru : t.cru = b.cru) :
    cruReference t =
      { t with cru := b.cru.referenced b.losesOrders, stc := t.stc.recorded b.losesOrders .orderLost } := by
  have same : t.losesOrders = b.losesOrders := by
    rw [Bool.eq_iff_iff]
    refine ⟨fun h => (k.losesOrders new h).1, fun h => k.losing new h (station.resolve_right fun survey => ?_)⟩
    rcases losesOrders_station h with e | e <;> rw [survey] at e <;> cases e
  rw [cruReference_eq, same]
  cases lost : b.losesOrders with
  | true =>
    rw [if_pos rfl, k.orderLost_recorded new plain (same.trans lost), cru]
    rfl
  | false =>
    rw [if_neg (by decide), cru]
    rfl

/-- The twelfth miss stops nothing here: REFERENCE_LOST is entered in the fault table alone (R181, R186). -/
def State.lossStopsNothing (b : State) : Prop :=
  b.stc.station ≠ .firing ∧
    ((b.stc.fault .referenceLost).mode = .trip → b.stc.station ≠ .blocked ∧ b.stc.station ≠ .bypass)

theorem referenceLost_plain {b t : State} {D : List Receiver} (k : Underway b D t) (loss : b.lossStopsNothing)
    (away : b.stc.station ≠ .survey) (station : t.stc.station = b.stc.station) :
    takeFault .referenceLost t = { t with stc := t.stc.onFault .referenceLost FaultRecord.occurred } := by
  obtain ⟨still, trip⟩ := loss
  rw [takeFault, takeFaultWith_outside cancelSchedule .referenceLost (by rw [station]; exact still), if_neg]
  rintro ⟨mode, h⟩
  obtain ⟨blocked, bypass⟩ := trip (by rw [← k.modes]; exact mode)
  rw [station] at h
  rcases h with h | h | h
  · exact away h
  · exact blocked h
  · exact bypass h

/-! ### The whole state -/

theorem mem_old {i j : Receiver} {D : List Receiver} (h : j ∈ i :: D) (other : j ≠ i := by simp) : j ∈ D :=
  (mem_after other).mp h

theorem not_mem_old {i j : Receiver} {D : List Receiver} (h : j ∉ i :: D) : j ∉ D :=
  fun k => h (List.mem_cons_of_mem i k)

/-- The HEALTH of a pending mark, with the Coordination Unit and the fault table as before or after its turn. -/
def State.healthTold (b : State) (D : List Receiver) (r : Rif) : Prop :=
  r = b.rif.originated .health (healthBytes { b with lmon := b.lmonMarked false }) none ∨
    .cru ∈ D ∧ r = b.rif.originated .health (healthBytes { b with
      lmon := b.lmonMarked false, cru := b.cru.referenced b.losesOrders
      stc := b.stc.recorded b.losesOrders .orderLost }) none

/-- A station in service that does not fire. -/
def Station.tells (x : Station) : Prop := x = .blocked ∨ x = .bypass ∨ x = .tripped

/-- The state at each point of a plain reference event, at a station outside SURVEY. -/
structure ReferenceOutside (e : ReferenceEvent) (b : State) (D : List Receiver) (t : State) : Prop where
  lca : t.lca = b.lca
  counted : .cru ∈ D → t.cru = b.cru.referenced b.losesOrders
  uncounted : .cru ∉ D → t.cru = b.cru
  opened : .lmon ∈ D → t.lmon = b.lmonReferenced e.zRef
  unopened : .lmon ∉ D → t.lmon = b.lmon
  stc : ∃ x y : Bool, (x = true ↔ .cru ∈ D ∧ b.losesOrders = true) ∧ (y = true ↔ .lost ∈ D) ∧
    t.stc = { (b.stc.recorded y .referenceLost).recorded x .orderLost with
      lastReference := t.stc.lastReference, holdCount := t.stc.holdCount }
  held : .stc ∈ D → t.stc.holdCount = b.stc.holdCount + if b.inHold = true then 1 else 0
  unfired : .fcu ∉ D → t.fcu = b.fcu
  fired : .fcu ∈ D →
    t.fcu = b.fcuMade e b.cru.advances ∨ t.fcu = b.fcuMade e (decayedList b.cru.advances) ∨
      (t.fcu = b.fcu ∧ b.inHold = true ∧ b.stc.holdCount = 10)
  quiet : .lmon ∉ D ∨ b.lmon.markTaken = true ∨ ¬b.stc.station.tells → t.rif = b.rif
  told : .lmon ∈ D → b.lmon.markTaken = false → b.stc.station.tells → .free ∉ D → .lost ∉ D → b.healthTold D t.rif

theorem recorded_station (c : Stc) (x : Bool) (f : FaultCode) : (c.recorded x f).station = c.station := by
  unfold Stc.recorded; split <;> rfl

theorem recorded_hold (c : Stc) (x : Bool) (f : FaultCode) :
    (c.recorded x f).holdRunning = c.holdRunning ∧ (c.recorded x f).gammaMin = c.gammaMin := by
  unfold Stc.recorded; split <;> exact ⟨rfl, rfl⟩

theorem ReferenceOutside.station {e : ReferenceEvent} {b t : State} {D : List Receiver} (k : ReferenceOutside e b D t) :
    t.stc.station = b.stc.station := by
  obtain ⟨x, y, -, -, stc⟩ := k.stc
  rw [stc]
  exact (recorded_station _ _ _).trans (recorded_station _ _ _)

theorem ReferenceOutside.begun (e : ReferenceEvent) (b : State) : ReferenceOutside e b [] b.drawn where
  lca := rfl
  counted h := absurd h List.not_mem_nil
  uncounted _ := rfl
  opened h := absurd h List.not_mem_nil
  unopened _ := rfl
  stc := ⟨false, false, by simp, by simp, rfl⟩
  held h := absurd h List.not_mem_nil
  unfired _ := rfl
  fired h := absurd h List.not_mem_nil
  quiet _ := rfl
  told h := absurd h List.not_mem_nil

theorem healthTold_mono {b : State} {D : List Receiver} {i : Receiver} {r : Rif} (h : b.healthTold D r) :
    b.healthTold (i :: D) r := by
  rcases h with h | ⟨h, k⟩
  · exact .inl h
  · exact .inr ⟨List.mem_cons_of_mem _ h, k⟩

/-- The Firing Computation Unit's turn. -/
theorem ReferenceOutside.firing {e : ReferenceEvent} {b t : State} {D : List Receiver} (new : .fcu ∉ D)
    (k : Underway b D t) (p : ReferenceOutside e b D t) :
    (fcuReference e t).fcu = b.fcuMade e b.cru.advances ∨
      (fcuReference e t).fcu = b.fcuMade e (decayedList b.cru.advances) ∨
      ((fcuReference e t).fcu = b.fcu ∧ b.inHold = true ∧ b.stc.holdCount = 10) := by
  have fcu := p.unfired new
  have station := p.station
  have count : t.stc.holdCount = b.stc.holdCount ∨
      t.stc.holdCount = b.stc.holdCount + if b.inHold = true then 1 else 0 := by
    by_cases h : .stc ∈ D
    · exact .inr (p.held h)
    · exact .inl (k.unstamped h)
  have hold : t.inHold = true → b.inHold = true := by
    unfold State.inHold
    rw [station, k.hold]
    simp only [Bool.and_eq_true, decide_eq_true_eq]
    rintro ⟨h, below⟩
    refine ⟨h, ?_⟩
    rcases count with c | c <;> omega
  have before : t.firingOrHold = true → b.firingOrHold = true := by
    rw [firingOrHold_iff, firingOrHold_iff, station]
    exact fun h => h.imp_right hold
  by_cases running : t.firingOrHold = true
  · obtain ⟨predecessor, mu, advances⟩ : t.cru.predecessor = b.cru.predecessor ∧ t.cru.muLast = b.cru.muLast ∧
        (t.cru.advances = b.cru.advances ∨ t.cru.advances = decayedList b.cru.advances) := by
      by_cases h : .cru ∈ D
      · rw [p.counted h]; exact ⟨rfl, rfl, .inr rfl⟩
      · rw [p.uncounted h]; exact ⟨rfl, rfl, .inl rfl⟩
    have gamma : t.stc.gammaMin = b.stc.gammaMin := by
      obtain ⟨x, y, -, -, stc⟩ := p.stc
      rw [stc]
      exact (recorded_hold _ _ _).2.trans (recorded_hold _ _ _).2
    rw [fcuReference_made e running (before running) fcu predecessor mu gamma]
    rcases advances with h | h <;> rw [h]
    · exact .inl rfl
    · exact .inr (.inl rfl)
  · rw [fcuReference_off e running, fcu]
    by_cases ran : b.firingOrHold = true
    · right; right
      have held := ((firingOrHold_iff b).mp ran).resolve_left fun h =>
        running ((firingOrHold_iff t).mpr (.inl (station.trans h)))
      refine ⟨rfl, held, ?_⟩
      have ended : ¬t.inHold = true := fun h => running ((firingOrHold_iff t).mpr (.inr h))
      rw [if_pos held] at count
      unfold State.inHold at held ended
      rw [station, k.hold] at ended
      simp only [Bool.and_eq_true, decide_eq_true_eq] at held ended
      obtain ⟨h, below⟩ := held
      have above : ¬t.stc.holdCount < 11 := fun c => ended ⟨h, c⟩
      omega
    · exact .inl (fcuMade_idle e _ ran).symm

/-- What a HEALTH reads. -/
theorem healthBytes_congr {u v : State} (lmon : u.lmon = v.lmon) (aru : u.aru = v.aru) (cru : u.cru = v.cru)
    (station : u.stc.station = v.stc.station) (faults : u.stc.faults = v.stc.faults)
    (health : u.rif.portA.health = v.rif.portA.health ∧ u.rif.portB.health = v.rif.portB.health) :
    healthBytes u = healthBytes v := by
  have fault (f : FaultCode) : u.stc.fault f = v.stc.fault f := by
    unfold Stc.fault
    rw [faults]
  simp only [healthBytes, lmon, aru, cru, station, fault, health.1, health.2]

/-- A receiver other than the Level Monitor and the Coordination Unit. -/
theorem ReferenceOutside.kept {e : ReferenceEvent} {b t u : State} {D : List Receiver} {i : Receiver}
    (p : ReferenceOutside e b D t) (cru : .cru ≠ i) (lmon : .lmon ≠ i)
    (same : u.lca = t.lca ∧ u.cru = t.cru ∧ u.lmon = t.lmon ∧ u.rif = t.rif)
    (stc : ∃ x y : Bool, (x = true ↔ .cru ∈ D ∧ b.losesOrders = true) ∧ (y = true ↔ .lost ∈ i :: D) ∧
      u.stc = { (b.stc.recorded y .referenceLost).recorded x .orderLost with
        lastReference := u.stc.lastReference, holdCount := u.stc.holdCount })
    (held : .stc ∈ i :: D → u.stc.holdCount = b.stc.holdCount + if b.inHold = true then 1 else 0)
    (unfired : .fcu ∉ i :: D → u.fcu = b.fcu)
    (fired : .fcu ∈ i :: D →
      u.fcu = b.fcuMade e b.cru.advances ∨ u.fcu = b.fcuMade e (decayedList b.cru.advances) ∨
        (u.fcu = b.fcu ∧ b.inHold = true ∧ b.stc.holdCount = 10)) : ReferenceOutside e b (i :: D) u := by
  obtain ⟨lca, cru', lmon', rif⟩ := same
  exact {
    lca := lca.trans p.lca
    counted := fun h => cru'.trans (p.counted (mem_old h cru))
    uncounted := fun h => cru'.trans (p.uncounted (not_mem_old h))
    opened := fun h => lmon'.trans (p.opened (mem_old h lmon))
    unopened := fun h => lmon'.trans (p.unopened (not_mem_old h))
    stc := by rw [mem_after cru]; exact stc
    held := held
    unfired := unfired
    fired := fired
    quiet := fun h => rif.trans (p.quiet (h.imp_left not_mem_old))
    told := fun h1 h2 h3 h4 h5 => by
      rw [rif]
      exact healthTold_mono (p.told (mem_old h1 lmon) h2 h3 (not_mem_old h4) (not_mem_old h5)) }

/-- The HEALTH that the pending mark tells at a point of the event. -/
theorem ReferenceOutside.tells {e : ReferenceEvent} {b t : State} {D : List Receiver} (k : Underway b D t)
    (p : ReferenceOutside e b D t) (new : .lmon ∉ D) (free : .free ∉ D) (lost : .lost ∉ D) :
    b.healthTold D (t.rif.originated .health (healthBytes { t with lmon := b.lmonMarked false }) none) := by
  obtain ⟨x, y, hx, hy, stc⟩ := p.stc
  have unlost : y = false := by
    rw [← Bool.not_eq_true, hy]
    exact lost
  subst unlost
  have faults : t.stc.faults = (b.stc.recorded x .orderLost).faults :=
    (congrArg Stc.faults stc).trans rfl
  have aru := k.aru.2 free
  have rif : t.rif = b.rif := p.quiet (.inl new)
  have told (c : Cru) (d : Stc) (cru : t.cru = c) (station : t.stc.station = d.station)
      (faults : t.stc.faults = d.faults) :
      t.rif.originated .health (healthBytes { t with lmon := b.lmonMarked false }) none =
        b.rif.originated .health (healthBytes { b with lmon := b.lmonMarked false, cru := c, stc := d }) none := by
    rw [rif]
    exact congrArg (fun bytes => b.rif.originated .health bytes none)
      (healthBytes_congr rfl aru cru station faults ⟨rfl, rfl⟩)
  by_cases cru : .cru ∈ D
  · have same : x = b.losesOrders := by
      rw [Bool.eq_iff_iff, hx]
      exact and_iff_right cru
    rw [same] at faults
    exact .inr ⟨cru, told _ _ (p.counted cru) (p.station.trans (recorded_station _ _ _).symm) faults⟩
  · have unlosing : x = false := by
      rw [← Bool.not_eq_true, hx]
      exact fun h => cru h.1
    rw [unlosing] at faults
    exact .inl (told _ _ (p.uncounted cru) p.station faults)

/-- Each receiver, taken once, keeps it. -/
theorem ReferenceOutside.taken {e : ReferenceEvent} {b t : State} {D : List Receiver} (away : b.stc.station ≠ .survey)
    (plain : b.marksPlainly) (orders : b.OrdersOrReport) (i : Receiver)
    (loss : i = .lost → b.lossStopsNothing) (new : i ∉ D) (k : Underway b D t)
    (p : ReferenceOutside e b D t) : ReferenceOutside e b (i :: D) (i.act e t) := by
  have station := p.station
  cases i with
  | fcu =>
    have fired := p.firing new k
    have frame := fcuReference_frame e t
    show ReferenceOutside e b _ (fcuReference e t)
    rw [frame]
    exact p.kept (by simp) (by simp) ⟨rfl, rfl, rfl, rfl⟩ (by rw [mem_after (by simp)]; exact p.stc)
      (fun h => p.held (mem_old h)) (fun h => absurd List.mem_cons_self h) (fun _ => fired)
  | lmon =>
    obtain ⟨r, c, n, run, taken, elsewhere, -⟩ := lmonReference_plain e.zRef k (p.unopened new) plain
    obtain ⟨rfl, rif⟩ := elsewhere (by rw [station]; exact away)
    have before : t.rif = b.rif := p.quiet (.inl new)
    show ReferenceOutside e b _ (lmonReference e.zRef t)
    rw [run]
    exact {
      lca := p.lca
      counted := fun h => p.counted (mem_old h)
      uncounted := fun h => p.uncounted (not_mem_old h)
      opened := fun _ => rfl
      unopened := fun h => absurd List.mem_cons_self h
      stc := by rw [mem_after (by simp), mem_after (by simp)]; exact p.stc
      held := fun h => p.held (mem_old h)
      unfired := fun h => p.unfired (not_mem_old h)
      fired := fun h => p.fired (mem_old h)
      quiet := fun h => by
        rcases Bool.eq_false_or_eq_true b.lmon.markTaken with done | pending
        · exact (taken done).1.trans before
        · have mute : ¬b.stc.station.tells :=
            (h.resolve_left fun k => k List.mem_cons_self).resolve_left (by simp [pending])
          rw [rif pending, if_neg (by rw [station]; exact mute), before]
      told := fun _ pending tells free lost => by
        rw [rif pending, if_pos (by rw [station]; exact tells)]
        exact healthTold_mono (p.tells k new (not_mem_old free) (not_mem_old lost)) }
  | cru =>
    show ReferenceOutside e b _ (cruReference t)
    rw [cruReference_plain k new orders (.inl station) (p.uncounted new)]
    exact {
      lca := p.lca
      counted := fun _ => rfl
      uncounted := fun h => absurd List.mem_cons_self h
      opened := fun h => p.opened (mem_old h)
      unopened := fun h => p.unopened (not_mem_old h)
      stc := by
        obtain ⟨x, y, hx, hy, stc⟩ := p.stc
        have unlosing : x = false := by
          rw [← Bool.not_eq_true, hx]
          exact fun h => new h.1
        subst unlosing
        refine ⟨b.losesOrders, y, by simp, by rw [mem_after (by simp)]; exact hy, ?_⟩
        dsimp only
        cases b.losesOrders with
        | true =>
          show t.stc.onFault .orderLost FaultRecord.occurred = _
          rw [stc]
          rfl
        | false => exact stc
      held := fun h => by
        have count : (t.stc.recorded b.losesOrders .orderLost).holdCount = t.stc.holdCount := by
          unfold Stc.recorded; split <;> rfl
        exact count.trans (p.held (mem_old h))
      unfired := fun h => p.unfired (not_mem_old h)
      fired := fun h => p.fired (mem_old h)
      quiet := fun h => p.quiet (h.imp_left not_mem_old)
      told := fun h1 h2 h3 h4 h5 =>
        healthTold_mono (p.told (mem_old h1) h2 h3 (not_mem_old h4) (not_mem_old h5)) }
  | stc =>
    have held : b.inHold = t.inHold := by
      unfold State.inHold
      rw [station, k.hold, k.unstamped new]
    refine p.kept (by simp) (by simp) ⟨rfl, rfl, rfl, rfl⟩ ?_ (fun _ => ?_) (fun h => p.unfired (not_mem_old h))
      (fun h => p.fired (mem_old h))
    · rw [mem_after (by simp)]
      obtain ⟨x, y, hx, hy, stc⟩ := p.stc
      refine ⟨x, y, hx, hy, ?_⟩
      show { t.stc with
        lastReference := t.now, holdCount := if t.inHold = true then t.stc.holdCount + 1 else t.stc.holdCount } = _
      rw [stc]
      rfl
    · show (if t.inHold = true then t.stc.holdCount + 1 else t.stc.holdCount) = _
      rw [k.unstamped new, held]
      split <;> rfl
  | test =>
    show ReferenceOutside e b _ (surveyTest t)
    rw [surveyTest_elsewhere (by rw [station]; exact away)]
    exact p.kept (by simp) (by simp) ⟨rfl, rfl, rfl, rfl⟩ (by rw [mem_after (by simp)]; exact p.stc)
      (fun h => p.held (mem_old h)) (fun h => p.unfired (not_mem_old h)) (fun h => p.fired (mem_old h))
  | free =>
    show ReferenceOutside e b _ (enterFree t)
    rw [show enterFree t = t.onAru Aru.toFree from surveyTest_elsewhere (by exact station ▸ away)]
    exact p.kept (by simp) (by simp) ⟨rfl, rfl, rfl, rfl⟩ (by rw [mem_after (by simp)]; exact p.stc)
      (fun h => p.held (mem_old h)) (fun h => p.unfired (not_mem_old h)) (fun h => p.fired (mem_old h))
  | lost =>
    show ReferenceOutside e b _ (takeFault .referenceLost t)
    rw [referenceLost_plain k (loss rfl) away station]
    refine p.kept (by simp) (by simp) ⟨rfl, rfl, rfl, rfl⟩ ?_
      (fun h => p.held (mem_old h)) (fun h => p.unfired (not_mem_old h)) (fun h => p.fired (mem_old h))
    obtain ⟨x, y, hx, hy, stc⟩ := p.stc
    have unlost : y = false := by
      rw [← Bool.not_eq_true, hy]
      exact new
    subst unlost
    refine ⟨x, true, hx, by simp, ?_⟩
    dsimp only
    have swapped : (b.stc.recorded x .orderLost).onFault .referenceLost FaultRecord.occurred =
        (b.stc.recorded true .referenceLost).recorded x .orderLost := by
      cases x with
      | true => exact onFault_comm _ (by decide) _ _
      | false => rfl
    rw [← swapped, stc]
    rfl

end Sys2Proof.Machine
end

section
/-! PROOFS. A reference event with a plain mark at a station in SURVEY, and its SURVEY tests (R58, R172). -/

namespace Sys2Proof.Machine

/-! ### SURVEY tests that find the same -/

/-- A SURVEY test does not read the stamp of the event nor the count of the hold. -/
theorem surveyTest_stamped (u : State) (l : StationTime) (n : Nat) :
    (surveyTest { u with stc := { u.stc with lastReference := l, holdCount := n } }).stc =
      { (surveyTest u).stc with lastReference := l, holdCount := n } := by
  unfold surveyTest
  by_cases survey : u.stc.station = .survey
  · rw [if_pos (by exact survey), if_pos survey]
    by_cases exhausted : u.lmon.redundancy = .exhausted
    · rw [if_pos (by exact exhausted), if_pos exhausted]; rfl
    · rw [if_neg (by exact exhausted), if_neg exhausted]
      by_cases ready : u.lmon.unknowns = 0 ∧ u.aru.lock = .locked ∧ u.aRingUp
      · rw [if_pos (by exact ready), if_pos ready]; rfl
      · rw [if_neg (by exact ready), if_neg ready]
  · rw [if_neg (by exact survey), if_neg survey]

/-- A SURVEY test made again finds the same. -/
theorem surveyTest_again (u : State) :
    (surveyTest { u with stc := (surveyTest u).stc }).stc = (surveyTest u).stc := by
  rcases surveyTest_cases u with same | ⟨-, moved | moved⟩
  · rw [show ({ u with stc := (surveyTest u).stc } : State) = u by rw [same]]
  all_goals
    rw [surveyTest_elsewhere]
    rw [moved]
    exact nofun

/-- The Station Controller that a SURVEY test of this event leaves, by the records after its mark. -/
def State.stcTested (b : State) : Stc := (surveyTest { b with lmon := b.lmonMarked false }).stc

/-- A test made with the records after the mark, before or after another one. -/
theorem surveyTest_tested {b u : State} {x : Stc} (before : x = b.stc ∨ x = b.stcTested)
    (stc : u.stc = { x with lastReference := u.stc.lastReference, holdCount := u.stc.holdCount })
    (redundancy : u.lmon.redundancy = (b.lmonMarked false).redundancy)
    (unknowns : u.lmon.unknowns = (b.lmonMarked false).unknowns) (lock : u.aru.lock = b.aru.lock)
    (health : u.rif.portA.health = b.rif.portA.health ∧ u.rif.portB.health = b.rif.portB.health) :
    (surveyTest u).stc =
      { b.stcTested with lastReference := u.stc.lastReference, holdCount := u.stc.holdCount } := by
  have stamped (v : State) (same : v.stc = x) (red : v.lmon = b.lmonMarked false) (aru : v.aru = b.aru)
      (rif : v.rif = b.rif) (found : (surveyTest v).stc = b.stcTested) :
      (surveyTest u).stc =
        { b.stcTested with lastReference := u.stc.lastReference, holdCount := u.stc.holdCount } := by
    rw [← found, ← surveyTest_stamped]
    refine surveyTest_congr (by rw [same]; exact stc) ?_ ?_ ?_ ?_
    · exact redundancy.trans (congrArg Lmon.redundancy red).symm
    · exact unknowns.trans (congrArg Lmon.unknowns red).symm
    · exact lock.trans (congrArg Aru.lock aru).symm
    · rw [show ({ v with stc := { v.stc with
        lastReference := u.stc.lastReference, holdCount := u.stc.holdCount } } : State).rif = b.rif from rif]
      exact health
  rcases before with rfl | rfl
  · exact stamped { b with lmon := b.lmonMarked false } rfl rfl rfl rfl rfl
  · exact stamped { b with lmon := b.lmonMarked false, stc := b.stcTested } rfl rfl rfl rfl
      (surveyTest_again { b with lmon := b.lmonMarked false })

/-! ### The state of a station in SURVEY -/

/-- The state at each point of a plain reference event, at a station in SURVEY. -/
structure ReferenceInSurvey (e : ReferenceEvent) (b : State) (D : List Receiver) (t : State) : Prop where
  lca : t.lca = b.lca
  counted : .cru ∈ D → t.cru = b.cru.referenced false
  uncounted : .cru ∉ D → t.cru = b.cru
  opened : .lmon ∈ D → t.lmon = b.lmonReferenced e.zRef
  unopened : .lmon ∉ D → t.lmon = b.lmon
  stc : t.stc = { b.stc with
    station := t.stc.station, tripLine := t.stc.tripLine, readyLine := t.stc.readyLine
    lastReference := t.stc.lastReference, holdCount := t.stc.holdCount }
  fcu : t.fcu = { b.fcu with schedule := t.fcu.schedule, lastAlpha := t.fcu.lastAlpha }
  idle : b.stc.holdRunning = false → t.fcu = b.fcu ∧ t.stc.holdCount = b.stc.holdCount
  quiet : .lmon ∉ D ∨ b.lmon.markTaken = true → t.rif = b.rif
  told : .lmon ∈ D → b.lmon.markTaken = false →
    ∃ c x, (c = b.cru ∨ .cru ∈ D ∧ c = b.cru.referenced false) ∧ (x = .survey ∨ x = t.stc.station) ∧
      t.rif = b.rif.originated .health
        (healthBytes { b with lmon := b.lmonMarked false, cru := c, stc := { b.stc with station := x } }) none

theorem ReferenceInSurvey.begun (e : ReferenceEvent) (b : State) : ReferenceInSurvey e b [] b.drawn where
  lca := rfl
  counted h := absurd h List.not_mem_nil
  uncounted _ := rfl
  opened h := absurd h List.not_mem_nil
  unopened _ := rfl
  stc := rfl
  fcu := rfl
  idle _ := ⟨rfl, rfl⟩
  quiet _ := rfl
  told h := absurd h List.not_mem_nil

/-- A receiver other than the Level Monitor and the Coordination Unit, which leaves the station where it is or has it make
its test. -/
theorem ReferenceInSurvey.kept {e : ReferenceEvent} {b t u : State} {D : List Receiver} {i : Receiver}
    (p : ReferenceInSurvey e b D t) (cru : .cru ≠ i) (lmon : .lmon ≠ i)
    (same : u.lca = t.lca ∧ u.cru = t.cru ∧ u.lmon = t.lmon ∧ u.rif = t.rif)
    (stc : u.stc = { t.stc with
      station := u.stc.station, tripLine := u.stc.tripLine, readyLine := u.stc.readyLine
      lastReference := u.stc.lastReference, holdCount := u.stc.holdCount })
    (station : t.stc.station = .survey ∨ u.stc.station = t.stc.station)
    (fcu : u.fcu = { b.fcu with schedule := u.fcu.schedule, lastAlpha := u.fcu.lastAlpha })
    (idle : b.stc.holdRunning = false → u.fcu = b.fcu ∧ u.stc.holdCount = b.stc.holdCount) :
    ReferenceInSurvey e b (i :: D) u := by
  obtain ⟨lca, cru', lmon', rif⟩ := same
  exact {
    lca := lca.trans p.lca
    counted := fun h => cru'.trans (p.counted (mem_old h cru))
    uncounted := fun h => cru'.trans (p.uncounted (not_mem_old h))
    opened := fun h => lmon'.trans (p.opened (mem_old h lmon))
    unopened := fun h => lmon'.trans (p.unopened (not_mem_old h))
    stc := stc.trans (by rw [p.stc])
    fcu := fcu
    idle := idle
    quiet := fun h => rif.trans (p.quiet (h.imp_left not_mem_old))
    told := fun h pending => by
      obtain ⟨c, x, hc, hx, told⟩ := p.told (mem_old h lmon) pending
      refine ⟨c, x, hc.imp_right fun k => ⟨List.mem_cons_of_mem _ k.1, k.2⟩, ?_, rif.trans told⟩
      rcases hx with rfl | rfl
      · exact .inl rfl
      · rcases station with h | h
        · exact .inl h
        · exact .inr h.symm }

theorem surveyTest_stc (u : State) :
    (surveyTest u).stc = { u.stc with
      station := (surveyTest u).stc.station, tripLine := (surveyTest u).stc.tripLine
      readyLine := (surveyTest u).stc.readyLine } := by
  rcases surveyTest_cases u with h | ⟨-, h | h⟩ <;> rw [h] <;> rfl

/-- In SURVEY no orders are lost. -/
theorem losesOrders_survey {s : State} (h : s.stc.station = .survey) : s.losesOrders = false := by
  rw [← Bool.not_eq_true]
  intro lost
  rcases losesOrders_station lost with k | k <;> rw [h] at k <;> cases k

/-- Each block, taken once, keeps it. -/
theorem ReferenceInSurvey.taken {e : ReferenceEvent} {b t : State} {D : List Receiver}
    (survey : b.stc.station = .survey) (plain : b.marksPlainly) (orders : b.OrdersOrReport) (i : Receiver)
    (free : i ≠ .free) (loss : i ≠ .lost) (new : i ∉ D) (freed : .free ∉ D) (k : Underway b D t)
    (p : ReferenceInSurvey e b D t) : ReferenceInSurvey e b (i :: D) (i.act e t) := by
  have away : t.stc.station ≠ .firing := by
    rcases k.stopped with h | h | h <;> rw [h]
    · rw [survey]; decide
    · decide
    · decide
  cases i with
  | free => exact absurd rfl free
  | lost => exact absurd rfl loss
  | fcu =>
    have frame := fcuReference_frame e t
    have fcu : (fcuReference e t).fcu =
        { b.fcu with schedule := (fcuReference e t).fcu.schedule, lastAlpha := (fcuReference e t).fcu.lastAlpha } := by
      by_cases running : t.firingOrHold = true
      · rw [fcuReference_on e running]
        dsimp only
        rw [p.fcu]
      · rw [fcuReference_off e running]
        exact p.fcu
    have idle (h : b.stc.holdRunning = false) :
        (fcuReference e t).fcu = b.fcu ∧ t.stc.holdCount = b.stc.holdCount := by
      rw [fcuReference_idle e away (inHold_of_off (k.hold.trans h))]
      exact p.idle h
    show ReferenceInSurvey e b _ (fcuReference e t)
    rw [frame]
    exact p.kept (by simp) (by simp) ⟨rfl, rfl, rfl, rfl⟩ rfl (.inr rfl) fcu idle
  | lmon =>
    obtain ⟨r, c, n, run, taken, elsewhere, inSurvey⟩ := lmonReference_plain e.zRef k (p.unopened new) plain
    have before : t.rif = b.rif := p.quiet (.inl new)
    have cru : t.cru = b.cru ∨ .cru ∈ D ∧ t.cru = b.cru.referenced false := by
      by_cases h : .cru ∈ D
      · exact .inr ⟨h, p.counted h⟩
      · exact .inl (p.uncounted h)
    have bytes (d : Stc) (x : Station) (station : d.station = x) (faults : d.faults = b.stc.faults) :
        healthBytes { t with lmon := b.lmonMarked false, rif := b.rif, stc := d } =
          healthBytes { b with lmon := b.lmonMarked false, cru := t.cru, stc := { b.stc with station := x } } :=
      healthBytes_congr rfl (k.aru.2 freed) rfl station faults ⟨rfl, rfl⟩
    have faults : t.stc.faults = b.stc.faults := by rw [p.stc]
    have moved : c = { t.stc with station := c.station, tripLine := c.tripLine, readyLine := c.readyLine } ∧
        (t.stc.station = .survey ∨ c.station = t.stc.station) ∧
        (b.lmon.markTaken = false → ∃ x, (x = .survey ∨ x = c.station) ∧
          r = b.rif.originated .health
            (healthBytes { b with lmon := b.lmonMarked false, cru := t.cru, stc := { b.stc with station := x } }) none) := by
      by_cases here : t.stc.station = .survey
      · rcases Bool.eq_false_or_eq_true b.lmon.markTaken with done | pending
        · obtain ⟨-, rfl⟩ := taken done
          exact ⟨rfl, .inl here, fun h => by rw [done] at h; cases h⟩
        · obtain ⟨stc, rif⟩ := inSurvey here pending
          have frame := surveyTest_stc { t with lmon := b.lmonMarked false }
          rw [← stc] at frame
          refine ⟨frame, .inl here, fun _ => ?_⟩
          rw [before] at rif
          rcases rif with told | told
          · exact ⟨c.station, .inr rfl, told.trans (congrArg (fun l => b.rif.originated .health l none)
              (bytes c _ rfl ((congrArg Stc.faults frame).trans faults)))⟩
          · exact ⟨.survey, .inl rfl, told.trans (congrArg (fun l => b.rif.originated .health l none)
              (bytes t.stc _ here faults))⟩
      · obtain ⟨rfl, rif⟩ := elsewhere here
        refine ⟨rfl, .inr rfl, fun pending => ⟨t.stc.station, .inr rfl, ?_⟩⟩
        have tells : t.stc.station = .blocked ∨ t.stc.station = .bypass ∨ t.stc.station = .tripped := by
          rcases k.stopped with h | h | h
          · exact absurd (h.trans survey) here
          · exact .inl h
          · exact .inr (.inr h)
        rw [rif pending, if_pos tells, before]
        exact congrArg (fun l => b.rif.originated .health l none) (bytes t.stc _ rfl faults)
    obtain ⟨frame, -, told⟩ := moved
    have count : c.holdCount = t.stc.holdCount := by rw [frame]
    show ReferenceInSurvey e b _ (lmonReference e.zRef t)
    rw [run]
    exact {
      lca := p.lca
      counted := fun h => p.counted (mem_old h)
      uncounted := fun h => p.uncounted (not_mem_old h)
      opened := fun _ => rfl
      unopened := fun h => absurd List.mem_cons_self h
      stc := by
        dsimp only
        rw [frame, p.stc]
      fcu := p.fcu
      idle := fun h => ⟨(p.idle h).1, count.trans (p.idle h).2⟩
      quiet := fun h => (taken (h.resolve_left fun k => k List.mem_cons_self)).1.trans before
      told := fun _ pending => by
        obtain ⟨x, hx, told⟩ := told pending
        exact ⟨t.cru, x, cru.imp_right fun k => ⟨List.mem_cons_of_mem _ k.1, k.2⟩, hx, told⟩ }
  | cru =>
    show ReferenceInSurvey e b _ (cruReference t)
    rw [cruReference_plain k new orders (.inr survey) (p.uncounted new), losesOrders_survey survey]
    exact {
      lca := p.lca
      counted := fun _ => rfl
      uncounted := fun h => absurd List.mem_cons_self h
      opened := fun h => p.opened (mem_old h)
      unopened := fun h => p.unopened (not_mem_old h)
      stc := p.stc
      fcu := p.fcu
      idle := p.idle
      quiet := fun h => p.quiet (h.imp_left not_mem_old)
      told := fun h pending => by
        obtain ⟨c, x, hc, hx, told⟩ := p.told (mem_old h) pending
        exact ⟨c, x, hc.imp_right fun k => ⟨List.mem_cons_of_mem _ k.1, k.2⟩, hx, told⟩ }
  | stc =>
    refine p.kept (by simp) (by simp) ⟨rfl, rfl, rfl, rfl⟩ rfl (.inr rfl) p.fcu fun h => ⟨(p.idle h).1, ?_⟩
    show (if t.inHold = true then t.stc.holdCount + 1 else t.stc.holdCount) = _
    rw [if_neg (by rw [inHold_of_off (k.hold.trans h)]; decide)]
    exact (p.idle h).2
  | test =>
    have stc := surveyTest_stc t
    have count : (surveyTest t).stc.holdCount = t.stc.holdCount := by rw [stc]
    have station : t.stc.station = .survey ∨ (surveyTest t).stc.station = t.stc.station := by
      by_cases here : t.stc.station = .survey
      · exact .inl here
      · exact .inr (by rw [surveyTest_elsewhere here])
    have frame := surveyTest_frame t
    show ReferenceInSurvey e b _ (surveyTest t)
    rw [frame]
    exact p.kept (by simp) (by simp) ⟨rfl, rfl, rfl, rfl⟩ (by dsimp only; rw [stc]) station p.fcu
      fun h => ⟨(p.idle h).1, count.trans (p.idle h).2⟩

end Sys2Proof.Machine
end

section
/-! PROOFS. The reference event of an accepted crossing and of a miss (O19, O20). -/

namespace Sys2Proof.Machine

/-! ### The SURVEY tests of a reference event -/

/-- The Station Controller in SURVEY at each point of the event: as it was, or tested with the records after the mark,
but for the stamp and the hold. -/
def SurveyFound (b : State) (D : List Receiver) (t : State) : Prop :=
  ∃ x : Stc, (x = b.stc ∨ x = b.stcTested) ∧
    ((.lmon ∈ D ∧ b.lmon.markTaken = false) ∨ .test ∈ D → x = b.stcTested) ∧
    (b.lmon.markTaken = true → .test ∉ D → x = b.stc) ∧
    t.stc = { x with lastReference := t.stc.lastReference, holdCount := t.stc.holdCount }

/-- A receiver that makes no test. -/
theorem SurveyFound.kept {b t u : State} {D : List Receiver} {i : Receiver} (h : SurveyFound b D t)
    (lmon : i = .lmon → b.lmon.markTaken = true) (test : .test ≠ i)
    (stc : u.stc = { t.stc with lastReference := u.stc.lastReference, holdCount := u.stc.holdCount }) :
    SurveyFound b (i :: D) u := by
  obtain ⟨x, hx, found, unfound, same⟩ := h
  refine ⟨x, hx, fun k => found ?_, fun taken k => unfound taken (not_mem_old k), stc.trans (by rw [same])⟩
  rcases k with ⟨k, pending⟩ | k
  · by_cases is : i = .lmon
    · rw [lmon is] at pending; cases pending
    · exact .inl ⟨mem_old k (Ne.symm is), pending⟩
  · exact .inr (mem_old k test)

/-- A test made: at the mark, or at the change of the lock state. -/
theorem SurveyFound.tested {b t u : State} {D D' : List Receiver} (h : SurveyFound b D t)
    (test : .test ∉ D' → b.lmon.markTaken = false) (stc : u.stc = t.stc)
    (redundancy : u.lmon.redundancy = (b.lmonMarked false).redundancy)
    (unknowns : u.lmon.unknowns = (b.lmonMarked false).unknowns) (lock : u.aru.lock = b.aru.lock)
    (health : u.rif.portA.health = b.rif.portA.health ∧ u.rif.portB.health = b.rif.portB.health) {v : State}
    (run : v.stc = (surveyTest u).stc) : SurveyFound b D' v := by
  obtain ⟨x, hx, -, -, same⟩ := h
  have tested := surveyTest_tested hx (by rw [stc]; exact same) redundancy unknowns lock health
  refine ⟨b.stcTested, .inr rfl, fun _ => rfl, fun taken k => ?_, ?_⟩
  · rw [test k] at taken; cases taken
  · rw [run, tested]

theorem lmonMarked_redundancy {b : State} (plain : b.marksPlainly) :
    (b.lmonMarked false).redundancy = b.lmon.redundancy := by
  unfold State.lmonMarked
  rcases plain with taken | ⟨-, spare⟩
  · rw [if_pos taken]
  · split
    · rfl
    · rw [cycleMark_redundancy]; exact spare

/-- Each block, taken once, keeps it. -/
theorem SurveyFound.taken {e : ReferenceEvent} {b t : State} {D : List Receiver} (survey : b.stc.station = .survey)
    (plain : b.marksPlainly) (orders : b.OrdersOrReport) (i : Receiver) (free : i ≠ .free) (loss : i ≠ .lost)
    (agree : i = .test → b.lmon.markTaken = true ∨ (b.lmonMarked false).unknowns = b.lmon.unknowns) (new : i ∉ D)
    (freed : .free ∉ D) (k : Underway b D t) (p : ReferenceInSurvey e b D t) (h : SurveyFound b D t) :
    SurveyFound b (i :: D) (i.act e t) := by
  have lock : t.aru.lock = b.aru.lock := congrArg Aru.lock (k.aru.2 freed)
  cases i with
  | free => exact absurd rfl free
  | lost => exact absurd rfl loss
  | fcu =>
    show SurveyFound b _ (fcuReference e t)
    rw [fcuReference_frame]
    exact h.kept nofun nofun rfl
  | cru =>
    show SurveyFound b _ (cruReference t)
    rw [cruReference_plain k new orders (.inr survey) (p.uncounted new), losesOrders_survey survey]
    exact h.kept nofun nofun rfl
  | stc => exact h.kept nofun nofun rfl
  | lmon =>
    obtain ⟨r, c, n, run, taken, elsewhere, inSurvey⟩ := lmonReference_plain e.zRef k (p.unopened new) plain
    have stc : (lmonReference e.zRef t).stc = c := by rw [run]
    rcases Bool.eq_false_or_eq_true b.lmon.markTaken with done | pending
    · show SurveyFound b _ (lmonReference e.zRef t)
      rw [run, (taken done).2]
      exact h.kept (fun _ => done) nofun rfl
    · have tested : c = (surveyTest { t with lmon := b.lmonMarked false }).stc := by
        by_cases here : t.stc.station = .survey
        · exact (inSurvey here pending).1
        · rw [surveyTest_elsewhere (by exact here)]
          exact (elsewhere here).1
      exact h.tested (fun _ => pending) (u := { t with lmon := b.lmonMarked false }) rfl rfl rfl lock k.health
        (stc.trans tested)
  | test =>
    obtain ⟨redundancy, unknowns⟩ : t.lmon.redundancy = (b.lmonMarked false).redundancy ∧
        t.lmon.unknowns = (b.lmonMarked false).unknowns := by
      by_cases done : .lmon ∈ D
      · rw [p.opened done]; exact ⟨rfl, rfl⟩
      · rw [p.unopened done]
        refine ⟨(lmonMarked_redundancy plain).symm, ?_⟩
        rcases agree rfl with taken | same
        · unfold State.lmonMarked
          rw [if_pos taken]
        · exact same.symm
    exact h.tested (fun k => absurd List.mem_cons_self k) rfl redundancy unknowns lock k.health rfl

/-! ### The reference event assembled -/

/-- The acts of a reference event that loses nothing: the four blocks, and the SURVEY test of a changed lock state. -/
structure PlainReceivers (changed : Prop) (is : List Receiver) : Prop where
  nodup : is.Nodup
  blocks : .fcu ∈ is ∧ .lmon ∈ is ∧ .cru ∈ is ∧ .stc ∈ is
  test : .test ∈ is ↔ changed
  free : .free ∉ is
  lost : .lost ∉ is

section
variable {e : ReferenceEvent} {b : State} {fs : List (State → State)} {is : List Receiver} {changed : Prop}

/-- What stands throughout, and what the event keeps under `R`. -/
theorem referenceEvent_keeps {R : List Receiver → State → Prop} (nodup : is.Nodup)
    (perm : fs.Perm (is.map (Receiver.act e))) (h0 : R [] b.drawn)
    (taken : ∀ D i t, i ∈ is → i ∉ D → (∀ j ∈ D, j ∈ is) → Underway b D t → R D t → R (i :: D) (i.act e t)) :
    ∃ D, (∀ i, i ∈ D ↔ i ∈ is) ∧ Underway b D (inTurn fs b.drawn) ∧ R D (inTurn fs b.drawn) := by
  obtain ⟨D, mem, -, under, result⟩ := inTurn_once
    (R := fun D t => (∀ j ∈ D, j ∈ is) ∧ Underway b D t ∧ R D t) perm nodup
    ⟨fun j h => absurd h List.not_mem_nil, .begun b, h0⟩ fun D i t used new ⟨within, k, r⟩ =>
      ⟨fun j hj => by
        rcases List.mem_cons.mp hj with rfl | h
        · exact used
        · exact within j h, k.taken i new, taken D i t used new within k r⟩
  exact ⟨D, mem, under, result⟩

theorem referenceEvent_underway (nodup : is.Nodup) (perm : fs.Perm (is.map (Receiver.act e))) :
    ∃ D, (∀ i, i ∈ D ↔ i ∈ is) ∧ Underway b D (inTurn fs b.drawn) := by
  obtain ⟨D, mem, under, -⟩ := referenceEvent_keeps (b := b) (R := fun _ _ => True) nodup perm trivial
    fun _ _ _ _ _ _ _ _ => trivial
  exact ⟨D, mem, under⟩

/-- The cycle after the event, where ORDER_LOST stops nothing. -/
theorem referenceEvent_cycle (acts : PlainReceivers changed is) (perm : fs.Perm (is.map (Receiver.act e)))
    (orders : b.OrdersOrReport) : (inTurn fs b.drawn).lmon = b.lmonReferenced e.zRef := by
  obtain ⟨D, mem, -, cycle⟩ := referenceEvent_keeps (b := b) (R := CycleUnder e.zRef b) acts.nodup perm (.begun _ b)
    fun D i t used new _ k cycle => cycle.taken (.inr (.inr ⟨orders, acts.lost⟩)) i used new k
  exact cycle.new ((mem _).mpr acts.blocks.2.1)

/-- The orders lost at an event with a plain mark. -/
theorem referenceEvent_losing (acts : PlainReceivers changed is) (perm : fs.Perm (is.map (Receiver.act e)))
    (plain : b.marksPlainly) (lost : b.losesOrders = true) :
    (inTurn fs b.drawn).cru.lostSignalled = true ∧
      (inTurn fs b.drawn).stc.fault .orderLost = FaultRecord.occurred (b.stc.fault .orderLost) ∧
      ((b.stc.fault .orderLost).mode = .block → b.stc.station = .firing →
        ((inTurn fs b.drawn).stc.station = .blocked ∨ (inTurn fs b.drawn).stc.station = .tripped) ∧
          (b.stc.holdRunning = false → (inTurn fs b.drawn).fcu.schedule = none)) := by
  obtain ⟨D, mem, -, result⟩ := referenceEvent_keeps (b := b) (R := LosingOrders b) acts.nodup perm
    ⟨fun _ => ⟨rfl, rfl, fun _ => rfl⟩, fun h => absurd h List.not_mem_nil⟩
    fun D i t used new _ k l =>
      l.taken plain lost i (fun h => acts.free (h ▸ used)) (fun h => acts.lost (h ▸ used)) new k
  exact result.after ((mem _).mpr acts.blocks.2.2.1)

theorem referenceEvent_outside (acts : PlainReceivers changed is) (perm : fs.Perm (is.map (Receiver.act e)))
    (plain : b.marksPlainly) (orders : b.OrdersOrReport) (away : b.stc.station ≠ .survey) :
    ∃ D, (∀ i, i ∈ D ↔ i ∈ is) ∧ Underway b D (inTurn fs b.drawn) ∧ ReferenceOutside e b D (inTurn fs b.drawn) :=
  referenceEvent_keeps acts.nodup perm (.begun e b) fun _ i _ used new _ k p =>
    p.taken away plain orders i (fun h => absurd (h ▸ used) acts.lost) new k

theorem referenceEvent_inSurvey (acts : PlainReceivers changed is) (perm : fs.Perm (is.map (Receiver.act e)))
    (plain : b.marksPlainly) (orders : b.OrdersOrReport) (survey : b.stc.station = .survey) :
    ∃ D, (∀ i, i ∈ D ↔ i ∈ is) ∧ Underway b D (inTurn fs b.drawn) ∧ ReferenceInSurvey e b D (inTurn fs b.drawn) :=
  referenceEvent_keeps acts.nodup perm (.begun e b) fun _ i _ used new within k p =>
    p.taken survey plain orders i (fun h => acts.free (h ▸ used)) (fun h => acts.lost (h ▸ used)) new
      (fun h => acts.free (within _ h)) k

theorem referenceEvent_found (acts : PlainReceivers changed is) (perm : fs.Perm (is.map (Receiver.act e)))
    (plain : b.marksPlainly) (orders : b.OrdersOrReport) (survey : b.stc.station = .survey)
    (agree : b.lmon.markTaken = true ∨ ¬changed ∨ (b.lmonMarked false).unknowns = b.lmon.unknowns) :
    ∃ D, (∀ i, i ∈ D ↔ i ∈ is) ∧ Underway b D (inTurn fs b.drawn) ∧
      ReferenceInSurvey e b D (inTurn fs b.drawn) ∧ SurveyFound b D (inTurn fs b.drawn) :=
  referenceEvent_keeps (R := fun D t => ReferenceInSurvey e b D t ∧ SurveyFound b D t) acts.nodup perm
    ⟨.begun e b, b.stc, .inl rfl, fun h => absurd h (by simp), fun _ _ => rfl, rfl⟩
    fun _ i _ used new within k ⟨p, h⟩ =>
      have free : i ≠ .free := fun is => acts.free (is ▸ used)
      have lost : i ≠ .lost := fun is => acts.lost (is ▸ used)
      have freed := fun h => acts.free (within _ h)
      ⟨p.taken survey plain orders i free lost new freed k,
        h.taken survey plain orders i free lost
          (fun is => agree.imp_right fun k => k.resolve_left (not_not_intro (acts.test.mp (is ▸ used)))) new freed k p⟩

end

/-! ### The statement of the event -/

theorem fcuMade_withAru (s : State) (a : Aru) (e : ReferenceEvent) (l : List Advance) :
    ({ s with aru := a } : State).fcuMade e l = s.fcuMade e l := by
  by_cases running : s.firingOrHold = true
  · unfold State.fcuMade
    rw [fcuReference_on (s := { s with cru := { s.cru with advances := l } }) e running,
      fcuReference_on (s := { s with aru := a, cru := { s.cru with advances := l } }) e running]
    rfl
  · rw [fcuMade_idle e l running, fcuMade_idle (b := { s with aru := a }) e l running]

theorem Underway.frame {b t : State} {D : List Receiver} (k : Underway b D t) (lca : t.lca = b.lca) :
    t = { b with
      aru := t.aru, lmon := t.lmon, rif := t.rif, stc := t.stc, freeCount := t.freeCount, cru := t.cru, fcu := t.fcu } := by
  obtain ⟨now, straps, -, pending, handed⟩ := k
  rw [← now, ← straps, ← lca, ← pending, ← handed]

/-- What a HEALTH reads of the cycle does not change with a new one. -/
theorem healthBytes_referenced {b u : State} (e : ReferenceEvent) (c : Cru) (k d : Stc)
    (lmon : u.lmon = b.lmonReferenced e.zRef) (aru : u.aru = b.aru) (station : k.station = d.station)
    (faults : k.faults = d.faults) :
    healthBytes { u with rif := b.rif, cru := c, stc := k } =
      healthBytes { b with lmon := b.lmonMarked false, cru := c, stc := d } := by
  have reopened : healthBytes { b with lmon := b.lmonReferenced e.zRef, cru := c, stc := d } =
      healthBytes { b with lmon := b.lmonMarked false, cru := c, stc := d } := rfl
  rw [← reopened]
  exact healthBytes_congr lmon aru rfl station faults ⟨rfl, rfl⟩

theorem marksPlainly_of {s : State}
    (h : s.lmon.markTaken = true ∨
      (s.MarkRaisesNoEvent false ∧ (s.lmonMarked false).redundancy = s.lmon.redundancy)) : s.marksPlainly := by
  rcases Bool.eq_false_or_eq_true s.lmon.markTaken with taken | pending
  · exact .inl taken
  · obtain ⟨quiet, spare⟩ := h.resolve_left (by simp [pending])
    unfold State.lmonMarked at spare
    rw [if_neg (by simp [pending]), cycleMark_redundancy] at spare
    exact .inr ⟨by rw [marked_of_noEvent quiet], spare⟩

end Sys2Proof.Machine
end

section
/-! PROOFS. Accepted crossings and projected zeros with their reference events (O19, O20). -/

namespace Sys2Proof.Machine

/-! ### The state at the end of a plain event -/

theorem ReferenceOutside.fcu_frame {e : ReferenceEvent} {b t : State} {D : List Receiver}
    (p : ReferenceOutside e b D t) (done : .fcu ∈ D) :
    t.fcu = { b.fcu with schedule := t.fcu.schedule, lastAlpha := t.fcu.lastAlpha } := by
  rcases p.fired done with h | h | ⟨h, -⟩ <;> rw [h]
  · exact fcuMade_frame b e _
  · exact fcuMade_frame b e _

/-- The Station Controller at the end of an event that loses nothing. -/
theorem ReferenceOutside.stc_end {e : ReferenceEvent} {b t : State} {D : List Receiver} (k : Underway b D t)
    (p : ReferenceOutside e b D t) (cru : .cru ∈ D) (stc : .stc ∈ D) (lost : .lost ∉ D) :
    t.stc = { b.stc.recorded b.losesOrders .orderLost with
      lastReference := b.now, holdCount := b.stc.holdCount + if b.inHold = true then 1 else 0 } := by
  obtain ⟨x, y, hx, hy, same⟩ := p.stc
  have losing : x = b.losesOrders := by
    rw [Bool.eq_iff_iff, hx]
    exact and_iff_right cru
  have unlost : y = false := by
    rw [← Bool.not_eq_true, hy]
    exact lost
  rw [same, k.stamped stc, p.held stc, losing, unlost]
  rfl

/-- An entry in the fault table in any mode but IGNORE. -/
theorem onFault_occurred {c : Stc} {f : FaultCode} (h : (c.fault f).mode ≠ .ignore) :
    c.onFault f FaultRecord.occurred =
      c.onFault f fun r => { r with active := true, count := min 127 (r.count + 1) } := by
  unfold Stc.onFault
  rw [occurred_eq h]

theorem recorded_orderLost {s : State} (orders : s.OrdersOrReport) :
    s.stc.recorded s.losesOrders .orderLost =
      if s.losesOrders = true then
        s.stc.onFault .orderLost fun f => { f with active := true, count := min 127 (f.count + 1) }
      else s.stc := by
  unfold Stc.recorded
  split
  · rename_i lost
    refine onFault_occurred ?_
    rcases orders lost with mode | ⟨mode, -⟩ <;> rw [mode] <;> decide
  · rfl

/-- The whole state but for what the event tells the other blocks. -/
theorem Underway.frame_of {b t : State} {D : List Receiver} {c : Cru} {f : Fcu} (k : Underway b D t)
    (lca : t.lca = b.lca) (cru : t.cru = c) (fcu : t.fcu = f) :
    t = { b with
      aru := t.aru, lmon := t.lmon, rif := t.rif, stc := t.stc, freeCount := t.freeCount, cru := c, fcu := f } :=
  (k.frame lca).trans (by rw [cru, fcu])

/-! ### The event outside SURVEY -/

section
variable {s u : State} {a : Aru} {e : ReferenceEvent} {D : List Receiver}

/-- The firing of the event, at a station that makes firings. -/
theorem ReferenceOutside.made (p : ReferenceOutside e { s with aru := a } D u) (done : .fcu ∈ D)
    (cru : u.cru = s.cru.referenced s.losesOrders) :
    u.fcu = s.fcuMade e s.cru.advances ∨ u.fcu = s.fcuMade e u.cru.advances ∨
      (u.fcu = s.fcu ∧ s.inHold = true ∧ s.stc.holdCount = 10) := by
  have fired := p.fired done
  rw [fcuMade_withAru s a e s.cru.advances, fcuMade_withAru s a e (decayedList s.cru.advances)] at fired
  rw [cru]
  exact fired

theorem ReferenceOutside.fires (p : ReferenceOutside e { s with aru := a } D u) (done : .fcu ∈ D)
    (cru : u.cru = s.cru.referenced s.losesOrders)
    (running : s.stc.station = .firing ∨ (s.inHold = true ∧ s.stc.holdCount < 10)) :
    u.fcu.schedule.isSome = true ∧ (u.fcu = s.fcuMade e s.cru.advances ∨ u.fcu = s.fcuMade e u.cru.advances) := by
  have on : s.firingOrHold = true := (firingOrHold_iff s).mpr (running.imp_right And.left)
  rcases p.made done cru with h | h | ⟨-, held, count⟩
  · exact ⟨by rw [h]; exact fcuMade_scheduled e _ on, .inl h⟩
  · refine ⟨?_, .inr h⟩
    rw [h]
    exact fcuMade_scheduled e _ on
  · rcases running with firing | ⟨-, below⟩
    · simp [State.inHold, firing] at held
    · omega

/-- The HEALTH of the pending mark. -/
theorem ReferenceOutside.health (p : ReferenceOutside e { s with aru := a } D u)
    (k : Underway { s with aru := a } D u) (mem : .lmon ∈ D ∧ .cru ∈ D ∧ .stc ∈ D) (free : .free ∉ D)
    (lost : .lost ∉ D) (pending : s.lmon.markTaken = false) (tells : s.stc.station.tells) :
    ∃ c k, (c = s.cru ∨ c = u.cru) ∧ (k = s.stc ∨ k = u.stc) ∧
      u.rif = s.rif.originated .health (healthBytes { u with rif := s.rif, cru := c, stc := k }) none := by
  obtain ⟨lmon, cru, stc⟩ := mem
  have opened := p.opened lmon
  have aru := k.aru.2 free
  rcases p.told lmon pending tells free lost with h | ⟨-, h⟩
  · refine ⟨s.cru, s.stc, .inl rfl, .inl rfl, h.trans ?_⟩
    exact congrArg (fun l => s.rif.originated .health l none) (healthBytes_referenced e _ _ _ opened aru rfl rfl).symm
  · refine ⟨u.cru, u.stc, .inr rfl, .inr rfl, h.trans ?_⟩
    have ended := p.stc_end k cru stc lost
    rw [p.counted cru]
    refine congrArg (fun l => s.rif.originated .health l none)
      (healthBytes_referenced e _ _ _ opened aru ?_ ?_).symm <;> rw [ended]

/-! ### The event in SURVEY -/

theorem ReferenceInSurvey.health (p : ReferenceInSurvey e { s with aru := a } D u)
    (k : Underway { s with aru := a } D u) (survey : s.stc.station = .survey) (mem : .lmon ∈ D ∧ .cru ∈ D)
    (free : .free ∉ D) (pending : s.lmon.markTaken = false) :
    ∃ c k, (c = s.cru ∨ c = u.cru) ∧ (k = s.stc ∨ k = u.stc) ∧
      u.rif = s.rif.originated .health (healthBytes { u with rif := s.rif, cru := c, stc := k }) none := by
  obtain ⟨lmon, cru⟩ := mem
  obtain ⟨c, x, hc, hx, told⟩ := p.told lmon pending
  have opened := p.opened lmon
  have aru := k.aru.2 free
  have counted : c = s.cru ∨ c = u.cru := hc.imp_right fun h => h.2.trans (p.counted cru).symm
  have faults : u.stc.faults = s.stc.faults := by rw [p.stc]
  rcases hx with rfl | rfl
  · refine ⟨c, s.stc, counted, .inl rfl, told.trans ?_⟩
    exact congrArg (fun l => s.rif.originated .health l none)
      (healthBytes_referenced e c s.stc { s.stc with station := .survey } opened aru survey rfl).symm
  · refine ⟨c, u.stc, counted, .inr rfl, told.trans ?_⟩
    exact congrArg (fun l => s.rif.originated .health l none)
      (healthBytes_referenced e c u.stc { s.stc with station := u.stc.station } opened aru rfl faults).symm

/-- The tests of a station in SURVEY, with no hold. -/
theorem SurveyFound.ended (h : SurveyFound { s with aru := a } D u) (k : Underway { s with aru := a } D u)
    (lmon : .lmon ∈ D) (stc : .stc ∈ D) (count : u.stc.holdCount = s.stc.holdCount) :
    (s.lmon.markTaken = false ∨ .test ∈ D →
        u.stc = { ({ s with lmon := s.lmonMarked false }.surveyed a).stc with lastReference := s.now }) ∧
      (s.lmon.markTaken = true → .test ∉ D → u.stc = { s.stc with lastReference := s.now }) := by
  obtain ⟨x, -, found, unfound, same⟩ := h
  have stamped := k.stamped stc
  have tested : ({ s with aru := a } : State).stcTested = ({ s with lmon := s.lmonMarked false }.surveyed a).stc := by
    rw [← surveyTest_withAru]
    unfold State.stcTested
    rw [lmonMarked_congr (s := s) (t := { s with aru := a }) rfl rfl rfl]
  have counted : ({ s with lmon := s.lmonMarked false }.surveyed a).stc.holdCount = s.stc.holdCount := by
    rw [← tested]
    unfold State.stcTested
    rw [surveyTest_stc]
  refine ⟨fun h => ?_, fun taken h => ?_⟩
  · have is := found (h.imp_left fun pending => ⟨lmon, pending⟩)
    rw [same, is, tested, stamped, count, ← counted]
  · have is := unfound taken h
    rw [same, is, stamped, count]

end

/-! ### The statement of the event -/

/-- A reference event that loses nothing is taken as the statement says, whatever the order of its receivers. -/
theorem referenceEventTaken {s : State} {a : Aru} {e : ReferenceEvent} {fs : List (State → State)}
    {is : List Receiver} {changed : Prop} (acts : PlainReceivers changed is) (perm : fs.Perm (is.map (Receiver.act e)))
    (period : e.period = a.period) :
    (inTurn fs ({ s with aru := a } : State).drawn).aru = a ∧
      ReferenceEventTaken e changed s (inTurn fs ({ s with aru := a } : State).drawn) := by
  obtain ⟨D, mem, under⟩ := referenceEvent_underway (b := { s with aru := a }) acts.nodup perm
  have cycle := referenceEvent_cycle (b := { s with aru := a }) acts perm
  have losing := referenceEvent_losing (b := { s with aru := a }) acts perm
  have outside := referenceEvent_outside (b := { s with aru := a }) acts perm
  have inSurvey := referenceEvent_inSurvey (b := { s with aru := a }) acts perm
  have found := referenceEvent_found (b := { s with aru := a }) acts perm
  generalize inTurn fs ({ s with aru := a } : State).drawn = u at *
  have aru : u.aru = a := under.aru.2 fun h => acts.free ((mem _).mp h)
  have marked : ({ s with aru := a } : State).lmonMarked false = s.lmonMarked false := lmonMarked_congr rfl rfl rfl
  obtain ⟨fcuDone, lmonDone, cruDone, stcDone⟩ := acts.blocks
  refine ⟨aru, (under.counted ((mem _).mpr cruDone)).1, under.stamped ((mem _).mpr stcDone), under.now, under.straps,
    under.channels, under.pending, under.handed, fun orders => ?_, fun plain lost => ?_, fun plain orders => ?_⟩
  · rw [cycle orders, State.lmonReferenced, marked, period]
  · obtain ⟨signalled, fault, block⟩ := losing (marksPlainly_of (s := s) plain) lost
    refine ⟨signalled, fault, fun mode firing off => ?_⟩
    obtain ⟨stopped, unscheduled⟩ := block mode firing
    exact ⟨stopped, unscheduled off⟩
  by_cases survey : s.stc.station = .survey
  · obtain ⟨D, mem, under, state⟩ := inSurvey (marksPlainly_of (s := s) plain) orders survey
    have cru : u.cru = s.cru.referenced s.losesOrders := by
      rw [losesOrders_survey survey]
      exact state.counted ((mem _).mpr cruDone)
    have unheld : ¬s.inHold = true := by simp [State.inHold, survey]
    refine ⟨under.frame_of state.lca cru state.fcu, fun h => ?_, fun h => absurd h unheld, fun h => ?_,
      fun pending _ => ?_, fun h => absurd survey h, fun _ off agree => ?_⟩
    · rcases h with h | h
      · rw [survey] at h; cases h
      · exact absurd h.1 unheld
    · rw [survey] at h
      exact state.quiet (.inr (h.resolve_right (by simp)))
    · exact state.health under survey ⟨(mem _).mpr lmonDone, (mem _).mpr cruDone⟩
        (fun h => acts.free ((mem _).mp h)) pending
    · obtain ⟨fcu, count⟩ := state.idle off
      obtain ⟨D, mem, under, -, result⟩ := found (marksPlainly_of (s := s) plain) orders survey (by rw [marked]; exact agree)
      obtain ⟨tested, untested⟩ := result.ended under ((mem _).mpr lmonDone) ((mem _).mpr stcDone) count
      rw [mem, acts.test, ← aru] at tested
      rw [mem, acts.test] at untested
      exact ⟨fcu, tested, untested⟩
  · obtain ⟨D, mem, under, state⟩ := outside (marksPlainly_of (s := s) plain) orders survey
    have fcuDone := (mem _).mpr fcuDone
    have cruDone := (mem _).mpr cruDone
    have stcDone := (mem _).mpr stcDone
    have unlost : .lost ∉ D := fun h => acts.lost ((mem _).mp h)
    have cru : u.cru = s.cru.referenced s.losesOrders := state.counted cruDone
    refine ⟨under.frame_of state.lca cru (state.fcu_frame fcuDone), state.fires fcuDone cru, fun held _ => ?_,
      fun h => state.quiet (.inr (h.imp_right fun k => ?_)), fun pending h => ?_, fun _ => ⟨?_, fun still unheld => ?_⟩,
      fun h => absurd h survey⟩
    · rcases state.made fcuDone cru with h | h | ⟨h, -⟩
      · exact .inr (.inl h)
      · exact .inr (.inr h)
      · exact .inl h
    · show ¬s.stc.station.tells
      rcases k with k | k | k <;> rw [k] <;> simp [Station.tells]
    · exact state.health under ⟨(mem _).mpr lmonDone, cruDone, stcDone⟩ (fun h => acts.free ((mem _).mp h)) unlost pending
        (h.resolve_left survey)
    · have ended := state.stc_end under cruDone stcDone unlost
      rw [← recorded_orderLost orders]
      exact ended
    · have idle : ¬s.firingOrHold = true := by
        rw [firingOrHold_iff, unheld]
        simp [still]
      rcases state.made fcuDone cru with h | h | ⟨h, -⟩
      · rw [h, fcuMade_idle e _ idle]
      · rw [h, fcuMade_idle e _ idle]
      · exact h

end Sys2Proof.Machine
end

section
/-! PROOFS. The accepted crossing and the projected zero settled (O19, O20). -/

namespace Sys2Proof.Machine

/-- The receivers of a reference event that loses nothing. -/
def Receiver.plain (changed : Bool) : List Receiver := Receiver.blocks ++ if changed = true then [.test] else []

theorem plainReceivers {p : Prop} {changed : Bool} (h : changed = true ↔ p) :
    PlainReceivers p (Receiver.plain changed) := by
  unfold Receiver.plain Receiver.blocks
  cases changed with
  | true => exact ⟨by simp, by simp, by simpa using h, by simp, by simp⟩
  | false => exact ⟨by simp, by simp, by simpa using h, by simp, by simp⟩

/-- The acts that an accepted crossing, or a miss before the twelfth, hands on. -/
theorem receivers_map (e : ReferenceEvent) (was : LockState) (u : State) :
    referenceReceivers e ++ lockTest was u = (Receiver.plain (decide (was ≠ u.aru.lock))).map (Receiver.act e) := by
  rw [referenceReceivers_eq, Receiver.plain, List.map_append, lockTest]
  congr 1
  by_cases same : was = u.aru.lock
  · rw [if_pos same, if_neg (by simp [same])]
    rfl
  · rw [if_neg same, if_pos (by simpa using same)]
    rfl

/-- An instant up to 49 ticks back has been reached. -/
theorem reached_of_late {s : State} {d : StationTime} (late : (s.now - d).toNat ≤ 49) : Reached s d := by
  unfold Reached
  rw [toInt_eq, if_pos (by omega)]
  omega

/-- Settles O19: a crossing in the window, and its reference event. -/
theorem acceptedCrossingFollowsTheVoltage : Obligations.AcceptedCrossingFollowsTheVoltage := by
  intro s t w lock qualifies window after before
  have accepts : s.aru.edgeTaken.accepts t = true := by
    simp only [Aru.accepts, Aru.edgeTaken, window]
    exact (holds_iff w t).mpr ⟨after, before⟩
  have run := exec_qualifiedCrossing_of_qualifies qualifies
  rw [takeCrossing_tracking (by exact lock), if_pos (by exact accepts), acceptCrossing, receivers_map] at run
  have changed : decide (s.aru.lock ≠ .locked) = true ↔ s.aru.lock = .holdover := by
    rcases lock with h | h <;> simp [h]
  have perm := shuffle_perm (Config.freeOrder s.freeCount)
    ((Receiver.plain (decide (s.aru.lock ≠ .locked))).map
      (Receiver.act (referenceOf true (s.aru.edgeTaken.accept t))))
  obtain ⟨u, run, aru, event⟩ : ∃ u, exec .qualifiedCrossing s = .next u ∧ u.aru = s.aru.edgeTaken.accept t ∧
      ReferenceEventTaken (referenceOf true (s.aru.edgeTaken.accept t)) (s.aru.lock = .holdover) s u :=
    ⟨_, run, referenceEventTaken (s := s) (a := s.aru.edgeTaken.accept t) (plainReceivers changed) perm rfl⟩
  refine ⟨u, run, ?_, ?_, ?_⟩ <;> rw [aru]
  · have within : (0 : Int) ≤ max ((153800 : Nat) : Int)
        (min ((222300 : Nat) : Int) (filteredPeriod s.aru.period (sdiff t s.aru.zRef))) := by omega
    exact Int.toNat_of_nonneg within
  · rfl
  · exact event

/-- Settles O20: a miss before the twelfth, and its reference event. -/
theorem missProjectsTheZero : Obligations.MissProjectsTheZero := by
  intro s w lock window late unqualified few
  have due : s.aru.missDue s.now = true := (missDue_iff s).mpr ⟨lock, w, window, reached_of_late late, unqualified⟩
  have run : exec .miss s = .next (declareMiss s) := by
    show Host.Outcome.next (if s.aru.missDue s.now then declareMiss s else s) = _
    rw [if_pos due]
  have kept : lossActs (s.onAru Aru.missed).aru.missCount = [] := by
    refine if_neg ?_
    show ¬s.aru.missCount + 1 = 12
    omega
  rw [declareMiss] at run
  rw [kept, List.append_nil, receivers_map] at run
  have changed : decide (s.aru.lock ≠ .holdover) = true ↔ s.aru.lock = .locked := by
    rcases lock with h | h <;> simp [h]
  have perm := shuffle_perm (Config.freeOrder s.freeCount)
    ((Receiver.plain (decide (s.aru.lock ≠ .holdover))).map (Receiver.act (referenceOf false s.aru.missed)))
  obtain ⟨aru, event⟩ := referenceEventTaken (s := s) (a := s.aru.missed) (plainReceivers changed) perm rfl
  exact ⟨_, run, aru, event⟩

end Sys2Proof.Machine
end

section
/-! PROOFS. The twelfth miss: its reference event with the entry to FREE and REFERENCE_LOST, in any order (O21). -/

namespace Sys2Proof.Machine

/-! ### REFERENCE_LOST among the receivers (R56, R186) -/

/-- A mark enters no fault of the reference. -/
theorem cycleMark_referenceLost (own : Bool) (s : State) :
    (cycleMark own s).stc.fault .referenceLost = s.stc.fault .referenceLost := by
  rw [cycleMark_fault own s (by decide) (by decide), if_neg]
  exact fun h => enteredFault_ne (g := .referenceLost) h (by decide) (by decide) rfl

theorem cancelSchedule_referenceLost (s : State) :
    (cancelSchedule s).stc.fault .referenceLost = s.stc.fault .referenceLost := by
  rcases cancels_or_marks s with free | takes
  · rw [cancelSchedule_eq free]
  · rw [cancelSchedule_mark takes, cycleMark_referenceLost]

theorem surveyTest_fault (u : State) (g : FaultCode) : (surveyTest u).stc.fault g = u.stc.fault g := by
  rcases surveyTest_cases u with h | ⟨-, h | h⟩ <;> rw [h] <;> rfl

/-- A fault in mode TRIP takes every station in service to TRIPPED. -/
theorem takeFault_toTripped {f : FaultCode} {s : State} (other : f ≠ .ringLost) (mode : (s.stc.fault f).mode = .trip)
    (h1 : s.stc.station ≠ .start) (h2 : s.stc.station ≠ .inert) : (takeFault f s).stc.station = .tripped := by
  rw [takeFault_trips mode]
  by_cases firing : s.stc.station = .firing
  · rw [trip_in_firing (s := s.recordFault f) _ _ firing, if_neg other]
    exact cancelSchedule_moves_tripped rfl
  · rw [trip_outside_firing (s := s.recordFault f) _ _ firing]
    dsimp only
    split
    · rfl
    · rename_i away
      show s.stc.station = .tripped
      have still : ¬(s.stc.station = .survey ∨ s.stc.station = .blocked ∨ s.stc.station = .bypass) := away
      cases h : s.stc.station <;> simp_all

/-- What the loss keeps of its fault and of the station. -/
structure LossUnder (b : State) (D : List Receiver) (t : State) : Prop where
  before : .lost ∉ D → t.stc.fault .referenceLost = b.stc.fault .referenceLost
  after : .lost ∈ D →
    t.stc.fault .referenceLost = FaultRecord.occurred (b.stc.fault .referenceLost) ∧ t.stc.station ≠ .firing ∧
      ((b.stc.fault .referenceLost).mode = .trip → b.stc.station ≠ .start → b.stc.station ≠ .inert →
        t.stc.station = .tripped)

theorem LossUnder.begun (b : State) : LossUnder b [] b.drawn := ⟨fun _ => rfl, fun h => absurd h List.not_mem_nil⟩

/-- A receiver that leaves the fault. -/
theorem LossUnder.kept {b t u : State} {D : List Receiver} {i : Receiver} (h : LossUnder b D t) (other : .lost ≠ i)
    (fault : u.stc.fault .referenceLost = t.stc.fault .referenceLost)
    (stopped : Stopped t.stc.station u.stc.station) (tripped : t.stc.station = .tripped → u.stc.station = .tripped) :
    LossUnder b (i :: D) u := by
  refine ⟨fun k => fault.trans (h.before (not_mem_old k)), fun k => ?_⟩
  obtain ⟨occurred, still, trips⟩ := h.after (mem_old k other)
  refine ⟨fault.trans occurred, ?_, fun mode h1 h2 => tripped (trips mode h1 h2)⟩
  rcases stopped with h | h | h <;> rw [h]
  · exact still
  · decide
  · decide

theorem takeFault_otherReferenceLost {f : FaultCode} (other : f ≠ .referenceLost) (s : State) :
    (takeFault f s).stc.fault .referenceLost = s.stc.fault .referenceLost := by
  rw [takeFault, takeFaultWith_fault f s (by decide) cancelSchedule_referenceLost]
  exact onFault_fault_other _ _ other

theorem LossUnder.taken {e : ReferenceEvent} {b t : State} {D : List Receiver}
    (mode : (b.stc.fault .referenceLost).mode = .block ∨ (b.stc.fault .referenceLost).mode = .trip) (i : Receiver)
    (new : i ∉ D) (k : Underway b D t) (h : LossUnder b D t) : LossUnder b (i :: D) (i.act e t) := by
  cases i with
  | fcu =>
    show LossUnder b _ (fcuReference e t)
    rw [fcuReference_frame]
    exact h.kept nofun rfl (.inl rfl) id
  | lmon =>
    refine h.kept nofun ?_ (lmonReference_stopped _ t) (lmonReference_moves _ t).tripped
    show (lmonReference e.zRef t).stc.fault .referenceLost = _
    rw [lmonReference_eq]
    dsimp only
    split
    · rfl
    · exact cycleMark_referenceLost false t
  | cru =>
    refine h.kept nofun ?_ (cruReference_stopped t) (cruReference_moves t).tripped
    show (cruReference t).stc.fault .referenceLost = _
    rw [cruReference_eq]
    split
    · exact takeFault_otherReferenceLost (by decide) { t with cru := t.cru.referenced true }
    · rfl
  | stc => exact h.kept nofun rfl (.inl rfl) id
  | test => exact h.kept nofun (surveyTest_fault t _) (surveyTest_stopped t) (surveyTest_moves t).tripped
  | free =>
    exact h.kept nofun (surveyTest_fault (t.onAru Aru.toFree) _) (surveyTest_stopped (t.onAru Aru.toFree))
      (surveyTest_moves (t.onAru Aru.toFree)).tripped
  | lost =>
    have same := h.before new
    have here : (t.stc.fault .referenceLost).mode = .block ∨ (t.stc.fault .referenceLost).mode = .trip := by
      rw [same]; exact mode
    refine ⟨fun h => absurd List.mem_cons_self h, fun _ => ⟨?_, ?_, fun trip h1 h2 => ?_⟩⟩
    · show (takeFault .referenceLost t).stc.fault .referenceLost = _
      rw [takeFault, takeFaultWith_fault _ t (by decide) cancelSchedule_referenceLost, ← same]
      exact onFault_fault_same _ _ _
    · show (takeFault .referenceLost t).stc.station ≠ .firing
      by_cases firing : t.stc.station = .firing
      · obtain ⟨stopped, -⟩ := takeFault_endsFiring (f := .referenceLost) (by decide) firing here
        rcases stopped with h | h <;> rw [h] <;> decide
      · rcases takeFault_stopped .referenceLost t with h | h | h <;> rw [h]
        · exact firing
        · decide
        · decide
    · refine takeFault_toTripped (by decide) (by rw [same]; exact trip) (fun h => ?_) fun h => ?_
      · exact h1 ((k.stopped.resolve_right (by rw [h]; simp)).symm.trans h)
      · exact h2 ((k.stopped.resolve_right (by rw [h]; simp)).symm.trans h)

/-! ### What is scheduled (R63, R75) -/

/-- A schedule stands in FIRING alone. -/
def ScheduledInFiring (s : State) : Prop := s.fcu.schedule.isSome = true → s.stc.station = .firing

theorem ScheduledInFiring.surveyed {s : State} (h : ScheduledInFiring s) : ScheduledInFiring (surveyTest s) := by
  unfold ScheduledInFiring
  rw [surveyTest_frame]
  intro scheduled
  have firing := h scheduled
  rw [surveyTest_elsewhere (by rw [firing]; decide)]
  exact firing

/-- A fault that begins no hold leaves a schedule in FIRING alone. -/
theorem ScheduledInFiring.faultTaken {cancel : State → State} (hc : ∀ v, (cancel v).fcu.schedule = none) {f : FaultCode}
    (other : f ≠ .ringLost) {s : State} (h : ScheduledInFiring s) : ScheduledInFiring (takeFaultWith cancel f s) := by
  by_cases firing : s.stc.station = .firing
  · obtain ⟨v, -, cases⟩ := takeFaultWith_cases cancel f s
    rcases cases with ⟨-, acts⟩ | ⟨-, run, -⟩
    · have recorded : takeFaultWith cancel f s = s.recordFault f := by
        rcases acts firing other with mode | mode <;> simp only [takeFaultWith, mode]
      rw [recorded]
      exact h
    · rw [run]
      exact fun scheduled => by rw [hc] at scheduled; cases scheduled
  · rw [takeFaultWith_outside cancel f firing]
    exact fun scheduled => absurd (h scheduled) firing

theorem ScheduledInFiring.marked {s : State} (h : ScheduledInFiring s) (own : Bool) :
    ScheduledInFiring (cycleMark own s) := by
  obtain ⟨fs, run, -, acts⟩ := cycleMark_all own s
  rw [run]
  refine inTurn_keeps (P := ScheduledInFiring) h fun act hact t k => ?_
  rcases acts act hact with (⟨e, -, rfl⟩ | rfl | ⟨rfl, -⟩ | rfl) | ⟨f, entered, rfl⟩
  · unfold ScheduledInFiring
    rw [handEvent_fcu, handEvent_stc]
    exact k
  · rw [cruMark_frame]; exact k
  · exact k.faultTaken (cancel := discardSchedule) (fun _ => rfl) (by decide)
  · exact k.surveyed
  · exact k.faultTaken (cancel := discardSchedule) (fun _ => rfl) (enteredFault_ne entered (by decide) (by decide))

/-- With no hold, each receiver leaves a schedule in FIRING alone. -/
theorem ScheduledInFiring.taken {e : ReferenceEvent} {b t : State} {D : List Receiver} (off : b.stc.holdRunning = false)
    (i : Receiver) (k : Underway b D t) (h : ScheduledInFiring t) : ScheduledInFiring (i.act e t) := by
  cases i with
  | fcu =>
    show ScheduledInFiring (fcuReference e t)
    by_cases running : t.firingOrHold = true
    · rw [fcuReference_on e running]
      refine fun _ => ((firingOrHold_iff t).mp running).resolve_right fun held => ?_
      rw [inHold_of_off (k.hold.trans off)] at held
      cases held
    · rw [fcuReference_off e running]
      exact h
  | lmon =>
    show ScheduledInFiring (lmonReference e.zRef t)
    rw [lmonReference_eq]
    show ScheduledInFiring (if t.lmon.markTaken then t else cycleMark false t)
    split
    · exact h
    · exact h.marked false
  | cru =>
    show ScheduledInFiring (cruReference t)
    rw [cruReference_eq]
    split
    · exact ScheduledInFiring.faultTaken cancelSchedule_none (by decide)
        (show ScheduledInFiring { t with cru := t.cru.referenced true } from h)
    · exact h
  | stc => exact h
  | test => exact h.surveyed
  | free => exact ScheduledInFiring.surveyed (show ScheduledInFiring (t.onAru Aru.toFree) from h)
  | lost => exact h.faultTaken cancelSchedule_none (by decide)

end Sys2Proof.Machine
end

section
/-! PROOFS. The twelfth miss settled: the advance list, the isolation hold and the whole state (O21). -/

namespace Sys2Proof.Machine

/-! ### What a firing reads of the Coordination Unit -/

/-- The advance list, the predecessor's record and μ_last. -/
def Cru.firingNeeds (c : Cru) : List Advance × Option Predecessor × Nat := (c.advances, c.predecessor, c.muLast)

/-- The pending mark of the old cycle, if there is one, raises no valve event. -/
def State.marksQuietly (b : State) : Prop :=
  b.lmon.markTaken = true ∨ (b.lmon.marked b.straps false b.now).2 = []

/-- The firing's needs at each point of an event whose mark raises no valve event. -/
structure NeedsUnder (b : State) (D : List Receiver) (t : State) : Prop where
  counted : .cru ∈ D → t.cru.firingNeeds = (decayedList b.cru.advances, b.cru.predecessor, b.cru.muLast)
  uncounted : .cru ∉ D → t.cru.firingNeeds = b.cru.firingNeeds

theorem NeedsUnder.begun (b : State) : NeedsUnder b [] b.drawn := ⟨fun h => absurd h List.not_mem_nil, fun _ => rfl⟩

theorem NeedsUnder.kept {b t u : State} {D : List Receiver} {i : Receiver} (h : NeedsUnder b D t) (other : .cru ≠ i)
    (same : u.cru.firingNeeds = t.cru.firingNeeds) : NeedsUnder b (i :: D) u :=
  ⟨fun k => same.trans (h.counted (mem_old k other)), fun k => same.trans (h.uncounted (not_mem_old k))⟩

/-- At a point where the mark is pending the cycle is the old one. -/
theorem CycleUnder.pending {z : StationTime} {b t : State} {D : List Receiver} (cycle : CycleUnder z b D t)
    (new : .lmon ∉ D) (pending : t.lmon.markTaken = false) : t.lmon = b.lmon := by
  rcases cycle.old new with same | same
  · exact same
  · rw [same, lmonMarked_taken] at pending; cases pending

theorem cycleMark_firingNeeds {own : Bool} {s : State} (none : (s.lmon.marked s.straps own s.now).2 = []) :
    (cycleMark own s).cru.firingNeeds = s.cru.firingNeeds := by
  obtain ⟨watch, h⟩ := cycleMark_cru none
  rw [h]
  rfl

/-- A fault of the event leaves the firing's needs: the mark that its cancellation may take raises no event. -/
theorem takeFault_firingNeeds {z : StationTime} {b t : State} {D : List Receiver} (f : FaultCode) (k : Underway b D t)
    (cycle : CycleUnder z b D t) (quiet : b.marksQuietly)
    (calm : (b.now - (z + BitVec.ofNat 32 (9000 * b.aru.period / 36000))).toInt < 0 ∨ b.stc.station ≠ .firing)
    (c : Cru) : (takeFault f { t with cru := c }).cru.firingNeeds = c.firingNeeds := by
  obtain ⟨v, occurs, cases⟩ := takeFaultWith_cases cancelSchedule f { t with cru := c }
  change (takeFault f { t with cru := c } = v ∧ _) ∨
    (t.stc.station = .firing ∧ takeFault f { t with cru := c } = _ ∧ _) at cases
  obtain ⟨watch, cru⟩ := occurs.cru
  have needs : v.cru.firingNeeds = c.firingNeeds := by rw [cru]; rfl
  rcases cases with ⟨run, -⟩ | ⟨firing, run, -⟩ <;> rw [run]
  · exact needs
  rcases cancels_or_marks v with free | takes
  · rw [cancelSchedule_eq free]
    exact needs
  rw [cancelSchedule_mark takes, cycleMark_firingNeeds]
  · exact needs
  have view := occurs.view
  simp only [State.markView, Prod.mk.injEq] at view
  obtain ⟨lmon, now, straps, -⟩ := view
  obtain ⟨-, pending, M, fallback, past⟩ := takes
  rw [lmon] at pending fallback
  rw [now] at past
  by_cases done : .lmon ∈ D
  · rw [show State.lmon { t with cru := c } = _ from cycle.new done] at fallback
    obtain rfl := Option.some.inj fallback
    rcases calm with ahead | still
    · rw [show State.now { t with cru := c } = _ from k.now] at past
      exact absurd past (by omega)
    · exact absurd ((k.stopped.resolve_right (by rw [firing]; simp)).symm.trans firing) still
  · have same := cycle.pending done pending
    show (v.lmon.marked v.straps false v.now).2 = []
    rw [lmon, straps, now]
    show (t.lmon.marked t.straps false t.now).2 = []
    rw [same, k.straps, k.now]
    exact quiet.resolve_left (by rw [← same, show t.lmon.markTaken = false from pending]; decide)

/-- Each receiver, taken once, keeps the firing's needs. -/
theorem NeedsUnder.taken {e : ReferenceEvent} {b t : State} {D : List Receiver} (quiet : b.marksQuietly)
    (calm : (b.now - (e.zRef + BitVec.ofNat 32 (9000 * b.aru.period / 36000))).toInt < 0 ∨ b.stc.station ≠ .firing)
    (i : Receiver) (new : i ∉ D) (k : Underway b D t) (cycle : CycleUnder e.zRef b D t) (h : NeedsUnder b D t) :
    NeedsUnder b (i :: D) (i.act e t) := by
  cases i with
  | fcu =>
    show NeedsUnder b _ (fcuReference e t)
    rw [fcuReference_frame]
    exact h.kept nofun rfl
  | lmon =>
    refine h.kept nofun ?_
    show (lmonReference e.zRef t).cru.firingNeeds = _
    rw [lmonReference_eq]
    dsimp only
    rcases Bool.eq_false_or_eq_true t.lmon.markTaken with taken | pending
    · rw [if_pos taken]
    · have same := cycle.pending new pending
      rw [if_neg (by rw [pending]; decide), cycleMark_firingNeeds]
      rw [same, k.straps, k.now]
      exact quiet.resolve_left (by rw [← same, pending]; decide)
  | cru =>
    have before := h.uncounted new
    simp only [Cru.firingNeeds, Prod.mk.injEq] at before
    obtain ⟨advances, predecessor, mu⟩ := before
    have referenced (lost : Bool) : (t.cru.referenced lost).firingNeeds =
        (decayedList b.cru.advances, b.cru.predecessor, b.cru.muLast) := by
      rw [← advances, ← predecessor, ← mu]
      rfl
    refine ⟨fun _ => ?_, fun h => absurd List.mem_cons_self h⟩
    show (cruReference t).cru.firingNeeds = _
    rw [cruReference_eq]
    split
    · exact (takeFault_firingNeeds _ k cycle quiet calm _).trans (referenced true)
    · exact referenced false
  | stc => exact h.kept nofun rfl
  | test =>
    show NeedsUnder b _ (surveyTest t)
    rw [surveyTest_frame]
    exact h.kept nofun rfl
  | free =>
    show NeedsUnder b _ (surveyTest (t.onAru Aru.toFree))
    rw [surveyTest_frame]
    exact h.kept nofun rfl
  | lost => exact h.kept nofun (takeFault_firingNeeds _ k cycle quiet calm t.cru)

/-! ### The isolation hold (R182) -/

/-- The hold at each point of the event. -/
structure HoldUnder (e : ReferenceEvent) (b : State) (D : List Receiver) (t : State) : Prop where
  station : t.stc.station = .tripped
  gamma : t.stc.gammaMin = b.stc.gammaMin
  held : .stc ∈ D → t.stc.holdCount = b.stc.holdCount + 1
  unfired : .fcu ∉ D → t.fcu = b.fcu
  fired : .fcu ∈ D → b.marksQuietly → b.stc.holdCount < 10 →
    t.fcu = b.fcuMade e b.cru.advances ∨ t.fcu = b.fcuMade e (decayedList b.cru.advances)

/-- A change at a station TRIPPED that makes no firing. -/
theorem HoldUnder.kept {e : ReferenceEvent} {b t u : State} {D : List Receiver} {i : Receiver}
    (h : HoldUnder e b D t) (fcu : .fcu ≠ i) (stc : .stc ≠ i) (outside : OutsideFiring t.stc t.fcu u)
    (tripped : u.stc.station = .tripped) : HoldUnder e b (i :: D) u where
  station := tripped
  gamma := by rw [outside.stc]; exact h.gamma
  held k := by rw [outside.stc]; exact h.held (mem_old k stc)
  unfired k := outside.fcu.trans (h.unfired (not_mem_old k))
  fired k quiet below := by rw [outside.fcu]; exact h.fired (mem_old k fcu) quiet below

/-- Each receiver, taken once, keeps the hold. -/
theorem HoldUnder.taken {e : ReferenceEvent} {b t : State} {D : List Receiver} (inHold : b.inHold = true) (i : Receiver)
    (new : i ∉ D) (k : Underway b D t) (needs : b.marksQuietly → NeedsUnder b D t) (h : HoldUnder e b D t) :
    HoldUnder e b (i :: D) (i.act e t) := by
  have still : t.stc.station ≠ .firing := by rw [h.station]; decide
  have refl : OutsideFiring t.stc t.fcu t := .refl still
  have held := inHold
  simp only [State.inHold, Bool.and_eq_true, decide_eq_true_eq] at held
  obtain ⟨⟨-, running⟩, below⟩ := held
  cases i with
  | fcu =>
    show HoldUnder e b _ (fcuReference e t)
    have fired (quiet : b.marksQuietly) (below : b.stc.holdCount < 10) :
        (fcuReference e t).fcu = b.fcuMade e b.cru.advances ∨
          (fcuReference e t).fcu = b.fcuMade e (decayedList b.cru.advances) := by
      have count : t.stc.holdCount < 11 := by
        by_cases done : .stc ∈ D
        · rw [h.held done]; omega
        · rw [k.unstamped done]; omega
      have on : t.firingOrHold = true :=
        (firingOrHold_iff t).mpr (.inr (by simp [State.inHold, h.station, k.hold, running, count]))
      have made (l : List Advance)
          (same : t.cru.firingNeeds = (l, b.cru.predecessor, b.cru.muLast)) :
          (fcuReference e t).fcu = b.fcuMade e l := by
        simp only [Cru.firingNeeds, Prod.mk.injEq] at same
        obtain ⟨advances, predecessor, mu⟩ := same
        rw [← advances]
        exact fcuReference_made e on ((firingOrHold_iff b).mpr (.inr inHold)) (h.unfired new) predecessor mu h.gamma
      by_cases done : .cru ∈ D
      · exact .inr (made _ ((needs quiet).counted done))
      · exact .inl (made _ ((needs quiet).uncounted done))
    rw [fcuReference_frame]
    exact {
      station := h.station
      gamma := h.gamma
      held := fun h' => h.held (mem_old h')
      unfired := fun h' => absurd List.mem_cons_self h'
      fired := fun _ => fired }
  | lmon =>
    refine h.kept nofun nofun ?_ ((lmonReference_moves _ t).tripped h.station)
    show OutsideFiring t.stc t.fcu (lmonReference e.zRef t)
    rw [lmonReference_eq]
    split
    · exact refl.congr rfl rfl
    · exact (refl.marked false).congr rfl rfl
  | cru =>
    refine h.kept nofun nofun ?_ ((cruReference_moves t).tripped h.station)
    show OutsideFiring t.stc t.fcu (cruReference t)
    have same : t.losesOrders = false := by
      rw [← Bool.not_eq_true]
      intro lost
      rcases losesOrders_station lost with h' | h' <;> rw [h.station] at h' <;> cases h'
    rw [cruReference_eq, if_neg (by rw [same]; decide)]
    exact refl.congr rfl rfl
  | stc =>
    show HoldUnder e b _ (stcReference t)
    have on : t.inHold = true := by
      simp [State.inHold, h.station, k.hold, running, k.unstamped new, below]
    exact {
      station := h.station
      gamma := h.gamma
      held := fun _ => by
        show (if t.inHold = true then t.stc.holdCount + 1 else t.stc.holdCount) = _
        rw [if_pos on, k.unstamped new]
      unfired := fun h' => h.unfired (not_mem_old h')
      fired := fun h' => h.fired (mem_old h') }
  | test => exact h.kept nofun nofun refl.surveyed ((surveyTest_moves t).tripped h.station)
  | free =>
    exact h.kept nofun nofun (OutsideFiring.surveyed (refl.congr (t := t.onAru Aru.toFree) rfl rfl))
      ((surveyTest_moves (t.onAru Aru.toFree)).tripped h.station)
  | lost => exact h.kept nofun nofun (refl.faultTaken cancelSchedule _) ((takeFault_moves _ t).tripped h.station)

/-! ### The receivers of the twelfth miss -/

/-- The four blocks and the two acts of the loss. -/
def Receiver.losing : List Receiver := Receiver.blocks ++ [.free, .lost]

theorem losing_nodup : Receiver.losing.Nodup := by simp [Receiver.losing, Receiver.blocks]

section
variable {e : ReferenceEvent} {b : State} {fs : List (State → State)}

/-- The cycle and the advance list after the event. -/
theorem twelfthMiss_cycle (perm : fs.Perm (Receiver.losing.map (Receiver.act e)))
    (ahead : (b.now - (e.zRef + BitVec.ofNat 32 (9000 * b.aru.period / 36000))).toInt < 0) :
    (inTurn fs b.drawn).lmon = b.lmonReferenced e.zRef ∧
      (b.marksQuietly → (inTurn fs b.drawn).cru.advances = decayedList b.cru.advances) := by
  obtain ⟨D, mem, -, cycle, needs⟩ := referenceEvent_keeps (b := b)
    (R := fun D t => CycleUnder e.zRef b D t ∧ (b.marksQuietly → NeedsUnder b D t)) losing_nodup perm
    ⟨.begun _ b, fun _ => .begun b⟩
    fun D i t used new _ k ⟨cycle, needs⟩ =>
      ⟨cycle.taken (.inl ahead) i used new k, fun quiet => (needs quiet).taken quiet (.inl ahead) i new k cycle⟩
  refine ⟨cycle.new ((mem _).mpr (by simp [Receiver.losing, Receiver.blocks])), fun quiet => ?_⟩
  have counted := (needs quiet).counted ((mem _).mpr (by simp [Receiver.losing, Receiver.blocks]))
  exact congrArg (fun v => v.1) counted

/-- The fault and the station after the event. -/
theorem twelfthMiss_loss (perm : fs.Perm (Receiver.losing.map (Receiver.act e)))
    (mode : (b.stc.fault .referenceLost).mode = .block ∨ (b.stc.fault .referenceLost).mode = .trip) :
    (inTurn fs b.drawn).stc.fault .referenceLost = FaultRecord.occurred (b.stc.fault .referenceLost) ∧
      (inTurn fs b.drawn).stc.station ≠ .firing ∧
      ((b.stc.fault .referenceLost).mode = .trip → b.stc.station ≠ .start → b.stc.station ≠ .inert →
        (inTurn fs b.drawn).stc.station = .tripped) := by
  obtain ⟨D, mem, -, loss⟩ := referenceEvent_keeps (b := b) (R := LossUnder b) losing_nodup perm (.begun b)
    fun D i t _ new _ k loss => loss.taken mode i new k
  exact loss.after ((mem _).mpr (by simp [Receiver.losing]))

/-- Outside the hold nothing is scheduled after the event but in FIRING. -/
theorem twelfthMiss_scheduled (perm : fs.Perm (Receiver.losing.map (Receiver.act e))) (off : b.stc.holdRunning = false)
    (scheduled : ScheduledInFiring b) : ScheduledInFiring (inTurn fs b.drawn) := by
  obtain ⟨-, -, -, result⟩ := referenceEvent_keeps (b := b) (R := fun _ t => ScheduledInFiring t) losing_nodup perm
    scheduled fun D i t _ _ _ k h => h.taken off i k
  exact result

/-- A running hold counts, and makes its firing. -/
theorem twelfthMiss_hold (perm : fs.Perm (Receiver.losing.map (Receiver.act e))) (inHold : b.inHold = true) :
    (inTurn fs b.drawn).stc.station = .tripped ∧ (inTurn fs b.drawn).stc.holdCount = b.stc.holdCount + 1 ∧
      (b.marksQuietly → b.stc.holdCount < 10 →
        (inTurn fs b.drawn).fcu = b.fcuMade e b.cru.advances ∨
          (inTurn fs b.drawn).fcu = b.fcuMade e (decayedList b.cru.advances)) := by
  have tripped : b.stc.station = .tripped := by
    simp only [State.inHold, Bool.and_eq_true, decide_eq_true_eq] at inHold
    exact inHold.1.1
  have still : b.stc.station ≠ .firing := by rw [tripped]; decide
  obtain ⟨D, mem, -, -, -, hold⟩ := referenceEvent_keeps (b := b)
    (R := fun D t => CycleUnder e.zRef b D t ∧ (b.marksQuietly → NeedsUnder b D t) ∧ HoldUnder e b D t)
    losing_nodup perm
    ⟨.begun _ b, fun _ => .begun b,
      ⟨tripped, rfl, fun h => absurd h List.not_mem_nil, fun _ => rfl, fun h => absurd h List.not_mem_nil⟩⟩
    fun D i t used new _ k ⟨cycle, needs, hold⟩ =>
      ⟨cycle.taken (.inr (.inl still)) i used new k,
        fun quiet => (needs quiet).taken quiet (.inr still) i new k cycle, hold.taken inHold i new k needs⟩
  exact ⟨hold.station, hold.held ((mem _).mpr (by simp [Receiver.losing, Receiver.blocks])),
    hold.fired ((mem _).mpr (by simp [Receiver.losing, Receiver.blocks]))⟩

/-- The whole state, where the loss stops nothing and the mark is plain. -/
theorem twelfthMiss_outside (perm : fs.Perm (Receiver.losing.map (Receiver.act e))) (plain : b.marksPlainly)
    (orders : b.OrdersOrReport) (away : b.stc.station ≠ .survey) (loss : b.lossStopsNothing) :
    ∃ D, (∀ i, i ∈ D ↔ i ∈ Receiver.losing) ∧ Underway b D (inTurn fs b.drawn) ∧
      ReferenceOutside e b D (inTurn fs b.drawn) :=
  referenceEvent_keeps losing_nodup perm (.begun e b) fun _ i _ _ new _ k p =>
    p.taken away plain orders i (fun _ => loss) new k

end

theorem exec_holdoverLimit {s : State} {w : Window} (lock : s.aru.lock = .holdover) (window : s.aru.window = some w)
    (late : (s.now - w.closes).toNat ≤ 49)
    (unqualified : ∀ t, s.aru.qualifier = some t → ¬(0 ≤ (t - w.opens).toInt ∧ 0 ≤ (w.closes - t).toInt))
    (eleven : s.aru.missCount = 11) : exec .holdoverLimit s = .next (declareMiss s) := by
  have due : s.aru.missDue s.now = true :=
    (missDue_iff s).mpr ⟨.inr lock, w, window, reached_of_late late, unqualified⟩
  show Host.Outcome.next (holdoverLimit s) = _
  unfold holdoverLimit
  rw [if_neg (by simp [eleven]), if_pos ⟨due, eleven⟩]

/-- The twelfth miss in any order of its receivers. -/
theorem declareMiss_twelfth {s : State} (lock : s.aru.lock = .holdover) (eleven : s.aru.missCount = 11) :
    ∃ fs, declareMiss s = inTurn fs ({ s with aru := s.aru.missed } : State).drawn ∧
      fs.Perm (Receiver.losing.map (Receiver.act (referenceOf false s.aru.missed))) := by
  have test : lockTest s.aru.lock (s.onAru Aru.missed) = [] := if_pos lock
  have acts : lossActs (s.onAru Aru.missed).aru.missCount = [enterFree, takeFault .referenceLost] :=
    if_pos (show s.aru.missCount + 1 = 12 by omega)
  refine ⟨_, rfl, (shuffle_perm _ _).trans ?_⟩
  rw [test, acts, List.append_nil]
  exact .refl _

/-- Where the loss moves the station nowhere, it is entered in the fault table alone. -/
theorem lossStopsNothing_of {s : State}
    (h : (s.stc.station = .tripped ∧ s.stc.holdRunning = false) ∨ s.stc.station = .start ∨ s.stc.station = .inert ∨
      ((s.stc.fault .referenceLost).mode = .block ∧ (s.stc.station = .blocked ∨ s.stc.station = .bypass))) :
    s.lossStopsNothing ∧ s.stc.station ≠ .survey ∧ s.inHold = false := by
  unfold State.lossStopsNothing State.inHold
  rcases h with ⟨h, off⟩ | h | h | ⟨mode, h | h⟩
  · simp [h, off]
  · simp [h]
  · simp [h]
  · simp [h, mode]
  · simp [h, mode]

/-- The Station Controller at the end of an event that loses the reference, outside the hold. -/
theorem ReferenceOutside.stc_lost {e : ReferenceEvent} {b t : State} {D : List Receiver} (k : Underway b D t)
    (p : ReferenceOutside e b D t) (cru : .cru ∈ D) (stc : .stc ∈ D) (lost : .lost ∈ D) (unheld : b.inHold = false) :
    t.stc = { (b.stc.recorded true .referenceLost).recorded b.losesOrders .orderLost with lastReference := b.now } := by
  obtain ⟨x, y, hx, hy, same⟩ := p.stc
  have losing : x = b.losesOrders := by
    rw [Bool.eq_iff_iff, hx]
    exact and_iff_right cru
  have count : ((b.stc.recorded true .referenceLost).recorded b.losesOrders .orderLost).holdCount =
      b.stc.holdCount := by
    unfold Stc.recorded; split <;> rfl
  have held := p.held stc
  rw [unheld, if_neg (by decide), Nat.add_zero, ← count] at held
  rw [same, k.stamped stc, held, losing, hy.mpr lost]

/-- Both faults of the event in the fault table. -/
theorem recorded_both {s : State} (orders : s.OrdersOrReport)
    (modes : (s.stc.fault .referenceLost).mode = .block ∨ (s.stc.fault .referenceLost).mode = .trip) :
    (s.stc.recorded true .referenceLost).recorded s.losesOrders .orderLost =
      if s.losesOrders = true then
        (s.stc.onFault .referenceLost fun r =>
          { r with active := true, count := min 127 (r.count + 1) }).onFault .orderLost fun r =>
            { r with active := true, count := min 127 (r.count + 1) }
      else s.stc.onFault .referenceLost fun r => { r with active := true, count := min 127 (r.count + 1) } := by
  have lost : s.stc.recorded true .referenceLost =
      s.stc.onFault .referenceLost fun r => { r with active := true, count := min 127 (r.count + 1) } :=
    onFault_occurred (by rcases modes with h | h <;> rw [h] <;> decide)
  rw [lost]
  unfold Stc.recorded
  split
  · rename_i loses
    refine onFault_occurred ?_
    rw [onFault_fault_other _ _ (by decide)]
    rcases orders loses with mode | ⟨mode, -⟩ <;> rw [mode] <;> decide
  · rfl

/-- Settles O21: the twelfth miss, its reference event and the loss, in any order. -/
theorem twelfthMissLosesTheReference : Obligations.TwelfthMissLosesTheReference := by
  intro s w lock window late unqualified eleven consistent modes
  obtain ⟨fs, whole, perm⟩ := declareMiss_twelfth lock eleven
  have run := exec_holdoverLimit lock window late unqualified eleven
  rw [whole] at run
  have quiet (h : s.lmon.markTaken = true ∨ s.MarkRaisesNoEvent false) :
      ({ s with aru := s.aru.missed } : State).marksQuietly := h.imp_right fun k => by rw [marked_of_noEvent k]
  have marked : ({ s with aru := s.aru.missed } : State).lmonMarked false = s.lmonMarked false :=
    lmonMarked_congr rfl rfl rfl
  have used (i : Receiver) (h : i ≠ .test) : i ∈ Receiver.losing := by
    cases i <;> simp_all [Receiver.losing, Receiver.blocks]
  obtain ⟨D, mem, under⟩ := referenceEvent_underway (b := { s with aru := s.aru.missed }) losing_nodup perm
  have cycle := twelfthMiss_cycle (b := { s with aru := s.aru.missed }) perm
  obtain ⟨fault, still, trips⟩ := twelfthMiss_loss (b := { s with aru := s.aru.missed }) perm modes
  have scheduled := twelfthMiss_scheduled (b := { s with aru := s.aru.missed }) perm
  have hold := twelfthMiss_hold (b := { s with aru := s.aru.missed }) perm
  have outside := twelfthMiss_outside (b := { s with aru := s.aru.missed }) perm
  generalize inTurn fs ({ s with aru := s.aru.missed } : State).drawn = u at *
  have done (i : Receiver) (h : i ≠ .test) : i ∈ D := (mem i).mpr (used i h)
  obtain ⟨staleness, stale⟩ := under.counted (done .cru nofun)
  have occurs := occurred_eq (r := s.stc.fault .referenceLost) (by rcases modes with h | h <;> rw [h] <;> decide)
  refine ⟨u, run, under.aru.1 (done .free nofun), ?_, ?_, under.now, under.straps, under.channels, under.pending,
    under.handed, staleness, stale, under.stamped (done .stc nofun), fun ahead => ?_, fun off => ⟨?_, still⟩, trips,
    fun firing => ?_, fun held => ?_, fun unmoved plain orders => ?_⟩
  · rw [fault, occurs]
  · rw [fault, occurs]
  · obtain ⟨lmon, advances⟩ := cycle ahead
    refine ⟨?_, fun eventless => advances (quiet eventless)⟩
    rw [lmon, State.lmonReferenced, marked]
    rfl
  · have idle : ScheduledInFiring { s with aru := s.aru.missed } := fun stands =>
      (consistent.schedule stands).resolve_right fun h => by rw [off] at h; cases h.2
    exact Option.not_isSome_iff_eq_none.mp fun stands => still (scheduled off idle stands)
  · rcases under.stopped with h | h
    · exact absurd (h.trans firing) still
    · exact h
  · obtain ⟨tripped, count, fired⟩ := hold held
    have running : s.stc.holdRunning = true := by
      simp only [State.inHold, Bool.and_eq_true, decide_eq_true_eq] at held
      exact held.1.2
    have on : s.firingOrHold = true := (firingOrHold_iff s).mpr (.inr held)
    refine ⟨tripped, under.hold.trans running, count, fun eventless below => ?_⟩
    have made := fired (quiet eventless) below
    rw [fcuMade_withAru s s.aru.missed _ s.cru.advances,
      fcuMade_withAru s s.aru.missed _ (decayedList s.cru.advances)] at made
    refine ⟨?_, made⟩
    rcases made with h | h <;> rw [h] <;> exact fcuMade_scheduled _ _ on
  · obtain ⟨loss, away, unheld⟩ := lossStopsNothing_of unmoved
    obtain ⟨D, mem, under, state⟩ := outside (marksPlainly_of (s := s) plain) orders away loss
    have done (i : Receiver) (h : i ≠ .test) : i ∈ D := (mem i).mpr (used i h)
    have fcu : u.fcu = s.fcu := by
      have idle : ¬({ s with aru := s.aru.missed } : State).firingOrHold = true := by
        rw [firingOrHold_iff]
        rintro (h | h)
        · exact loss.1 h
        · rw [show State.inHold { s with aru := s.aru.missed } = s.inHold from rfl, unheld] at h; cases h
      rcases state.fired (done .fcu nofun) with h | h | ⟨h, -⟩
      · exact h.trans (fcuMade_idle _ _ idle)
      · exact h.trans (fcuMade_idle _ _ idle)
      · exact h
    refine ⟨?_, fun taken => state.quiet (.inr (.inl taken))⟩
    have lmon := state.opened (done .lmon nofun)
    rw [State.lmonReferenced, marked] at lmon
    have stc := state.stc_lost under (done .cru nofun) (done .stc nofun) (done .lost nofun) unheld
    rw [recorded_both (s := { s with aru := s.aru.missed }) orders modes] at stc
    refine (under.frame_of state.lca (state.counted (done .cru nofun)) fcu).trans ?_
    rw [lmon, stc, staleness, stale]
    rfl

end Sys2Proof.Machine
end
